-- ==== Sys2Proof/Word.lean ====
section
/-! DEFINITION. The word types of the Lerwen architecture and their plainest arithmetic (R4, R6, R243). -/

namespace Sys2Proof

/-- A byte of memory. -/
abbrev Byte := BitVec 8

/-- An instruction word (R243), and the 32 bits of one lane of a v register (R225). -/
abbrev Word32 := BitVec 32

/-- A group-scalar or scope register (R6, R288, R294). -/
abbrev Word := BitVec 64

/-- A program counter: 57 bits (R243). -/
abbrev PC := BitVec 57

/-- A lane mask: bit `l` is lane `l`, 64 bits for the widest group (R6, R191). -/
abbrev Mask := BitVec 64

/-- The word after `pc` (R243: an instruction is one word of 4 bytes). -/
def PC.next (pc : PC) : PC := pc + 4#57

end Sys2Proof
end

