-- ==== Sys2Proof/Machine/Bits.lean ====
section
/-! DEFINITION. Bit fields, extensions, lane masks and byte order (R4, R33, R243, R264). -/

namespace Sys2Proof.Machine

/-- SignExt64 of R264. -/
abbrev sx {n : Nat} (x : BitVec n) : Word := x.signExtend 64

/-- ZeroExt64 of R264. -/
abbrev zx {n : Nat} (x : BitVec n) : Word := x.zeroExtend 64

/-- A byte address or a displacement as a program counter, modulo 2^57. -/
abbrev toPC (x : Word) : PC := x.setWidth 57

/-- The target of a B or L word: the word's own address plus 4 × SignExt64(off16) (R252, R271). -/
def relTarget (pc : PC) (off : BitVec 16) : PC := pc + 4#57 * off.signExtend 57

/-- The target of `spawn`: 4 × SignExt64(imm18) from the word's own address (R271). -/
def spawnTarget (pc : PC) (off : BitVec 18) : PC := pc + 4#57 * off.signExtend 57

/-- Little-endian bytes of a number: `n` bytes (R33, R264). -/
def leBytes : Nat → Nat → List Byte
  | 0, _ => []
  | n + 1, x => BitVec.ofNat 8 x :: leBytes n (x / 256)

/-- The number that little-endian bytes hold. -/
def leNat : List Byte → Nat
  | [] => 0
  | b :: bs => b.toNat + 256 * leNat bs

/-- The lanes of a mask, ascending. -/
def lanesOf (m : Mask) : List Nat := (List.range 64).filter (fun l => m.getLsbD l)

/-- How many lanes a mask holds. -/
def countOf (m : Mask) : Nat := (lanesOf m).length

/-- The lowest lane of a mask, or 0 when it is empty. -/
def lowest (m : Mask) : Nat := (lanesOf m).headD 0

/-- The mask that holds one lane. -/
def laneBit (l : Nat) : Mask := 1#64 <<< l

/-- The mask of the lanes `l` below 64 for which `f l` holds. -/
def maskOf (f : Nat → Bool) : Mask :=
  (List.range 64).foldl (fun m l => if f l then m ||| laneBit l else m) 0

/-- The mask of every lane of a group of width `w`. -/
def widthMask (w : Nat) : Mask := BitVec.ofNat 64 (2 ^ w - 1)

/-- Bit `k` of a bit vector, set to `b`. -/
def setBit {n : Nat} (x : BitVec n) (k : Nat) (b : Bool) : BitVec n :=
  if b then x ||| (1#n <<< k) else x &&& ~~~ (1#n <<< k)

/-- Number of one bits in the low `w` bits (R306 popc). -/
def popCount (w x : Nat) : Nat := ((List.range w).filter (fun k => x.testBit k)).length

/-- Number of leading zeros in `w` bits, `w` for 0 (R306 clz). -/
def leadingZeros (w x : Nat) : Nat := if x % 2 ^ w = 0 then w else w - 1 - (x % 2 ^ w).log2

/-- The `w` bits reversed (R306 brev). -/
def reverseBits (w x : Nat) : Nat :=
  (List.range w).foldl (fun a k => if x.testBit k then a + 2 ^ (w - 1 - k) else a) 0

/-- `n / d` rounded up. -/
def ceilDiv (n d : Nat) : Nat := (n + d - 1) / d

end Sys2Proof.Machine
end

