-- ==== Sys2Proof/Config.lean ====
section
/-! DEFINITION. What one implementation fixes, and the free values: constants without a body, which stand for
what the specification leaves open, so that no proof can rest on a number. -/

namespace Sys2Proof

/-- Nanoseconds of the package timer (R42) that pass in machine step `n`: the specification fixes no step length. -/
opaque Config.elapsed : Nat → Nat

/-- A byte the specification leaves undefined (R163: the overlap of a copy's source and destination). -/
opaque Config.freeByte : Nat → Byte

/-- A 64-bit value the specification leaves open, one for each counter value. -/
opaque Config.freeWord : Nat → Word

/-- The correction of a die's PUF response with its public helper data into the 32 bytes P (R17): the code is not given, nor
what it answers without these data. -/
opaque Config.pufCorrect : (die : Nat) → (response helper : List Byte) → Vector Byte 32

/-- The 48-byte public key under which Creostou signs firmware images (R18). -/
opaque Config.creostouKey : List Byte

/-- The greatest utilisation of a port, in percent, in the 10 µs up to a time of the package timer (R23): what the rest
of the system sends is not the model's. -/
opaque Config.portUse : (port time : Nat) → Nat

/-- How many flits a port's transmit queue holds at a time of the package timer (R23). -/
opaque Config.portQueue : (port time : Nat) → Nat

/-- The bytes that other devices write into their own memories, by machine step: physical address and byte (R146, R189). -/
opaque Config.otherWrites : (step : Nat) → List (Nat × Byte)

/-- How many entries the linked-image cache holds when it is full (R52), less one: at least one fits. -/
opaque Config.cacheSpare : Nat

/-- Does the NVMe device report a read error on an entry, by a counter of draws (R52)? -/
opaque Config.nvmeError : Nat → Bool

/-- The tile revision REV of a core (R204, R205), which an image must match. -/
opaque Config.tileRev : Nat → BitVec 16

/-- The scan-layout hash LHASH of a core (R204, R205). -/
opaque Config.scanHash : Nat → BitVec 64

/-- Correctly rounded special functions (R312) where the model's enclosing interval is too wide to decide the
rounding: function code, format code, operand bits. -/
opaque Config.specialTie : Nat → Nat → Nat → Nat

/-- Isacor's ABI version (R48: the present value is 1). -/
def Config.abi : Nat := 1

end Sys2Proof
end

