-- ==== Sys2Proof/Syntax.lean ====
section
/-! DEFINITION. The syntax of the machine's steps: one constructor of `Instr` for each row of
spec/opcode_table.json. 90 rows have no encoding: they are the machine's own steps and the inputs from outside, with the operands their
rules need; an event that names one numbered unit only takes its number from `State.sel` (log 1). 200 rows are
instruction words, whose arguments are the fields of the word under the table's names. Constructors without arguments
stand last, because the compiler numbers at most 244 constructors with arguments. -/

namespace Sys2Proof

/-- The roles of a role-split team (R37, R114); `none` is a team without roles. -/
inductive Role where
  | none | copy | matrix | vector
  deriving DecidableEq, Repr

/-- The levels that have a sequencer (R93). -/
inductive Level where
  | team | gang | grid
  deriving DecidableEq, Repr

/-- The two program-counter slots of a group (R108). -/
inductive SlotId where
  | a | b
  deriving DecidableEq, Repr

/-- The name of a group: grid (numbered from 1 in the order served), gang, team and group identifiers (R123).
Grid 0 names the debug cores: gang `d` of grid 0 is the group of die `d`'s debug core (R210). -/
structure GroupId where
  grid : Nat
  gang : Nat
  team : Nat
  grp  : Nat
  deriving DecidableEq, Repr

/-- The name of a sequencer stream (R93, R115): `team` is 0 above team level, `gang` is 0 at grid level. -/
structure SeqId where
  level : Level
  grid  : Nat
  gang  : Nat
  team  : Nat
  role  : Role
  deriving DecidableEq, Repr

/-- A member of a relay queue (R98, R392). -/
inductive Member where
  | group (g : GroupId)
  | seq (q : SeqId)
  deriving DecidableEq, Repr

/-- The functions that report readiness (R13), in the order of the bits of DEVRDY. -/
inductive DevFn where
  | host
  | die (d : Fin 4)
  | hbm (k : Fin 8)
  | ctl (d : Fin 4)
  | cpy (d : Fin 4)
  | lnk (d : Fin 4)
  | stg
  deriving DecidableEq, Repr

/-- The three thresholds of R10 that have an action below the thermal trip. -/
inductive ThermalLevel where
  | t95 | t102 | t108
  deriving DecidableEq, Repr

/-- The operations of the atomic units (R159). -/
inductive AtomOp where
  | add | min | max | and | or | xor | xchg | cas
  deriving DecidableEq, Repr

/-- The element types of the mode register (R224, R227, R256); `acc48` only moves accept. -/
inductive Ty where
  | i32 | n32 | i16 | n16 | i8 | n8 | i64 | n64 | f32 | f16 | bf16 | f64 | acc48
  deriving DecidableEq, Repr

/-- A request of another device over a Flachaow link (R21). -/
inductive RemoteOp where
  | load (n : Nat)
  | store (bytes : List Byte)
  | copyWrite (bytes : List Byte)
  | atomic (op : AtomOp) (ty : Ty) (operand comparand : BitVec 64)
  deriving DecidableEq, Repr

/-- A unit that issues instruction words: a slot of a group, or a sequencer stream (R94). -/
inductive Issuer where
  | none
  | group (g : GroupId) (slot : SlotId)
  | seq (q : SeqId)
  deriving DecidableEq, Repr

/-- One step of the machine: a row of spec/opcode_table.json. -/
inductive Instr where
  /-- SELF_TEST_DONE (R12): self-test of a die finishes with these results; `slices` has a 1 for a failed 4 MiB slice. -/
  | selfTestDone (die : Fin 4) (core : BitVec 96) (copy : BitVec 4) (port : BitVec 9) (slices : BitVec 32)
  /-- FUNCTION_READY (R13): a function becomes ready. -/
  | functionReady (f : DevFn)
  /-- FUNCTION_FAIL (R14): a function fails. -/
  | functionFail (f : DevFn)
  /-- DEVICE_NUMBER_SET (R21): Isacor sets the device's own number. -/
  | deviceNumberSet (n : BitVec 21)
  /-- FLIT_RECEIVE (R22): a flit arrives; `crcOk` is the outcome of its CRC, whose polynomial the manual does not give. -/
  | flitReceive (p : Fin 36) (header : BitVec 128) (payload : List Byte) (crcOk : Bool)
  /-- REMOTE_REQUEST (R21): a request of device `src` arrives for local address `addr`. -/
  | remoteRequest (src : BitVec 21) (op : RemoteOp) (addr : BitVec 43)
  /-- HOST_ACCESS (R27): the host reads `n` bytes, or writes `wr`, at an offset of BAR 2 of a function. -/
  | hostAccess (fn : Fin 64) (off : Nat) (n : Nat) (wr : Option (List Byte))
  /-- ATTESTATION_REPORT (R18). -/
  | attestationReport (die : Fin 4) (nonce : List Byte)
  /-- THERMAL_ACTION (R10). -/
  | thermalAction (t : ThermalLevel)
  /-- THERMAL_WITHDRAW (R10). -/
  | thermalWithdraw (t : ThermalLevel)
  /-- REGISTER_WRITE (R27, R28): a write of `size` bytes, the low ones of `v`, at an offset of the window of `fn`. -/
  | registerWrite (fn : Fin 64) (off size v : Nat)
  /-- QOWN_WRITE (R26). -/
  | qownWrite (n : Fin 1024) (v : BitVec 32)
  /-- QUEUE_ENABLE (R28): a write of EN = 1 with this value of STOP. -/
  | queueEnable (n : Fin 1024) (stop : Bool)
  /-- QUEUE_DOORBELL (R29): a write of WRX. -/
  | queueDoorbell (n : Fin 1024) (wrx : BitVec 32)
  /-- SERVICE_ROUND (R43): a service round of firmware group `k` of a die. -/
  | serviceRound (die : Fin 4) (k : Fin 8)
  /-- INVALIDATE_RANGE_COMPLETE (R40): every die has acknowledged the INVALIDATE_RANGE at this index. -/
  | invalidateRangeComplete (n : Fin 1024) (idx : BitVec 32)
  /-- IMAGE_LOAD (R48): Isacor loads an application image into a context. -/
  | imageLoad (ctx : Nat) (image : List Byte)
  /-- EXIT (R49): system call 0. -/
  | exit (ctx : Nat) (status : Word)
  /-- LOG (R49): system call 1. -/
  | log (ctx : Nat) (addr len : Word)
  /-- QUEUE_OPEN (R49): system call 2. -/
  | queueOpen (ctx : Nat) (prio : Word)
  /-- MEM_MAP (R49): system call 3. -/
  | memMap (ctx : Nat) (va bytes flags : Word)
  /-- MEM_UNMAP (R49): system call 4. -/
  | memUnmap (ctx : Nat) (va bytes : Word)
  /-- LAUNCH_CALL (R50): system call 5. -/
  | launchCall (ctx : Nat) (queue packet : Word)
  /-- COUNTER_WAIT (R49): system call 6. -/
  | counterWait (ctx : Nat) (addr target timeout : Word)
  /-- FN_LOAD (R49): system call 7. -/
  | fnLoad (ctx : Nat) (kernel : Word)
  /-- FUNCTION_PUBLISH (R54). -/
  | functionPublish (ctx : Nat) (kernel : Nat)
  /-- POWER_CTL_RAISE (R81): the 10 µs average of the package passes 2,150 W, split over the dies as given, in watts. -/
  | powerCtlRaise (w0 w1 w2 w3 : Nat)
  /-- NEAR_THRESHOLD_ENTER (R82): the quadrant's memory-stall fraction, in sixteenths, of 20 consecutive windows. -/
  | nearThresholdEnter (core : Fin 384) (quad : Fin 4) (windows : List Nat)
  /-- NEAR_THRESHOLD_LEAVE (R82). -/
  | nearThresholdLeave (core : Fin 384) (quad : Fin 4)
  /-- FULL_CLOCK_RETURN (R82). -/
  | fullClockReturn (core : Fin 384) (quad : Fin 4)
  /-- BATON_ISSUE (R96). -/
  | batonIssue (q : SeqId)
  /-- BATON_TAKE (R101). -/
  | batonTake (m : Member)
  /-- OWNER_DECIDE (R103). -/
  | ownerDecide (q : SeqId)
  /-- WRITEBACK (R119): the oldest pending write-back of the group arrives. -/
  | writeback (g : GroupId)
  /-- REGISTER_BLOCK_GRANT (R322): the oldest waiting vacq of a quadrant is served. -/
  | registerBlockGrant (core : Fin 384) (quad : Fin 4)
  /-- RESTORE (R205): the image of the tile frozen on `core` is restored on core `target`. -/
  | restore (core target : Fin 384)
  /-- MIGRATE_BY_REPLAY (R205): the image of `core` is restored on the compatible core `target` and saved as a portable image. -/
  | migrateByReplay (core target : Fin 384)
  /-- TILE_MIGRATE (R384). -/
  | tileMigrate (core target : Fin 384)
  /-- COPY_GRANULE_WRITE (R164): the next granule of the oldest mode-2 copy of a channel. -/
  | copyGranuleWrite (engine : Fin 16) (channel : Nat)
  /-- COPY_COMPLETE (R165): the oldest copy of a channel. -/
  | copyComplete (engine : Fin 16) (channel : Nat)
  /-- RETRY_RESEND (R209): the access the group holds is sent again. -/
  | retryResend (g : GroupId)
  /-- SYNC_ARRIVAL (R140): the held arrival of a group is applied at its entry. -/
  | syncArrival (g : GroupId)
  /-- SYNC_JOIN (R132): a join of the group reaches an entry of a die. -/
  | syncJoin (g : GroupId) (die : Fin 4) (slot : Fin 4096)
  /-- SYNC_LEAVE (R135, R141): a leave of the group, or the leave of a kill, reaches an entry of a die. -/
  | syncLeave (g : GroupId) (die : Fin 4) (slot : Fin 4096) (kill : Bool)
  /-- PHASE_COMPLETION (R138): the completion reaches the waiting group. -/
  | phaseCompletion (g : GroupId)
  /-- BREAKPOINT_HIT (R215). -/
  | breakpointHit (g : GroupId) (slot : SlotId)
  /-- TRACE_SAMPLE (R220): a sampling period of a quadrant ends; the group and slot that issued in its last slot, if any. -/
  | traceSample (core : Fin 384) (quad : Fin 4) (last : Option (GroupId × SlotId))
  /-- MAILBOX_IN_WRITE (R211): the host writes 8-byte word `w` of IN. -/
  | mailboxInWrite (die : Fin 4) (w : Fin 8) (v : Word)
  /-- BR (R272): Branch at a scope on a predicate, a flag or always. -/
  | br (s : BitVec 3) (e : Bool) (c : BitVec 4) (o : BitVec 16)
  /-- CALL (R276): Call at group scope, or at team, gang or grid scope by the owner. -/
  | call (s : BitVec 3) (o : BitVec 16)
  /-- RET (R277): Return at a scope, or end the group when its stack is empty. -/
  | ret (s : BitVec 3)
  /-- ELECT (R279): Write a predicate with only the lowest active lane set, tagged as elected. -/
  | elect (d : BitVec 6)
  /-- LOOP (R278): Decrement a scope counter and branch while it is nonzero. -/
  | loop (s : BitVec 3) (c : BitVec 5) (o : BitVec 16)
  /-- TRAP (R280): Take a trap with a code; code 0xFF inside a handler kills the group. -/
  | trap (c : BitVec 24)
  /-- KADD (R294): The scope owner adds into a scope register. -/
  | kadd (s : BitVec 2) (d : BitVec 4) (a : BitVec 4) (f : Bool) (b : BitVec 13)
  /-- KSUB (R294): The scope owner subtracts. -/
  | ksub (s : BitVec 2) (d : BitVec 4) (a : BitVec 4) (f : Bool) (b : BitVec 13)
  /-- KMUL (R294): The scope owner multiplies. -/
  | kmul (s : BitVec 2) (d : BitVec 4) (a : BitVec 4) (f : Bool) (b : BitVec 13)
  /-- KAND (R294): Scope-register bitwise AND. -/
  | kand (s : BitVec 2) (d : BitVec 4) (a : BitVec 4) (f : Bool) (b : BitVec 13)
  /-- KOR (R294): Scope-register bitwise OR. -/
  | kor (s : BitVec 2) (d : BitVec 4) (a : BitVec 4) (f : Bool) (b : BitVec 13)
  /-- KXOR (R294): Scope-register bitwise XOR. -/
  | kxor (s : BitVec 2) (d : BitVec 4) (a : BitVec 4) (f : Bool) (b : BitVec 13)
  /-- KSHL (R294): Scope-register shift left. -/
  | kshl (s : BitVec 2) (d : BitVec 4) (a : BitVec 4) (f : Bool) (b : BitVec 13)
  /-- KSHR (R294): Scope-register logical shift right. -/
  | kshr (s : BitVec 2) (d : BitVec 4) (a : BitVec 4) (f : Bool) (b : BitVec 13)
  /-- KMOV (R294): Scope-register move. -/
  | kmov (s : BitVec 2) (d : BitVec 4) (f : Bool) (b : BitVec 13)
  /-- KSEQ (R294): Set a scope flag on equality. -/
  | kseq (s : BitVec 2) (d : BitVec 4) (a : BitVec 4) (f : Bool) (b : BitVec 13)
  /-- KSLT (R294): Set a scope flag on signed less-than. -/
  | kslt (s : BitVec 2) (d : BitVec 4) (a : BitVec 4) (f : Bool) (b : BitVec 13)
  /-- KSLTU (R294): Set a scope flag on unsigned less-than. -/
  | ksltu (s : BitVec 2) (d : BitVec 4) (a : BitVec 4) (f : Bool) (b : BitVec 13)
  /-- WRED (R297): Team-scope reduction of a v register into a w register. -/
  | wred (d : BitVec 6) (a : BitVec 6) (p : BitVec 3) (y : BitVec 3) (t : Bool) (h : BitVec 2)
  /-- GRED (R297): Gang-scope reduction into a g register. -/
  | gred (d : BitVec 6) (a : BitVec 6) (p : BitVec 3) (y : BitVec 3) (t : Bool) (h : BitVec 2)
  /-- DRED (R297): Grid-scope reduction into a d register. -/
  | dred (d : BitVec 6) (a : BitVec 6) (p : BitVec 3) (y : BitVec 3) (t : Bool) (h : BitVec 2)
  /-- SADD (R289): Scalar add. -/
  | sadd (d : BitVec 6) (a : BitVec 6) (b : BitVec 6)
  /-- SSUB (R289): Scalar subtract. -/
  | ssub (d : BitVec 6) (a : BitVec 6) (b : BitVec 6)
  /-- SMUL (R289): Scalar multiply, low 64 bits. -/
  | smul (d : BitVec 6) (a : BitVec 6) (b : BitVec 6)
  /-- SAND (R289): Scalar AND. -/
  | sand (d : BitVec 6) (a : BitVec 6) (b : BitVec 6)
  /-- SOR (R289): Scalar OR. -/
  | sor (d : BitVec 6) (a : BitVec 6) (b : BitVec 6)
  /-- SXOR (R289): Scalar XOR. -/
  | sxor (d : BitVec 6) (a : BitVec 6) (b : BitVec 6)
  /-- SANDN (R289): Scalar AND NOT. -/
  | sandn (d : BitVec 6) (a : BitVec 6) (b : BitVec 6)
  /-- SSHL (R289): Scalar shift left. -/
  | sshl (d : BitVec 6) (a : BitVec 6) (b : BitVec 6)
  /-- SSHR (R289): Scalar logical shift right. -/
  | sshr (d : BitVec 6) (a : BitVec 6) (b : BitVec 6)
  /-- SSAR (R289): Scalar arithmetic shift right. -/
  | ssar (d : BitVec 6) (a : BitVec 6) (b : BitVec 6)
  /-- SROL (R289): Scalar rotate left. -/
  | srol (d : BitVec 6) (a : BitVec 6) (b : BitVec 6)
  /-- SSEQ (R291): Set a group flag on equality. -/
  | sseq (d : BitVec 6) (a : BitVec 6) (b : BitVec 6)
  /-- SSLT (R291): Set a group flag on signed less-than. -/
  | sslt (d : BitVec 6) (a : BitVec 6) (b : BitVec 6)
  /-- SSLTU (R291): Set a group flag on unsigned less-than. -/
  | ssltu (d : BitVec 6) (a : BitVec 6) (b : BitVec 6)
  /-- SSLE (R291): Set a group flag on signed less-or-equal. -/
  | ssle (d : BitVec 6) (a : BitVec 6) (b : BitVec 6)
  /-- SDIV (R290): Scalar signed divide. -/
  | sdiv (d : BitVec 6) (a : BitVec 6) (b : BitVec 6)
  /-- SDIVU (R290): Scalar unsigned divide. -/
  | sdivu (d : BitVec 6) (a : BitVec 6) (b : BitVec 6)
  /-- SREM (R290): Scalar signed remainder. -/
  | srem (d : BitVec 6) (a : BitVec 6) (b : BitVec 6)
  /-- SREMU (R290): Scalar unsigned remainder. -/
  | sremu (d : BitVec 6) (a : BitVec 6) (b : BitVec 6)
  /-- SADDI (R292): Scalar add of an immediate. -/
  | saddi (d : BitVec 6) (a : BitVec 6) (i : BitVec 11)
  /-- LCAT (R292): Shift a scalar left by 18 and OR in an immediate. -/
  | lcat (d : BitVec 6) (i : BitVec 18)
  /-- LI (R292): Load a sign-extended immediate into a scalar. -/
  | li (d : BitVec 6) (i : BitVec 18)
  /-- GETC (R299): Read a control register into a scalar. -/
  | getc (d : BitVec 6) (n : BitVec 18)
  /-- SETC (R299): Write a control register from a scalar, including tvec, trctl, tdsnap and the debug registers. -/
  | setc (d : BitVec 6) (n : BitVec 18)
  /-- ADD (R306): Vector integer add. -/
  | add (d : BitVec 6) (a : BitVec 6) (b : BitVec 6) (x : Bool) (y : Bool) (h : BitVec 2)
  /-- SUB (R306): Vector integer subtract. -/
  | sub (d : BitVec 6) (a : BitVec 6) (b : BitVec 6) (x : Bool) (y : Bool) (h : BitVec 2)
  /-- MUL (R306): Vector integer multiply. -/
  | mul (d : BitVec 6) (a : BitVec 6) (b : BitVec 6) (x : Bool) (y : Bool) (h : BitVec 2)
  /-- MULH (R306): Vector integer multiply, high half. -/
  | mulh (d : BitVec 6) (a : BitVec 6) (b : BitVec 6) (x : Bool) (y : Bool) (h : BitVec 2)
  /-- ADDI (R308): Vector add of an immediate. -/
  | addi (d : BitVec 6) (a : BitVec 6) (t : Bool) (i : BitVec 11)
  /-- AND (R306): Vector AND. -/
  | and (d : BitVec 6) (a : BitVec 6) (b : BitVec 6) (x : Bool) (y : Bool) (h : BitVec 2)
  /-- OR (R306): Vector OR. -/
  | or (d : BitVec 6) (a : BitVec 6) (b : BitVec 6) (x : Bool) (y : Bool) (h : BitVec 2)
  /-- XOR (R306): Vector XOR. -/
  | xor (d : BitVec 6) (a : BitVec 6) (b : BitVec 6) (x : Bool) (y : Bool) (h : BitVec 2)
  /-- ANDN (R306): Vector AND NOT. -/
  | andn (d : BitVec 6) (a : BitVec 6) (b : BitVec 6) (x : Bool) (y : Bool) (h : BitVec 2)
  /-- SHL (R306): Vector shift left. -/
  | shl (d : BitVec 6) (a : BitVec 6) (b : BitVec 6) (x : Bool) (y : Bool) (h : BitVec 2)
  /-- SHR (R306): Vector logical shift right. -/
  | shr (d : BitVec 6) (a : BitVec 6) (b : BitVec 6) (x : Bool) (y : Bool) (h : BitVec 2)
  /-- SAR (R306): Vector arithmetic shift right. -/
  | sar (d : BitVec 6) (a : BitVec 6) (b : BitVec 6) (x : Bool) (y : Bool) (h : BitVec 2)
  /-- ROL (R306): Vector rotate left. -/
  | rol (d : BitVec 6) (a : BitVec 6) (b : BitVec 6) (x : Bool) (y : Bool) (h : BitVec 2)
  /-- IMIN (R306): Vector integer minimum. -/
  | imin (d : BitVec 6) (a : BitVec 6) (b : BitVec 6) (x : Bool) (y : Bool) (h : BitVec 2)
  /-- IMAX (R306): Vector integer maximum. -/
  | imax (d : BitVec 6) (a : BitVec 6) (b : BitVec 6) (x : Bool) (y : Bool) (h : BitVec 2)
  /-- IABSD (R306): Vector absolute difference. -/
  | iabsd (d : BitVec 6) (a : BitVec 6) (b : BitVec 6) (x : Bool) (y : Bool) (h : BitVec 2)
  /-- IMAD (R306): Vector integer multiply-add into d. -/
  | imad (d : BitVec 6) (a : BitVec 6) (b : BitVec 6) (x : Bool) (y : Bool) (h : BitVec 2)
  /-- IDIV (R307): Vector integer divide. -/
  | idiv (d : BitVec 6) (a : BitVec 6) (b : BitVec 6) (x : Bool) (y : Bool) (h : BitVec 2)
  /-- IREM (R307): Vector integer remainder. -/
  | irem (d : BitVec 6) (a : BitVec 6) (b : BitVec 6) (x : Bool) (y : Bool) (h : BitVec 2)
  /-- POPC (R306): Vector population count. -/
  | popc (d : BitVec 6) (a : BitVec 6) (x : Bool) (h : BitVec 2)
  /-- CLZ (R306): Vector count of leading zeros. -/
  | clz (d : BitVec 6) (a : BitVec 6) (x : Bool) (h : BitVec 2)
  /-- BREV (R306): Vector bit reverse. -/
  | brev (d : BitVec 6) (a : BitVec 6) (x : Bool) (h : BitVec 2)
  /-- VLI (R309): Load an immediate into every active lane under mode TYPE. -/
  | vli (d : BitVec 6) (i : BitVec 18)
  /-- ANDI (R308): Vector AND with an immediate. -/
  | andi (d : BitVec 6) (a : BitVec 6) (t : Bool) (i : BitVec 11)
  /-- SHLI (R308): Vector shift left by an immediate. -/
  | shli (d : BitVec 6) (a : BitVec 6) (t : Bool) (i : BitVec 11)
  /-- FADD (R310): Floating add. -/
  | fadd (d : BitVec 6) (a : BitVec 6) (b : BitVec 6) (x : Bool) (y : Bool) (h : BitVec 2)
  /-- FSUB (R310): Floating subtract. -/
  | fsub (d : BitVec 6) (a : BitVec 6) (b : BitVec 6) (x : Bool) (y : Bool) (h : BitVec 2)
  /-- FMUL (R310): Floating multiply. -/
  | fmul (d : BitVec 6) (a : BitVec 6) (b : BitVec 6) (x : Bool) (y : Bool) (h : BitVec 2)
  /-- FFMA (R310): Fused multiply-add. -/
  | ffma (d : BitVec 6) (a : BitVec 6) (b : BitVec 6) (x : Bool) (y : Bool) (h : BitVec 2)
  /-- FFMS (R310): Fused multiply-subtract. -/
  | ffms (d : BitVec 6) (a : BitVec 6) (b : BitVec 6) (x : Bool) (y : Bool) (h : BitVec 2)
  /-- FNMA (R310): Fused negated multiply-add. -/
  | fnma (d : BitVec 6) (a : BitVec 6) (b : BitVec 6) (x : Bool) (y : Bool) (h : BitVec 2)
  /-- FMIN (R311): Floating minimum. -/
  | fmin (d : BitVec 6) (a : BitVec 6) (b : BitVec 6) (x : Bool) (y : Bool) (h : BitVec 2)
  /-- FMAX (R311): Floating maximum. -/
  | fmax (d : BitVec 6) (a : BitVec 6) (b : BitVec 6) (x : Bool) (y : Bool) (h : BitVec 2)
  /-- FABS (R311): Floating absolute value. -/
  | fabs (d : BitVec 6) (a : BitVec 6) (x : Bool) (h : BitVec 2)
  /-- FNEG (R311): Floating negate. -/
  | fneg (d : BitVec 6) (a : BitVec 6) (x : Bool) (h : BitVec 2)
  /-- FDIV (R310): Floating divide. -/
  | fdiv (d : BitVec 6) (a : BitVec 6) (b : BitVec 6) (x : Bool) (y : Bool) (h : BitVec 2)
  /-- FSQRT (R310): Floating square root. -/
  | fsqrt (d : BitVec 6) (a : BitVec 6) (x : Bool) (h : BitVec 2)
  /-- FRCP (R312): Reciprocal, correctly rounded to nearest. -/
  | frcp (d : BitVec 6) (a : BitVec 6) (x : Bool) (h : BitVec 2)
  /-- FRSQ (R312): Reciprocal square root. -/
  | frsq (d : BitVec 6) (a : BitVec 6) (x : Bool) (h : BitVec 2)
  /-- FEXP2 (R312): Base-2 exponential. -/
  | fexp2 (d : BitVec 6) (a : BitVec 6) (x : Bool) (h : BitVec 2)
  /-- FLOG2 (R312): Base-2 logarithm. -/
  | flog2 (d : BitVec 6) (a : BitVec 6) (x : Bool) (h : BitVec 2)
  /-- FSIN (R312): Sine in radians. -/
  | fsin (d : BitVec 6) (a : BitVec 6) (x : Bool) (h : BitVec 2)
  /-- FCOS (R312): Cosine in radians. -/
  | fcos (d : BitVec 6) (a : BitVec 6) (x : Bool) (h : BitVec 2)
  /-- CVT (R313): Convert from a source type, or from the lane number, to mode TYPE. -/
  | cvt (d : BitVec 6) (a : BitVec 6) (k : BitVec 4) (x : Bool) (h : BitVec 2)
  /-- NPACK (R314): Pack floats into a tensor slot's narrow format. -/
  | npack (d : BitVec 6) (a : BitVec 6) (z : BitVec 5) (x : Bool) (h : BitVec 2)
  /-- NUNPK (R315): Decode narrow codes with a slot's format word. -/
  | nunpk (d : BitVec 6) (a : BitVec 6) (z : BitVec 5) (x : Bool) (h : BitVec 2)
  /-- MOV (R316): Copy a vector register bit for bit. -/
  | mov (d : BitVec 6) (a : BitVec 6) (x : Bool) (h : BitVec 2)
  /-- CEQ (R317): Compare equal into a predicate. -/
  | ceq (d : BitVec 6) (a : BitVec 6) (b : BitVec 6) (x : Bool) (y : Bool) (h : BitVec 2)
  /-- CLT (R317): Compare less-than into a predicate. -/
  | clt (d : BitVec 6) (a : BitVec 6) (b : BitVec 6) (x : Bool) (y : Bool) (h : BitVec 2)
  /-- CLE (R317): Compare less-or-equal into a predicate. -/
  | cle (d : BitVec 6) (a : BitVec 6) (b : BitVec 6) (x : Bool) (y : Bool) (h : BitVec 2)
  /-- CNE (R317): Compare not-equal into a predicate. -/
  | cne (d : BitVec 6) (a : BitVec 6) (b : BitVec 6) (x : Bool) (y : Bool) (h : BitVec 2)
  /-- PAND (R318): Predicate AND. -/
  | pand (d : BitVec 6) (a : BitVec 6) (b : BitVec 6)
  /-- POR (R318): Predicate OR. -/
  | por (d : BitVec 6) (a : BitVec 6) (b : BitVec 6)
  /-- PXOR (R318): Predicate XOR. -/
  | pxor (d : BitVec 6) (a : BitVec 6) (b : BitVec 6)
  /-- PANDN (R318): Predicate AND NOT. -/
  | pandn (d : BitVec 6) (a : BitVec 6) (b : BitVec 6)
  /-- PSET (R319): Set predicate bits from a scalar. -/
  | pset (d : BitVec 6) (a : BitVec 6)
  /-- PGET (R319): Read predicate bits into a scalar. -/
  | pget (d : BitVec 6) (a : BitVec 6)
  /-- PCNT (R319): Count the set predicate bits into a scalar. -/
  | pcnt (d : BitVec 6) (a : BitVec 6)
  /-- SHFL (R320): Lane shuffle by a vector index. -/
  | shfl (d : BitVec 6) (a : BitVec 6) (b : BitVec 6) (x : Bool) (y : Bool) (h : BitVec 2)
  /-- SHXOR (R320): Lane exchange by XOR with a scalar. -/
  | shxor (d : BitVec 6) (a : BitVec 6) (b : BitVec 6) (x : Bool) (h : BitVec 2)
  /-- BCAST (R320): Broadcast one lane to all active lanes. -/
  | bcast (d : BitVec 6) (a : BitVec 6) (b : BitVec 6) (x : Bool) (h : BitVec 2)
  /-- VRD (R321): Read one lane into a scalar. -/
  | vrd (d : BitVec 6) (a : BitVec 6) (b : BitVec 6) (x : Bool) (h : BitVec 2)
  /-- VWR (R321): Write a scalar into one lane. -/
  | vwr (d : BitVec 6) (a : BitVec 6) (b : BitVec 6)
  /-- LD_B (R327): Vector byte load. -/
  | ldB (t : BitVec 6) (b : BitVec 5) (i : BitVec 6) (m : BitVec 7)
  /-- LD_H (R327): Vector half load. -/
  | ldH (t : BitVec 6) (b : BitVec 5) (i : BitVec 6) (m : BitVec 7)
  /-- LD_W_V (R327): Vector word load. -/
  | ldWV (t : BitVec 6) (b : BitVec 5) (i : BitVec 6) (m : BitVec 7)
  /-- LD_D_V (R327): Vector doubleword load into a pair. -/
  | ldDV (t : BitVec 6) (b : BitVec 5) (i : BitVec 6) (m : BitVec 7)
  /-- LD_Q (R327): Vector 16-byte load into four registers. -/
  | ldQ (t : BitVec 6) (b : BitVec 5) (i : BitVec 6) (m : BitVec 7)
  /-- LD_W_S (R327): Scalar word load. -/
  | ldWS (t : BitVec 6) (b : BitVec 5) (m : BitVec 7)
  /-- LD_D_S (R327): Scalar doubleword load. -/
  | ldDS (t : BitVec 6) (b : BitVec 5) (m : BitVec 7)
  /-- LD_ACQ_V (R329): Vector word load with acquire at a scope. -/
  | ldAcqV (t : BitVec 6) (b : BitVec 5) (i : BitVec 6) (s : BitVec 3) (o : BitVec 4)
  /-- LD_ACQ_S (R329): Scalar doubleword load with acquire. -/
  | ldAcqS (t : BitVec 6) (b : BitVec 5) (s : BitVec 3) (o : BitVec 4)
  /-- ST_B (R327): Vector byte store. -/
  | stB (t : BitVec 6) (b : BitVec 5) (i : BitVec 6) (m : BitVec 7)
  /-- ST_H (R327): Vector half store. -/
  | stH (t : BitVec 6) (b : BitVec 5) (i : BitVec 6) (m : BitVec 7)
  /-- ST_W_V (R327): Vector word store. -/
  | stWV (t : BitVec 6) (b : BitVec 5) (i : BitVec 6) (m : BitVec 7)
  /-- ST_D_V (R327): Vector doubleword store from a pair. -/
  | stDV (t : BitVec 6) (b : BitVec 5) (i : BitVec 6) (m : BitVec 7)
  /-- ST_Q (R327): Vector 16-byte store. -/
  | stQ (t : BitVec 6) (b : BitVec 5) (i : BitVec 6) (m : BitVec 7)
  /-- ST_W_S (R327): Scalar word store. -/
  | stWS (t : BitVec 6) (b : BitVec 5) (m : BitVec 7)
  /-- ST_D_S (R327): Scalar doubleword store; to the aperture it starts a copy and retires on acceptance or rejection. -/
  | stDS (t : BitVec 6) (b : BitVec 5) (m : BitVec 7)
  /-- ST_REL_V (R329): Vector word store with release. -/
  | stRelV (t : BitVec 6) (b : BitVec 5) (i : BitVec 6) (s : BitVec 3) (o : BitVec 4)
  /-- ST_REL_S (R329): Scalar doubleword store with release. -/
  | stRelS (t : BitVec 6) (b : BitVec 5) (s : BitVec 3) (o : BitVec 4)
  /-- AADD (R332): Atomic add. -/
  | aadd (t : BitVec 6) (b : BitVec 5) (i : BitVec 6) (o : BitVec 2) (s : BitVec 3) (r : Bool)
  /-- AMIN (R332): Atomic minimum. -/
  | amin (t : BitVec 6) (b : BitVec 5) (i : BitVec 6) (o : BitVec 2) (s : BitVec 3) (r : Bool)
  /-- AMAX (R332): Atomic maximum. -/
  | amax (t : BitVec 6) (b : BitVec 5) (i : BitVec 6) (o : BitVec 2) (s : BitVec 3) (r : Bool)
  /-- AAND (R332): Atomic AND. -/
  | aand (t : BitVec 6) (b : BitVec 5) (i : BitVec 6) (o : BitVec 2) (s : BitVec 3) (r : Bool)
  /-- AOR (R332): Atomic OR. -/
  | aor (t : BitVec 6) (b : BitVec 5) (i : BitVec 6) (o : BitVec 2) (s : BitVec 3) (r : Bool)
  /-- AXOR (R332): Atomic XOR. -/
  | axor (t : BitVec 6) (b : BitVec 5) (i : BitVec 6) (o : BitVec 2) (s : BitVec 3) (r : Bool)
  /-- AXCHG (R332): Atomic exchange. -/
  | axchg (t : BitVec 6) (b : BitVec 5) (i : BitVec 6) (o : BitVec 2) (s : BitVec 3) (r : Bool)
  /-- ACAS (R332): Atomic compare-exchange. -/
  | acas (t : BitVec 6) (b : BitVec 5) (i : BitVec 6) (o : BitVec 2) (s : BitVec 3) (r : Bool)
  /-- AXCHG_Q (R332): 16-byte atomic exchange. -/
  | axchgQ (t : BitVec 6) (b : BitVec 5) (i : BitVec 6) (o : BitVec 2) (s : BitVec 3) (r : Bool)
  /-- ACAS_Q (R332): 16-byte atomic compare-exchange. -/
  | acasQ (t : BitVec 6) (b : BitVec 5) (i : BitVec 6) (o : BitVec 2) (s : BitVec 3) (r : Bool)
  /-- LDS_W (R333): Scratchpad word load. -/
  | ldsW (t : BitVec 6) (b : BitVec 5) (i : BitVec 6) (m : BitVec 7)
  /-- LDS_Q (R333): Scratchpad 16-byte load. -/
  | ldsQ (t : BitVec 6) (b : BitVec 5) (i : BitVec 6) (m : BitVec 7)
  /-- STS_W (R333): Scratchpad word store. -/
  | stsW (t : BitVec 6) (b : BitVec 5) (i : BitVec 6) (m : BitVec 7)
  /-- STS_Q (R333): Scratchpad 16-byte store. -/
  | stsQ (t : BitVec 6) (b : BitVec 5) (i : BitVec 6) (m : BitVec 7)
  /-- STS_F (R333): Scratchpad 16-byte store that sets its granule full. -/
  | stsF (t : BitVec 6) (b : BitVec 5) (i : BitVec 6) (m : BitVec 7)
  /-- LDF_K (R334): Consuming load that waits until full and keeps the granules full. -/
  | ldfK (t : BitVec 6) (b : BitVec 5) (i : BitVec 6) (m : BitVec 7)
  /-- LDF_C (R334): Consuming load that waits until full and empties the granules. -/
  | ldfC (t : BitVec 6) (b : BitVec 5) (i : BitVec 6) (m : BitVec 7)
  /-- LDF_K_T (R334): Keeping consuming load that faults on an empty granule. -/
  | ldfKT (t : BitVec 6) (b : BitVec 5) (i : BitVec 6) (m : BitVec 7)
  /-- LDF_C_T (R334): Emptying consuming load that faults on an empty granule. -/
  | ldfCT (t : BitVec 6) (b : BitVec 5) (i : BitVec 6) (m : BitVec 7)
  /-- TLOOK (R335): Look up a key in the team's tag table. -/
  | tlook (d : BitVec 6) (a : BitVec 6)
  /-- TSET (R335): Write a tag-table entry. -/
  | tset (a : BitVec 6) (b : BitVec 6)
  /-- TGET (R335): Read a tag-table entry. -/
  | tget (d : BitVec 6) (a : BitVec 6)
  /-- TINV (R335): Invalidate a tag-table entry. -/
  | tinv (a : BitVec 6)
  /-- HNEW (R341): Create or join a named synchronisation group by key. -/
  | hnew (h : BitVec 3) (k : BitVec 6) (y : BitVec 2) (p : BitVec 3)
  /-- HNEW_T (R341): hnew that faults with detail 2 in place of a null result. -/
  | hnewT (h : BitVec 3) (k : BitVec 6) (y : BitVec 2) (p : BitVec 3)
  /-- HJOIN (R342): Join a named group by key. -/
  | hjoin (h : BitVec 3) (k : BitVec 6)
  /-- HJOIN_H (R342): Join a named group by handle value. -/
  | hjoinH (h : BitVec 3) (k : BitVec 6)
  /-- HLEAVE (R343): Leave a named group and null the handle. -/
  | hleave (h : BitVec 3)
  /-- HARV (R344): Arrive without waiting and return the phase. -/
  | harv (h : BitVec 3) (d : BitVec 6)
  /-- HBAR (R344): Arrive and wait for the phase to complete. -/
  | hbar (h : BitVec 3)
  /-- HWAIT (R344): Wait while the entry's phase equals a given phase. -/
  | hwait (h : BitVec 3) (a : BitVec 6)
  /-- HVOTE (R344): Arrive with a predicate vote and wait for the results. -/
  | hvote (h : BitVec 3) (a : BitVec 6) (d : BitVec 6)
  /-- HRED (R344): Arrive with a reduction value and wait for RES. -/
  | hred (h : BitVec 3) (a : BitVec 6) (d : BitVec 6) (y : BitVec 2) (p : BitVec 3)
  /-- HINFO (R345): Read one 64-bit word of a handle's entry. -/
  | hinfo (h : BitVec 3) (d : BitVec 6) (n : BitVec 3)
  /-- QFILL (R346): Fill a stage-ring stage, waiting while full; release at team scope. -/
  | qfill (q : BitVec 6) (k : BitVec 6)
  /-- QDRAIN (R346): Drain a stage, waiting while empty; flips PHASE; acquire at team scope. -/
  | qdrain (q : BitVec 6) (k : BitVec 6)
  /-- QWAIT (R346): Wait while a stage's phase equals φ. -/
  | qwait (q : BitVec 6) (k : BitVec 6) (f : Bool)
  /-- MMA (R353): One masked 16-deep depth step into an accumulator tile. -/
  | mma (m : BitVec 6) (a : BitVec 5) (b : BitVec 5) (s : BitVec 5)
  /-- MMA_J (R356): Joint depth step of a squad through the starting-block latch. -/
  | mmaJ (m : BitVec 6) (a : BitVec 5) (b : BitVec 5) (s : BitVec 5)
  /-- ZLD (R349): Load a tensor slot from a 64-byte descriptor. -/
  | zld (t : BitVec 6) (b : BitVec 5) (i : BitVec 7)
  /-- MZERO (R357): Zero an accumulator tile. -/
  | mzero (m : BitVec 6)
  /-- MLD (R358): Load a tile window from memory. -/
  | mld (m : BitVec 6) (a : BitVec 5) (s : BitVec 5)
  /-- MST (R359): Drain a tile window to memory through the epilogue, with rounding in var. -/
  | mst (m : BitVec 6) (a : BitVec 5) (b : BitVec 5) (s : BitVec 5) (r : BitVec 3)
  /-- MRD (R360): Move tile rows into v registers. -/
  | mrd (m : BitVec 6) (v : BitVec 6) (s : BitVec 5)
  /-- MWR (R360): Move v registers into tile rows. -/
  | mwr (m : BitVec 6) (v : BitVec 6) (s : BitVec 5)
  /-- SQSET (R355): Write the squad register. -/
  | sqset (a : BitVec 6)
  /-- SQGET (R355): Read the squad register. -/
  | sqget (d : BitVec 6)
  /-- CWAIT (R366): Wait until a counter reaches a target, then acquire. -/
  | cwait (s : BitVec 3) (a : BitVec 6) (b : BitVec 6)
  /-- CTEST (R366): Test a counter against a target, setting c0 and acquiring on success. -/
  | ctest (s : BitVec 3) (a : BitVec 6) (b : BitVec 6)
  /-- FENCE (R336): Acquire and release fence over the core and atomic classes. -/
  | fence (s : BitVec 3)
  /-- XFENCE (R337): Cross-class fence from class P to class Q. -/
  | xfence (q : BitVec 3) (p : BitVec 3) (s : BitVec 3)
  /-- IVR (R375): Debug core: fence, then invalidate a range on every die. -/
  | ivr (w : BitVec 3) (a : BitVec 6) (b : BitVec 6)
  /-- MODE (R281): Write the issuing slot's mode register. -/
  | mode (e : Bool) (n : Bool) (p : BitVec 3) (t : BitVec 4) (r : BitVec 3) (s : Bool)
  /-- SPRINT (R368): Set the group's standing boost request. -/
  | sprint (b : BitVec 2)
  /-- SPAWN (R282): Create an auxiliary group on the spawner's core. -/
  | spawn (d : BitVec 6) (i : BitVec 18)
  /-- CPOST (R284): Post a 32-byte continuation record to the package task queue. -/
  | cpost (a : BitVec 6)
  /-- CTAKE (R285): Take a continuation record of the caller's context. -/
  | ctake (d : BitVec 6)
  /-- TRACE (R369): Write a trace record to the context's trace buffer. -/
  | trace (a : BitVec 6)
  /-- DHALT (R372): Debug core: halt the named groups. -/
  | dhalt (d : BitVec 6) (a : BitVec 6)
  /-- DSTEP (R372): Debug core: step one halted group for one instruction. -/
  | dstep (d : BitVec 6) (a : BitVec 6) (b : BitVec 6)
  /-- DRES (R372): Debug core: resume the named groups. -/
  | dres (d : BitVec 6) (a : BitVec 6)
  /-- DBPT (R373): Debug core: copy the breakpoint set to tiles. -/
  | dbpt (d : BitVec 6) (a : BitVec 6)
  /-- DWPT (R373): Debug core: copy the watchpoint set to tiles. -/
  | dwpt (d : BitVec 6) (a : BitVec 6)
  /-- MBRD (R374): Debug core: read a mailbox word. -/
  | mbrd (d : BitVec 6) (a : BitVec 6)
  /-- MBWR (R374): Debug core: write an OUT word. -/
  | mbwr (a : BitVec 6) (b : BitVec 6)
  /-- MBTAKE (R374): Debug core: take the oldest inbox item into memory. -/
  | mbtake (d : BitVec 6) (a : BitVec 6)
  /-- UNASSIGNED_OPCODE (R269): the word `w` is outside the opcode map or has a nonzero reserved field. -/
  | unassignedOpcode (w : BitVec 32)
  /-- RESET (R11): a reset starts every die. -/
  | reset
  /-- STACK_HOLD_RELEASE (R16): the accesses held at the base die of stack are released [State.sel: the HBM stack]. -/
  | stackHoldRelease
  /-- PORT_TRAINED (R24) [State.sel: the port]. -/
  | portTrained
  /-- PORT_FAILURE (R24) [State.sel: the port]. -/
  | portFailure
  /-- PORT_RETRAIN (R22) [State.sel: the port]. -/
  | portRetrain
  /-- LANE_NARROW (R23) [State.sel: the port]. -/
  | laneNarrow
  /-- LANE_WIDEN (R23) [State.sel: the port]. -/
  | laneWiden
  /-- THERMAL_TRIP (R10). -/
  | thermalTrip
  /-- QUEUE_STOP (R28): a write of STOP = 1 [State.sel: the queue]. -/
  | queueStop
  /-- QUEUE_RESUME (R28): a write of STOP = 0 [State.sel: the queue]. -/
  | queueResume
  /-- QUEUE_DISABLE (R28): a write of EN = 0 [State.sel: the queue]. -/
  | queueDisable
  /-- QUEUE_DISABLE_DONE (R28): DRAINED is 1 while a disable is held [State.sel: the queue]. -/
  | queueDisableDone
  /-- QUEUE_ECLR (R28): a write of ECLR = 1 [State.sel: the queue]. -/
  | queueEclr
  /-- GRID_COMPLETE (R36) [State.sel: the grid]. -/
  | gridComplete
  /-- GRID_KILL (R199): Isacor kills a grid [State.sel: the grid]. -/
  | gridKill
  /-- COUNTER_WAIT_TIMEOUT (R49): the timeout of the pending counter_wait expires [State.sel: the context]. -/
  | counterWaitTimeout
  /-- PLACEMENT_PASS (R64): a pass over the queues a die owns [State.sel: the die]. -/
  | placementPass
  /-- PLACEMENT_CLAIM (R61): a die answers the oldest claim for a window of its own [State.sel: the die]. -/
  | placementClaim
  /-- RESERVATION_TIMEOUT (R70): 1 ms has passed since the head of this queue first became blocked [State.sel: the queue]. -/
  | reservationTimeout
  /-- QUANTUM_PROMOTION (R66): the head of this queue has waited 8 quanta [State.sel: the queue]. -/
  | quantumPromotion
  /-- AUTO_RESTORE (R74): the firmware restores the frozen tile of this virtual core [State.sel: the core]. -/
  | autoRestore
  /-- POWER_CTL_LOWER (R81): the package stays below 2,050 W for 100 µs. -/
  | powerCtlLower
  /-- REGION_HOLD (R83): region has met the conditions for 10 µs [State.sel: the region of the package (12 × die + region)]. -/
  | regionHold
  /-- REGION_RAIL_OFF (R83) [State.sel: the region of the package (12 × die + region)]. -/
  | regionRailOff
  /-- RAMP_START (R84) [State.sel: the die]. -/
  | rampStart
  /-- RAMP_DONE (R84) [State.sel: the region of the package (12 × die + region)]. -/
  | rampDone
  /-- LEAVE_GRANT (R86) [State.sel: the die]. -/
  | leaveGrant
  /-- LEAVE_LAPSE (R86) [State.sel: the core]. -/
  | leaveLapse
  /-- HALF_RATE_END (R86) [State.sel: the core]. -/
  | halfRateEnd
  /-- SPRINT_INTERVAL (R87): interval starts [State.sel: the interval]. -/
  | sprintInterval
  /-- FREEZE (R203) [State.sel: the core]. -/
  | freeze
  /-- LANDING_CLOSE (R203) [State.sel: the core]. -/
  | landingClose
  /-- IMAGE_COMPLETE (R203) [State.sel: the core]. -/
  | imageComplete
  /-- FREEZE_FAIL (R206) [State.sel: the core]. -/
  | freezeFail
  /-- PREEMPT (R201) [State.sel: the context]. -/
  | preempt
  /-- PREEMPT_DEADLINE (R201) [State.sel: the context]. -/
  | preemptDeadline
  /-- CONTEXT_SWITCH_COMPLETE (R201) [State.sel: the context]. -/
  | contextSwitchComplete
  /-- CONTEXT_RESTORE (R144) [State.sel: the context]. -/
  | contextRestore
  /-- CONTEXT_DESTROY (R144) [State.sel: the context]. -/
  | contextDestroy
  /-- PREDICATE_RUN (R388): the debug core of a die serves its oldest pending hit [State.sel: the die]. -/
  | predicateRun
  /-- MAILBOX_IN_POST (R211): the host sets INV [State.sel: the die]. -/
  | mailboxInPost
  /-- MAILBOX_OUTV_CLEAR (R211): the host clears OUTV [State.sel: the die]. -/
  | mailboxOutvClear
  /-- JOIN (R274): Reconverge the issuing slot under R109. -/
  | join
  /-- BRK (R280): Debug-halt the group while dctx names its context, and otherwise trap with code 0x11. -/
  | brk
  /-- TRET (R195): Pop the top trap entry and resume or replay. -/
  | tret
  /-- NOP (R280): No operation. -/
  | nop
  /-- VACQ (R322): Acquire the next extended register block, waiting when none is free. -/
  | vacq
  /-- VREL (R323): Release the highest extended register block. -/
  | vrel
  /-- LEAVE (R363): Send the matrix leave request ahead of time. -/
  | leave
  /-- MBPOST (R374): Debug core: set OUTV and raise VEC when IEN is 1. -/
  | mbpost
  /-- INSTRUCTION_FETCH_FAULT (R271): the word at the issuer's PC cannot be fetched. -/
  | instructionFetchFault
  deriving DecidableEq, Repr

end Sys2Proof
end

