-- ==== Sys2Proof/Machine/State.lean ====
section
/-! DEFINITION. The state of an SW840-P package as plain data, the state after reset, and the reasons a run stops.
Units that come and go (grids, teams, groups, sequencers, contexts) and units of which most stay at their reset
value (queues, regions, cores) are association lists: `Tbl`. A unit that is not listed holds its reset value. -/

namespace Sys2Proof.Machine

/-- A table keyed by `κ`; the first entry of a key counts. -/
abbrev Tbl (κ α : Type) := List (κ × α)

/-- The entry of a key, if the table lists one. -/
def Tbl.find {κ α : Type} [DecidableEq κ] : Tbl κ α → κ → Option α
  | [], _ => none
  | (k, x) :: t, q => if k = q then some x else Tbl.find t q

/-- Write the entry of a key. -/
def Tbl.put {κ α : Type} [DecidableEq κ] : Tbl κ α → κ → α → Tbl κ α
  | [], q, y => [(q, y)]
  | (k, x) :: t, q, y => if k = q then (k, y) :: t else (k, x) :: Tbl.put t q y

/-- Remove every entry of a key. -/
def Tbl.drop {κ α : Type} [DecidableEq κ] : Tbl κ α → κ → Tbl κ α
  | [], _ => []
  | (k, x) :: t, q => if k = q then Tbl.drop t q else (k, x) :: Tbl.drop t q

/-- Memory: address and byte pairs, addresses rising, no entry equal to what an unlisted address reads as. -/
abbrev Mem := List Host.Cell

/-- Where an access goes: a physical address, a byte of a team's scratchpad, of a debug core's local store (by die), or a
channel of a copy engine. -/
inductive Place where
  | phys (pa : Nat)
  | spad (team : Nat × Nat × Nat) (off : Nat)
  | store (die : Nat) (off : Nat)
  | aperture (engine channel : Nat)
  deriving DecidableEq, Repr

/-- A line of events (R169 to R173). Program order gives a group's events one line for each slot and class (R170). The other
lines stand for a single copy, by the step of its start, or a single write or pending load, by its number; for the event at
hand, in up to three parts; for what synchronisation hands on: a phase of a handle, the fills and the drains of a stage, the
records of a context, a queue and each packet in flight, and the copies of a channel; for a tile or a tensor slot, as a location of
its own and as the operations on it of one slot of a group; and for what empties granules and fills them again. -/
inductive Line where
  | path (group : GroupId) (slot : SlotId) (cls : Nat)
  | copy (id : Nat)
  | write (id : Nat)
  | mark (k : Nat)
  | phase (handle : BitVec 32) (phase : BitVec 2)
  | fill (team : Nat × Nat × Nat) (ring stage : Nat)
  | drain (team : Nat × Nat × Nat) (ring stage : Nat)
  | post (ctx : Nat)
  | queue (n : Nat)
  | packet (queue : Nat) (idx : BitVec 32)
  | channel (engine channel : Nat)
  | tile (team : Nat × Nat × Nat) (half k : Nat)
  | tileBy (group : GroupId) (slot : SlotId) (half k : Nat)
  | refill
  deriving DecidableEq, Repr

/-- Lines, each with the narrowest scope (R169) of the ordering operations on the way to it; 7 where there is none. -/
abbrev Lines := List (Line × Nat)

/-- Bytes on which every later event of a line follows an event, within a scope. -/
structure Foot where
  line  : Line
  place : Place
  bytes : Nat
  scope : Nat
  deriving DecidableEq, Repr

/-- What follows a write or a load (R171, R173). -/
structure Follows where
  foot  : List Foot                      -- bytes on which later events of a line do (R171 item 1, R174 item 4)
  knows : Lines                          -- lines of which every later event does
  past  : Lines                          -- lines of which an event that has happened does
  deriving DecidableEq, Repr

/-- A write that a reader may not have seen yet (R171, R174, R180), with the bytes it replaced: one single-copy atomic part
at most (R177). -/
structure Written where
  id    : Nat
  group : Option GroupId                 -- whose events may go behind it; none for a signal
  place : Place
  old   : List Byte
  need  : Nat                            -- the scope that orders it: system for the memory of another device (R179)
  atom  : Bool                           -- the write of an atomic, which comes directly after what it read (R174 item 6)
  mixed : Bool                           -- a read has returned it beside bytes that it does not hold
  after : Follows
  deriving DecidableEq, Repr

/-- A part (R177) of a lane of a load that has not arrived, or of a scalar load of a slot that has not needed its register yet
(R326): until it is performed, a later write of its group may still come before it (R171, R183). -/
structure Loading where
  id    : Nat
  lines : List Line
  since : Nat                            -- the step of its issue, which its write-back names
  dest  : Option (GroupId × SlotId × BitVec 6)  -- the register of a scalar load; none for a lane
  lane  : Nat
  start : Nat                            -- where the part stands in the lane's bytes
  place : Place
  bytes : Nat
  need  : Nat
  value : Option (List Byte)             -- its bytes, once it has returned a later write
  gone  : List Nat                       -- writes of its bytes that it goes behind
  bars  : List Nat                       -- writes that an event which follows it has gone behind
  shut  : List (Place × Nat)             -- bytes that such events have read
  done  : Bool                           -- a write of another agent has come after it
  after : Follows
  deriving DecidableEq, Repr

/-- What the order of memory events depends on (09_memory_model). -/
structure Ledger where
  writes : List Written                  -- those of common bytes in their modification order (R174), oldest first
  loads  : List Loading                  -- oldest first
  next   : Nat                           -- the number of the next write or load
  deriving DecidableEq, Repr

/-! ### Package and links (01_package_links) -/

/-- The unit map of a die (R12) with its failed cache slices (R11, R12). -/
structure UMap where
  core   : BitVec 96
  copy   : BitVec 4
  port   : BitVec 9
  done   : Bool
  slices : BitVec 32
  deriving DecidableEq, Repr

/-- A flit that a port has received: the fields of its header and its payload of 224 bytes (R22). -/
structure Flit where
  dest    : BitVec 21
  src     : BitVec 21
  typ     : BitVec 6
  vc      : BitVec 3
  seq     : BitVec 12
  payload : List Byte
  deriving DecidableEq, Repr

/-- A Flachaow port (R22 to R24). -/
structure Port where
  up      : Bool
  fail    : Bool
  lanes   : Nat                          -- 4, 2 or 1 (R23)
  since   : Nat                          -- timer at the last change of width (R23)
  replays : Nat                          -- failures in a row of the flit being replayed (R22)
  rx      : List Flit
  deriving DecidableEq, Repr

/-- A port at reset: R24 for UP and FAIL; the rest DESIGN CHOICE (log 6). -/
def Port.reset : Port := ⟨false, false, 4, 0, 0, []⟩

/-- What the host link reports of itself (R10, R15): its Device Readiness Status message, and the fatal error of a
thermal trip. -/
inductive HostMsg where
  | readiness
  | fatal
  deriving DecidableEq, Repr

/-- What the part does not make itself: PUF response, helper data, firmware image and signature of each die (R17, R18). -/
structure Plat where
  puf : Tbl Nat (List Byte)
  aid : Tbl Nat (List Byte)
  fw  : Tbl Nat (List Byte)
  sig : Tbl Nat (List Byte)
  deriving DecidableEq, Repr

/-- A linked-image cache entry (R52): image digest, kernel number, code words, measurements of the four dies, and the
entry's own digest over these. -/
structure Linked where
  digest : List Byte
  kernel : Nat
  code   : List (BitVec 32)
  meas   : List (List Byte)
  sum    : List Byte
  deriving DecidableEq, Repr

/-- How a host access to BAR 2 completes (R9, R16, R27). -/
inductive HostReply where
  | none
  | data (bytes : List Byte)
  | done
  | unsupportedRequest
  | completerAbort
  deriving DecidableEq, Repr

/-! ### Host queues (02_host_queues) -/

/-- QOWN (R26). -/
structure QOwn where
  fn   : BitVec 6
  val  : Bool
  lidx : BitVec 10
  deriving DecidableEq, Repr

/-- What is left of a served packet that has not completed (R35, R40, R47). -/
inductive Flight where
  | grid (g : Nat)
  | copy
  | inval (start len : Word) (what : BitVec 3) (caddr : Word)
  deriving DecidableEq, Repr

/-- A served packet that is not complete: its index, header fields and work. -/
structure Served where
  idx  : BitVec 32
  typ  : BitVec 8
  tag  : BitVec 16
  irq  : Bool
  sys  : Bool
  work : Flight
  deriving DecidableEq, Repr

/-- The queue record (R28), the held disable, the incomplete packets, and the scheduler's record of the queue
(R66, R68 to R70). -/
structure Queue where
  base     : PC
  en       : Bool
  stop     : Bool
  size     : BitVec 4
  prio     : BitVec 2
  vec      : BitVec 11
  evec     : BitVec 11
  state    : BitVec 2
  waiting  : Bool
  rdx      : BitVec 32
  wrx      : BitVec 32
  ecode    : BitVec 8
  etype    : BitVec 8
  etag     : BitVec 16
  eidx     : BitVec 32
  pasid    : BitVec 20
  ver      : BitVec 32
  held     : Bool                        -- a disable is held (R28)
  inflight : List Served
  grids    : List Nat                    -- placement list, in packet order (R38, R60)
  elev     : BitVec 2
  blk      : Bool
  rsv      : Bool
  bfc      : BitVec 3
  since    : Nat                         -- timer when the head first became blocked (R70)
  became   : Nat                         -- timer when the head became head, or last rose a level (R66)
  deriving DecidableEq, Repr

/-- A queue record at reset (R28, R68). -/
def Queue.reset : Queue :=
  { base := 0, en := false, stop := false, size := 0, prio := 0, vec := 0, evec := 0, state := 0, waiting := false,
    rdx := 0, wrx := 0, ecode := 0, etype := 0, etag := 0, eidx := 0, pasid := 0, ver := 0, held := false,
    inflight := [], grids := [], elev := 0, blk := false, rsv := false, bfc := 0, since := 0, became := 0 }

/-- The mailbox of a die (R211); IN and OUT are eight 8-byte words each. -/
structure Mailbox where
  inw  : Vector Word 8
  outw : Vector Word 8
  inv  : Bool
  outv : Bool
  ien  : Bool
  vec  : BitVec 11
  derr : Bool
  deriving DecidableEq, Repr

/-- A mailbox at reset (R211; the bytes of IN and OUT: DESIGN CHOICE, log 9). -/
def Mailbox.reset : Mailbox := ⟨.replicate 8 0, .replicate 8 0, false, false, false, 0, false⟩

/-- An interrupt raised: function and MSI-X vector (R46, R47, R211). -/
structure Irq where
  fn  : Nat
  vec : BitVec 11
  deriving DecidableEq, Repr

/-! ### Copies (08_memory) -/

/-- One end of a copy: a global or scratchpad address of row 0 and the row stride in bytes (R161). -/
structure CopyEnd where
  base   : Word
  stride : Word
  deriving DecidableEq, Repr

/-- A copy that an engine has accepted (R160 to R165). -/
structure Copy where
  ctx     : Nat
  group   : Option GroupId               -- the starting group; none on a firmware channel (R40)
  tmpl    : BitVec 8
  src     : CopyEnd
  dst     : CopyEnd
  rowb    : Nat
  nrows   : Nat
  fe      : BitVec 2
  teams   : Option (List Nat)            -- multicast members read at acceptance (R168)
  cinc    : BitVec 32
  caddr   : Word
  parts   : Nat                          -- rows already written, or in FE mode 2 granule writes (R164, R201)
  kept    : List (Place × List Byte)     -- source bytes that its own writes have overwritten (R163)
  waiting : Bool                         -- the next write was answered "absent, retry" (R209)
  pkt     : Option (Nat × BitVec 32)     -- the COPY packet it serves: queue and index
  started : Nat                          -- the step of its start
  slots   : List SlotId                  -- the slots in whose program order it was started (R171)
  scope   : Nat                          -- the scope that reaches its engine from its group: die or package (R169, R181)
  fenced  : Bool                         -- its group has been restored since (R178)
  granule : List Byte                    -- FE 2: the source bytes at hand, for the members still to be written (R167)
  deriving DecidableEq, Repr

/-! ### Synchronisation units (07_sync_groups) -/

/-- What a member carries when it arrives (R137, R139): a reduced value, a vote, or nothing. -/
structure Arrival where
  value : Option Word
  vote  : Option (Bool × Bool × Nat)     -- any, all, count of true lanes
  deriving DecidableEq, Repr

/-- An entry of a synchronisation unit (R128); the counts of the layout are the lengths of the lists. -/
structure SEntry where
  key     : Word
  ctx     : BitVec 20
  gen     : BitVec 14
  op      : BitVec 3
  ty      : BitVec 2
  phase   : BitVec 2
  broken  : Bool
  parked  : Bool
  valid   : Bool
  members : List GroupId
  arrived : List GroupId
  pjoin   : List GroupId
  pleave  : List GroupId
  absent  : List (Nat × Nat)             -- frozen tile (virtual core) and its count (R143, R385)
  racc    : Word
  vcnt    : BitVec 32
  vany    : Bool
  vall    : Bool
  res     : Word
  rcnt    : BitVec 32
  rany    : Bool
  rall    : Bool
  rbrk    : Bool
  held    : List (GroupId × Arrival)     -- arrivals held at their cores (R134, R137)
  waiters : List GroupId                 -- members that wait for the phase (R137)
  deriving DecidableEq, Repr

/-- An entry never used since reset (R128). -/
def SEntry.reset : SEntry :=
  { key := 0, ctx := 0, gen := 0, op := 0, ty := 0, phase := 0, broken := false, parked := false, valid := false,
    members := [], arrived := [], pjoin := [], pleave := [], absent := [], racc := 0, vcnt := 0, vany := false,
    vall := true, res := 0, rcnt := 0, rany := false, rall := false, rbrk := false, held := [], waiters := [] }

/-! ### Isacor and contexts (03_code_loading, 11_traps_freeze) -/

/-- A kernel record of the kernel section (R263) with its code. -/
structure Kernel where
  code   : List (BitVec 32)
  data   : List Byte
  shape  : BitVec 32
  alloc  : BitVec 32
  counts : BitVec 32
  entry  : Nat
  ecopy  : Nat
  emat   : Nat
  evec   : Nat
  deriving DecidableEq, Repr

/-- A function of the code heap (R53 to R55, R379): its entry stubs, each with its entry in words from the body, the
body's address once it is linked, whether it is published, and whether fn_load has returned its first stub (R50). -/
structure HeapFn where
  kernel    : Nat
  stubs     : List (PC × Nat)
  body      : Option PC
  bytes     : Nat
  published : Bool
  loaded    : Bool
  deriving DecidableEq, Repr

/-- Stages of pre-emption (R201). -/
inductive PreStage where
  | running | soft | frozen | out
  deriving DecidableEq, Repr

/-- A pending counter_wait (R49). -/
structure CtrWait where
  addr    : Word
  target  : Word
  deadline : Nat
  deriving DecidableEq, Repr

/-- A context: its identity, bases (R300), code heap (R53), system-call state (R49) and pre-emption state (R201). -/
structure Context where
  pasid    : BitVec 20
  fn       : Nat
  root     : BitVec 43
  pvbase   : Word
  tmbase   : Word
  mcbase   : Word
  trbase   : Word
  trctl    : Word
  digest   : List Byte                   -- DIGEST of its image (R48, R52)
  kernels  : List Kernel
  heapBase : PC
  heapSize : Nat
  heapNext : Nat
  fns      : List HeapFn
  frames   : Nat                         -- local address above all that Isacor has given the context
  a0       : Word
  logged   : List Byte
  ended    : Bool
  cwait    : Option CtrWait
  stage    : PreStage
  preAt    : Nat                         -- timer when the pre-emption began (R201)
  save     : Option Nat                  -- local address of the save area of its images, once mapped (R203)
  parkedE  : List (Nat × Nat × SEntry)   -- die, slot and fields of a parked entry (R144)
  susp     : List (Nat × Nat × Copy)     -- engine, channel and suspended copy (R201)
  savedQ   : Tbl Nat Queue               -- saved queue state (R201)
  ovf      : Word
  ovfn     : Nat
  ovfUsed  : List Nat                    -- addresses of the records spilled, in spill order (R77)
  bells    : Tbl Nat Nat                 -- by page number: the queue whose doorbell page Isacor has mapped there (R30)
  bptSet   : Tbl Nat (Vector Word 8)       -- by die: sets given to tiles placed later (R373)
  wptSet   : Tbl Nat (Vector (BitVec 128) 16)
  deriving DecidableEq, Repr

/-! ### Power (05_power) -/

/-- Gate states of a region (R83, R84). -/
inductive Gate where
  | running | hold | off | waking
  deriving DecidableEq, Repr

/-- A region's power state (R80, R83, R87 to R91). -/
structure Region where
  floor   : BitVec 2
  ctl     : BitVec 2
  ntt     : BitVec 4
  nogate  : Bool
  gate    : Gate
  bal     : Int
  bin     : BitVec 2
  ovd     : Bool                         -- an overdraft is outstanding or R88 holds the region
  pairing : Bool                         -- one 2.0 GHz interval of the current pair has been run (R89)
  gangSeqs : List Nat                    -- gang sequencers in use (R62)
  gangCnt : Tbl Nat Nat                  -- placement counts of the gang sequencers (R127)
  deriving DecidableEq, Repr

/-- A region at reset (R80, R91; the gate: DESIGN CHOICE, log 12). -/
def Region.reset : Region :=
  { floor := 0, ctl := 0, ntt := 12, nogate := false, gate := .running, bal := 64, bin := 0, ovd := false,
    pairing := false, gangSeqs := [], gangCnt := [] }

/-- Leave states of a matrix unit (R86); `ahead` when `leave` sent the request. -/
inductive Leave where
  | idle
  | asked (ahead : Bool)
  | granted (ahead : Bool)
  | half
  | full
  deriving DecidableEq, Repr

/-! ### Cores (06_cores, 11_traps_freeze, 12_debug) -/

/-- Stages of a freeze (R203). -/
inductive FreezeStage where
  | landing | closed | complete
  deriving DecidableEq, Repr

/-- Flow-control counts of a port (R387): the credits it holds to send, what has landed and is not consumed, reads and
writes outstanding, and the router's credits toward the port. -/
structure PortCounts where
  scred  : Vector (BitVec 4) 3
  owed   : Vector (BitVec 4) 3
  outrd  : BitVec 8
  outwr  : BitVec 8
  router : Vector (BitVec 4) 3
  deriving DecidableEq, Repr

/-- The counts at reset (R387): 8 credits a channel in each direction. -/
def PortCounts.reset : PortCounts := ⟨.replicate 3 8, .replicate 3 0, 0, 0, .replicate 3 8⟩

/-- A frozen tile: the header fields of its image (R204), its stage, and the packets landed and held (R203, R207). -/
structure Frozen where
  stage  : FreezeStage
  vcore  : Nat
  ctx    : Nat
  rev    : BitVec 16
  lhash  : BitVec 64
  units  : BitVec 64
  landed : List Instr                    -- deliveries for the tile's units, in landing order
  held   : List Instr                    -- responses held at their responders
  wakes  : List (BitVec 32)              -- handles at which a wake has been requested (R143)
  due    : Bool                          -- a restore waits for a core that accepts it (R205)
  target : Option Nat                    -- the core Isacor named in a migration (R384)
  portable : Bool                        -- saved as a portable architectural image (R205)
  home   : Nat                           -- the core it was frozen on
  deriving DecidableEq, Repr

/-- One member's joint operation waiting in the starting-block latch (R117, R356). -/
structure Latched where
  group : GroupId
  slot  : SlotId
  m     : Nat
  za    : Nat
  zb    : Nat
  cs    : Word                           -- coordinates: the register pair read at issue (R351)
  ct    : Word
  memb  : BitVec 32
  deriving DecidableEq, Repr

/-- A sampling period of a context in a quadrant (R220, R301): the trctl that governs it, and the slots left of it. -/
structure Period where
  ctl  : Word
  left : Nat
  deriving DecidableEq, Repr

/-- A sample that a quadrant has taken (R220): what issued, the trctl that governs it, and the record. -/
structure Sample where
  quad  : Nat
  group : GroupId
  slot  : SlotId
  ctx   : Nat
  ctl   : Word
  record : Vector Word 8
  deriving DecidableEq, Repr

/-- What a core holds beside its teams. -/
structure Core where
  teamSeqs : List Nat                    -- team sequencers in use (R56)
  teamCnt : Tbl Nat Nat                  -- placement counts of the team sequencers (R127)
  bpt     : Vector Word 8
  wpt     : Vector (BitVec 128) 16
  tdc     : Tbl Nat Word                 -- counters 0-18 (R221); an unlisted counter is 0
  tds     : Tbl Nat Word                 -- shadow (R223)
  near    : List Nat                     -- quadrants in near-threshold mode (R82)
  slow    : List Nat                     -- quadrants that run at half clock (R82)
  leave   : Leave
  stepped : Option Nat                   -- timer at the last depth step (R86); none since reset
  latch   : List Latched
  vacq    : List (Nat × GroupId × SlotId) -- waiting vacq: quadrant, group, slot, oldest first (R322)
  frozen  : Option Frozen
  counts  : PortCounts
  passing : Tbl Nat Nat                  -- by quadrant: slots until its next vector instruction may issue (R79); under 4: quarter clocks that the matrix unit is taken for (R354)
  periods : Tbl (Nat × Nat) Period       -- by quadrant and context (R220)
  sampled : List Sample                  -- samples to be written (R220)
  deriving DecidableEq, Repr

/-- A core at reset (R215, R216, R221, R387). -/
def Core.reset : Core :=
  { teamSeqs := [], teamCnt := [], bpt := .replicate 8 0, wpt := .replicate 16 0, tdc := [], tds := [],
    near := [], slow := [], leave := .idle, stepped := none, latch := [], vacq := [], frozen := none, counts := .reset,
    passing := [], periods := [], sampled := [] }

/-! ### Scheduler (04_scheduler) -/

/-- A reservation (R70, R74): its queue, or none for a tile that is being restored, and its cores. -/
structure Reserve where
  queue : Option Nat
  cores : List Nat
  deriving DecidableEq, Repr

/-- A claim of one die for a window of another (R61). -/
structure Claim where
  queue : Nat
  grid  : Nat
  start : Nat
  ver   : BitVec 32                      -- VER of the record (R31)
  deriving DecidableEq, Repr

/-- A continuation record (R76, R284). -/
structure Task where
  ctx : Nat
  words : Vector Word 4
  deriving DecidableEq, Repr

/-- What each die holds. -/
structure Die where
  gridSeqs  : List Nat                   -- grids that hold a grid sequencer (R62): at most 16
  rampQueue : List Nat                   -- regions that wait for the in-rush arbiter (R84)
  ramping   : List Nat                   -- regions that are ramping
  leaveQ    : List Nat                   -- cores whose leave requests wait (R86)
  claims    : List Claim
  refused   : List Nat                   -- queues whose claim has been refused in the pass that goes on (R61)
  lastFn    : Tbl Nat Nat                -- by level: the function that placed last (R64)
  lastQ     : Tbl Nat Nat                -- by function: the queue that placed last (R64)
  tasks     : List Task
  entries   : Tbl Nat SEntry
  replicas  : Tbl Nat Queue              -- replicas of queue records of other dies (R31)
  deriving DecidableEq, Repr

/-- A die at reset. -/
def Die.reset : Die := ⟨[], [], [], [], [], [], [], [], [], [], []⟩

/-! ### Sequencers, grids, gangs and teams (06_cores) -/

/-- A baton (R97). -/
structure Baton where
  pc    : PC
  len   : Nat                            -- words; 0 in an empty baton
  level : Level
  cont  : Bool
  empty : Bool
  seq   : BitVec 32
  cTeam : BitVec 4
  cGang : BitVec 4
  cGrid : BitVec 4
  dTeam : BitVec 6
  dGang : BitVec 6
  dGrid : BitVec 6
  w     : Vector Word 16
  g     : Vector Word 8
  d     : Vector Word 8
  deriving DecidableEq, Repr

/-- A baton with every field zero, at a PC: the fields of levels not above the receiver read zero (R97). -/
def Baton.blank (pc : PC) (l : Level) : Baton :=
  { pc := pc, len := 0, level := l, cont := false, empty := true, seq := 0, cTeam := 0, cGang := 0, cGrid := 0,
    dTeam := 0, dGang := 0, dGrid := 0, w := .replicate 16 0, g := .replicate 8 0, d := .replicate 8 0 }

/-- A sequencer's own scope state (R93): what a baton's snapshot and the undo record restore (R100, R107). -/
structure Owner where
  pc    : PC
  regs  : Vector Word 16
  c     : BitVec 4
  stack : List PC
  deriving DecidableEq, Repr

/-- A baton in a relay queue: the owner's state after its run, the members that have begun and finished it, and the
undo record of its issue (R100): the end address of the baton before it and where the owner stood in its parent's
queue. -/
structure Queued where
  baton : Baton
  after : Owner
  begun : List Member
  done  : List Member
  prevEnd : Option PC
  view    : Option Baton
  viewEnd : Option PC
  read    : BitVec 32
  deriving DecidableEq, Repr

/-- Where a stream stands: its own state, and its place in its parent's queue. -/
structure Standing where
  own     : Owner
  view    : Option Baton
  viewEnd : Option PC
  read    : BitVec 32
  deriving DecidableEq, Repr

/-- A sequencer stream (R93 to R101, R115). -/
structure Seq where
  own     : Owner
  ctx     : Nat
  queue   : List Queued                  -- oldest first, at most 8
  nextSeq : BitVec 32
  stopped : Bool                         -- halted with its team (R197)
  ended   : Bool
  view    : Option Baton                 -- the parent baton it executes (none at grid level)
  viewEnd : Option PC                    -- its end address, once the chain's last baton is read (R101)
  read    : BitVec 32                    -- SEQ of the next parent baton to read
  inChain : Bool                         -- the last baton issued had CONT set (R96)
  lastEnd : Option PC                    -- end address of the last baton issued, while members may wait there
  trail   : List Queued                  -- the batons that some member has begun, newest first: those queued and the last freed (R107)
  entry   : Standing                     -- where it stood when it took its parent baton, or started (R107)
  deriving DecidableEq, Repr

/-- A grid (R36): one LAUNCH. -/
structure Grid where
  queue   : Nat
  idx     : BitVec 32
  ver     : BitVec 32                    -- VER of the queue record when it was served (R31)
  ctx     : Nat
  entry   : PC
  gangs   : Nat
  teams   : Nat
  groups  : Nat
  width   : Nat
  pair    : Bool
  roles   : Bool
  base    : Nat                          -- base block in registers, without roles
  spad    : Nat
  tiles   : Nat
  slots   : Nat
  rings   : Nat
  stages  : Nat
  ncopy   : Nat
  nmat    : Nat
  nvec    : Nat
  bcopy   : Nat
  bmat    : Nat
  bvec    : Nat
  ecopy   : PC
  emat    : PC
  evec    : PC
  cinc    : BitVec 32
  args    : Vector Word 32               -- the argument block (R36)
  caddr   : Word
  placed  : Nat
  ended   : Nat
  killed  : Bool
  level   : Nat                          -- effective level of its placed gangs (R66)
  deriving DecidableEq, Repr

/-- A placed gang (R59, R62). -/
structure Gang where
  die    : Nat
  region : Nat                           -- of the package, 0-47
  start  : Nat                           -- first core of the window
  seqs   : List Nat                      -- gang sequencers it holds
  handle : BitVec 32                     -- its built-in handle (R127)
  level  : Nat
  live   : Nat                           -- teams that have not ended
  deriving DecidableEq, Repr

/-- Kinds and contents of an accumulator tile (R347): a 48-bit or 32-bit pattern an element, row by row. -/
inductive Tile where
  | zero
  | floating (el : List (BitVec 48))
  | integer (el : List (BitVec 32))
  deriving DecidableEq, Repr

/-- A loaded tensor slot: its descriptor (R348). -/
structure TSlot where
  base    : PC
  rstride : BitVec 32
  cstride : BitVec 16
  mcg     : BitVec 8
  mce     : Bool
  rows    : BitVec 24
  cols    : BitVec 24
  fmt     : BitVec 32
  scbase  : PC
  rsbase  : PC
  csbase  : PC
  ind     : PC
  deriving DecidableEq, Repr

/-- A team and what it holds (R56). Half 0 of a table key is the home core, half 1 the partner of a pair (R347). -/
structure Team where
  ctx     : Nat
  core    : Nat
  pair    : Bool
  vcores  : List Nat                     -- virtual numbers of its cores, by half (R157)
  seqs    : List Nat                     -- team sequencers it holds, lowest first (R115)
  handle  : BitVec 32                    -- its built-in handle (R127)
  width   : Nat
  groups  : Nat
  spad    : Nat
  spadAt  : List Nat                     -- core byte address of its scratchpad, by half (R149)
  tiles   : Nat
  slots   : Nat
  rings   : Nat
  stages  : Nat
  tvec    : Word
  nextId  : Nat                          -- next spawn identifier (R123)
  bytes   : Mem                          -- scratchpad bytes by OFF, unlisted 0 (R149)
  full    : List Nat                     -- full granules (R150)
  tags    : Tbl Nat Word                 -- tag entries, unlisted 0 (R151)
  ringF   : Vector (BitVec 8) 4          -- FULL (R116)
  ringP   : Vector (BitVec 8) 4          -- PHASE
  tileT   : Tbl (Nat × Nat) Tile         -- by half and tile; unlisted zero (R347)
  slotT   : Tbl (Nat × Nat) TSlot        -- by half and slot; unlisted unloaded (R348)
  marks   : List (GroupId × Nat)         -- TDEPTH of each group at the broadcast (R197); empty when not halted
  live    : Nat                          -- groups that have not ended
  deriving DecidableEq, Repr

/-! ### Groups (06_cores) -/

/-- Which of s, c and mode a side has written since its split (R110, R275 WR). -/
structure Marks where
  s : BitVec 32
  c : BitVec 4
  m : Bool
  deriving DecidableEq, Repr

/-- The forked registers of a slot (R110): s0-s31, group c0-c3 and mode, with the written marks. -/
structure Fork where
  s     : Vector Word 32
  c     : BitVec 4
  mode  : BitVec 32
  marks : Marks
  deriving DecidableEq, Repr

/-- The fork at placement (R124). -/
def Fork.reset : Fork := ⟨.replicate 32 0, 0, 0, ⟨0, 0, false⟩⟩

/-- A fault record (R193). -/
structure Record where
  code   : BitVec 8
  detail : BitVec 8
  scope  : BitVec 3
  cls    : BitVec 3
  lane   : BitVec 6
  mrp    : Bool
  dcount : Nat
  dmask  : Mask
  addr   : Word
  deriving DecidableEq, Repr

/-- What a handle instruction writes when its phase completes (R344). -/
inductive PhaseRet where
  | bar
  | vote (d : BitVec 6)
  | red (d : BitVec 6)
  | wait
  deriving DecidableEq, Repr

/-- Why a group does not go on (R119, R98, R197, R209, R344, ...). -/
inductive Wait where
  | empty (v : Nat)                      -- a source or destination register is empty
  | baton                                -- the relay queue is empty, or the chain's end is not known (R101)
  | post                                 -- posted, waits for the owner (R102)
  | phase (handle : BitVec 32) (ph : BitVec 2) (ret : PhaseRet) (slot : SlotId)
  | result (handle : BitVec 32) (ret : PhaseRet) (slot : SlotId) (res : Word) (cnt : BitVec 32) (any all brk : Bool)
  | held (handle : BitVec 32) (harv : Option (BitVec 6)) (ret : Option PhaseRet) (slot : SlotId)
  | ring | granule | counter | vacq | vrel | latch | aperture | leave
  | copies                               -- an `xfence` waits for copies that the group has started (R171)
  | stack (k : Nat)                      -- held at the base die of a stack that is not ready (R16)
  | stop (k : Option Nat) (slot : SlotId) (r : Record) (pc : PC) -- a fault or trap whose entry is held there (R16, R157), or that the freeze of its tile has captured (R200)
  | absent (core : Nat)                  -- "absent, retry" (R209)
  | debug                                -- a dhalt, dstep, mailbox or inbox condition
  | watch                                -- held after a watchpoint hit (R217)
  | loader (kernel : Nat)                -- in the Isacor loader (R54)
  deriving DecidableEq, Repr

/-- A program-counter slot (R108). -/
structure Slot where
  pc     : PC
  mask   : Mask
  parked : Bool                          -- R112
  atJoin : Bool                          -- waits at a join (R109)
  fork   : Fork
  hold   : Option Wait := none           -- why this slot alone does not go on (R109, R125)
  sent   : Bool := false                 -- its word has issued and has not retired yet (R73, R109, R197)
  deriving DecidableEq, Repr

/-- A v register that is not vacant (R119). -/
structure VReg where
  full  : Bool                           -- false: empty, a producer has yet to write
  lanes : Vector (BitVec 32) 64
  deriving DecidableEq, Repr

/-- A reconvergence-stack entry (R111, R191, R275). `outer` and `other` are what the implementation keeps in the
reserved bytes: the marks of the enclosing split, and the other slot with its fork. -/
inductive Entry where
  | div (pc : PC) (fmask bmask : Mask) (slot : SlotId) (frun : Bool) (saved : Fork) (outer : Marks)
  | call (pc : PC) (mask : Mask) (slot : SlotId)
  | trap (pc : PC) (mask : Mask) (opc : PC) (split : Bool) (omask : Mask) (slot : SlotId) (status : BitVec 32)
      (rec : Record) (outer : Marks) (other : Option Slot)
  | bad (kind : Nat) (bytes : List Byte)
  deriving DecidableEq, Repr

/-- What of a spilled entry does not lie in its 320 bytes of private memory, and the KIND it was pushed with. -/
structure Hidden where
  kind  : Nat
  outer : Marks
  other : Option Slot
  deriving DecidableEq, Repr

/-- A pending write-back of a long-latency producer (R119): registers, lanes written and their values; for a load its bytes
a lane, the step of its issue, and whether its response comes through the port of the core (R387). -/
structure WB where
  regs  : List (Nat × Vector (BitVec 32) 64)
  mask  : Mask
  bytes : Nat := 0
  since : Nat := 0
  port  : Bool := false
  deriving DecidableEq, Repr

/-- A post (R102): counts of active and true lanes and the value of the lowest active lane, or a partial value. -/
structure Post where
  pc     : PC
  active : Nat
  true_  : Nat
  first  : Bool
  value  : Word
  deriving DecidableEq, Repr

/-- Why the debugger halted a group (R213 to R217); `pending` when it was named while its tile was frozen, so that its
record follows the restore (status 6 of R372). -/
inductive HaltKind where
  | none | halt | breakpoint | brk | watchpoint | step
  | pending (die : Nat)                  -- named by `dhalt` of a die while its tile was frozen (R372)
  deriving DecidableEq, Repr

/-- A group (R93, R118, R123, R124). -/
structure Group where
  ctx     : Nat
  die     : Nat                          -- the die it belongs to for life (R169)
  core    : Nat
  quad    : Nat
  slotNo  : Nat
  vcore   : Nat
  half    : Nat                          -- 0 home core, 1 partner (R58)
  role    : Role
  width   : Nat
  base    : Nat                          -- registers of the base block
  ext     : Nat                          -- extended blocks held (R118)
  spawned : Bool
  order   : Nat                          -- placement time, for age (R73)
  a       : Slot
  b       : Option Slot
  outer   : Marks                        -- marks of the unsplit slot before its split (R110)
  lastB   : Bool                         -- slot B issued last (R109)
  p       : Vector Mask 8
  elected : BitVec 8
  h       : Vector (BitVec 32) 8
  v       : Tbl Nat VReg
  flags   : BitVec 5
  dhalt   : Bool
  kind    : HaltKind
  mrp     : BitVec 5
  haltPc  : PC                           -- of its halt record (R197)
  stopPc  : PC                           -- where the debugger stopped it last (R215)
  skid    : BitVec 4
  halted  : Bool                         -- stopped by its team's broadcast (R197)
  skidLeft : Option Nat                  -- instructions it still issues before it stops (R197)
  squad   : BitVec 32
  hw      : List Entry                   -- hardware top of the stack, top first, at most 8 (R111)
  spilled : List Hidden                  -- entries in private memory, top first
  view    : Baton                        -- snapshot it executes under (R101); of the spawner for a spawned group
  viewEnd : Option PC                    -- end address, once known
  read    : BitVec 32                    -- SEQ of the next baton to read
  batDiv  : Nat                          -- divergence entries on the stack when the baton began (R106)
  post    : Option Post
  issued  : BitVec 32                    -- R73
  urgent  : List (BitVec 32)             -- handles at which it is awaited; urgent while there is one (R74)
  sprint  : BitVec 2
  skip    : Option PC                    -- the PC at which the next issue does not hit (R215)
  fenced  : Bool                         -- restored: it waits for the copies it started before (R178)
  wb      : List WB
  wait    : Option Wait
  deriving DecidableEq, Repr

/-! ### Debug core (12_debug, 22_isa_system) -/

/-- A stop record, a trace record or a sample (R212): the 64 bytes as eight words. -/
abbrev StopRec := Vector Word 8

/-- An item of the inbox (R374). -/
inductive InboxItem where
  | hostIn
  | stop (r : StopRec)
  deriving DecidableEq, Repr

/-- A pending watchpoint hit (R217, R218). -/
structure Hit where
  group : GroupId
  slot  : SlotId
  wpn   : Nat
  addr  : Word
  prog  : Word                           -- PROG of the watchpoint as it stood at the hit (R373)
  deriving DecidableEq, Repr

/-- What the debug core saves while PROG runs (R388). -/
structure ProgSave where
  idle  : Bool
  slot  : Slot                           -- PC, s0-s31, c0-c3 and mode
  flags : BitVec 5
  dhalt : Bool
  wait  : Option Wait
  step  : Option (GroupId × SlotId)      -- the step for which its own program waits (R214)
  hit   : Hit
  left  : Nat                            -- instructions PROG may still execute (R217)
  deriving DecidableEq, Repr

/-- The debug core of a die. Its group is `groups` entry (0, die, 0, 0) while its program runs. -/
structure DebugCore where
  store   : Mem
  dctx    : Word
  dgrid   : Word
  bpt     : Vector Word 8
  wpt     : Vector (BitVec 128) 16
  inbox   : List InboxItem
  overflow : List StopRec                -- records that wait for a place, in order of stop (R374)
  hits    : List Hit
  started : Bool
  rest    : Option Group                 -- its registers while it idles; none before it first starts (R388, R389)
  due     : Bool                         -- INV became 1 while PROG ran on the idle core (R370, R389)
  prog    : Option ProgSave
  step    : Option (GroupId × SlotId)    -- the step in progress (R214)
  deriving DecidableEq, Repr

/-- A debug core at reset (R300, R370). -/
def DebugCore.reset : DebugCore :=
  { store := [], dctx := 0, dgrid := 0, bpt := .replicate 8 0, wpt := .replicate 16 0, inbox := [], overflow := [],
    hits := [], started := false, rest := none, due := false, prog := none, step := none }

/-! ### The whole package -/

/-- What moves next: an event with the unit it names, the issue of one word by a unit, or an issue slot of a quadrant,
in which R73 chooses the group. -/
inductive Turn where
  | event (e : Instr) (sel : Nat)
  | issue (u : Issuer)
  | slot (core quad : Nat)
  deriving DecidableEq, Repr

/-- The state of one SW840-P package. -/
structure State where
  -- the model's own
  cur     : Issuer
  agenda  : List Turn
  sel     : Nat                          -- the unit the event at hand names
  steps   : Nat
  free    : Nat
  -- package and links
  timer   : Nat
  devnum  : Option (BitVec 21)
  devrdy  : BitVec 32
  devfail : BitVec 32
  umaps   : Tbl Nat UMap
  ports   : Tbl Nat Port
  replies : List (BitVec 21 × List Byte)
  routes  : Tbl Nat Nat                       -- device numbers that a route reaches, and the port it uses (R21, R24)
  heldReqs : List (BitVec 21 × RemoteOp × BitVec 43)   -- requests of other devices held at a stack (R16)
  hostMsgs : List HostMsg                     -- messages of the host link, oldest first (R10, R15)
  t95     : Bool
  t102    : Bool
  t108    : Bool
  tripped : Bool
  plat    : Plat
  ident   : Tbl Nat (List Byte × List Byte)   -- public key, seeds
  meas    : Tbl Nat (List Byte)
  reports : List (List Byte × List Byte)      -- report and signature
  linked  : List Linked
  -- host interface
  qown    : Tbl Nat QOwn
  fwin    : Tbl (Nat × Nat) (BitVec 64)
  queues  : Tbl Nat Queue
  quantum : BitVec 16
  nopromo : Bool
  hquota  : Tbl Nat (BitVec 13)
  pdeadline : BitVec 16
  interval : Nat                              -- the next sprint interval to begin (R87)
  ctlRaised : Option Nat                      -- timer at the last raise of CTL (R81); none since reset
  mailboxes : Tbl Nat Mailbox
  irqs    : List Irq
  hostReply : HostReply
  callReply : Word                            -- what the last call of a host program that names no context yet returned (R48)
  -- contexts
  contexts : Tbl Nat Context
  -- hardware units
  dies    : Tbl Nat Die
  regions : Tbl Nat Region
  cores   : Tbl Nat Core
  debugs  : Tbl Nat DebugCore
  channels : Tbl (Nat × Nat) (List Copy)      -- engine and channel; channel 64 is the firmware channel
  reserves : List Reserve
  -- work
  nextGrid : Nat
  grids   : Tbl Nat Grid
  gangs   : Tbl (Nat × Nat) Gang
  teams   : Tbl (Nat × Nat × Nat) Team
  groups  : Tbl GroupId Group
  seqs    : Tbl SeqId Seq
  builtins : Tbl (BitVec 32) SEntry           -- entries of the built-in handles (R127)
  -- memory
  mem     : Mem
  far     : Mem
  ledger  : Ledger                            -- (R171, R174)
  deriving DecidableEq, Repr

/-- The package at reset: every register at the value the specification gives, or at the value INVENTORY.md and
the assumption log name; no unit placed, no context, memory with nothing listed. -/
def State.reset : State :=
  { cur := .none, agenda := [], sel := 0, steps := 0, free := 0,
    timer := 0, devnum := none, devrdy := 0, devfail := 0, umaps := [], ports := [], replies := [], routes := [], heldReqs := [], hostMsgs := [],
    t95 := false, t102 := false, t108 := false, tripped := false, plat := ⟨[], [], [], []⟩, ident := [], meas := [],
    reports := [], linked := [],
    qown := [], fwin := [], queues := [], quantum := 500, nopromo := false, hquota := [], pdeadline := 500, interval := 0, ctlRaised := none,
    mailboxes := [], irqs := [], hostReply := .none, callReply := 0,
    contexts := [], dies := [], regions := [], cores := [], debugs := [], channels := [], reserves := [],
    nextGrid := 1, grids := [], gangs := [], teams := [], groups := [], seqs := [], builtins := [],
    mem := [], far := [], ledger := ⟨[], [], 0⟩ }

/-- Why a run stops with a fault. -/
inductive Fault where
  /-- Raised by `step` once the package is in thermal trip and the next turn is not a reset: all clocks have
  stopped and only a cold reset recovers the part (R10). Safe: the hardware does nothing either. -/
  | thermalTrip
  deriving DecidableEq, Repr

/-- Why a step has no meaning. -/
inductive Refusal where
  /-- Raised by `exec` for an instruction that has no meaning yet, by its mnemonic. Safe: nothing is claimed of it. -/
  | notModelled (mnemonic : String)
  /-- Raised by the meaning of an instruction word when `State.cur` names no unit that is present: words are
  issued by units (R94), so no machine executes it. Safe: the case is no behaviour of the hardware. -/
  | noIssuer
  deriving DecidableEq, Repr

end Sys2Proof.Machine
end

