-- ==== Sys2Proof/Machine/Access.lean ====
section
/-! DEFINITION. Reading and writing the parts of the state: tables, units, the registers of a group and of its slots.
Every register has one home, and every read and write of it goes through the accessor here. -/

namespace Sys2Proof

/-- The team of a group. -/
def GroupId.teamKey (g : GroupId) : Nat × Nat × Nat := (g.grid, g.gang, g.team)

/-- The gang of a group. -/
def GroupId.gangKey (g : GroupId) : Nat × Nat := (g.grid, g.gang)

/-- Is the group a debug core (R210)? -/
def GroupId.isDebug (g : GroupId) : Bool := g.grid == 0

/-- The stream above a level, for a member of that level's team. -/
def SeqId.atLevel (q : SeqId) (l : Level) : SeqId :=
  match l with
  | .team => q
  | .gang => ⟨.gang, q.grid, q.gang, 0, q.role⟩
  | .grid => ⟨.grid, q.grid, 0, 0, q.role⟩

/-- Is one level at or above another? -/
def Level.ge : Level → Level → Bool
  | .grid, _ => true
  | .gang, .grid => false
  | .gang, _ => true
  | .team, .team => true
  | .team, _ => false

end Sys2Proof

namespace Sys2Proof.Machine

/-- The entries of a table that satisfy a test. -/
def Tbl.keysWhere {κ α : Type} (t : Tbl κ α) (f : κ → α → Bool) : List κ :=
  (t.filter (fun e => f e.1 e.2)).map (·.1)

/-- Change every entry of a table, by its key. -/
def Tbl.mapVals {κ α : Type} (t : Tbl κ α) (f : κ → α → α) : Tbl κ α := t.map (fun e => (e.1, f e.1 e.2))

/-! ### Units -/

def State.group? (s : State) (g : GroupId) : Option Group := s.groups.find g
def State.setGroup (s : State) (g : GroupId) (x : Group) : State := { s with groups := s.groups.put g x }
def State.modGroup (s : State) (g : GroupId) (f : Group → Group) : State :=
  match s.group? g with
  | some x => s.setGroup g (f x)
  | none => s

def State.team? (s : State) (t : Nat × Nat × Nat) : Option Team := s.teams.find t
def State.setTeam (s : State) (t : Nat × Nat × Nat) (x : Team) : State := { s with teams := s.teams.put t x }
def State.modTeam (s : State) (t : Nat × Nat × Nat) (f : Team → Team) : State :=
  match s.team? t with
  | some x => s.setTeam t (f x)
  | none => s

def State.gang? (s : State) (g : Nat × Nat) : Option Gang := s.gangs.find g
def State.setGang (s : State) (g : Nat × Nat) (x : Gang) : State := { s with gangs := s.gangs.put g x }

def State.grid? (s : State) (g : Nat) : Option Grid := s.grids.find g
def State.setGrid (s : State) (g : Nat) (x : Grid) : State := { s with grids := s.grids.put g x }
def State.modGrid (s : State) (g : Nat) (f : Grid → Grid) : State :=
  match s.grid? g with
  | some x => s.setGrid g (f x)
  | none => s

def State.seq? (s : State) (q : SeqId) : Option Seq := s.seqs.find q
def State.setSeq (s : State) (q : SeqId) (x : Seq) : State := { s with seqs := s.seqs.put q x }
def State.modSeq (s : State) (q : SeqId) (f : Seq → Seq) : State :=
  match s.seq? q with
  | some x => s.setSeq q (f x)
  | none => s

def State.ctx? (s : State) (c : Nat) : Option Context := s.contexts.find c
def State.setCtx (s : State) (c : Nat) (x : Context) : State := { s with contexts := s.contexts.put c x }
def State.modCtx (s : State) (c : Nat) (f : Context → Context) : State :=
  match s.ctx? c with
  | some x => s.setCtx c (f x)
  | none => s

def State.core (s : State) (n : Nat) : Core := (s.cores.find n).getD .reset
def State.setCore (s : State) (n : Nat) (x : Core) : State := { s with cores := s.cores.put n x }
def State.modCore (s : State) (n : Nat) (f : Core → Core) : State := s.setCore n (f (s.core n))

def State.die (s : State) (n : Nat) : Die := (s.dies.find n).getD .reset
def State.setDie (s : State) (n : Nat) (x : Die) : State := { s with dies := s.dies.put n x }
def State.modDie (s : State) (n : Nat) (f : Die → Die) : State := s.setDie n (f (s.die n))

def State.region (s : State) (n : Nat) : Region := (s.regions.find n).getD .reset
def State.setRegion (s : State) (n : Nat) (x : Region) : State := { s with regions := s.regions.put n x }
def State.modRegion (s : State) (n : Nat) (f : Region → Region) : State := s.setRegion n (f (s.region n))

def State.dbg (s : State) (n : Nat) : DebugCore := (s.debugs.find n).getD .reset
def State.setDbg (s : State) (n : Nat) (x : DebugCore) : State := { s with debugs := s.debugs.put n x }
def State.modDbg (s : State) (n : Nat) (f : DebugCore → DebugCore) : State := s.setDbg n (f (s.dbg n))

def State.mailbox (s : State) (n : Nat) : Mailbox := (s.mailboxes.find n).getD .reset
def State.setMailbox (s : State) (n : Nat) (x : Mailbox) : State := { s with mailboxes := s.mailboxes.put n x }
def State.modMailbox (s : State) (n : Nat) (f : Mailbox → Mailbox) : State := s.setMailbox n (f (s.mailbox n))

def State.queue (s : State) (n : Nat) : Queue := (s.queues.find n).getD .reset
def State.setQueue (s : State) (n : Nat) (x : Queue) : State := { s with queues := s.queues.put n x }
def State.modQueue (s : State) (n : Nat) (f : Queue → Queue) : State := s.setQueue n (f (s.queue n))

def State.port (s : State) (n : Nat) : Port := (s.ports.find n).getD .reset
def State.setPort (s : State) (n : Nat) (x : Port) : State := { s with ports := s.ports.put n x }
def State.modPort (s : State) (n : Nat) (f : Port → Port) : State := s.setPort n (f (s.port n))

/-- UMAP of a die (R12): at reset CORE, COPY and PORT 0 and DONE 0 until self-test finishes (log 5). -/
def State.umap (s : State) (d : Nat) : UMap := (s.umaps.find d).getD ⟨0, 0, 0, false, 0⟩

/-- The accepted copies of a channel, oldest first (R163). -/
def State.channel (s : State) (k : Nat × Nat) : List Copy := (s.channels.find k).getD []
def State.setChannel (s : State) (k : Nat × Nat) (x : List Copy) : State :=
  { s with channels := if x.isEmpty then s.channels.drop k else s.channels.put k x }

/-- An entry of a synchronisation unit (R128): one that is not listed is as at reset. -/
def State.entry (s : State) (d slot : Nat) : SEntry := ((s.die d).entries.find slot).getD .reset
def State.setEntry (s : State) (d slot : Nat) (e : SEntry) : State :=
  s.modDie d (fun x => { x with entries := x.entries.put slot e })

/-- The debug core of a die as a group. -/
def debugId (die : Nat) : GroupId := ⟨0, die, 0, 0⟩

/-- The die of a core (R2, R7: 96 cores a die). -/
def dieOfCore (core : Nat) : Nat := core / 96

/-- The region of the package of a core (8 cores a region). -/
def regionOfCore (core : Nat) : Nat := core / 8

/-- Is a die's bit of DEVRDY set (R13)? -/
def State.ready (s : State) (bit : Nat) : Bool := s.devrdy.getLsbD bit

/-- Draw a value that nothing constrains (log 3). -/
def State.drawWord (s : State) : Word × State := (Config.freeWord s.free, { s with free := s.free + 1 })

/-! ### Slots of a group (R108) -/

def Group.slot (g : Group) : SlotId → Slot
  | .a => g.a
  | .b => g.b.getD g.a

def Group.setSlot (g : Group) (sl : SlotId) (x : Slot) : Group :=
  match sl with
  | .a => { g with a := x }
  | .b => { g with b := some x }

def Group.modSlot (g : Group) (sl : SlotId) (f : Slot → Slot) : Group := g.setSlot sl (f (g.slot sl))

/-- The other slot, when the group is split. -/
def Group.otherSlot (g : Group) (sl : SlotId) : Option Slot :=
  match sl with
  | .a => g.b
  | .b => if g.b.isSome then some g.a else none

def Group.split (g : Group) : Bool := g.b.isSome

def Group.setPc (g : Group) (sl : SlotId) (pc : PC) : Group := g.modSlot sl (fun x => { x with pc := pc })

/-! ### The mode register (R256, R257) -/

def Group.mode (g : Group) (sl : SlotId) : BitVec 32 := (g.slot sl).fork.mode
def modeSat (m : BitVec 32) : Bool := m.getLsbD 11
def modeRnd (m : BitVec 32) : Nat := (m.extractLsb' 12 3).toNat
def modeType (m : BitVec 32) : Nat := (m.extractLsb' 15 4).toNat
def modeGp (m : BitVec 32) : Nat := (m.extractLsb' 19 3).toNat
def modeGn (m : BitVec 32) : Bool := m.getLsbD 22
def modeGe (m : BitVec 32) : Bool := m.getLsbD 23

/-- TYPE of the issuing slot. -/
def Group.ty (g : Group) (sl : SlotId) : Nat := modeType (g.mode sl)

/-- The issuing slot's lanes; a parked slot does not issue (R112), so they hold no parked lane. -/
def Group.lanes (g : Group) (sl : SlotId) : Mask := (g.slot sl).mask

/-- `active(g)` where the guard applies (R257, R264). -/
def Group.active (g : Group) (sl : SlotId) : Mask :=
  let m := g.mode sl
  if modeGe m then
    let p := g.p[modeGp m]?.getD 0
    g.lanes sl &&& (if modeGn m then ~~~ p else p)
  else g.lanes sl

/-! ### Registers of a group -/

/-- A scalar source of 6 bits (R246, R247): s of the slot's fork, or w, g, d of the baton snapshot. -/
def Group.readS (g : Group) (sl : SlotId) (n : BitVec 6) : Word :=
  let k := n.toNat
  if k < 32 then (g.slot sl).fork.s[k]?.getD 0
  else if k < 48 then g.view.w[k - 32]?.getD 0
  else if k < 56 then g.view.g[k - 48]?.getD 0
  else g.view.d[k - 56]?.getD 0

/-- Write an s register of the slot's fork (R110). -/
def Group.writeSn (g : Group) (sl : SlotId) (k : Nat) (x : Word) : Group :=
  g.modSlot sl (fun t => { t with fork := { t.fork with
    s := t.fork.s.setIfInBounds k x, marks := { t.fork.marks with s := setBit t.fork.marks.s k true } } })

/-- Write a scalar destination (R247), already checked to be below 32. -/
def Group.writeS (g : Group) (sl : SlotId) (d : BitVec 6) (x : Word) : Group := g.writeSn sl d.toNat x

/-- A group flag of the slot's fork. -/
def Group.readC (g : Group) (sl : SlotId) (k : Nat) : Bool := (g.slot sl).fork.c.getLsbD k

def Group.writeC (g : Group) (sl : SlotId) (k : Nat) (b : Bool) : Group :=
  g.modSlot sl (fun t => { t with fork := { t.fork with
    c := setBit t.fork.c k b, marks := { t.fork.marks with c := setBit t.fork.marks.c k true } } })

def Group.writeMode (g : Group) (sl : SlotId) (m : BitVec 32) : Group :=
  g.modSlot sl (fun t => { t with fork := { t.fork with mode := m, marks := { t.fork.marks with m := true } } })

/-- A predicate register: bit `l` is lane `l`. -/
def Group.readP (g : Group) (k : Nat) : Mask := g.p[k]?.getD 0

/-- Write the lanes `m` of a predicate; any write but `elect`'s clears the elected tag (R112). -/
def Group.writeP (g : Group) (k : Nat) (m : Mask) (x : Mask) : Group :=
  { g with p := g.p.setIfInBounds k ((g.readP k &&& ~~~ m) ||| (x &&& m)), elected := setBit g.elected k false }

/-- How many v registers the group has (R118). -/
def Group.vLimit (g : Group) : Nat := min 64 (g.base + 16 * g.ext)

/-- The state of a v register (R118, R119): none when it is vacant or outside the group's registers. -/
def Group.vreg (g : Group) (n : Nat) : Option VReg := if n < g.vLimit then g.v.find n else none

/-- A lane of a v register; the checks of R250 come first. -/
def Group.readV (g : Group) (n l : Nat) : BitVec 32 :=
  match g.vreg n with
  | some r => r.lanes[l]?.getD 0
  | none => 0

/-- A v register made of a function of the lane. -/
def vecOf (f : Nat → BitVec 32) : Vector (BitVec 32) 64 := Vector.ofFn (fun i => f i.val)

/-- Write the lanes of `m` of a v register, which becomes full: lanes of a vacant register that the write does not
reach read 0 (R119). -/
def Group.writeV (g : Group) (n : Nat) (m : Mask) (f : Nat → BitVec 32) : Group :=
  { g with v := g.v.put n ⟨true, vecOf (fun l => if m.getLsbD l then f l else g.readV n l)⟩ }

/-- Make a v register vacant (R119, R122). -/
def Group.vacate (g : Group) (n : Nat) : Group := { g with v := g.v.drop n }

/-- Make a v register empty at the issue of a long-latency producer (R119); the lanes keep what they held. -/
def Group.emptyV (g : Group) (n : Nat) : Group :=
  { g with v := g.v.put n ⟨false, vecOf (fun l => g.readV n l)⟩ }

/-- A handle register (R126). -/
def Group.readH (g : Group) (k : Nat) : BitVec 32 := g.h[k]?.getD 0
def Group.writeH (g : Group) (k : Nat) (x : BitVec 32) : Group := { g with h := g.h.setIfInBounds k x }

/-- OR flags into FLAGS of the status word (R192, R230). -/
def Group.raise (g : Group) (f : BitVec 5) : Group := { g with flags := g.flags ||| f }

/-! ### The reconvergence stack (R111, R191) -/

/-- Entries on the stack, in hardware and in private memory. -/
def Group.depth (g : Group) : Nat := g.hw.length + g.spilled.length

end Sys2Proof.Machine
end

