-- ==== Sys2Proof/Decode.lean ====
section
/-! DEFINITION. The decoder and the encoder of instruction words (R243 to R245, R265), written from the fields of the
encodings in spec/opcode_table.json. Every word decodes: one that the map does not assign, or that has a nonzero
reserved field, is UNASSIGNED_OPCODE. A byte string that is too short is refused by name. -/

namespace Sys2Proof

/-- Bits `lo + n - 1` to `lo` of a word. -/
abbrev fld (w : BitVec 32) (lo n : Nat) : BitVec n := w.extractLsb' lo n

/-- One bit of a word. -/
abbrev bit (w : BitVec 32) (k : Nat) : Bool := w.getLsbD k

/-- Opcodes 0x01 to 0x0A (R265). -/
def decodeControl (w : BitVec 32) : Instr :=
  match (fld w 24 8).toNat with
  | 0x01 =>
    .br (fld w 21 3) (bit w 20) (fld w 16 4) (fld w 0 16)
  | 0x02 =>
    if fld w 0 24 = 0#24 then .join
    else .unassignedOpcode w
  | 0x03 =>
    if fld w 16 5 = 0#5 then .call (fld w 21 3) (fld w 0 16)
    else .unassignedOpcode w
  | 0x04 =>
    if fld w 0 21 = 0#21 then .ret (fld w 21 3)
    else .unassignedOpcode w
  | 0x05 =>
    if fld w 0 18 = 0#18 then .elect (fld w 18 6)
    else .unassignedOpcode w
  | 0x06 =>
    .loop (fld w 21 3) (fld w 16 5) (fld w 0 16)
  | 0x07 =>
    .trap (fld w 0 24)
  | 0x08 =>
    if fld w 0 24 = 0#24 then .brk
    else .unassignedOpcode w
  | 0x09 =>
    if fld w 0 24 = 0#24 then .tret
    else .unassignedOpcode w
  | 0x0A =>
    if fld w 0 24 = 0#24 then .nop
    else .unassignedOpcode w
  | _ => .unassignedOpcode w

/-- Opcodes 0x10 to 0x1E (R265). -/
def decodeScope (w : BitVec 32) : Instr :=
  match (fld w 24 8).toNat with
  | 0x10 =>
    .kadd (fld w 22 2) (fld w 18 4) (fld w 14 4) (bit w 13) (fld w 0 13)
  | 0x11 =>
    .ksub (fld w 22 2) (fld w 18 4) (fld w 14 4) (bit w 13) (fld w 0 13)
  | 0x12 =>
    .kmul (fld w 22 2) (fld w 18 4) (fld w 14 4) (bit w 13) (fld w 0 13)
  | 0x13 =>
    .kand (fld w 22 2) (fld w 18 4) (fld w 14 4) (bit w 13) (fld w 0 13)
  | 0x14 =>
    .kor (fld w 22 2) (fld w 18 4) (fld w 14 4) (bit w 13) (fld w 0 13)
  | 0x15 =>
    .kxor (fld w 22 2) (fld w 18 4) (fld w 14 4) (bit w 13) (fld w 0 13)
  | 0x16 =>
    .kshl (fld w 22 2) (fld w 18 4) (fld w 14 4) (bit w 13) (fld w 0 13)
  | 0x17 =>
    .kshr (fld w 22 2) (fld w 18 4) (fld w 14 4) (bit w 13) (fld w 0 13)
  | 0x18 =>
    if fld w 14 4 = 0#4 then .kmov (fld w 22 2) (fld w 18 4) (bit w 13) (fld w 0 13)
    else .unassignedOpcode w
  | 0x19 =>
    .kseq (fld w 22 2) (fld w 18 4) (fld w 14 4) (bit w 13) (fld w 0 13)
  | 0x1A =>
    .kslt (fld w 22 2) (fld w 18 4) (fld w 14 4) (bit w 13) (fld w 0 13)
  | 0x1B =>
    .ksltu (fld w 22 2) (fld w 18 4) (fld w 14 4) (bit w 13) (fld w 0 13)
  | 0x1C =>
    if fld w 4 1 = 0#1 ∧ fld w 0 2 = 0#2 then .wred (fld w 18 6) (fld w 12 6) (fld w 9 3) (fld w 6 3) (bit w 5) (fld w 2 2)
    else .unassignedOpcode w
  | 0x1D =>
    if fld w 4 1 = 0#1 ∧ fld w 0 2 = 0#2 then .gred (fld w 18 6) (fld w 12 6) (fld w 9 3) (fld w 6 3) (bit w 5) (fld w 2 2)
    else .unassignedOpcode w
  | 0x1E =>
    if fld w 4 1 = 0#1 ∧ fld w 0 2 = 0#2 then .dred (fld w 18 6) (fld w 12 6) (fld w 9 3) (fld w 6 3) (bit w 5) (fld w 2 2)
    else .unassignedOpcode w
  | _ => .unassignedOpcode w

/-- Opcodes 0x20 to 0x2A (R265). -/
def decodeScalar (w : BitVec 32) : Instr :=
  match (fld w 24 8).toNat with
  | 0x20 =>
    if fld w 0 6 = 0#6 then .sadd (fld w 18 6) (fld w 12 6) (fld w 6 6)
    else if fld w 0 6 = 1#6 then .ssub (fld w 18 6) (fld w 12 6) (fld w 6 6)
    else if fld w 0 6 = 2#6 then .smul (fld w 18 6) (fld w 12 6) (fld w 6 6)
    else .unassignedOpcode w
  | 0x21 =>
    if fld w 0 6 = 0#6 then .sand (fld w 18 6) (fld w 12 6) (fld w 6 6)
    else if fld w 0 6 = 1#6 then .sor (fld w 18 6) (fld w 12 6) (fld w 6 6)
    else if fld w 0 6 = 2#6 then .sxor (fld w 18 6) (fld w 12 6) (fld w 6 6)
    else if fld w 0 6 = 3#6 then .sandn (fld w 18 6) (fld w 12 6) (fld w 6 6)
    else .unassignedOpcode w
  | 0x22 =>
    if fld w 0 6 = 0#6 then .sshl (fld w 18 6) (fld w 12 6) (fld w 6 6)
    else if fld w 0 6 = 1#6 then .sshr (fld w 18 6) (fld w 12 6) (fld w 6 6)
    else if fld w 0 6 = 2#6 then .ssar (fld w 18 6) (fld w 12 6) (fld w 6 6)
    else if fld w 0 6 = 3#6 then .srol (fld w 18 6) (fld w 12 6) (fld w 6 6)
    else .unassignedOpcode w
  | 0x23 =>
    if fld w 0 6 = 0#6 then .sseq (fld w 18 6) (fld w 12 6) (fld w 6 6)
    else if fld w 0 6 = 1#6 then .sslt (fld w 18 6) (fld w 12 6) (fld w 6 6)
    else if fld w 0 6 = 2#6 then .ssltu (fld w 18 6) (fld w 12 6) (fld w 6 6)
    else if fld w 0 6 = 3#6 then .ssle (fld w 18 6) (fld w 12 6) (fld w 6 6)
    else .unassignedOpcode w
  | 0x24 =>
    if fld w 0 6 = 0#6 then .sdiv (fld w 18 6) (fld w 12 6) (fld w 6 6)
    else if fld w 0 6 = 1#6 then .sdivu (fld w 18 6) (fld w 12 6) (fld w 6 6)
    else if fld w 0 6 = 2#6 then .srem (fld w 18 6) (fld w 12 6) (fld w 6 6)
    else if fld w 0 6 = 3#6 then .sremu (fld w 18 6) (fld w 12 6) (fld w 6 6)
    else .unassignedOpcode w
  | 0x25 =>
    if fld w 11 1 = 0#1 then .saddi (fld w 18 6) (fld w 12 6) (fld w 0 11)
    else .unassignedOpcode w
  | 0x26 =>
    .lcat (fld w 18 6) (fld w 0 18)
  | 0x28 =>
    .li (fld w 18 6) (fld w 0 18)
  | 0x29 =>
    .getc (fld w 18 6) (fld w 0 18)
  | 0x2A =>
    .setc (fld w 18 6) (fld w 0 18)
  | _ => .unassignedOpcode w

/-- Opcodes 0x30 to 0x3A (R265). -/
def decodeVectorInt (w : BitVec 32) : Instr :=
  match (fld w 24 8).toNat with
  | 0x30 =>
    if fld w 0 2 = 0#2 then .add (fld w 18 6) (fld w 12 6) (fld w 6 6) (bit w 5) (bit w 4) (fld w 2 2)
    else if fld w 0 2 = 1#2 then .sub (fld w 18 6) (fld w 12 6) (fld w 6 6) (bit w 5) (bit w 4) (fld w 2 2)
    else if fld w 0 2 = 2#2 then .mul (fld w 18 6) (fld w 12 6) (fld w 6 6) (bit w 5) (bit w 4) (fld w 2 2)
    else if fld w 0 2 = 3#2 then .mulh (fld w 18 6) (fld w 12 6) (fld w 6 6) (bit w 5) (bit w 4) (fld w 2 2)
    else .unassignedOpcode w
  | 0x31 =>
    .addi (fld w 18 6) (fld w 12 6) (bit w 11) (fld w 0 11)
  | 0x32 =>
    if fld w 0 2 = 0#2 then .and (fld w 18 6) (fld w 12 6) (fld w 6 6) (bit w 5) (bit w 4) (fld w 2 2)
    else if fld w 0 2 = 1#2 then .or (fld w 18 6) (fld w 12 6) (fld w 6 6) (bit w 5) (bit w 4) (fld w 2 2)
    else if fld w 0 2 = 2#2 then .xor (fld w 18 6) (fld w 12 6) (fld w 6 6) (bit w 5) (bit w 4) (fld w 2 2)
    else if fld w 0 2 = 3#2 then .andn (fld w 18 6) (fld w 12 6) (fld w 6 6) (bit w 5) (bit w 4) (fld w 2 2)
    else .unassignedOpcode w
  | 0x33 =>
    if fld w 0 2 = 0#2 then .shl (fld w 18 6) (fld w 12 6) (fld w 6 6) (bit w 5) (bit w 4) (fld w 2 2)
    else if fld w 0 2 = 1#2 then .shr (fld w 18 6) (fld w 12 6) (fld w 6 6) (bit w 5) (bit w 4) (fld w 2 2)
    else if fld w 0 2 = 2#2 then .sar (fld w 18 6) (fld w 12 6) (fld w 6 6) (bit w 5) (bit w 4) (fld w 2 2)
    else if fld w 0 2 = 3#2 then .rol (fld w 18 6) (fld w 12 6) (fld w 6 6) (bit w 5) (bit w 4) (fld w 2 2)
    else .unassignedOpcode w
  | 0x34 =>
    if fld w 0 2 = 0#2 then .imin (fld w 18 6) (fld w 12 6) (fld w 6 6) (bit w 5) (bit w 4) (fld w 2 2)
    else if fld w 0 2 = 1#2 then .imax (fld w 18 6) (fld w 12 6) (fld w 6 6) (bit w 5) (bit w 4) (fld w 2 2)
    else if fld w 0 2 = 2#2 then .iabsd (fld w 18 6) (fld w 12 6) (fld w 6 6) (bit w 5) (bit w 4) (fld w 2 2)
    else .unassignedOpcode w
  | 0x35 =>
    if fld w 0 2 = 0#2 then .imad (fld w 18 6) (fld w 12 6) (fld w 6 6) (bit w 5) (bit w 4) (fld w 2 2)
    else .unassignedOpcode w
  | 0x36 =>
    if fld w 0 2 = 0#2 then .idiv (fld w 18 6) (fld w 12 6) (fld w 6 6) (bit w 5) (bit w 4) (fld w 2 2)
    else if fld w 0 2 = 1#2 then .irem (fld w 18 6) (fld w 12 6) (fld w 6 6) (bit w 5) (bit w 4) (fld w 2 2)
    else .unassignedOpcode w
  | 0x37 =>
    if fld w 6 6 = 0#6 ∧ fld w 4 1 = 0#1 ∧ fld w 0 2 = 0#2 then .popc (fld w 18 6) (fld w 12 6) (bit w 5) (fld w 2 2)
    else if fld w 6 6 = 0#6 ∧ fld w 4 1 = 0#1 ∧ fld w 0 2 = 1#2 then .clz (fld w 18 6) (fld w 12 6) (bit w 5) (fld w 2 2)
    else if fld w 6 6 = 0#6 ∧ fld w 4 1 = 0#1 ∧ fld w 0 2 = 2#2 then .brev (fld w 18 6) (fld w 12 6) (bit w 5) (fld w 2 2)
    else .unassignedOpcode w
  | 0x38 =>
    .vli (fld w 18 6) (fld w 0 18)
  | 0x39 =>
    .andi (fld w 18 6) (fld w 12 6) (bit w 11) (fld w 0 11)
  | 0x3A =>
    .shli (fld w 18 6) (fld w 12 6) (bit w 11) (fld w 0 11)
  | _ => .unassignedOpcode w

/-- Opcodes 0x40 to 0x45 (R265). -/
def decodeVectorFloat (w : BitVec 32) : Instr :=
  match (fld w 24 8).toNat with
  | 0x40 =>
    if fld w 0 2 = 0#2 then .fadd (fld w 18 6) (fld w 12 6) (fld w 6 6) (bit w 5) (bit w 4) (fld w 2 2)
    else if fld w 0 2 = 1#2 then .fsub (fld w 18 6) (fld w 12 6) (fld w 6 6) (bit w 5) (bit w 4) (fld w 2 2)
    else if fld w 0 2 = 2#2 then .fmul (fld w 18 6) (fld w 12 6) (fld w 6 6) (bit w 5) (bit w 4) (fld w 2 2)
    else .unassignedOpcode w
  | 0x41 =>
    if fld w 0 2 = 0#2 then .ffma (fld w 18 6) (fld w 12 6) (fld w 6 6) (bit w 5) (bit w 4) (fld w 2 2)
    else if fld w 0 2 = 1#2 then .ffms (fld w 18 6) (fld w 12 6) (fld w 6 6) (bit w 5) (bit w 4) (fld w 2 2)
    else if fld w 0 2 = 2#2 then .fnma (fld w 18 6) (fld w 12 6) (fld w 6 6) (bit w 5) (bit w 4) (fld w 2 2)
    else .unassignedOpcode w
  | 0x42 =>
    if fld w 0 2 = 0#2 then .fmin (fld w 18 6) (fld w 12 6) (fld w 6 6) (bit w 5) (bit w 4) (fld w 2 2)
    else if fld w 0 2 = 1#2 then .fmax (fld w 18 6) (fld w 12 6) (fld w 6 6) (bit w 5) (bit w 4) (fld w 2 2)
    else if fld w 6 6 = 0#6 ∧ fld w 4 1 = 0#1 ∧ fld w 0 2 = 2#2 then .fabs (fld w 18 6) (fld w 12 6) (bit w 5) (fld w 2 2)
    else if fld w 6 6 = 0#6 ∧ fld w 4 1 = 0#1 ∧ fld w 0 2 = 3#2 then .fneg (fld w 18 6) (fld w 12 6) (bit w 5) (fld w 2 2)
    else .unassignedOpcode w
  | 0x43 =>
    if fld w 0 2 = 0#2 then .fdiv (fld w 18 6) (fld w 12 6) (fld w 6 6) (bit w 5) (bit w 4) (fld w 2 2)
    else if fld w 6 6 = 0#6 ∧ fld w 4 1 = 0#1 ∧ fld w 0 2 = 1#2 then .fsqrt (fld w 18 6) (fld w 12 6) (bit w 5) (fld w 2 2)
    else .unassignedOpcode w
  | 0x44 =>
    if fld w 6 6 = 0#6 ∧ fld w 4 1 = 0#1 ∧ fld w 0 2 = 0#2 then .frcp (fld w 18 6) (fld w 12 6) (bit w 5) (fld w 2 2)
    else if fld w 6 6 = 0#6 ∧ fld w 4 1 = 0#1 ∧ fld w 0 2 = 1#2 then .frsq (fld w 18 6) (fld w 12 6) (bit w 5) (fld w 2 2)
    else if fld w 6 6 = 0#6 ∧ fld w 4 1 = 0#1 ∧ fld w 0 2 = 2#2 then .fexp2 (fld w 18 6) (fld w 12 6) (bit w 5) (fld w 2 2)
    else if fld w 6 6 = 0#6 ∧ fld w 4 1 = 0#1 ∧ fld w 0 2 = 3#2 then .flog2 (fld w 18 6) (fld w 12 6) (bit w 5) (fld w 2 2)
    else .unassignedOpcode w
  | 0x45 =>
    if fld w 6 6 = 0#6 ∧ fld w 4 1 = 0#1 ∧ fld w 0 2 = 0#2 then .fsin (fld w 18 6) (fld w 12 6) (bit w 5) (fld w 2 2)
    else if fld w 6 6 = 0#6 ∧ fld w 4 1 = 0#1 ∧ fld w 0 2 = 1#2 then .fcos (fld w 18 6) (fld w 12 6) (bit w 5) (fld w 2 2)
    else .unassignedOpcode w
  | _ => .unassignedOpcode w

/-- Opcodes 0x50 to 0x52 (R265). -/
def decodeConvert (w : BitVec 32) : Instr :=
  match (fld w 24 8).toNat with
  | 0x50 =>
    if fld w 10 2 = 0#2 ∧ fld w 4 1 = 0#1 ∧ fld w 0 2 = 0#2 then .cvt (fld w 18 6) (fld w 12 6) (fld w 6 4) (bit w 5) (fld w 2 2)
    else .unassignedOpcode w
  | 0x51 =>
    if fld w 11 1 = 0#1 ∧ fld w 4 1 = 0#1 ∧ fld w 0 2 = 0#2 then .npack (fld w 18 6) (fld w 12 6) (fld w 6 5) (bit w 5) (fld w 2 2)
    else if fld w 11 1 = 0#1 ∧ fld w 4 1 = 0#1 ∧ fld w 0 2 = 1#2 then .nunpk (fld w 18 6) (fld w 12 6) (fld w 6 5) (bit w 5) (fld w 2 2)
    else .unassignedOpcode w
  | 0x52 =>
    if fld w 6 6 = 0#6 ∧ fld w 4 1 = 0#1 ∧ fld w 0 2 = 0#2 then .mov (fld w 18 6) (fld w 12 6) (bit w 5) (fld w 2 2)
    else .unassignedOpcode w
  | _ => .unassignedOpcode w

/-- Opcodes 0x60 to 0x66 (R265). -/
def decodeLanes (w : BitVec 32) : Instr :=
  match (fld w 24 8).toNat with
  | 0x60 =>
    if fld w 0 2 = 0#2 then .ceq (fld w 18 6) (fld w 12 6) (fld w 6 6) (bit w 5) (bit w 4) (fld w 2 2)
    else if fld w 0 2 = 1#2 then .clt (fld w 18 6) (fld w 12 6) (fld w 6 6) (bit w 5) (bit w 4) (fld w 2 2)
    else if fld w 0 2 = 2#2 then .cle (fld w 18 6) (fld w 12 6) (fld w 6 6) (bit w 5) (bit w 4) (fld w 2 2)
    else if fld w 0 2 = 3#2 then .cne (fld w 18 6) (fld w 12 6) (fld w 6 6) (bit w 5) (bit w 4) (fld w 2 2)
    else .unassignedOpcode w
  | 0x61 =>
    if fld w 0 6 = 0#6 then .pand (fld w 18 6) (fld w 12 6) (fld w 6 6)
    else if fld w 0 6 = 1#6 then .por (fld w 18 6) (fld w 12 6) (fld w 6 6)
    else if fld w 0 6 = 2#6 then .pxor (fld w 18 6) (fld w 12 6) (fld w 6 6)
    else if fld w 0 6 = 3#6 then .pandn (fld w 18 6) (fld w 12 6) (fld w 6 6)
    else .unassignedOpcode w
  | 0x62 =>
    if fld w 0 12 = 0#12 then .pset (fld w 18 6) (fld w 12 6)
    else if fld w 0 12 = 1#12 then .pget (fld w 18 6) (fld w 12 6)
    else if fld w 0 12 = 2#12 then .pcnt (fld w 18 6) (fld w 12 6)
    else .unassignedOpcode w
  | 0x63 =>
    if fld w 0 2 = 0#2 then .shfl (fld w 18 6) (fld w 12 6) (fld w 6 6) (bit w 5) (bit w 4) (fld w 2 2)
    else if fld w 4 1 = 0#1 ∧ fld w 0 2 = 1#2 then .shxor (fld w 18 6) (fld w 12 6) (fld w 6 6) (bit w 5) (fld w 2 2)
    else if fld w 4 1 = 0#1 ∧ fld w 0 2 = 2#2 then .bcast (fld w 18 6) (fld w 12 6) (fld w 6 6) (bit w 5) (fld w 2 2)
    else .unassignedOpcode w
  | 0x64 =>
    if fld w 4 1 = 0#1 ∧ fld w 0 2 = 0#2 then .vrd (fld w 18 6) (fld w 12 6) (fld w 6 6) (bit w 5) (fld w 2 2)
    else if fld w 0 6 = 1#6 then .vwr (fld w 18 6) (fld w 12 6) (fld w 6 6)
    else .unassignedOpcode w
  | 0x65 =>
    if fld w 0 24 = 0#24 then .vacq
    else .unassignedOpcode w
  | 0x66 =>
    if fld w 0 24 = 0#24 then .vrel
    else .unassignedOpcode w
  | _ => .unassignedOpcode w

/-- Opcodes 0x70 to 0x78 (R265). -/
def decodeLoad (w : BitVec 32) : Instr :=
  match (fld w 24 8).toNat with
  | 0x70 =>
    .ldB (fld w 18 6) (fld w 13 5) (fld w 7 6) (fld w 0 7)
  | 0x71 =>
    .ldH (fld w 18 6) (fld w 13 5) (fld w 7 6) (fld w 0 7)
  | 0x72 =>
    .ldWV (fld w 18 6) (fld w 13 5) (fld w 7 6) (fld w 0 7)
  | 0x73 =>
    .ldDV (fld w 18 6) (fld w 13 5) (fld w 7 6) (fld w 0 7)
  | 0x74 =>
    .ldQ (fld w 18 6) (fld w 13 5) (fld w 7 6) (fld w 0 7)
  | 0x75 =>
    if fld w 7 6 = 63#6 then .ldWS (fld w 18 6) (fld w 13 5) (fld w 0 7)
    else .unassignedOpcode w
  | 0x76 =>
    if fld w 7 6 = 63#6 then .ldDS (fld w 18 6) (fld w 13 5) (fld w 0 7)
    else .unassignedOpcode w
  | 0x77 =>
    .ldAcqV (fld w 18 6) (fld w 13 5) (fld w 7 6) (fld w 4 3) (fld w 0 4)
  | 0x78 =>
    if fld w 7 6 = 63#6 then .ldAcqS (fld w 18 6) (fld w 13 5) (fld w 4 3) (fld w 0 4)
    else .unassignedOpcode w
  | _ => .unassignedOpcode w

/-- Opcodes 0x80 to 0x88 (R265). -/
def decodeStore (w : BitVec 32) : Instr :=
  match (fld w 24 8).toNat with
  | 0x80 =>
    .stB (fld w 18 6) (fld w 13 5) (fld w 7 6) (fld w 0 7)
  | 0x81 =>
    .stH (fld w 18 6) (fld w 13 5) (fld w 7 6) (fld w 0 7)
  | 0x82 =>
    .stWV (fld w 18 6) (fld w 13 5) (fld w 7 6) (fld w 0 7)
  | 0x83 =>
    .stDV (fld w 18 6) (fld w 13 5) (fld w 7 6) (fld w 0 7)
  | 0x84 =>
    .stQ (fld w 18 6) (fld w 13 5) (fld w 7 6) (fld w 0 7)
  | 0x85 =>
    if fld w 7 6 = 63#6 then .stWS (fld w 18 6) (fld w 13 5) (fld w 0 7)
    else .unassignedOpcode w
  | 0x86 =>
    if fld w 7 6 = 63#6 then .stDS (fld w 18 6) (fld w 13 5) (fld w 0 7)
    else .unassignedOpcode w
  | 0x87 =>
    .stRelV (fld w 18 6) (fld w 13 5) (fld w 7 6) (fld w 4 3) (fld w 0 4)
  | 0x88 =>
    if fld w 7 6 = 63#6 then .stRelS (fld w 18 6) (fld w 13 5) (fld w 4 3) (fld w 0 4)
    else .unassignedOpcode w
  | _ => .unassignedOpcode w

/-- Opcodes 0x90 to 0x99 (R265). -/
def decodeAtomic (w : BitVec 32) : Instr :=
  match (fld w 24 8).toNat with
  | 0x90 =>
    if fld w 0 1 = 0#1 then .aadd (fld w 18 6) (fld w 13 5) (fld w 7 6) (fld w 5 2) (fld w 2 3) (bit w 1)
    else .unassignedOpcode w
  | 0x91 =>
    if fld w 0 1 = 0#1 then .amin (fld w 18 6) (fld w 13 5) (fld w 7 6) (fld w 5 2) (fld w 2 3) (bit w 1)
    else .unassignedOpcode w
  | 0x92 =>
    if fld w 0 1 = 0#1 then .amax (fld w 18 6) (fld w 13 5) (fld w 7 6) (fld w 5 2) (fld w 2 3) (bit w 1)
    else .unassignedOpcode w
  | 0x93 =>
    if fld w 0 1 = 0#1 then .aand (fld w 18 6) (fld w 13 5) (fld w 7 6) (fld w 5 2) (fld w 2 3) (bit w 1)
    else .unassignedOpcode w
  | 0x94 =>
    if fld w 0 1 = 0#1 then .aor (fld w 18 6) (fld w 13 5) (fld w 7 6) (fld w 5 2) (fld w 2 3) (bit w 1)
    else .unassignedOpcode w
  | 0x95 =>
    if fld w 0 1 = 0#1 then .axor (fld w 18 6) (fld w 13 5) (fld w 7 6) (fld w 5 2) (fld w 2 3) (bit w 1)
    else .unassignedOpcode w
  | 0x96 =>
    if fld w 0 1 = 0#1 then .axchg (fld w 18 6) (fld w 13 5) (fld w 7 6) (fld w 5 2) (fld w 2 3) (bit w 1)
    else .unassignedOpcode w
  | 0x97 =>
    if fld w 0 1 = 0#1 then .acas (fld w 18 6) (fld w 13 5) (fld w 7 6) (fld w 5 2) (fld w 2 3) (bit w 1)
    else .unassignedOpcode w
  | 0x98 =>
    if fld w 0 1 = 0#1 then .axchgQ (fld w 18 6) (fld w 13 5) (fld w 7 6) (fld w 5 2) (fld w 2 3) (bit w 1)
    else .unassignedOpcode w
  | 0x99 =>
    if fld w 0 1 = 0#1 then .acasQ (fld w 18 6) (fld w 13 5) (fld w 7 6) (fld w 5 2) (fld w 2 3) (bit w 1)
    else .unassignedOpcode w
  | _ => .unassignedOpcode w

/-- Opcodes 0xA0 to 0xAC (R265). -/
def decodeScratch (w : BitVec 32) : Instr :=
  match (fld w 24 8).toNat with
  | 0xA0 =>
    .ldsW (fld w 18 6) (fld w 13 5) (fld w 7 6) (fld w 0 7)
  | 0xA1 =>
    .ldsQ (fld w 18 6) (fld w 13 5) (fld w 7 6) (fld w 0 7)
  | 0xA2 =>
    .stsW (fld w 18 6) (fld w 13 5) (fld w 7 6) (fld w 0 7)
  | 0xA3 =>
    .stsQ (fld w 18 6) (fld w 13 5) (fld w 7 6) (fld w 0 7)
  | 0xA4 =>
    .stsF (fld w 18 6) (fld w 13 5) (fld w 7 6) (fld w 0 7)
  | 0xA5 =>
    .ldfK (fld w 18 6) (fld w 13 5) (fld w 7 6) (fld w 0 7)
  | 0xA6 =>
    .ldfC (fld w 18 6) (fld w 13 5) (fld w 7 6) (fld w 0 7)
  | 0xA7 =>
    .ldfKT (fld w 18 6) (fld w 13 5) (fld w 7 6) (fld w 0 7)
  | 0xA8 =>
    .ldfCT (fld w 18 6) (fld w 13 5) (fld w 7 6) (fld w 0 7)
  | 0xA9 =>
    if fld w 0 12 = 0#12 then .tlook (fld w 18 6) (fld w 12 6)
    else .unassignedOpcode w
  | 0xAA =>
    if fld w 18 6 = 0#6 ∧ fld w 0 6 = 0#6 then .tset (fld w 12 6) (fld w 6 6)
    else .unassignedOpcode w
  | 0xAB =>
    if fld w 0 12 = 0#12 then .tget (fld w 18 6) (fld w 12 6)
    else .unassignedOpcode w
  | 0xAC =>
    if fld w 18 6 = 0#6 ∧ fld w 0 12 = 0#12 then .tinv (fld w 12 6)
    else .unassignedOpcode w
  | _ => .unassignedOpcode w

/-- Opcodes 0xB0 to 0xBD (R265). -/
def decodeHandle (w : BitVec 32) : Instr :=
  match (fld w 24 8).toNat with
  | 0xB0 =>
    if fld w 5 10 = 0#10 then .hnew (fld w 21 3) (fld w 15 6) (fld w 3 2) (fld w 0 3)
    else .unassignedOpcode w
  | 0xB1 =>
    if fld w 0 15 = 0#15 then .hjoin (fld w 21 3) (fld w 15 6)
    else .unassignedOpcode w
  | 0xB2 =>
    if fld w 0 21 = 0#21 then .hleave (fld w 21 3)
    else .unassignedOpcode w
  | 0xB3 =>
    if fld w 15 6 = 0#6 ∧ fld w 0 9 = 0#9 then .harv (fld w 21 3) (fld w 9 6)
    else .unassignedOpcode w
  | 0xB4 =>
    if fld w 0 21 = 0#21 then .hbar (fld w 21 3)
    else .unassignedOpcode w
  | 0xB5 =>
    if fld w 0 15 = 0#15 then .hwait (fld w 21 3) (fld w 15 6)
    else .unassignedOpcode w
  | 0xB6 =>
    if fld w 0 9 = 0#9 then .hvote (fld w 21 3) (fld w 15 6) (fld w 9 6)
    else .unassignedOpcode w
  | 0xB7 =>
    if fld w 5 4 = 0#4 then .hred (fld w 21 3) (fld w 15 6) (fld w 9 6) (fld w 3 2) (fld w 0 3)
    else .unassignedOpcode w
  | 0xB8 =>
    if fld w 15 6 = 0#6 ∧ fld w 3 6 = 0#6 then .hinfo (fld w 21 3) (fld w 9 6) (fld w 0 3)
    else .unassignedOpcode w
  | 0xB9 =>
    if fld w 21 3 = 0#3 ∧ fld w 0 9 = 0#9 then .qfill (fld w 15 6) (fld w 9 6)
    else .unassignedOpcode w
  | 0xBA =>
    if fld w 21 3 = 0#3 ∧ fld w 0 9 = 0#9 then .qdrain (fld w 15 6) (fld w 9 6)
    else .unassignedOpcode w
  | 0xBB =>
    if fld w 21 3 = 0#3 ∧ fld w 1 8 = 0#8 then .qwait (fld w 15 6) (fld w 9 6) (bit w 0)
    else .unassignedOpcode w
  | 0xBC =>
    if fld w 5 10 = 0#10 then .hnewT (fld w 21 3) (fld w 15 6) (fld w 3 2) (fld w 0 3)
    else .unassignedOpcode w
  | 0xBD =>
    if fld w 0 15 = 0#15 then .hjoinH (fld w 21 3) (fld w 15 6)
    else .unassignedOpcode w
  | _ => .unassignedOpcode w

/-- Opcodes 0xC0 to 0xC7 (R265). -/
def decodeMatrix (w : BitVec 32) : Instr :=
  match (fld w 24 8).toNat with
  | 0xC0 =>
    if fld w 0 3 = 0#3 then .mma (fld w 18 6) (fld w 13 5) (fld w 8 5) (fld w 3 5)
    else if fld w 0 3 = 1#3 then .mmaJ (fld w 18 6) (fld w 13 5) (fld w 8 5) (fld w 3 5)
    else .unassignedOpcode w
  | 0xC1 =>
    if fld w 7 6 = 63#6 then .zld (fld w 18 6) (fld w 13 5) (fld w 0 7)
    else .unassignedOpcode w
  | 0xC2 =>
    if fld w 0 18 = 0#18 then .mzero (fld w 18 6)
    else .unassignedOpcode w
  | 0xC3 =>
    if fld w 8 5 = 0#5 ∧ fld w 0 3 = 0#3 then .mld (fld w 18 6) (fld w 13 5) (fld w 3 5)
    else .unassignedOpcode w
  | 0xC4 =>
    .mst (fld w 18 6) (fld w 13 5) (fld w 8 5) (fld w 3 5) (fld w 0 3)
  | 0xC5 =>
    if fld w 8 4 = 0#4 ∧ fld w 0 3 = 0#3 then .mrd (fld w 18 6) (fld w 12 6) (fld w 3 5)
    else if fld w 8 4 = 0#4 ∧ fld w 0 3 = 1#3 then .mwr (fld w 18 6) (fld w 12 6) (fld w 3 5)
    else .unassignedOpcode w
  | 0xC6 =>
    if fld w 18 6 = 0#6 ∧ fld w 0 12 = 0#12 then .sqset (fld w 12 6)
    else if fld w 0 18 = 1#18 then .sqget (fld w 18 6)
    else .unassignedOpcode w
  | 0xC7 =>
    if fld w 0 24 = 0#24 then .leave
    else .unassignedOpcode w
  | _ => .unassignedOpcode w

/-- Opcodes 0xD0 to 0xD3 (R265). -/
def decodeWait (w : BitVec 32) : Instr :=
  match (fld w 24 8).toNat with
  | 0xD0 =>
    if fld w 21 3 = 0#3 ∧ fld w 0 6 = 0#6 then .cwait (fld w 18 3) (fld w 12 6) (fld w 6 6)
    else if fld w 21 3 = 0#3 ∧ fld w 0 6 = 1#6 then .ctest (fld w 18 3) (fld w 12 6) (fld w 6 6)
    else .unassignedOpcode w
  | 0xD1 =>
    if fld w 3 21 = 0#21 then .fence (fld w 0 3)
    else .unassignedOpcode w
  | 0xD2 =>
    if fld w 9 15 = 0#15 then .xfence (fld w 6 3) (fld w 3 3) (fld w 0 3)
    else .unassignedOpcode w
  | 0xD3 =>
    if fld w 21 3 = 0#3 ∧ fld w 0 6 = 0#6 then .ivr (fld w 18 3) (fld w 12 6) (fld w 6 6)
    else .unassignedOpcode w
  | _ => .unassignedOpcode w

/-- Opcodes 0xE0 to 0xE9 (R265). -/
def decodeSystem (w : BitVec 32) : Instr :=
  match (fld w 24 8).toNat with
  | 0xE0 =>
    if fld w 0 11 = 0#11 then .mode (bit w 23) (bit w 22) (fld w 19 3) (fld w 15 4) (fld w 12 3) (bit w 11)
    else .unassignedOpcode w
  | 0xE1 =>
    if fld w 2 22 = 0#22 then .sprint (fld w 0 2)
    else .unassignedOpcode w
  | 0xE2 =>
    .spawn (fld w 18 6) (fld w 0 18)
  | 0xE3 =>
    if fld w 18 6 = 0#6 ∧ fld w 0 12 = 0#12 then .cpost (fld w 12 6)
    else .unassignedOpcode w
  | 0xE4 =>
    if fld w 0 18 = 0#18 then .ctake (fld w 18 6)
    else .unassignedOpcode w
  | 0xE5 =>
    if fld w 18 6 = 0#6 ∧ fld w 0 12 = 0#12 then .trace (fld w 12 6)
    else .unassignedOpcode w
  | 0xE6 =>
    if fld w 0 12 = 0#12 then .dhalt (fld w 18 6) (fld w 12 6)
    else if fld w 0 6 = 1#6 then .dstep (fld w 18 6) (fld w 12 6) (fld w 6 6)
    else if fld w 0 12 = 2#12 then .dres (fld w 18 6) (fld w 12 6)
    else .unassignedOpcode w
  | 0xE7 =>
    if fld w 0 12 = 0#12 then .dbpt (fld w 18 6) (fld w 12 6)
    else .unassignedOpcode w
  | 0xE8 =>
    if fld w 0 12 = 0#12 then .dwpt (fld w 18 6) (fld w 12 6)
    else .unassignedOpcode w
  | 0xE9 =>
    if fld w 0 12 = 0#12 then .mbrd (fld w 18 6) (fld w 12 6)
    else if fld w 18 6 = 0#6 ∧ fld w 0 6 = 1#6 then .mbwr (fld w 12 6) (fld w 6 6)
    else if fld w 0 24 = 2#24 then .mbpost
    else if fld w 0 12 = 3#12 then .mbtake (fld w 18 6) (fld w 12 6)
    else .unassignedOpcode w
  | _ => .unassignedOpcode w

/-- The instruction of a word (R265, R269). -/
def decodeWord (w : BitVec 32) : Instr :=
  let op := (fld w 24 8).toNat
  if op ≤ 0x0A then decodeControl w
  else if op ≤ 0x1E then decodeScope w
  else if op ≤ 0x2A then decodeScalar w
  else if op ≤ 0x3A then decodeVectorInt w
  else if op ≤ 0x45 then decodeVectorFloat w
  else if op ≤ 0x52 then decodeConvert w
  else if op ≤ 0x66 then decodeLanes w
  else if op ≤ 0x78 then decodeLoad w
  else if op ≤ 0x88 then decodeStore w
  else if op ≤ 0x99 then decodeAtomic w
  else if op ≤ 0xAC then decodeScratch w
  else if op ≤ 0xBD then decodeHandle w
  else if op ≤ 0xC7 then decodeMatrix w
  else if op ≤ 0xD3 then decodeWait w
  else if op ≤ 0xE9 then decodeSystem w
  else .unassignedOpcode w

/-- Why a byte string is not decoded. -/
inductive DecodeError where
  /-- Fewer than the 4 bytes of a word (R243) are there. -/
  | truncated (have_ : Nat)
  deriving DecidableEq, Repr

/-- The word at the head of a byte string, stored little-endian (R243). -/
def wordOfBytes (b0 b1 b2 b3 : Byte) : BitVec 32 := (b3 ++ b2 ++ b1 ++ b0 : BitVec (8 + 8 + 8 + 8))

/-- The instruction at the head of a byte string, and the bytes after it. -/
def decode : List Byte → Except DecodeError (Instr × List Byte)
  | b0 :: b1 :: b2 :: b3 :: rest => .ok (decodeWord (wordOfBytes b0 b1 b2 b3), rest)
  | bs => .error (.truncated bs.length)

/-- One bit as a word of width 1. -/
abbrev b1 (b : Bool) : BitVec 1 := BitVec.ofBool b

/-- The word of an instruction (R244); the machine's own steps have none. -/
def encodeWord : Instr → Option (BitVec 32)
  | .br s e c o => some (0x01#8 ++ s ++ b1 e ++ c ++ o)
  | .join => some (0x02#8 ++ 0#24)
  | .call s o => some (0x03#8 ++ s ++ 0#5 ++ o)
  | .ret s => some (0x04#8 ++ s ++ 0#21)
  | .elect d => some (0x05#8 ++ d ++ 0#18)
  | .loop s c o => some (0x06#8 ++ s ++ c ++ o)
  | .trap c => some (0x07#8 ++ c)
  | .brk => some (0x08#8 ++ 0#24)
  | .tret => some (0x09#8 ++ 0#24)
  | .nop => some (0x0A#8 ++ 0#24)
  | .kadd s d a f b => some (0x10#8 ++ s ++ d ++ a ++ b1 f ++ b)
  | .ksub s d a f b => some (0x11#8 ++ s ++ d ++ a ++ b1 f ++ b)
  | .kmul s d a f b => some (0x12#8 ++ s ++ d ++ a ++ b1 f ++ b)
  | .kand s d a f b => some (0x13#8 ++ s ++ d ++ a ++ b1 f ++ b)
  | .kor s d a f b => some (0x14#8 ++ s ++ d ++ a ++ b1 f ++ b)
  | .kxor s d a f b => some (0x15#8 ++ s ++ d ++ a ++ b1 f ++ b)
  | .kshl s d a f b => some (0x16#8 ++ s ++ d ++ a ++ b1 f ++ b)
  | .kshr s d a f b => some (0x17#8 ++ s ++ d ++ a ++ b1 f ++ b)
  | .kmov s d f b => some (0x18#8 ++ s ++ d ++ 0#4 ++ b1 f ++ b)
  | .kseq s d a f b => some (0x19#8 ++ s ++ d ++ a ++ b1 f ++ b)
  | .kslt s d a f b => some (0x1A#8 ++ s ++ d ++ a ++ b1 f ++ b)
  | .ksltu s d a f b => some (0x1B#8 ++ s ++ d ++ a ++ b1 f ++ b)
  | .wred d a p y t h => some (0x1C#8 ++ d ++ a ++ p ++ y ++ b1 t ++ 0#1 ++ h ++ 0#2)
  | .gred d a p y t h => some (0x1D#8 ++ d ++ a ++ p ++ y ++ b1 t ++ 0#1 ++ h ++ 0#2)
  | .dred d a p y t h => some (0x1E#8 ++ d ++ a ++ p ++ y ++ b1 t ++ 0#1 ++ h ++ 0#2)
  | .sadd d a b => some (0x20#8 ++ d ++ a ++ b ++ 0#6)
  | .ssub d a b => some (0x20#8 ++ d ++ a ++ b ++ 1#6)
  | .smul d a b => some (0x20#8 ++ d ++ a ++ b ++ 2#6)
  | .sand d a b => some (0x21#8 ++ d ++ a ++ b ++ 0#6)
  | .sor d a b => some (0x21#8 ++ d ++ a ++ b ++ 1#6)
  | .sxor d a b => some (0x21#8 ++ d ++ a ++ b ++ 2#6)
  | .sandn d a b => some (0x21#8 ++ d ++ a ++ b ++ 3#6)
  | .sshl d a b => some (0x22#8 ++ d ++ a ++ b ++ 0#6)
  | .sshr d a b => some (0x22#8 ++ d ++ a ++ b ++ 1#6)
  | .ssar d a b => some (0x22#8 ++ d ++ a ++ b ++ 2#6)
  | .srol d a b => some (0x22#8 ++ d ++ a ++ b ++ 3#6)
  | .sseq d a b => some (0x23#8 ++ d ++ a ++ b ++ 0#6)
  | .sslt d a b => some (0x23#8 ++ d ++ a ++ b ++ 1#6)
  | .ssltu d a b => some (0x23#8 ++ d ++ a ++ b ++ 2#6)
  | .ssle d a b => some (0x23#8 ++ d ++ a ++ b ++ 3#6)
  | .sdiv d a b => some (0x24#8 ++ d ++ a ++ b ++ 0#6)
  | .sdivu d a b => some (0x24#8 ++ d ++ a ++ b ++ 1#6)
  | .srem d a b => some (0x24#8 ++ d ++ a ++ b ++ 2#6)
  | .sremu d a b => some (0x24#8 ++ d ++ a ++ b ++ 3#6)
  | .saddi d a i => some (0x25#8 ++ d ++ a ++ 0#1 ++ i)
  | .lcat d i => some (0x26#8 ++ d ++ i)
  | .li d i => some (0x28#8 ++ d ++ i)
  | .getc d n => some (0x29#8 ++ d ++ n)
  | .setc d n => some (0x2A#8 ++ d ++ n)
  | .add d a b x y h => some (0x30#8 ++ d ++ a ++ b ++ b1 x ++ b1 y ++ h ++ 0#2)
  | .sub d a b x y h => some (0x30#8 ++ d ++ a ++ b ++ b1 x ++ b1 y ++ h ++ 1#2)
  | .mul d a b x y h => some (0x30#8 ++ d ++ a ++ b ++ b1 x ++ b1 y ++ h ++ 2#2)
  | .mulh d a b x y h => some (0x30#8 ++ d ++ a ++ b ++ b1 x ++ b1 y ++ h ++ 3#2)
  | .addi d a t i => some (0x31#8 ++ d ++ a ++ b1 t ++ i)
  | .and d a b x y h => some (0x32#8 ++ d ++ a ++ b ++ b1 x ++ b1 y ++ h ++ 0#2)
  | .or d a b x y h => some (0x32#8 ++ d ++ a ++ b ++ b1 x ++ b1 y ++ h ++ 1#2)
  | .xor d a b x y h => some (0x32#8 ++ d ++ a ++ b ++ b1 x ++ b1 y ++ h ++ 2#2)
  | .andn d a b x y h => some (0x32#8 ++ d ++ a ++ b ++ b1 x ++ b1 y ++ h ++ 3#2)
  | .shl d a b x y h => some (0x33#8 ++ d ++ a ++ b ++ b1 x ++ b1 y ++ h ++ 0#2)
  | .shr d a b x y h => some (0x33#8 ++ d ++ a ++ b ++ b1 x ++ b1 y ++ h ++ 1#2)
  | .sar d a b x y h => some (0x33#8 ++ d ++ a ++ b ++ b1 x ++ b1 y ++ h ++ 2#2)
  | .rol d a b x y h => some (0x33#8 ++ d ++ a ++ b ++ b1 x ++ b1 y ++ h ++ 3#2)
  | .imin d a b x y h => some (0x34#8 ++ d ++ a ++ b ++ b1 x ++ b1 y ++ h ++ 0#2)
  | .imax d a b x y h => some (0x34#8 ++ d ++ a ++ b ++ b1 x ++ b1 y ++ h ++ 1#2)
  | .iabsd d a b x y h => some (0x34#8 ++ d ++ a ++ b ++ b1 x ++ b1 y ++ h ++ 2#2)
  | .imad d a b x y h => some (0x35#8 ++ d ++ a ++ b ++ b1 x ++ b1 y ++ h ++ 0#2)
  | .idiv d a b x y h => some (0x36#8 ++ d ++ a ++ b ++ b1 x ++ b1 y ++ h ++ 0#2)
  | .irem d a b x y h => some (0x36#8 ++ d ++ a ++ b ++ b1 x ++ b1 y ++ h ++ 1#2)
  | .popc d a x h => some (0x37#8 ++ d ++ a ++ 0#6 ++ b1 x ++ 0#1 ++ h ++ 0#2)
  | .clz d a x h => some (0x37#8 ++ d ++ a ++ 0#6 ++ b1 x ++ 0#1 ++ h ++ 1#2)
  | .brev d a x h => some (0x37#8 ++ d ++ a ++ 0#6 ++ b1 x ++ 0#1 ++ h ++ 2#2)
  | .vli d i => some (0x38#8 ++ d ++ i)
  | .andi d a t i => some (0x39#8 ++ d ++ a ++ b1 t ++ i)
  | .shli d a t i => some (0x3A#8 ++ d ++ a ++ b1 t ++ i)
  | .fadd d a b x y h => some (0x40#8 ++ d ++ a ++ b ++ b1 x ++ b1 y ++ h ++ 0#2)
  | .fsub d a b x y h => some (0x40#8 ++ d ++ a ++ b ++ b1 x ++ b1 y ++ h ++ 1#2)
  | .fmul d a b x y h => some (0x40#8 ++ d ++ a ++ b ++ b1 x ++ b1 y ++ h ++ 2#2)
  | .ffma d a b x y h => some (0x41#8 ++ d ++ a ++ b ++ b1 x ++ b1 y ++ h ++ 0#2)
  | .ffms d a b x y h => some (0x41#8 ++ d ++ a ++ b ++ b1 x ++ b1 y ++ h ++ 1#2)
  | .fnma d a b x y h => some (0x41#8 ++ d ++ a ++ b ++ b1 x ++ b1 y ++ h ++ 2#2)
  | .fmin d a b x y h => some (0x42#8 ++ d ++ a ++ b ++ b1 x ++ b1 y ++ h ++ 0#2)
  | .fmax d a b x y h => some (0x42#8 ++ d ++ a ++ b ++ b1 x ++ b1 y ++ h ++ 1#2)
  | .fabs d a x h => some (0x42#8 ++ d ++ a ++ 0#6 ++ b1 x ++ 0#1 ++ h ++ 2#2)
  | .fneg d a x h => some (0x42#8 ++ d ++ a ++ 0#6 ++ b1 x ++ 0#1 ++ h ++ 3#2)
  | .fdiv d a b x y h => some (0x43#8 ++ d ++ a ++ b ++ b1 x ++ b1 y ++ h ++ 0#2)
  | .fsqrt d a x h => some (0x43#8 ++ d ++ a ++ 0#6 ++ b1 x ++ 0#1 ++ h ++ 1#2)
  | .frcp d a x h => some (0x44#8 ++ d ++ a ++ 0#6 ++ b1 x ++ 0#1 ++ h ++ 0#2)
  | .frsq d a x h => some (0x44#8 ++ d ++ a ++ 0#6 ++ b1 x ++ 0#1 ++ h ++ 1#2)
  | .fexp2 d a x h => some (0x44#8 ++ d ++ a ++ 0#6 ++ b1 x ++ 0#1 ++ h ++ 2#2)
  | .flog2 d a x h => some (0x44#8 ++ d ++ a ++ 0#6 ++ b1 x ++ 0#1 ++ h ++ 3#2)
  | .fsin d a x h => some (0x45#8 ++ d ++ a ++ 0#6 ++ b1 x ++ 0#1 ++ h ++ 0#2)
  | .fcos d a x h => some (0x45#8 ++ d ++ a ++ 0#6 ++ b1 x ++ 0#1 ++ h ++ 1#2)
  | .cvt d a k x h => some (0x50#8 ++ d ++ a ++ 0#2 ++ k ++ b1 x ++ 0#1 ++ h ++ 0#2)
  | .npack d a z x h => some (0x51#8 ++ d ++ a ++ 0#1 ++ z ++ b1 x ++ 0#1 ++ h ++ 0#2)
  | .nunpk d a z x h => some (0x51#8 ++ d ++ a ++ 0#1 ++ z ++ b1 x ++ 0#1 ++ h ++ 1#2)
  | .mov d a x h => some (0x52#8 ++ d ++ a ++ 0#6 ++ b1 x ++ 0#1 ++ h ++ 0#2)
  | .ceq d a b x y h => some (0x60#8 ++ d ++ a ++ b ++ b1 x ++ b1 y ++ h ++ 0#2)
  | .clt d a b x y h => some (0x60#8 ++ d ++ a ++ b ++ b1 x ++ b1 y ++ h ++ 1#2)
  | .cle d a b x y h => some (0x60#8 ++ d ++ a ++ b ++ b1 x ++ b1 y ++ h ++ 2#2)
  | .cne d a b x y h => some (0x60#8 ++ d ++ a ++ b ++ b1 x ++ b1 y ++ h ++ 3#2)
  | .pand d a b => some (0x61#8 ++ d ++ a ++ b ++ 0#6)
  | .por d a b => some (0x61#8 ++ d ++ a ++ b ++ 1#6)
  | .pxor d a b => some (0x61#8 ++ d ++ a ++ b ++ 2#6)
  | .pandn d a b => some (0x61#8 ++ d ++ a ++ b ++ 3#6)
  | .pset d a => some (0x62#8 ++ d ++ a ++ 0#12)
  | .pget d a => some (0x62#8 ++ d ++ a ++ 1#12)
  | .pcnt d a => some (0x62#8 ++ d ++ a ++ 2#12)
  | .shfl d a b x y h => some (0x63#8 ++ d ++ a ++ b ++ b1 x ++ b1 y ++ h ++ 0#2)
  | .shxor d a b x h => some (0x63#8 ++ d ++ a ++ b ++ b1 x ++ 0#1 ++ h ++ 1#2)
  | .bcast d a b x h => some (0x63#8 ++ d ++ a ++ b ++ b1 x ++ 0#1 ++ h ++ 2#2)
  | .vrd d a b x h => some (0x64#8 ++ d ++ a ++ b ++ b1 x ++ 0#1 ++ h ++ 0#2)
  | .vwr d a b => some (0x64#8 ++ d ++ a ++ b ++ 1#6)
  | .vacq => some (0x65#8 ++ 0#24)
  | .vrel => some (0x66#8 ++ 0#24)
  | .ldB t b i m => some (0x70#8 ++ t ++ b ++ i ++ m)
  | .ldH t b i m => some (0x71#8 ++ t ++ b ++ i ++ m)
  | .ldWV t b i m => some (0x72#8 ++ t ++ b ++ i ++ m)
  | .ldDV t b i m => some (0x73#8 ++ t ++ b ++ i ++ m)
  | .ldQ t b i m => some (0x74#8 ++ t ++ b ++ i ++ m)
  | .ldWS t b m => some (0x75#8 ++ t ++ b ++ 63#6 ++ m)
  | .ldDS t b m => some (0x76#8 ++ t ++ b ++ 63#6 ++ m)
  | .ldAcqV t b i s o => some (0x77#8 ++ t ++ b ++ i ++ s ++ o)
  | .ldAcqS t b s o => some (0x78#8 ++ t ++ b ++ 63#6 ++ s ++ o)
  | .stB t b i m => some (0x80#8 ++ t ++ b ++ i ++ m)
  | .stH t b i m => some (0x81#8 ++ t ++ b ++ i ++ m)
  | .stWV t b i m => some (0x82#8 ++ t ++ b ++ i ++ m)
  | .stDV t b i m => some (0x83#8 ++ t ++ b ++ i ++ m)
  | .stQ t b i m => some (0x84#8 ++ t ++ b ++ i ++ m)
  | .stWS t b m => some (0x85#8 ++ t ++ b ++ 63#6 ++ m)
  | .stDS t b m => some (0x86#8 ++ t ++ b ++ 63#6 ++ m)
  | .stRelV t b i s o => some (0x87#8 ++ t ++ b ++ i ++ s ++ o)
  | .stRelS t b s o => some (0x88#8 ++ t ++ b ++ 63#6 ++ s ++ o)
  | .aadd t b i o s r => some (0x90#8 ++ t ++ b ++ i ++ o ++ s ++ b1 r ++ 0#1)
  | .amin t b i o s r => some (0x91#8 ++ t ++ b ++ i ++ o ++ s ++ b1 r ++ 0#1)
  | .amax t b i o s r => some (0x92#8 ++ t ++ b ++ i ++ o ++ s ++ b1 r ++ 0#1)
  | .aand t b i o s r => some (0x93#8 ++ t ++ b ++ i ++ o ++ s ++ b1 r ++ 0#1)
  | .aor t b i o s r => some (0x94#8 ++ t ++ b ++ i ++ o ++ s ++ b1 r ++ 0#1)
  | .axor t b i o s r => some (0x95#8 ++ t ++ b ++ i ++ o ++ s ++ b1 r ++ 0#1)
  | .axchg t b i o s r => some (0x96#8 ++ t ++ b ++ i ++ o ++ s ++ b1 r ++ 0#1)
  | .acas t b i o s r => some (0x97#8 ++ t ++ b ++ i ++ o ++ s ++ b1 r ++ 0#1)
  | .axchgQ t b i o s r => some (0x98#8 ++ t ++ b ++ i ++ o ++ s ++ b1 r ++ 0#1)
  | .acasQ t b i o s r => some (0x99#8 ++ t ++ b ++ i ++ o ++ s ++ b1 r ++ 0#1)
  | .ldsW t b i m => some (0xA0#8 ++ t ++ b ++ i ++ m)
  | .ldsQ t b i m => some (0xA1#8 ++ t ++ b ++ i ++ m)
  | .stsW t b i m => some (0xA2#8 ++ t ++ b ++ i ++ m)
  | .stsQ t b i m => some (0xA3#8 ++ t ++ b ++ i ++ m)
  | .stsF t b i m => some (0xA4#8 ++ t ++ b ++ i ++ m)
  | .ldfK t b i m => some (0xA5#8 ++ t ++ b ++ i ++ m)
  | .ldfC t b i m => some (0xA6#8 ++ t ++ b ++ i ++ m)
  | .ldfKT t b i m => some (0xA7#8 ++ t ++ b ++ i ++ m)
  | .ldfCT t b i m => some (0xA8#8 ++ t ++ b ++ i ++ m)
  | .tlook d a => some (0xA9#8 ++ d ++ a ++ 0#12)
  | .tset a b => some (0xAA#8 ++ 0#6 ++ a ++ b ++ 0#6)
  | .tget d a => some (0xAB#8 ++ d ++ a ++ 0#12)
  | .tinv a => some (0xAC#8 ++ 0#6 ++ a ++ 0#12)
  | .hnew h k y p => some (0xB0#8 ++ h ++ k ++ 0#10 ++ y ++ p)
  | .hnewT h k y p => some (0xBC#8 ++ h ++ k ++ 0#10 ++ y ++ p)
  | .hjoin h k => some (0xB1#8 ++ h ++ k ++ 0#15)
  | .hjoinH h k => some (0xBD#8 ++ h ++ k ++ 0#15)
  | .hleave h => some (0xB2#8 ++ h ++ 0#21)
  | .harv h d => some (0xB3#8 ++ h ++ 0#6 ++ d ++ 0#9)
  | .hbar h => some (0xB4#8 ++ h ++ 0#21)
  | .hwait h a => some (0xB5#8 ++ h ++ a ++ 0#15)
  | .hvote h a d => some (0xB6#8 ++ h ++ a ++ d ++ 0#9)
  | .hred h a d y p => some (0xB7#8 ++ h ++ a ++ d ++ 0#4 ++ y ++ p)
  | .hinfo h d n => some (0xB8#8 ++ h ++ 0#6 ++ d ++ 0#6 ++ n)
  | .qfill q k => some (0xB9#8 ++ 0#3 ++ q ++ k ++ 0#9)
  | .qdrain q k => some (0xBA#8 ++ 0#3 ++ q ++ k ++ 0#9)
  | .qwait q k f => some (0xBB#8 ++ 0#3 ++ q ++ k ++ 0#8 ++ b1 f)
  | .mma m a b s => some (0xC0#8 ++ m ++ a ++ b ++ s ++ 0#3)
  | .mmaJ m a b s => some (0xC0#8 ++ m ++ a ++ b ++ s ++ 1#3)
  | .zld t b i => some (0xC1#8 ++ t ++ b ++ 63#6 ++ i)
  | .mzero m => some (0xC2#8 ++ m ++ 0#18)
  | .mld m a s => some (0xC3#8 ++ m ++ a ++ 0#5 ++ s ++ 0#3)
  | .mst m a b s r => some (0xC4#8 ++ m ++ a ++ b ++ s ++ r)
  | .mrd m v s => some (0xC5#8 ++ m ++ v ++ 0#4 ++ s ++ 0#3)
  | .mwr m v s => some (0xC5#8 ++ m ++ v ++ 0#4 ++ s ++ 1#3)
  | .sqset a => some (0xC6#8 ++ 0#6 ++ a ++ 0#12)
  | .sqget d => some (0xC6#8 ++ d ++ 1#18)
  | .leave => some (0xC7#8 ++ 0#24)
  | .cwait s a b => some (0xD0#8 ++ 0#3 ++ s ++ a ++ b ++ 0#6)
  | .ctest s a b => some (0xD0#8 ++ 0#3 ++ s ++ a ++ b ++ 1#6)
  | .fence s => some (0xD1#8 ++ 0#21 ++ s)
  | .xfence q p s => some (0xD2#8 ++ 0#15 ++ q ++ p ++ s)
  | .ivr w a b => some (0xD3#8 ++ 0#3 ++ w ++ a ++ b ++ 0#6)
  | .mode e n p t r s => some (0xE0#8 ++ b1 e ++ b1 n ++ p ++ t ++ r ++ b1 s ++ 0#11)
  | .sprint b => some (0xE1#8 ++ 0#22 ++ b)
  | .spawn d i => some (0xE2#8 ++ d ++ i)
  | .cpost a => some (0xE3#8 ++ 0#6 ++ a ++ 0#12)
  | .ctake d => some (0xE4#8 ++ d ++ 0#18)
  | .trace a => some (0xE5#8 ++ 0#6 ++ a ++ 0#12)
  | .dhalt d a => some (0xE6#8 ++ d ++ a ++ 0#12)
  | .dstep d a b => some (0xE6#8 ++ d ++ a ++ b ++ 1#6)
  | .dres d a => some (0xE6#8 ++ d ++ a ++ 2#12)
  | .dbpt d a => some (0xE7#8 ++ d ++ a ++ 0#12)
  | .dwpt d a => some (0xE8#8 ++ d ++ a ++ 0#12)
  | .mbrd d a => some (0xE9#8 ++ d ++ a ++ 0#12)
  | .mbwr a b => some (0xE9#8 ++ 0#6 ++ a ++ b ++ 1#6)
  | .mbpost => some (0xE9#8 ++ 2#24)
  | .mbtake d a => some (0xE9#8 ++ d ++ a ++ 3#12)
  | .unassignedOpcode w => some w
  | .reset => none
  | .selfTestDone .. => none
  | .functionReady .. => none
  | .functionFail .. => none
  | .stackHoldRelease => none
  | .deviceNumberSet .. => none
  | .portTrained => none
  | .portFailure => none
  | .flitReceive .. => none
  | .portRetrain => none
  | .laneNarrow => none
  | .laneWiden => none
  | .remoteRequest .. => none
  | .hostAccess .. => none
  | .attestationReport .. => none
  | .thermalAction .. => none
  | .thermalTrip => none
  | .thermalWithdraw .. => none
  | .registerWrite .. => none
  | .qownWrite .. => none
  | .queueEnable .. => none
  | .queueStop => none
  | .queueResume => none
  | .queueDisable => none
  | .queueDisableDone => none
  | .queueEclr => none
  | .queueDoorbell .. => none
  | .serviceRound .. => none
  | .invalidateRangeComplete .. => none
  | .gridComplete => none
  | .gridKill => none
  | .imageLoad .. => none
  | .exit .. => none
  | .log .. => none
  | .queueOpen .. => none
  | .memMap .. => none
  | .memUnmap .. => none
  | .launchCall .. => none
  | .counterWait .. => none
  | .counterWaitTimeout => none
  | .fnLoad .. => none
  | .functionPublish .. => none
  | .placementPass => none
  | .placementClaim => none
  | .reservationTimeout => none
  | .quantumPromotion => none
  | .autoRestore => none
  | .powerCtlRaise .. => none
  | .powerCtlLower => none
  | .nearThresholdEnter .. => none
  | .nearThresholdLeave .. => none
  | .fullClockReturn .. => none
  | .regionHold => none
  | .regionRailOff => none
  | .rampStart => none
  | .rampDone => none
  | .leaveGrant => none
  | .leaveLapse => none
  | .halfRateEnd => none
  | .sprintInterval => none
  | .batonIssue .. => none
  | .batonTake .. => none
  | .ownerDecide .. => none
  | .writeback .. => none
  | .registerBlockGrant .. => none
  | .freeze => none
  | .landingClose => none
  | .imageComplete => none
  | .restore .. => none
  | .migrateByReplay .. => none
  | .freezeFail => none
  | .tileMigrate .. => none
  | .preempt => none
  | .preemptDeadline => none
  | .contextSwitchComplete => none
  | .contextRestore => none
  | .contextDestroy => none
  | .copyGranuleWrite .. => none
  | .copyComplete .. => none
  | .retryResend .. => none
  | .syncArrival .. => none
  | .syncJoin .. => none
  | .syncLeave .. => none
  | .phaseCompletion .. => none
  | .breakpointHit .. => none
  | .predicateRun => none
  | .traceSample .. => none
  | .mailboxInWrite .. => none
  | .mailboxInPost => none
  | .mailboxOutvClear => none
  | .instructionFetchFault => none

/-- The four bytes of a word, first at the lowest address (R243). -/
def bytesOfWord (w : BitVec 32) : List Byte := [fld w 0 8, fld w 8 8, fld w 16 8, fld w 24 8]

/-- The bytes of an instruction (R243, R244). -/
def encode (i : Instr) : Option (List Byte) := (encodeWord i).map bytesOfWord

/-- The instruction the decoder reads from a table row's word `w` of `nbits` bits, the bits above them zero. Every
instruction is one word of 32 bits (R243); a row without bits is no word. -/
def decodeTableWord (nbits w : Nat) : Option Instr :=
  if nbits = 0 ∨ 32 < nbits then none
  else
    match decode (bytesOfWord (BitVec.ofNat 32 (w % 2 ^ nbits))) with
    | .ok (i, _) => some i
    | .error _ => none

end Sys2Proof
end

