-- ==== Sys2Proof/Machine/Fields.lean ====
section
/-! DEFINITION. The checks of a word that need no more than the word and the mode TYPE: steps 1 to 3 of R269, with
the codings of R244 to R258 in the order of the fields from bit 23 down, and the class of each instruction (R265). -/

namespace Sys2Proof.Machine

/-- A code and a detail of R190. -/
structure Cause where
  code   : BitVec 8
  detail : BitVec 8
  deriving DecidableEq, Repr

/-- Illegal instruction with a detail (R190). -/
def illegal (d : BitVec 8) : Cause := ⟨0x01, d⟩

/-- Illegal scope with a detail (R190). -/
def badScope (d : BitVec 8) : Cause := ⟨0x02, d⟩

/-- A check of a field: whether it fails, and what it then raises. -/
structure Chk where
  bad   : Bool
  cause : Cause
  deriving DecidableEq, Repr

/-- The first failing check of a list (R269: the first fault found is taken). -/
def firstBad : List Chk → Option Cause
  | [] => none
  | c :: cs => if c.bad then some c.cause else firstBad cs

/-- A coding failure: detail 2 (R245). -/
def chk2 (bad : Bool) : Chk := ⟨bad, illegal 2⟩

/-- A reserved field must be zero (R5, R245). -/
def chkZero {n : Nat} (x : BitVec n) : Chk := chk2 (x != 0#n)

/-- A scalar destination (R247). -/
def chkSDst (d : BitVec 6) : Chk := ⟨decide (32 ≤ d.toNat), badScope 1⟩

/-- A field below a limit (R246). -/
def chkBelow {n : Nat} (x : BitVec n) (lim : Nat) : Chk := chk2 (decide (lim ≤ x.toNat))

/-- A field that is a multiple of `k` (R225, R246, R327). -/
def chkMult {n : Nat} (x : BitVec n) (k : Nat) : Chk := chk2 (decide (x.toNat % k ≠ 0))

/-- Execution scope of an L word: 0 is an illegal-scope fault with detail 10 (R94, R253), 5 to 7 fault (R251). -/
def chkLScope (s : BitVec 3) : List Chk := [⟨s == 0#3, badScope 10⟩, chk2 (decide (5 ≤ s.toNat))]

/-- Memory order scopes: 6 and 7 fault (R251). -/
def chkMScope (s : BitVec 3) : Chk := chk2 (decide (6 ≤ s.toNat))

/-- The condition of a B word (R252, R272). -/
def chkBr (s : BitVec 3) (e : Bool) (c : BitVec 4) : List Chk :=
  [chk2 (decide (5 ≤ s.toNat)), chk2 (e && c == 15#4),
   chk2 (decide (12 ≤ c.toNat ∧ c.toNat ≤ 14)), chk2 (decide (8 ≤ c.toNat ∧ c.toNat ≤ 11) && s == 0#3)]

/-- The limit of a register field of a scope file in a K word, by K.scope (R251, R253). -/
def kLimit (s : BitVec 2) : Nat := if s = 1#2 then 16 else 8

/-- A K word whose d is a register (R253, R294). -/
def chkK (s : BitVec 2) (d a : BitVec 4) (f : Bool) (b : BitVec 13) : List Chk :=
  [chk2 (s == 0#2), chkBelow d (kLimit s), chkBelow a (kLimit s),
   chk2 (!f && (decide (kLimit s ≤ b.toNat % 16) || decide (16 ≤ b.toNat)))]

/-- A K compare, whose d names a flag (R295). -/
def chkKCmp (s : BitVec 2) (d a : BitVec 4) (f : Bool) (b : BitVec 13) : List Chk :=
  [chk2 (s == 0#2), chkBelow d 4, chkBelow a (kLimit s),
   chk2 (!f && (decide (kLimit s ≤ b.toNat % 16) || decide (16 ≤ b.toNat)))]

/-- A scope reduction (R296). -/
def chkRed (lim : Nat) (d : BitVec 6) (a : BitVec 6) (p y : BitVec 3) (h : BitVec 2) : List Chk :=
  [chkBelow d lim, chk2 ((y == 2#3 || y == 3#3) && a.toNat % 2 == 1), chkBelow p 5,
   chk2 ((p == 3#3 || p == 4#3) && y == 4#3), chkBelow y 5, chk2 (decide (2 ≤ h.toNat))]

/-- Hold marks of a T word whose b is no v register: 10 and 11 fault (R249). -/
def chkHoldA (h : BitVec 2) : Chk := chk2 (decide (2 ≤ h.toNat))

/-- The operator and type of `hnew` and `hred` (R128, R339). -/
def chkHOp (y : BitVec 2) (p : BitVec 3) : Chk :=
  ⟨decide (5 ≤ p.toNat) || ((p == 3#3 || p == 4#3) && y == 3#2), illegal 9⟩

/-- The order and scope of an atomic (R330). -/
def chkAtom (o : BitVec 2) (s : BitVec 3) : List Chk := [chkMScope s, chk2 (o == 0#2 && s != 0#3)]

/-- The coding checks of an instruction, in the order of its fields from bit 23 down (R269, step 3). Fields that
the decoder has already found zero do not appear. -/
def codingChecks : Instr → List Chk
  | .br s e c _ => chkBr s e c
  | .call s _ | .ret s => chkLScope s
  | .loop s c _ =>
    chkLScope s ++ [chk2 (s == 2#3 && decide (16 ≤ c.toNat)), chk2 ((s == 3#3 || s == 4#3) && decide (8 ≤ c.toNat))]
  | .elect d => [chkBelow d 8]
  | .kadd s d a f b | .ksub s d a f b | .kmul s d a f b | .kand s d a f b | .kor s d a f b | .kxor s d a f b
  | .kshl s d a f b | .kshr s d a f b => chkK s d a f b
  | .kmov s d f b => chkK s d 0 f b
  | .kseq s d a f b | .kslt s d a f b | .ksltu s d a f b => chkKCmp s d a f b
  | .wred d a p y _ h => chkRed 16 d a p y h
  | .gred d a p y _ h | .dred d a p y _ h => chkRed 8 d a p y h
  | .sadd d _ _ | .ssub d _ _ | .smul d _ _ | .sand d _ _ | .sor d _ _ | .sxor d _ _ | .sandn d _ _
  | .sshl d _ _ | .sshr d _ _ | .ssar d _ _ | .srol d _ _ | .sdiv d _ _ | .sdivu d _ _ | .srem d _ _
  | .sremu d _ _ => [chkSDst d]
  | .sseq d _ _ | .sslt d _ _ | .ssltu d _ _ | .ssle d _ _ => [chkBelow d 4]
  | .saddi d _ _ | .lcat d _ | .li d _ | .getc d _ => [chkSDst d]
  | .shli _ _ _ i => [chk2 i.msb]
  | .popc _ _ _ h | .clz _ _ _ h | .brev _ _ _ h | .fabs _ _ _ h | .fneg _ _ _ h | .fsqrt _ _ _ h | .frcp _ _ _ h
  | .frsq _ _ _ h | .fexp2 _ _ _ h | .flog2 _ _ _ h | .fsin _ _ _ h | .fcos _ _ _ h | .mov _ _ _ h => [chkHoldA h]
  | .cvt _ a k x h =>
    [chk2 (k == 13#4 && a != 0#6), chk2 (k == 12#4 || k == 14#4 || k == 15#4), chk2 (k == 13#4 && x),
     chk2 (decide (2 ≤ h.toNat) || (k == 13#4 && h != 0#2))]
  | .npack _ _ _ _ h | .nunpk _ _ _ _ h => [chkHoldA h]
  | .ceq d _ _ _ _ _ | .clt d _ _ _ _ _ | .cle d _ _ _ _ _ | .cne d _ _ _ _ _ => [chkBelow d 8]
  | .pand d a b | .por d a b | .pxor d a b | .pandn d a b => [chkBelow d 8, chkBelow a 8, chkBelow b 8]
  | .pset d _ => [chkBelow d 8]
  | .pget d a | .pcnt d a => [chkSDst d, chkBelow a 8]
  | .shxor _ _ _ _ h | .bcast _ _ _ _ h => [chkHoldA h]
  | .vrd d _ _ _ h => [chkSDst d, chkHoldA h]
  | .ldDV t _ _ _ | .stDV t _ _ _ => [chkMult t 2]
  | .ldQ t _ _ _ | .stQ t _ _ _ | .ldsQ t _ _ _ | .stsQ t _ _ _ | .stsF t _ _ _ | .ldfK t _ _ _ | .ldfC t _ _ _
  | .ldfKT t _ _ _ | .ldfCT t _ _ _ => [chkMult t 4]
  | .ldWS t _ _ | .ldDS t _ _ => [chkSDst t]
  | .ldAcqV _ _ _ s _ | .stRelV _ _ _ s _ => [chkMScope s]
  | .ldAcqS t _ s _ => [chkSDst t, chkMScope s]
  | .stRelS _ _ s _ => [chkMScope s]
  | .aadd _ _ _ o s _ | .amin _ _ _ o s _ | .amax _ _ _ o s _ | .aand _ _ _ o s _ | .aor _ _ _ o s _
  | .axor _ _ _ o s _ | .axchg _ _ _ o s _ | .acas _ _ _ o s _ => chkAtom o s
  | .axchgQ t _ _ o s _ => chkMult t 4 :: chkAtom o s
  | .acasQ t _ _ o s _ => chkMult t 8 :: chkAtom o s
  | .tlook d _ | .tget d _ => [chkSDst d]
  | .hnew _ _ y p | .hnewT _ _ y p => [chkHOp y p]
  | .harv _ d | .hinfo _ d _ => [chkSDst d]
  | .hvote _ a d => [chkBelow a 8, chkSDst d]
  | .hred _ a d y p => [chk2 (y == 2#2 && a.toNat % 2 == 1), chkSDst d, chkHOp y p]
  | .qfill q _ | .qdrain q _ | .qwait q _ _ => [chkBelow q 4]
  | .mma _ _ _ s | .mmaJ _ _ _ s => [chkMult s 2]
  | .zld t _ _ => [chkBelow t 32]
  | .mld _ _ s => [chkMult s 2]
  | .mst _ _ _ s _ => [chkMult s 2]
  | .mrd _ _ s | .mwr _ _ s => [chkMult s 2]
  | .sqget d => [chkSDst d]
  | .cwait s _ _ | .ctest s _ _ => [chkMScope s]
  | .fence s => [chkMScope s]
  | .xfence q p s => [chkBelow q 5, chkBelow p 5, chkMScope s]
  | .ivr w _ _ => [chk2 (w == 0#3)]
  | .mode _ _ _ t r _ => [chkBelow t 13, chkBelow r 5]
  | .sprint b => [chkBelow b 3]
  | .spawn d _ => [chkSDst d]
  | .cpost a => [chk2 (decide (32 ≤ a.toNat) || a.toNat % 4 != 0)]
  | .ctake d => [chkSDst d, chkMult d 4]
  | .dhalt d _ | .dstep d _ _ | .dres d _ | .dbpt d _ | .dwpt d _ | .mbrd d _ | .mbtake d _ => [chkSDst d]
  | _ => []

/-- Step 2 of R269 for a var that the decoder keeps: `mst` has the roundings 0 to 4 (R265). -/
def varChecks : Instr → List Chk
  | .mst _ _ _ _ r => [⟨decide (5 ≤ r.toNat), illegal 1⟩]
  | _ => []

/-! ### The mode TYPE (R225, R258, R303, R331) -/

/-- Types that take two v registers (R225). -/
def isPair (ty : Nat) : Bool := ty == 6 || ty == 7 || ty == 11 || ty == 12

/-- A v field of a pair type is even (R302). -/
def chkPair (ty : Nat) (rs : List (BitVec 6)) : Chk := chk2 (isPair ty && rs.any (fun r => r.toNat % 2 == 1))

/-- Integer types only. -/
def tyInt (ty : Nat) (rs : List (BitVec 6)) : List Chk := [chk2 (decide (8 ≤ ty)), chkPair ty rs]

/-- Float types f32, f16, bf16, f64 only. -/
def tyFloat (ty : Nat) (rs : List (BitVec 6)) : List Chk := [chk2 (decide (ty < 8 ∨ 12 ≤ ty)), chkPair ty rs]

/-- f32, f16 and bf16 only. -/
def tyShort (ty : Nat) : List Chk := [chk2 (decide (ty < 8 ∨ 11 ≤ ty))]

/-- Types 0 to 11. -/
def tyNum (ty : Nat) (rs : List (BitVec 6)) : List Chk := [chk2 (decide (12 ≤ ty)), chkPair ty rs]

/-- Types 0 to 12. -/
def tyAny (ty : Nat) (rs : List (BitVec 6)) : List Chk := [chk2 (decide (13 ≤ ty)), chkPair ty rs]

/-- The atomics of R331 that take a float: sizes 4 and 8 by TYPE; `k` scales the multiple that t must be. -/
def tyAtomF (ty : Nat) (t : BitVec 6) (k : Nat) : List Chk :=
  [chk2 !(ty == 0 || ty == 1 || ty == 8 || ty == 6 || ty == 7 || ty == 11),
   chkMult t (if ty == 6 || ty == 7 || ty == 11 then 2 * k else k)]

/-- The bitwise atomics of R331. -/
def tyAtomI (ty : Nat) (t : BitVec 6) : List Chk :=
  [chk2 !(ty == 0 || ty == 1 || ty == 6 || ty == 7), chkMult t (if ty == 6 || ty == 7 then 2 else 1)]

/-- The checks of an instruction that depend on the mode TYPE. -/
def typeChecks (ty : Nat) : Instr → List Chk
  | .add d a b _ _ _ | .sub d a b _ _ _ | .mul d a b _ _ _ | .mulh d a b _ _ _ | .and d a b _ _ _ | .or d a b _ _ _
  | .xor d a b _ _ _ | .andn d a b _ _ _ | .shl d a b _ _ _ | .shr d a b _ _ _ | .sar d a b _ _ _ | .rol d a b _ _ _
  | .imin d a b _ _ _ | .imax d a b _ _ _ | .iabsd d a b _ _ _ | .imad d a b _ _ _ | .idiv d a b _ _ _
  | .irem d a b _ _ _ => tyInt ty [d, a, b]
  | .popc d a _ _ | .clz d a _ _ | .brev d a _ _ => tyInt ty [d, a]
  | .addi d a _ _ | .andi d a _ _ | .shli d a _ _ => tyInt ty [d, a]
  | .vli d i => tyNum ty [d] ++ [chk2 ((ty == 9 || ty == 10) && decide (0x10000 ≤ i.toNat))]
  | .fadd d a b _ _ _ | .fsub d a b _ _ _ | .fmul d a b _ _ _ | .ffma d a b _ _ _ | .ffms d a b _ _ _
  | .fnma d a b _ _ _ | .fmin d a b _ _ _ | .fmax d a b _ _ _ | .fdiv d a b _ _ _ => tyFloat ty [d, a, b]
  | .fabs d a _ _ | .fneg d a _ _ | .fsqrt d a _ _ => tyFloat ty [d, a]
  | .frcp .. | .frsq .. | .fexp2 .. | .flog2 .. | .fsin .. | .fcos .. => tyShort ty
  | .cvt d a k _ _ => tyNum ty [d] ++ [chkPair k.toNat [a]]
  | .npack .. | .nunpk .. => tyShort ty
  | .mov d a _ _ => tyAny ty [d, a]
  | .ceq _ a b _ _ _ | .clt _ a b _ _ _ | .cle _ a b _ _ _ | .cne _ a b _ _ _ => tyNum ty [a, b]
  | .shfl d a _ _ _ _ | .shxor d a _ _ _ | .bcast d a _ _ _ => tyAny ty [d, a]
  | .vrd _ a _ _ _ => tyAny ty [a]
  | .vwr d _ _ => tyAny ty [d]
  | .aadd t _ _ _ _ _ | .amin t _ _ _ _ _ | .amax t _ _ _ _ _ | .axchg t _ _ _ _ _ => tyAtomF ty t 1
  | .acas t _ _ _ _ _ => tyAtomF ty t 2
  | .aand t _ _ _ _ _ | .aor t _ _ _ _ _ | .axor t _ _ _ _ _ => tyAtomI ty t
  | .mrd _ v _ | .mwr _ v _ => [chk2 !(ty == 0 || ty == 12), chkPair ty [v]]
  | _ => []

/-! ### Classes and issuers (R114, R210, R265, R268) -/

/-- The classes of R265. -/
inductive Class where
  | control | scope | scalar | vector | memory | handle | ring | matrix | debug
  deriving DecidableEq, Repr

/-- The class of a primary opcode (R265); unassigned opcodes count as control, and fault before the class is read. -/
def classOfOp (op : Nat) : Class :=
  if op < 0x10 then .control else if op < 0x20 then .scope else if op < 0x30 then .scalar
  else if op < 0x70 then .vector else if op < 0xB0 then .memory
  else if op = 0xB9 ∨ op = 0xBA ∨ op = 0xBB then .ring else if op < 0xC0 then .handle
  else if op < 0xD0 then .matrix else if op = 0xD3 then .debug else if op < 0xE6 then .control else .debug

/-- The primary opcode of an instruction; the machine's own steps have none and answer 0. -/
def opOf (i : Instr) : Nat := ((encodeWord i).map (fun w => (fld w 24 8).toNat)).getD 0

/-- May the class issue in the role (R114, R265)? Debug words never reach this check (R268). -/
def roleAllows : Role → Class → Bool
  | .none, _ => true
  | _, .control | _, .scope | _, .scalar | _, .handle | _, .ring | _, .debug => true
  | .copy, .memory | .vector, .memory | .vector, .vector | .matrix, .matrix => true
  | _, _ => false

/-- Is the word assigned for the debug core (R210, R268)? -/
def debugSubset (op : Nat) (scope : Nat) : Bool :=
  if op = 0x01 ∨ op = 0x03 ∨ op = 0x04 ∨ op = 0x06 then scope == 1
  else (op = 0x02 ∨ op = 0x05 ∨ op = 0x09 ∨ op = 0x0A ∨ op = 0xE0) || decide (0x20 ≤ op ∧ op ≤ 0x2A)
    || decide (0x70 ≤ op ∧ op ≤ 0xA8) || (op = 0xD1 ∨ op = 0xD2 ∨ op = 0xD3) || decide (0xE6 ≤ op ∧ op ≤ 0xE9)

/-- Step 1 of R269 for an assigned opcode: the issuer may issue it. -/
def issuerAllows (dbg : Bool) (op scope : Nat) : Bool := if dbg then debugSubset op scope else classOfOp op != .debug

/-! ### Raw words: UNASSIGNED_OPCODE (R245, R265, R268, R269) -/

/-- What a field of a T word names. -/
inductive Kind where
  | v | s | sd | p | c | zero | cvtB | slotB | redD (lim : Nat) | quad | quadD | scope3 | what3
  deriving DecidableEq, Repr

/-- The check of a register field of a T word. -/
def kindChk (k : Kind) (x : BitVec 6) : List Chk :=
  match k with
  | .v | .s => []
  | .sd => [chkSDst x]
  | .p => [chkBelow x 8]
  | .c => [chkBelow x 4]
  | .zero => [chkZero x]
  | .cvtB => [chkBelow x 16, chk2 (x == 12#6 || x == 14#6 || x == 15#6)]
  | .slotB => [chkBelow x 32]
  | .redD lim => [chkBelow x lim]
  | .quad => [chk2 (decide (32 ≤ x.toNat) || x.toNat % 4 != 0)]
  | .quadD => [chkSDst x, chkMult x 4]
  | .scope3 => [chkBelow x 8, chkBelow x 6]
  | .what3 => [chkBelow x 8, chkZero (if x = 0#6 then 1#1 else 0#1)]

/-- The checks of a T word from bit 23 down (R244, R248, R249). -/
def tChecks (w : BitVec 32) (kd ka kb : Kind) : List Chk :=
  kindChk kd (fld w 18 6) ++ kindChk ka (fld w 12 6) ++ kindChk kb (fld w 6 6) ++
  [chk2 (bit w 5 && ka != .v), chk2 (bit w 4 && kb != .v),
   chk2 ((fld w 2 2 == 1#2 && ka != .v) || (decide (2 ≤ (fld w 2 2).toNat) && kb != .v))]

/-- The kinds of the fields of a T word by opcode and sub, or none where the pair is unassigned (R265, R304). -/
def tKinds (op sub : Nat) : Option (Kind × Kind × Kind) :=
  match op with
  | 0x05 => if sub = 0 then some (.p, .zero, .zero) else none
  | 0x1C => if sub = 0 then some (.redD 16, .v, .v) else none
  | 0x1D | 0x1E => if sub = 0 then some (.redD 8, .v, .v) else none
  | 0x20 => if sub < 3 then some (.sd, .s, .s) else none
  | 0x21 | 0x22 | 0x24 => some (.sd, .s, .s)
  | 0x23 => some (.c, .s, .s)
  | 0x30 | 0x32 | 0x33 => some (.v, .v, .v)
  | 0x34 => if sub < 3 then some (.v, .v, .v) else none
  | 0x35 => if sub = 0 then some (.v, .v, .v) else none
  | 0x36 => if sub < 2 then some (.v, .v, .v) else none
  | 0x37 => if sub < 3 then some (.v, .v, .zero) else none
  | 0x40 | 0x41 => if sub < 3 then some (.v, .v, .v) else none
  | 0x42 => some (.v, .v, if sub < 2 then .v else .zero)
  | 0x43 => if sub < 2 then some (.v, .v, if sub = 0 then .v else .zero) else none
  | 0x44 => some (.v, .v, .zero)
  | 0x45 => if sub < 2 then some (.v, .v, .zero) else none
  | 0x50 => if sub = 0 then some (.v, .v, .cvtB) else none
  | 0x51 => if sub < 2 then some (.v, .v, .slotB) else none
  | 0x52 => if sub = 0 then some (.v, .v, .zero) else none
  | 0x60 => some (.p, .v, .v)
  | 0x61 => some (.p, .p, .p)
  | 0x62 => if sub = 0 then some (.p, .s, .zero) else if sub < 3 then some (.sd, .p, .zero) else none
  | 0x63 => if sub = 0 then some (.v, .v, .v) else if sub < 3 then some (.v, .v, .s) else none
  | 0x64 => if sub = 0 then some (.sd, .v, .s) else if sub = 1 then some (.v, .s, .s) else none
  | 0xA9 | 0xAB => if sub = 0 then some (.sd, .s, .zero) else none
  | 0xAA => if sub = 0 then some (.zero, .s, .s) else none
  | 0xAC => if sub = 0 then some (.zero, .s, .zero) else none
  | 0xC6 => if sub = 0 then some (.zero, .s, .zero) else if sub = 1 then some (.sd, .zero, .zero) else none
  | 0xD0 => if sub < 2 then some (.scope3, .s, .s) else none
  | 0xD3 => if sub = 0 then some (.what3, .s, .s) else none
  | 0xE3 => if sub = 0 then some (.zero, .quad, .zero) else none
  | 0xE4 => if sub = 0 then some (.quadD, .zero, .zero) else none
  | 0xE5 => if sub = 0 then some (.zero, .s, .zero) else none
  | 0xE6 => if sub = 1 then some (.sd, .s, .s) else if sub < 3 then some (.sd, .s, .zero) else none
  | 0xE7 | 0xE8 => if sub = 0 then some (.sd, .s, .zero) else none
  | 0xE9 => if sub = 0 ∨ sub = 3 then some (.sd, .s, .zero) else if sub = 1 then some (.zero, .s, .s)
            else some (.zero, .zero, .zero)
  | _ => none

/-- The primary opcodes whose format is not T, with the checks of their reserved fields from bit 23 down; none where
the opcode or the var is unassigned (R265). Codings that the decoder leaves to `codingChecks` stand here too, because
the first failing field decides. -/
def otherChecks (w : BitVec 32) : Option (List Chk) :=
  let op := (fld w 24 8).toNat
  let var := (fld w 0 3).toNat
  match op with
  | 0x01 => some (chkBr (fld w 21 3) (bit w 20) (fld w 16 4))
  | 0x02 | 0x08 | 0x09 | 0x0A | 0x65 | 0x66 | 0xC7 => some [chkZero (fld w 0 24)]
  | 0x03 => some (chkLScope (fld w 21 3) ++ [chkZero (fld w 16 5)])
  | 0x04 => some (chkLScope (fld w 21 3) ++ [chkZero (fld w 16 5), chkZero (fld w 0 16)])
  | 0x06 => some (codingChecks (.loop (fld w 21 3) (fld w 16 5) (fld w 0 16)))
  | 0x07 => some []
  | 0x18 =>
    let s := fld w 22 2
    some ([chk2 (s == 0#2), chkBelow (fld w 18 4) (kLimit s), chkZero (fld w 14 4)] ++
      (chkK s 0 0 (bit w 13) (fld w 0 13)).drop 3)
  | 0x10 | 0x11 | 0x12 | 0x13 | 0x14 | 0x15 | 0x16 | 0x17 =>
    some (chkK (fld w 22 2) (fld w 18 4) (fld w 14 4) (bit w 13) (fld w 0 13))
  | 0x19 | 0x1A | 0x1B => some (chkKCmp (fld w 22 2) (fld w 18 4) (fld w 14 4) (bit w 13) (fld w 0 13))
  | 0x25 => some [chkSDst (fld w 18 6), chk2 (bit w 11)]
  | 0x26 | 0x28 | 0x29 | 0xE2 => some [chkSDst (fld w 18 6)]
  | 0x2A | 0x31 | 0x38 | 0x39 => some []
  | 0x3A => some [chk2 (bit w 10)]
  | 0x75 | 0x76 => some [chkSDst (fld w 18 6), chk2 (fld w 7 6 != 63#6)]
  | 0x78 => some [chkSDst (fld w 18 6), chk2 (fld w 7 6 != 63#6), chkMScope (fld w 4 3)]
  | 0x85 | 0x86 => some [chk2 (fld w 7 6 != 63#6)]
  | 0x88 => some [chk2 (fld w 7 6 != 63#6), chkMScope (fld w 4 3)]
  | 0x70 | 0x71 | 0x72 | 0x80 | 0x81 | 0x82 | 0xA0 | 0xA2 => some []
  | 0x73 | 0x83 => some [chkMult (fld w 18 6) 2]
  | 0x74 | 0x84 | 0xA1 | 0xA3 | 0xA4 | 0xA5 | 0xA6 | 0xA7 | 0xA8 => some [chkMult (fld w 18 6) 4]
  | 0x77 | 0x87 => some [chkMScope (fld w 4 3)]
  | 0x90 | 0x91 | 0x92 | 0x93 | 0x94 | 0x95 | 0x96 | 0x97 =>
    some (chkAtom (fld w 5 2) (fld w 2 3) ++ [chk2 (bit w 0)])
  | 0x98 => some (chkMult (fld w 18 6) 4 :: chkAtom (fld w 5 2) (fld w 2 3) ++ [chk2 (bit w 0)])
  | 0x99 => some (chkMult (fld w 18 6) 8 :: chkAtom (fld w 5 2) (fld w 2 3) ++ [chk2 (bit w 0)])
  | 0xB0 | 0xBC => some [chkZero (fld w 9 6), chkZero (fld w 5 4), chkHOp (fld w 3 2) (fld w 0 3)]
  | 0xB1 | 0xBD | 0xB5 => some [chkZero (fld w 9 6), chkZero (fld w 0 9)]
  | 0xB2 | 0xB4 => some [chkZero (fld w 15 6), chkZero (fld w 9 6), chkZero (fld w 0 9)]
  | 0xB3 => some [chkZero (fld w 15 6), chkSDst (fld w 9 6), chkZero (fld w 0 9)]
  | 0xB6 => some [chkBelow (fld w 15 6) 8, chkSDst (fld w 9 6), chkZero (fld w 0 9)]
  | 0xB7 => some [chk2 (fld w 3 2 == 2#2 && bit w 15), chkSDst (fld w 9 6), chkZero (fld w 5 4),
      chkHOp (fld w 3 2) (fld w 0 3)]
  | 0xB8 => some [chkZero (fld w 15 6), chkSDst (fld w 9 6), chkZero (fld w 3 6)]
  | 0xB9 | 0xBA => some [chkZero (fld w 21 3), chkBelow (fld w 15 6) 4, chkZero (fld w 0 9)]
  | 0xBB => some [chkZero (fld w 21 3), chkBelow (fld w 15 6) 4, chkZero (fld w 1 8)]
  | 0xC0 => if var < 2 then some [chkMult (fld w 3 5) 2] else none
  | 0xC1 => some [chkBelow (fld w 18 6) 32, chk2 (fld w 7 6 != 63#6)]
  | 0xC2 => if var = 0 then some [chkZero (fld w 13 5), chkZero (fld w 8 5), chkZero (fld w 3 5)] else none
  | 0xC3 => if var = 0 then some [chkZero (fld w 8 5), chkMult (fld w 3 5) 2] else none
  | 0xC4 => if var < 5 then some [chkMult (fld w 3 5) 2] else none
  | 0xC5 => if var < 2 then some [chkZero (fld w 8 4), chkMult (fld w 3 5) 2] else none
  | 0xD1 => some [chkZero (fld w 3 21), chkMScope (fld w 0 3)]
  | 0xD2 => some [chkZero (fld w 9 15), chkBelow (fld w 6 3) 5, chkBelow (fld w 3 3) 5, chkMScope (fld w 0 3)]
  | 0xE0 => some [chkBelow (fld w 15 4) 13, chkBelow (fld w 12 3) 5, chkZero (fld w 0 11)]
  | 0xE1 => some [chkZero (fld w 2 22), chkBelow (fld w 0 2) 3]
  | _ => none

/-- The field checks of a raw word, or none where opcode, sub or var is unassigned. -/
def rawChecks (w : BitVec 32) : Option (List Chk) :=
  let op := (fld w 24 8).toNat
  match tKinds op (fld w 0 2).toNat with
  | some (kd, ka, kb) =>
    if op = 0x1C ∨ op = 0x1D ∨ op = 0x1E then
      some (chkRed (if op = 0x1C then 16 else 8) (fld w 18 6) (fld w 12 6) (fld w 9 3) (fld w 6 3) 0 ++
        [chk2 (bit w 4), chkHoldA (fld w 2 2)])
    else if op = 0x50 then
      some ([chk2 (fld w 6 6 == 13#6 && fld w 12 6 != 0#6)] ++
        tChecks w kd (if fld w 6 6 = 13#6 then .s else ka) kb)
    else some (tChecks w kd ka kb)
  | none => otherChecks w

/-- What a word that is not assigned, or that has a nonzero reserved field, raises (R245, R268, R269). -/
def wordCause (dbg : Bool) (w : BitVec 32) : Cause :=
  match rawChecks w with
  | none => illegal 1
  | some cs =>
    if issuerAllows dbg (fld w 24 8).toNat (fld w 21 3).toNat then (firstBad cs).getD (illegal 2) else illegal 1

end Sys2Proof.Machine
end

