-- ==== Sys2Proof/Machine/Memory.lean ====
section
/-! DEFINITION. Memory: bytes in canonical form, HBM and other devices, page tables (R153), the scratchpad (R147 to
R149), the debug core's local store (R370), and the checks of an address (R145, R325). -/

namespace Sys2Proof.Machine

/-! ### Bytes -/

/-- What an address that is not listed reads as: zero for scratchpad (R149) and local store (R370); for HBM a
DESIGN CHOICE (log 13). -/
def unlisted : Byte := 0

/-- Read one byte. -/
def memGet : Mem → Nat → Byte
  | [], _ => unlisted
  | (k, b) :: t, a => if k = a then b else memGet t a

/-- Write one byte, keeping the canonical form. -/
def memSet : Mem → Nat → Byte → Mem
  | [], a, v => if v = unlisted then [] else [(a, v)]
  | (k, b) :: t, a, v =>
    if a < k then (if v = unlisted then (k, b) :: t else (a, v) :: (k, b) :: t)
    else if a = k then (if v = unlisted then t else (a, v) :: t)
    else (k, b) :: memSet t a v

/-- The canonical form above a bound: addresses at or above `lo` and rising, no unlisted value. -/
def memWfFrom : Nat → Mem → Bool
  | _, [] => true
  | lo, (k, b) :: t => decide (lo ≤ k) && decide (b ≠ unlisted) && memWfFrom (k + 1) t

/-- The canonical form of a memory: addresses rising, no entry equal to what an unlisted address reads as. -/
def Memory.wf (m : Mem) : Bool := memWfFrom 0 m

/-- Read `n` bytes upward from an address. -/
def memRead (m : Mem) : Nat → Nat → List Byte
  | _, 0 => []
  | a, n + 1 => memGet m a :: memRead m (a + 1) n

/-- Write bytes upward from an address. -/
def memWrite (m : Mem) : Nat → List Byte → Mem
  | _, [] => m
  | a, b :: bs => memWrite (memSet m a b) (a + 1) bs

/-! ### Physical memory (R9, R16, R21, R146) -/

/-- Why an access cannot be made now (R190, R16, R209). -/
inductive Bad where
  | page
  | viol (detail : BitVec 8)
  | misaligned
  | bound
  | hold (w : Wait)
  deriving DecidableEq, Repr

/-- The fault of R190 that a failed access of class `cls` raises. -/
def Bad.cause (b : Bad) (cls : Nat) : Cause :=
  match b with
  | .page => ⟨0x04, BitVec.ofNat 8 cls⟩
  | .viol d => ⟨0x05, d⟩
  | .misaligned => ⟨0x06, 0⟩
  | .bound => ⟨0x07, 0⟩
  | .hold _ => ⟨0x04, BitVec.ofNat 8 cls⟩

/-- The device's own number (R21); while Isacor has not set it, 0 (log 4). -/
def State.ownDev (s : State) : Nat := (s.devnum.map (·.toNat)).getD 0

/-- HBM ends at 8 × 80 GiB (R9). -/
def hbmEnd : Nat := 0xA000000000

/-- The stack of a local address (R9). -/
def stackOf (a : Nat) : Nat := a / (80 * 2 ^ 30)

/-- Can a device access use this local address now (R9, R16)? -/
def localBad (s : State) (a : Nat) : Option Bad :=
  if hbmEnd ≤ a then some (.viol 2)
  else if s.devfail.getLsbD (5 + stackOf a) then some (.viol 8)
  else if s.devrdy.getLsbD (5 + stackOf a) then none
  else some (.hold (.stack (stackOf a)))

/-- What stops an access to `n` bytes at a local address (R9, R16): they lie on two stacks at most. -/
def localRange (s : State) (a n : Nat) : Option Bad := (localBad s a).or (if n = 0 then none else localBad s (a + n - 1))

/-- Does a route reach a device: one that uses a port which carries traffic (R21, R24)? That no LNK bit is set yet does
not stop a request by itself (DESIGN CHOICE, log 98: R16 speaks of dies and stacks only). -/
def State.routed (s : State) (dev : Nat) : Bool := (s.routes.find dev).any (fun p => (s.port p).up)

/-- Can a device access use this physical address now (R9, R21, R146)? Local addresses above HBM exist on no device. An
access to another device is made whenever its route uses a port that is up, whatever LNK reads (DESIGN CHOICE, log 98). -/
def physBad (s : State) (pa : Nat) : Option Bad :=
  if pa / 2 ^ 43 = s.ownDev then localBad s (pa % 2 ^ 43)
  else if hbmEnd ≤ pa % 2 ^ 43 then some (.viol 2)
  else if s.routed (pa / 2 ^ 43) then none
  else some (.viol 2)

/-- The physical address of a local address. -/
def State.localPa (s : State) (a : Nat) : Nat := s.ownDev * 2 ^ 43 + a

/-- Read bytes at a physical address. -/
def physRead (s : State) (pa n : Nat) : List Byte :=
  if pa / 2 ^ 43 = s.ownDev then memRead s.mem (pa % 2 ^ 43) n else memRead s.far pa n

/-- Write bytes at a physical address. -/
def physWrite (s : State) (pa : Nat) (bs : List Byte) : State :=
  if pa / 2 ^ 43 = s.ownDev then { s with mem := memWrite s.mem (pa % 2 ^ 43) bs }
  else { s with far := memWrite s.far pa bs }

/-! ### Translation (R153) -/

/-- A translation: the physical address and the rights of the page. -/
structure Leaf where
  pa : Nat
  w  : Bool
  x  : Bool
  deriving DecidableEq, Repr

/-- The page size codes that a leaf may hold at a level (R153). -/
def sizeAllowed (level sz : Nat) : Bool :=
  match level with
  | 3 => sz == 9
  | 4 => decide (5 ≤ sz ∧ sz ≤ 8)
  | 5 => decide (sz ≤ 4)
  | _ => false

/-- The size of a page of code `n`: 4 KiB × 4^n (1 GiB for code 9). -/
def pageSize (n : Nat) : Nat := 4096 * 4 ^ n

/-- The index bits of a level start here. -/
def levelShift (level : Nat) : Nat := 12 + 9 * (5 - level)

/-- Walk the page-table tree from a level down; `fuel` levels are left (R153). Of the replicas of an entry the one that the
address itself indexes serves, and a pointer with a nonzero SZ is a bad entry (DESIGN CHOICES, log 130). -/
def walk (s : State) (va : Nat) : (fuel : Nat) → (table : Nat) → Except Bad Leaf
  | 0, _ => .error (.viol 1)
  | fuel + 1, table =>
    let level := 5 - fuel
    let a := table + 8 * (va / 2 ^ levelShift level % 512)
    match localBad s a with
    | some b => .error b
    | none =>
      let e := BitVec.ofNat 64 (leNat (memRead s.mem a 8))
      let frame := (e.extractLsb' 12 31).toNat * 4096
      let dev := (e.extractLsb' 43 21).toNat
      let sz := (e.extractLsb' 4 4).toNat
      if !e.getLsbD 0 then .error .page
      else if (e.extractLsb' 8 4) != 0#4 then .error (.viol 1)
      else if e.getLsbD 1 then
        if !sizeAllowed level sz || frame % pageSize sz != 0 then .error (.viol 1)
        else .ok ⟨dev * 2 ^ 43 + frame + va % pageSize sz, e.getLsbD 2, e.getLsbD 3⟩
      else if level = 5 || sz != 0 || dev != 0 then .error (.viol 1)
      else walk s va fuel frame

/-- Translate a virtual address in a context; `need` judges the leaf (R153). -/
def translate (s : State) (c : Context) (va : Nat) (need : Leaf → Option Bad) : Except Bad Nat :=
  match walk s va 5 c.root.toNat with
  | .error b => .error b
  | .ok l =>
    match need l with
    | some b => .error b
    | none =>
      match physBad s l.pa with
      | some b => .error b
      | none => .ok l.pa

/-- Reads need only V. -/
def needRead (_ : Leaf) : Option Bad := none

/-- Stores, atomics and copy writes need W (R153). -/
def needWrite (l : Leaf) : Option Bad := if l.w then none else some (.viol 3)

/-- A debug-core store may also write a page whose X is 1 (R370). -/
def needWriteDebug (l : Leaf) : Option Bad := if l.w || l.x then none else some (.viol 3)

/-- A fetch needs X (R153, detail 7). -/
def needFetch (l : Leaf) : Option Bad := if l.x then none else some (.viol 7)

/-! ### Windows (R145, R147, R160) -/

def windowBase : Nat := 0x01F0000000000000
def windowEnd : Nat := 0x01F0000010000000
def apertureBase : Nat := 0x01F0000100000000
def apertureEnd : Nat := 0x01F0000100010000
def reservedEnd : Nat := 0x0200000000000000

/-- The team that a scratchpad address names for a group of `team` (R147). -/
def spadTeam (team : Nat × Nat × Nat) (off28 : Nat) : Nat × Nat × Nat :=
  if off28 / 2 ^ 27 % 2 = 1 then (team.1, team.2.1, off28 / 2 ^ 24 % 8) else team

/-- The core whose scratchpad holds an offset of a team (R149). -/
def spadCore (t : Team) (off : Nat) : Nat :=
  if t.pair && decide (ceilDiv t.spad 2 * 1024 ≤ off) then t.core + 1 else t.core

/-- Does a core answer "absent, retry" (R209): frozen, or its region gated or in its hold (R85)? -/
def State.absentCore (s : State) (core : Nat) : Bool :=
  (s.core core).frozen.isSome || (s.region (regionOfCore core)).gate != .running

/-- Check a scratchpad access of `n` bytes (R148) and name its place. Accesses to another team's absent tile wait
(R209). `a` is the offset from the start of the window. -/
def spadPlace (s : State) (own : Nat × Nat × Nat) (n a : Nat) : Except Bad Place :=
  if 2 ^ 28 ≤ a || a / 2 ^ 21 % 8 != 0 then .error .bound
  else
    let key := spadTeam own a
    let off := a % 2 ^ 21
    match s.team? key with
    | none => .error .bound
    | some t =>
      if t.live = 0 || t.spad * 1024 < off + n then .error .bound
      else if key ≠ own && s.absentCore (spadCore t off) then .error (.hold (.absent (spadCore t off)))
      else .ok (.spad key off)

/-- The context in which a group's addresses are translated: its own, or for a debug core the one dctx names
(R210). -/
def State.spaceOf (s : State) (gid : GroupId) : Option Context :=
  if gid.isDebug then
    let c := (s.dbg gid.gang).dctx.toNat
    if c = 0 then none else s.ctx? c
  else
    match s.group? gid with
    | some g => s.ctx? g.ctx
    | none => none

/-- The local store of a debug core ends here (R370). -/
def storeEnd : Nat := 0x40000

/-- Kinds of access to an address; `amo` is an atomic's. -/
inductive Access where
  | read | write | amo | fetch
  deriving DecidableEq, Repr

/-- What a leaf must allow. -/
def Access.need (k : Access) (dbg : Bool) : Leaf → Option Bad :=
  match k with
  | .read => needRead
  | .write => if dbg then needWriteDebug else needWrite
  | .amo => needWrite
  | .fetch => needFetch

/-- Steps 3 to 5 of R325 for an access of `n` bytes by a group; `st8` allows the aperture (R160). -/
def placeOf (s : State) (gid : GroupId) (k : Access) (st8 : Bool) (n a : Nat) : Except Bad Place :=
  if gid.isDebug && decide (a < storeEnd) then .ok (.store gid.gang a)
  else if windowBase ≤ a && a < windowEnd then
    if gid.isDebug || k == .fetch then .error (.viol 4) else spadPlace s gid.teamKey n (a - windowBase)
  else if st8 && apertureBase ≤ a && a < apertureEnd && a % 64 = 0 then
    if (s.spaceOf gid).isNone then .error (.viol 2)
    else .ok (.aperture ((a - apertureBase) / 4096) ((a - apertureBase) / 64 % 64))
  else if windowBase ≤ a && a < reservedEnd then .error (.viol 4)
  else
    match s.spaceOf gid with
    | none => .error (.viol 2)
    | some c => (translate s c a (k.need gid.isDebug)).map .phys

/-- The checks of R325 on an address operand. -/
def checkAddr (s : State) (gid : GroupId) (k : Access) (st8 : Bool) (n : Nat) (a : Word) : Except Bad Place :=
  if 2 ^ 57 ≤ a.toNat then .error (.viol 5)
  else if a.toNat % n != 0 then .error .misaligned
  else placeOf s gid k st8 n a.toNat

/-- The checks of a scratchpad form (R333) on an address in the window: bound and alignment in the order of R325. -/
def checkSpad (s : State) (gid : GroupId) (n : Nat) (a : Word) : Except Bad Place :=
  if a.toNat % n != 0 then .error .misaligned
  else if gid.isDebug then .error (.viol 4)
  else spadPlace s gid.teamKey n (a - BitVec.ofNat 64 windowBase).toNat

/-- Read bytes at a place. -/
def readPlace (s : State) (p : Place) (n : Nat) : List Byte :=
  match p with
  | .phys pa => physRead s pa n
  | .spad t off => ((s.team? t).map (fun x => memRead x.bytes off n)).getD []
  | .store d off => memRead (s.dbg d).store off n
  | .aperture _ _ => List.replicate n 0

/-- Write bytes at a place. -/
def writePlace (s : State) (p : Place) (bs : List Byte) : State :=
  match p with
  | .phys pa => physWrite s pa bs
  | .spad t off => s.modTeam t (fun x => { x with bytes := memWrite x.bytes off bs })
  | .store d off => s.modDbg d (fun x => { x with store := memWrite x.store off bs })
  | .aperture _ _ => s

/-! ### Fetches -/

/-- Where an entry stub leads (R53, R54): to its function, or to the loader for a kernel. -/
inductive Stub where
  | body (pc : PC)
  | loader (kernel : Nat)
  deriving DecidableEq, Repr

/-- What an address of a context is as an entry stub, if it is one. -/
def stubAt (s : State) (ctx : Nat) (pc : PC) : Option Stub :=
  match s.ctx? ctx with
  | none => none
  | some c =>
    (c.fns.filterMap (fun f => (f.stubs.find? (fun e => e.1 == pc)).map (fun e =>
      match f.body, f.published with
      | some b, true => Stub.body (b + BitVec.ofNat 57 (4 * e.2))
      | _, _ => .loader f.kernel))).head?

/-- The word at a program counter (R243, R271): a fetch by a group in its address space. -/
def fetchWord (s : State) (gid : GroupId) (pc : PC) : Except Bad (BitVec 32) :=
  match placeOf s gid .fetch false 4 pc.toNat with
  | .error b => .error b
  | .ok p =>
    match readPlace s p 4 with
    | [b0, b1, b2, b3] => .ok (wordOfBytes b0 b1 b2 b3)
    | _ => .error (.viol 1)

/-- The word at a program counter of a sequencer, in its context. -/
def fetchIn (s : State) (ctx : Nat) (pc : PC) : Except Bad (BitVec 32) :=
  if windowBase ≤ pc.toNat && pc.toNat < reservedEnd then .error (.viol 4)
  else
    match s.ctx? ctx with
    | none => .error (.viol 2)
    | some c =>
      match translate s c pc.toNat needFetch with
      | .error b => .error b
      | .ok pa =>
        match physRead s pa 4 with
        | [b0, b1, b2, b3] => .ok (wordOfBytes b0 b1 b2 b3)
        | _ => .error (.viol 1)

end Sys2Proof.Machine
end

