-- ==== Sys2Proof/Machine/Order.lean ====
section
/-! DEFINITION. The order of memory events (R169 to R180), as far as the reads of one group can show it (log 23, log 99):
which writes an event may go behind, which loads are still to be performed, and what the ordering operations make of both. -/

namespace Sys2Proof.Machine

/-! ### Places -/

/-- The offset of a place. -/
def Place.off : Place → Nat
  | .phys a | .spad _ a | .store _ a => a
  | .aperture _ _ => 0

/-- A place some bytes further on. -/
def Place.add (p : Place) (n : Nat) : Place :=
  match p with
  | .phys a => .phys (a + n)
  | .spad t a => .spad t (a + n)
  | .store d a => .store d (a + n)
  | .aperture e c => .aperture e c

/-- Do two places lie in one memory? -/
def Place.near (p q : Place) : Bool :=
  match p, q with
  | .phys _, .phys _ => true
  | .spad t _, .spad u _ => t == u
  | .store d _, .store e _ => d == e
  | _, _ => false

/-- Do `n` bytes at a place and `m` bytes at another have a byte in common? -/
def Place.meets (p : Place) (n : Nat) (q : Place) (m : Nat) : Bool :=
  p.near q && decide (p.off < q.off + m ∧ q.off < p.off + n)

/-- Does a place lie in the same aligned 16 bytes as another? -/
def Place.beside (p q : Place) : Bool := p.near q && p.off / 16 == q.off / 16

/-- Do `n` bytes at a place lie within `m` bytes at another? -/
def Place.inside (p : Place) (n : Nat) (q : Place) (m : Nat) : Bool :=
  p.near q && decide (q.off ≤ p.off ∧ p.off + n ≤ q.off + m)

/-- Aligned pieces of 16 bytes, and every other byte alone. -/
def Place.parts (p : Place) : (fuel n : Nat) → List (Place × Nat)
  | 0, _ => []
  | fuel + 1, n =>
    if n = 0 then []
    else
      let k := if p.off % 16 = 0 ∧ 16 ≤ n then 16 else 1
      (p, k) :: (p.add k).parts fuel (n - k)

/-- The single-copy atomic parts of an access of `n` bytes (R177): a naturally aligned one of at most 16 bytes is whole. -/
def Place.split (p : Place) (n : Nat) : List (Place × Nat) :=
  if [1, 2, 4, 8, 16].contains n ∧ p.off % n = 0 then [(p, n)] else p.parts n n

/-- Lay `src`, which stands at `q`, over the bytes `bs` at `p`. -/
def overlay (p : Place) (bs : List Byte) (q : Place) (src : List Byte) : List Byte :=
  if p.near q then
    bs.zipIdx.map (fun (b, i) =>
      if q.off ≤ p.off + i ∧ p.off + i < q.off + src.length then src[p.off + i - q.off]?.getD b else b)
  else bs

/-! ### Lines (R170, R171) -/

/-- No ordering operation narrows what local order and reads give. -/
def scopeAll : Nat := 7

/-- The widest scope at which a list names a line of `f`. -/
def Lines.reach (l : Lines) (f : Line → Bool) : Option Nat := ((l.filter (fun x => f x.1)).map (·.2)).max?

/-- Name a line at a scope, unless it is named as widely already. -/
def Lines.name (sc : Nat) (l : Lines) (x : Line) : Lines :=
  if l.any (fun y => y.1 == x && decide (sc ≤ y.2)) then l else (x, sc) :: l.filter (fun y => y.1 != x)

/-- Name some lines at a scope. -/
def Lines.nameAll (l : Lines) (ls : List Line) (sc : Nat) : Lines := ls.foldl (Lines.name sc) l

/-- The lines of a class for a slot of a group: of both slots while it is not split, since these events come before or after
all of both (R171). -/
def State.lines (s : State) (gid : GroupId) (sl : SlotId) (cls : Nat) : List Line :=
  if (s.group? gid).any (·.split) then [.path gid sl cls] else [.path gid .a cls, .path gid .b cls]

/-- The lines of some classes. -/
def State.paths (s : State) (gid : GroupId) (sl : SlotId) (reach : List Nat) : List Line := reach.flatMap (s.lines gid sl)

/-- Is a line one of these? -/
def among (ls : List Line) (x : Line) : Bool := ls.contains x

/-- Is a line one of a group's? -/
def Line.ofGroup (gid : GroupId) : Line → Bool
  | .path g _ _ => g == gid
  | _ => false

/-- The scope at which an operation of a group acts: die scope is package scope while the group runs on another die than
its own (R178). -/
def State.scopeFor (s : State) (gid : GroupId) (sc : BitVec 3) : Nat :=
  if sc = 3#3 ∧ (s.group? gid).any (fun g => dieOfCore g.core != g.die) then 4 else sc.toNat

/-- The scope that orders an access to a place: system scope for another device (R179). -/
def State.needAt (s : State) (p : Place) : Nat :=
  match p with
  | .phys pa => if pa / 2 ^ 43 = s.ownDev then 0 else 5
  | _ => 0

/-- A list with the lines of another, no more widely than a scope. -/
def Lines.join (l m : Lines) (sc : Nat) : Lines := m.foldl (fun l x => Lines.name (min sc x.2) l x.1) l

/-! ### Events -/

/-- An event: the groups whose writes it may go behind, its lines, further lines that stand for it, the scope that reaches
its agent, and whether it is performed at once. -/
structure Event where
  groups : List GroupId
  lines  : List Line
  also   : List Line
  need   : Nat
  now    : Bool

/-- An event of a group in a class. -/
def State.eventOf (s : State) (gid : GroupId) (sl : SlotId) (cls : Nat) : Event := ⟨[gid], s.lines gid sl cls, [], 0, true⟩

/-- The lines that an event leaves its trace on. -/
def Event.trace (e : Event) : List Line := e.lines ++ e.also

/-- Name bytes on a line, unless they are named as widely already. -/
def Foot.add (l : List Foot) (x : Foot) : List Foot :=
  if l.any (fun y => y.line == x.line && decide (x.scope ≤ y.scope) && x.place.inside x.bytes y.place y.bytes) then l else l ++ [x]

/-- What follows an event on some bytes as it happens. -/
def Follows.start (e : Event) (p : Place) (n : Nat) : Follows :=
  { foot := e.lines.map (⟨·, p, n, scopeAll⟩), knows := [], past := e.trace.map (·, scopeAll) }

/-- The scope at which an event on some bytes follows: after an ordering operation, or on common bytes in local order
(R171). -/
def Follows.before (f : Follows) (e : Event) (p : Place) (n : Nat) : Option Nat :=
  ((f.foot.filter (fun x => e.lines.contains x.line && x.place.meets x.bytes p n)).map (·.scope) ++
    (f.knows.reach (among e.lines)).toList).max?

/-- An event on some bytes follows, within a scope. -/
def Follows.step (f : Follows) (e : Event) (p : Place) (n k : Nat) : Follows :=
  { f with past := f.past.nameAll e.trace k
           foot := if n = 0 then f.foot else e.lines.foldl (fun l x => Foot.add l ⟨x, p, n, k⟩) f.foot }

/-- What follows another event follows too, within a scope. -/
def Follows.join (f g : Follows) (k : Nat) : Follows :=
  { foot := g.foot.foldl (fun l x => Foot.add l { x with scope := min k x.scope }) f.foot
    knows := f.knows.join g.knows k, past := f.past.join g.past k }

/-- Has a single event followed, within a scope? -/
def Follows.reaches (f : Follows) (id need : Nat) : Bool := f.past.any (fun x => x.1 == .write id && decide (need ≤ x.2))

/-- Change what follows each write and each pending load. -/
def State.mapAfter (s : State) (f : Follows → Follows) : State :=
  { s with ledger := { s.ledger with
    writes := s.ledger.writes.map (fun r => { r with after := f r.after })
    loads := s.ledger.loads.map (fun l => { l with after := f l.after }) } }

/-- Does a write meet some bytes? -/
def Written.meets (r : Written) (p : Place) (n : Nat) : Bool := r.place.meets r.old.length p n

/-- Must an event on some bytes see a write (R173, R174 item 3)? -/
def Written.knownTo (r : Written) (e : Event) (p : Place) (n : Nat) : Bool :=
  (r.after.before e p n).any (fun k => decide (max e.need r.need ≤ k))

/-- Is a write one that an event may go behind at all: of its own groups (log 23)? -/
def Written.ownedBy (r : Written) (e : Event) : Bool := r.group.any e.groups.contains

/-- An event on some bytes happens: it follows what comes before it. -/
def State.happen (s : State) (e : Event) (p : Place) (n : Nat) : State :=
  s.mapAfter (fun f => match f.before e p n with
    | some k => f.step e p n k
    | none => f)

/-- No bytes. -/
def nowhere : Place := .phys 0

/-- What an event of a line of `src` has followed, an event of the lines `dst` follows, through an operation of a scope: a
release, a read of a write, an acquire (R172, R173). -/
def State.carry (s : State) (src : Line → Bool) (sc : Nat) (dst : List Line) : State :=
  s.mapAfter (fun f => match f.past.reach src with
    | some k => { f with past := f.past.nameAll dst (min sc k) }
    | none => f)

/-- What an event of a line of `src` has followed, every later event of the lines `dst` follows (R171). -/
def State.order (s : State) (src : Line → Bool) (sc : Nat) (dst : List Line) : State :=
  s.mapAfter (fun f => match f.past.reach src with
    | some k => { f with knows := f.knows.nameAll dst (min sc k) }
    | none => f)

/-- A new event is at hand: marks of an earlier one go. -/
def State.unmark (s : State) (ks : List Nat) : State :=
  s.mapAfter (fun f => { f with past := f.past.filter (fun x => !ks.any (fun k => x.1 == .mark k)) })

/-! ### Reads (R174, R177) -/

/-- Is write `x` later than `r` in a list? -/
def Written.newer (ws : List Written) (x r : Written) : Bool := ((ws.dropWhile (·.id != r.id)).drop 1).any (·.id == x.id)

/-- Must an event that sees `x` of some aligned 16 bytes also see `r` of these: an older write of common bytes, or one causally
before `x`? -/
def Written.above (ws : List Written) (need : Nat) (x r : Written) : Bool :=
  r.place.beside x.place &&
    ((Written.newer ws x r && r.meets x.place x.old.length) || r.after.reaches x.id (max need r.need))

/-- The writes of a list that an event which sees some of them must see. -/
def closeUp (ws : List Written) (need : Nat) : (fuel : Nat) → List Nat → List Nat
  | 0, seen => seen
  | n + 1, seen =>
    closeUp ws need n ((ws.filter (fun r =>
      seen.contains r.id || ws.any (fun x => seen.contains x.id && x.above ws need r))).map (·.id))

/-- Free values name some of a list of writes. -/
def State.draws : List Written → State → List Nat × State
  | [], s => ([], s)
  | r :: rs, s =>
    let (w, s) := s.drawWord
    let (l, s) := State.draws rs s
    (if w.getLsbD 0 then l else r.id :: l, s)

/-- Of some writes, those that an event sees: what it must, what free values say, and what these bring with them. A part is seen
whole or not at all (R177). -/
def State.choose (need : Nat) (must : Written → Bool) (ws : List Written) (s : State) : List Nat × State :=
  let (l, s) := State.draws (ws.filter (fun r => !must r)) s
  (closeUp ws need ws.length ((ws.filter must).map (·.id) ++ l), s)

/-- Does a write hold byte `i` of a place? -/
def Written.holds (r : Written) (p : Place) (i : Nat) : Bool :=
  r.place.near p && decide (r.place.off ≤ p.off + i ∧ p.off + i < r.place.off + r.old.length)

/-- The bytes at a place as an event finds them that goes behind some writes. -/
def State.bytesBehind (s : State) (gone : List Nat) (p : Place) (n : Nat) : List Byte :=
  (s.ledger.writes.filter (fun r => gone.contains r.id)).foldr (fun r bs => overlay p bs r.place r.old) (readPlace s p n)

/-- Of the writes `ws`, those among `seen` of which a part at a place returns a byte. -/
def givenAt (ws : List Written) (seen : List Nat) (p : Place) (n : Nat) : List Nat :=
  (ws.filter (fun r => seen.contains r.id && (List.range n).any (fun i =>
    r.holds p i && !ws.any (fun x => seen.contains x.id && Written.newer ws x r && x.holds p i)))).map (·.id)

/-- What one part of a read has come to: the writes that it sees, those whose bytes it returns, and those that it goes
behind. -/
structure Part where
  id    : Nat                            -- its number, while it is pending
  lane  : Nat
  start : Nat                            -- where it stands in the bytes of its lane
  place : Place
  bytes : Nat
  seen  : List Nat
  given : List Nat
  gone  : List Nat
  deriving DecidableEq, Repr

/-- The event of a part: a pending one has a line of its own. -/
def Part.event (e : Event) (x : Part) : Event := if e.now then e else { e with also := .write x.id :: e.also }

/-- A part at a place, of an event that sees some writes. -/
def State.part (s : State) (lane start : Nat) (p : Place) (n : Nat) (seen : List Nat) : Part :=
  let ws := s.ledger.writes.filter (fun r => r.meets p n)
  { id := 0, lane := lane, start := start, place := p, bytes := n, seen := (ws.map (·.id)).filter seen.contains
    given := givenAt ws seen p n, gone := (ws.map (·.id)).filter (fun k => !seen.contains k) }

/-- The parts of the reads of an event, none of which is ordered with another (R171, R177), and what each sees. -/
def State.readParts (e : Event) : State → List (Nat × Nat × Place × Nat) → List Part × State
  | s, [] => ([], s)
  | s, (lane, start, p, n) :: l =>
    let (seen, s) := s.choose e.need (fun r => !r.ownedBy e || r.knownTo e p n) (s.ledger.writes.filter (fun r => r.meets p n))
    let (xs, s) := State.readParts e s l
    (s.part lane start p n seen :: xs, s)

/-- The scope at which a part follows what it returns or what comes before it. -/
def Part.follows (e : Event) (x : Part) (f : Follows) : Option Nat :=
  ((f.before e x.place x.bytes).toList ++ (f.past.reach (among (x.given.map .write))).toList).max?

/-- A pending load that parts which are performed for good follow (R174 items 3 and 4). -/
def Loading.shutBy (e : Event) (xs : List Part) (l : Loading) : Loading :=
  let ys := if e.now then xs.filter (fun x => (l.after.before e x.place x.bytes).any (fun k => decide (max e.need l.need ≤ k))) else []
  { l with bars := l.bars ++ ys.flatMap (·.gone), shut := l.shut ++ ys.map (fun x => (x.place, x.bytes)) }

/-- The parts of a read have returned: they follow what comes before them, the writes that they return, and all that comes
before these (R171, R173). -/
def State.absorb (s : State) (e : Event) (xs : List Part) : State :=
  let s : State := { s with ledger := { s.ledger with
    writes := s.ledger.writes.map (fun r =>
      { r with mixed := r.mixed || xs.any (fun x => x.seen.contains r.id && !x.place.inside x.bytes r.place r.old.length) })
    loads := s.ledger.loads.map (Loading.shutBy e xs) } }
  s.mapAfter (fun f => xs.foldl (fun g x =>
    match x.follows e f with
    | some k => g.step (x.event e) x.place x.bytes k
    | none => g) f)

/-- The parts of a lane's bytes at a place. -/
def laneParts (n : Nat) (x : Nat × Place) : List (Nat × Nat × Place × Nat) :=
  (x.2.split n).map (fun (q, k) => (x.1, q.off - x.2.off, q, k))

/-- Parts that are performed later (R119, R326): until then a later write of the group may come before them. -/
def State.pend (s : State) (e : Event) (dest : Option (GroupId × SlotId × BitVec 6)) (xs : List Part) : State :=
  { s with ledger := { s.ledger with
    next := s.ledger.next + xs.length
    loads := s.ledger.loads ++ xs.map (fun x =>
      { id := x.id, lines := e.lines, since := s.steps, dest := dest, lane := x.lane, start := x.start, place := x.place
        bytes := x.bytes, need := s.needAt x.place, value := none, gone := x.gone, bars := [], shut := [], done := false
        after := .start (x.event e) x.place x.bytes }) } }

/-- Reads of `n` bytes at some places, with a lane each, by one instruction: their parts, and the state after them. -/
def State.reads (s : State) (e : Event) (n : Nat) (dest : Option (GroupId × SlotId × BitVec 6)) (ps : List (Nat × Place)) :
    List Part × State :=
  let (xs, s) := State.readParts e s (ps.flatMap (laneParts n))
  let xs := xs.zipIdx.map (fun (x, i) => { x with id := s.ledger.next + i })
  let t := s.absorb e xs
  (xs, if e.now then t else t.pend e dest xs)

/-- The bytes of a lane of some parts, as they found memory. -/
def State.laneOf (s : State) (xs : List Part) (l : Nat) : List Byte :=
  (xs.filter (·.lane == l)).flatMap (fun x => s.bytesBehind x.gone x.place x.bytes)

/-- A read of `n` bytes by an event. -/
def State.readBy (s : State) (e : Event) (p : Place) (n : Nat) : List Byte × State :=
  let (xs, t) := s.reads { e with now := true } n none [(0, p)]
  (s.laneOf xs 0, t)

/-- An event reads the newest of some bytes: an atomic (R174 item 6), or a load of a fill (R172). -/
def State.newest (s : State) (e : Event) (p : Place) (n : Nat) : State :=
  s.absorb e [s.part 0 0 p n (s.ledger.writes.map (·.id))]

/-- A read of a group in a class. -/
def State.readAs (s : State) (gid : GroupId) (sl : SlotId) (cls : Nat) (p : Place) (n : Nat) : List Byte × State :=
  s.readBy (s.eventOf gid sl cls) p n

/-- The reads of the lanes of an instruction: the bytes of each lane, and the state after them. -/
def State.readLanes (s : State) (e : Event) (n : Nat) (dest : Option (GroupId × SlotId × BitVec 6)) (ps : List (Nat × Place)) :
    Vector (List Byte) 64 × State :=
  let (xs, t) := s.reads e n dest ps
  (ps.foldl (fun v x => v.setIfInBounds x.1 (s.laneOf xs x.1)) (.replicate 64 []), t)

/-- What the reads of one word see: the memory as they find it, and the writes that they go behind. -/
structure View where
  mem  : State
  gone : List Nat

/-- The memory that the reads of one word see: each aligned 16 bytes on their own (R177, R182). -/
def State.viewBy (s : State) (e : Event) : View × State :=
  let ws := s.ledger.writes.filter (·.ownedBy e)
  let (seen, t) := s.choose e.need (fun r => r.knownTo e r.place r.old.length) ws
  let gone := ws.filter (fun r => !seen.contains r.id)
  (⟨gone.foldr (fun r v => writePlace v r.place r.old) t, gone.map (·.id)⟩, t)

/-- The memory that the reads of a word of a group in a class see. -/
def State.viewFor (s : State) (gid : GroupId) (sl : SlotId) (cls : Nat) : View × State := s.viewBy (s.eventOf gid sl cls)

/-- The reads of a word have found the bytes at some places in a view. -/
def State.viewed (s : State) (e : Event) (gone : List Nat) (ps : List (Place × Nat)) : State :=
  let seen := (s.ledger.writes.map (·.id)).filter (fun k => !gone.contains k)
  s.absorb e (ps.flatMap (fun (p, n) => (p.split n).map (fun (q, k) => s.part 0 0 q k seen)))

/-- Some pending loads are performed and leave the ledger; what they have read bars later writes from those that they
follow. -/
def State.perform (s : State) (f : Loading → Bool) : State :=
  let mine := s.ledger.loads.filter f
  { s with ledger := { s.ledger with
    loads := (s.ledger.loads.filter (fun l => !f l)).map (fun l =>
      let ys := mine.filter (fun x => l.after.reaches x.id (max l.need x.need))
      { l with bars := l.bars ++ ys.flatMap (·.gone), shut := l.shut ++ ys.map (fun x => (x.place, x.bytes)) }) } }

/-- The bytes of a lane of a pending load with those of this part, once it has returned a later write. -/
def Loading.lay (l : Loading) (bs : List Byte) : List Byte :=
  match l.value with
  | some x => bs.take l.start ++ x ++ bs.drop (l.start + l.bytes)
  | none => bs

/-- A scalar load that has returned a later write of its group holds its bytes in its register. -/
def State.landScalar (s : State) (l : Loading) : State :=
  match l.dest with
  | some (gid, sl, t) =>
    if l.value.isNone then s
    else s.modGroup gid (fun g =>
      if sl = .b ∧ g.b.isNone then g else g.writeS sl t (BitVec.ofNat 64 (leNat (l.lay (leBytes l.bytes (g.readS sl t).toNat)))))
  | none => s

/-- The scalar loads that have returned later writes hold their bytes. -/
def State.landScalars (s : State) : State := s.ledger.loads.foldl State.landScalar s

/-- Is a load a scalar load of a group? -/
def Loading.scalarOf (gid : GroupId) (l : Loading) : Bool := l.dest.any (fun d => d.1 == gid)

/-- The registers of a slot of a group go to another slot, and its pending scalar loads with them; those of a slot whose
registers stay behind are performed. -/
def State.reslot (s : State) (gid : GroupId) (f : SlotId → Option SlotId) : State :=
  let s := ((s.ledger.loads.filter (Loading.scalarOf gid)).foldl State.landScalar s).perform (fun l =>
    l.dest.any (fun (k, x, _) => k == gid && (f x).isNone))
  { s with ledger := { s.ledger with
    loads := s.ledger.loads.map (fun l => { l with
      dest := l.dest.map (fun (k, x, t) => (k, if k = gid then (f x).getD x else x, t)) }) } }

/-! ### Writes -/

/-- May a pending load return a write, with what it would see besides (R174)? Not where it comes before one of these, nor where
an event that follows it has gone behind one, or has come before one with a write of its own. -/
def Loading.mayTake (s : State) (l : Loading) (new : List Nat) : Bool :=
  let ws := s.ledger.writes
  (ws.filter (fun g => new.any (fun k => g.id == k || g.after.reaches k (max l.need g.need)))).all (fun g =>
    !l.bars.contains g.id && !l.after.reaches g.id (max l.need g.need) &&
    !s.ledger.loads.any (fun m => l.after.reaches m.id (max l.need m.need) && m.gone.contains g.id) &&
    !ws.any (fun y => l.after.reaches y.id (max l.need y.need) && Written.newer ws g y && y.meets g.place g.old.length))

/-- A pending load goes behind a write. -/
def State.passBy (s : State) (lid wid : Nat) : State :=
  { s with ledger := { s.ledger with
    loads := s.ledger.loads.map (fun l => if l.id = lid then { l with gone := l.gone ++ [wid] } else l) } }

/-- A pending load sees some writes from now on, `new` among them: what comes before those is before all that follows it
(R173). -/
def State.take (s : State) (l : Loading) (ws : List Written) (seen new : List Nat) : State :=
  let gone := (ws.map (·.id)).filter (fun k => !seen.contains k)
  let src := among (((givenAt ws seen l.place l.bytes).filter new.contains).map .write)
  let s : State := { s with ledger := { s.ledger with
    writes := s.ledger.writes.map (fun r =>
      { r with mixed := r.mixed || (new.contains r.id && !l.place.inside l.bytes r.place r.old.length) })
    loads := s.ledger.loads.map (fun m =>
      if m.id = l.id then { m with gone := gone, value := some (s.bytesBehind gone l.place l.bytes) }
      else if (m.after.past.reach src).isSome then { m with bars := m.bars ++ l.bars, shut := m.shut ++ l.shut }
      else m) } }
  s.mapAfter (fun f => match f.past.reach src with
    | some k => f.join l.after k
    | none => f)

/-- A pending load is offered a write of its group that nothing orders after it (R171): it returns it, or goes behind it, as
a free value says. -/
def State.offerTo (wid : Nat) (s : State) (lid : Nat) : State :=
  match s.ledger.writes.find? (·.id == wid), s.ledger.loads.find? (·.id == lid) with
  | some w, some l =>
    if !w.meets l.place l.bytes || l.done then s
    else
      let ws := s.ledger.writes.filter (fun r => r.meets l.place l.bytes)
      let had := (ws.map (·.id)).filter (fun k => k != wid && !l.gone.contains k)
      let seen := closeUp ws l.need ws.length (wid :: had)
      let new := seen.filter (fun k => !had.contains k)
      if !l.mayTake s new then s.passBy lid wid
      else
        let (x, s) := s.drawWord
        if x.getLsbD 0 then s.take l ws seen new else s.passBy lid wid
  | _, _ => s

/-- A write stands in the ledger: the pending loads of its group may return it, the newest of them first, and those of another
group that it meets are before it (log 23). -/
def State.offer (s : State) (w : Written) : State :=
  let mine (l : Loading) : Bool := w.group.any (fun g => l.lines.any (Line.ofGroup g))
  let s : State := { s with ledger := { s.ledger with
    loads := s.ledger.loads.map (fun l =>
      { l with
        done := l.done || (!mine l && w.meets l.place l.bytes)
        bars := if l.shut.any (fun x => w.meets x.1 x.2) then l.bars ++ [w.id] else l.bars
        gone := if !mine l && w.meets l.place l.bytes then l.gone ++ [w.id] else l.gone }) } }
  ((s.ledger.loads.filter mine).map (·.id)).reverse.foldl (State.offerTo w.id) s

/-- Writes of other agents stand in memory at once (log 23): an older write that one meets is behind it. -/
def Ledger.under (l : Ledger) (p : Place) (n : Nat) : Ledger :=
  { l with
    writes := l.writes.filter (fun r => !r.meets p n)
    loads := l.loads.map (fun x => if x.place.meets x.bytes p n then { x with done := true } else x) }

/-- A write of another agent. -/
def State.put (s : State) (p : Place) (bs : List Byte) : State := writePlace { s with ledger := s.ledger.under p bs.length } p bs

/-- Where a write comes before some writes `later` of common bytes, the bytes of memory that it leaves (R174). -/
def besides (later : List Written) (p : Place) (bs now : List Byte) : List Byte :=
  bs.zipIdx.map (fun (b, i) => if later.any (·.holds p i) then now[i]?.getD b else b)

/-- The bytes that writes which a new one comes before have replaced: where one was the first to follow, those of the new
one. -/
def replacedBy (p : Place) (bs : List Byte) : (later above : List Written) → List Written
  | [], _ => []
  | r :: rs, above =>
    { r with old := r.old.zipIdx.map (fun (b, i) =>
        let q := r.place.add i
        if p.near q && decide (p.off ≤ q.off) && !above.any (·.holds q 0) then bs[q.off - p.off]?.getD b else b) } ::
      replacedBy p bs rs (above ++ [r])

/-- Of some writes, oldest first, those of a list and what stands after one of these on common bytes. -/
def tailOf (later : List Nat) (ws : List Written) : List Nat :=
  (ws.foldl (fun (l : List Written) r =>
    if later.contains r.id || l.any (fun x => x.meets r.place r.old.length) then l ++ [r] else l) []).map (·.id)

/-- The writes that a new one of some bytes is placed among: those of its group, or for one of no group all. -/
def State.mates (s : State) (owner : Option GroupId) (p : Place) (n : Nat) : List Written :=
  s.ledger.writes.filter (fun r => r.meets p n && (owner.isNone || r.group == owner))

/-- Of these, those that come before it in the modification order of common bytes (R174): what must, and of the others of its
group, which nothing orders before it, what free values say. -/
def State.placed (s : State) (e : Event) (owner : Option GroupId) (atom : Bool) (p : Place) (n : Nat) : List Nat × State :=
  let must (r : Written) : Bool :=
    owner.isNone || atom || r.atom || r.after.reaches s.ledger.next (max e.need r.need) ||
      (r.mixed && !p.inside n r.place r.old.length)
  s.choose e.need must (s.mates owner p n)

/-- A new write enters the ledger, before the writes `later`. Older ones of other groups that it meets are behind it (log 23). -/
def Ledger.enter (l : Ledger) (r : Written) (p : Place) (bs : List Byte) (later : List Written) : Ledger :=
  let kept := l.writes.filter (fun x => !(x.meets p bs.length && (r.group.isNone || x.group != r.group)))
  let tail := tailOf (later.map (·.id)) kept
  let fixed := replacedBy p bs later []
  let moved := (kept.filter (fun x => tail.contains x.id)).map (fun x => (fixed.find? (·.id == x.id)).getD x)
  { l with writes := kept.filter (fun x => !tail.contains x.id) ++ r :: moved, next := r.id + 1 }

/-- Write one part. `src` are lines whose events come before the write beside those of its own lines. -/
def State.writeAtom (s : State) (e : Event) (owner : Option GroupId) (atom : Bool) (src : List Line) (p : Place) (bs : List Byte) :
    State :=
  let e := { e with also := .write s.ledger.next :: e.also }
  let s := (s.happen e p bs.length).carry (among src) scopeAll [.write s.ledger.next]
  let (before, s) := s.placed e owner atom p bs.length
  let later := (s.mates owner p bs.length).filter (fun r => !before.contains r.id)
  let now := readPlace s p bs.length
  let r : Written :=
    { id := s.ledger.next, group := owner, place := p, old := later.foldr (fun x bs => overlay p bs x.place x.old) now
      need := s.needAt p, atom := atom, mixed := false, after := .start e p bs.length }
  let t := writePlace s p (besides later p bs now)
  State.offer { t with ledger := s.ledger.enter r p bs later } r

/-- Write bytes, part by part (R177). -/
def State.writeBy (s : State) (e : Event) (owner : Option GroupId) (atom : Bool) (src : List Line) (p : Place) (bs : List Byte) :
    State :=
  (p.split bs.length).foldl (fun s (q, n) =>
    s.writeAtom e owner atom src q ((bs.drop (q.off - p.off)).take n)) s

/-- A write of a group in a class, after what events of `src` follow (R170): the bytes stand in memory, and reads of the
group's other lines may return the old ones until something orders them (R171). -/
def State.writeAs (s : State) (gid : GroupId) (sl : SlotId) (cls : Nat) (src : List Line) (p : Place) (bs : List Byte) : State :=
  if gid.isDebug then s.put p bs else s.writeBy (s.eventOf gid sl cls) (some gid) false src p bs

/-- The matrix class. -/
def matrixClass : Nat := 2

/-- Pieces of bytes at places, those that follow one another in the same aligned 16 bytes joined. -/
def joined (l : List (Place × List Byte)) : List (Place × List Byte) :=
  l.foldr (fun (p, bs) acc =>
    match acc with
    | (q, cs) :: rest => if p.add bs.length = q ∧ p.beside q then (p, bs ++ cs) :: rest else (p, bs) :: acc
    | [] => [(p, bs)]) []

/-- The writes of a drain of a group (R177, R364): what lies in the same aligned 16 bytes is one part. -/
def State.drainAs (s : State) (gid : GroupId) (sl : SlotId) (l : List (Place × List Byte)) : State :=
  (joined l).foldl (fun s (p, bs) => s.writeAtom (s.eventOf gid sl matrixClass) (some gid) false [] p bs) s

/-! ### Ordering operations (R172) -/

/-- A release of a slot: an event of the lines `dst` follows its events of the reach. -/
def State.release (s : State) (gid : GroupId) (sl : SlotId) (reach : List Nat) (sc : Nat) (dst : List Line) : State :=
  s.carry (among (s.paths gid sl reach)) sc dst

/-- An acquire of a slot: its later events of the reach follow what the event at hand follows. -/
def State.acquire (s : State) (gid : GroupId) (sl : SlotId) (sc : Nat) (reach : List Nat) : State :=
  s.order (among [.mark 0]) sc (s.paths gid sl reach)

/-- The class of atomics. -/
def atomicClass : Nat := 4

/-- An atomic is at hand; with a release, events of the reach come before it (R172). -/
def State.amoBegin (s : State) (gid : GroupId) (sl : SlotId) (release : Option Nat) : State :=
  let s := s.unmark [0, 1, 2]
  match release with
  | some sc => s.release gid sl [0, atomicClass] sc [.mark 0, .mark 1]
  | none => s

/-- One operation of an atomic: it reads the newest bytes and writes in one step (R159, R174 item 6). -/
def State.amo (s : State) (gid : GroupId) (sl : SlotId) (p : Place) (bs : List Byte) : State :=
  if gid.isDebug then s.put p bs
  else
    let e := s.eventOf gid sl atomicClass
    ((s.unmark [2]).newest { e with also := [.mark 0, .mark 2] } p bs.length).writeBy { e with also := [.mark 0] } (some gid) true
      [.mark 1, .mark 2] p bs

/-- A completion signal (R165, R172): an atomic of no group, which events of lines of `src` come before. -/
def State.bridge (s : State) (src : Line → Bool) (sc : Nat) (p : Place) (bs : List Byte) : State :=
  let e : Event := ⟨[], [], [], 4, true⟩
  (((s.unmark [1, 2]).carry src sc [.mark 1]).newest { e with also := [.mark 2] } p bs.length).writeBy e none true [.mark 1, .mark 2] p bs

/-- A fence between two sets of classes of a slot (R171). -/
def State.fence (s : State) (gid : GroupId) (sl : SlotId) (before : List Nat) (sc : Nat) (after : List Nat) : State :=
  s.order (among (s.paths gid sl before)) sc (s.paths gid sl after)

/-- A line starts afresh, with what the lines `src` hold. -/
def State.relay (s : State) (src : List Line) (dst : Line) : State :=
  (s.mapAfter (fun f => { f with past := f.past.filter (fun x => x.1 != dst) })).carry (among src) scopeAll [dst]

/-- The class of synchronisation. -/
def syncClass : Nat := 3

/-- A synchronisation event of a slot of a group that releases over a reach; what it follows goes to the lines `dst` (R172). -/
def State.syncRelease (s : State) (gid : GroupId) (sl : SlotId) (reach : List Nat) (sc : Nat) (dst : List Line) : State :=
  let e : Event := { s.eventOf gid sl syncClass with also := [.mark 0] }
  (((s.unmark [0]).happen e nowhere 0).release gid sl reach sc e.trace).carry (among [.mark 0]) scopeAll dst

/-- A synchronisation event of a slot of a group that acquires over a reach what the lines `src` hold; what it follows goes to
the lines `dst` (R170, R172). -/
def State.syncAcquire (s : State) (gid : GroupId) (sl : SlotId) (src : List Line) (reach : List Nat) (sc : Nat) (dst : List Line) :
    State :=
  let e : Event := { s.eventOf gid sl syncClass with also := [.mark 0] }
  ((((s.unmark [0]).happen e nowhere 0).carry (among src) scopeAll e.trace).acquire gid sl sc reach).carry (among [.mark 0])
    scopeAll dst

/-- What a group's synchronisation events have followed goes to the lines `dst`, or what these hold to the group (R137). -/
def State.syncCarry (s : State) (gid : GroupId) (dst : List Line) : State := s.carry (among (s.lines gid .a syncClass)) scopeAll dst

/-- The other slot's line. -/
def Line.twin (gid : GroupId) : Line → List Line
  | .path g sl c => if g = gid then [.path g (if sl = .a then .b else .a) c] else []
  | .tileBy g sl h k => if g = gid then [.tileBy g (if sl = .a then .b else .a) h k] else []
  | _ => []

/-- Each line at its scope, and the other slot's beside it. -/
def Lines.twins (gid : GroupId) (l : Lines) : Lines := l.foldl (fun m x => m.nameAll (x.1.twin gid) x.2) l

/-- What follows an event, with the other slot's lines beside each. -/
def Follows.twins (gid : GroupId) (f : Follows) : Follows :=
  { foot := f.foot.foldl (fun l x => (x.line.twin gid).foldl (fun l y => Foot.add l { x with line := y }) l) f.foot
    knows := f.knows.twins gid, past := f.past.twins gid }

/-- The slots of a group have merged: its later events follow in program order those of both (R171). -/
def State.joinLines (s : State) (gid : GroupId) : State :=
  let both (l : List Line) : List Line := (l ++ l.flatMap (Line.twin gid)).eraseDups
  let copy (c : Copy) : Copy := if c.group = some gid then { c with slots := [.a, .b] } else c
  let s := s.mapAfter (Follows.twins gid)
  { s with
    ledger := { s.ledger with loads := s.ledger.loads.map (fun l => { l with lines := both l.lines }) }
    channels := s.channels.mapVals (fun _ l => l.map copy)
    contexts := s.contexts.mapVals (fun _ c => { c with susp := c.susp.map (fun x => (x.1, x.2.1, copy x.2.2)) }) }

/-- Is a line one of a group of a grid? -/
def Line.ofGrid (grid : Nat) : Line → Bool
  | .path g _ _ => g.grid == grid
  | _ => false

/-- Every class (R170). -/
def allClasses : List Nat := [0, 1, 2, 3, 4]

/-- Every line of a group. -/
def linesOf (gid : GroupId) : List Line := allClasses.flatMap (fun c => [.path gid .a c, .path gid .b c])

/-- A group has ended: its pending lanes are gone. -/
def State.closeLines (s : State) (gid : GroupId) : State :=
  { s with ledger := { s.ledger with loads := s.ledger.loads.filter (fun l => !l.lines.any (Line.ofGroup gid)) } }

/-- A freeze and its restore: for a group a fence at package scope that holds every class (R178). The copies that it has
started are before it. -/
def State.fenceAll (s : State) (gid : GroupId) : State :=
  let copy (c : Copy) : Copy := if c.group = some gid then { c with fenced := true } else c
  let s := s.order (Line.ofGroup gid) 4 (linesOf gid)
  { s with
    channels := s.channels.mapVals (fun _ l => l.map copy)
    contexts := s.contexts.mapVals (fun _ c => { c with susp := c.susp.map (fun x => (x.1, x.2.1, copy x.2.2)) }) }

/-! ### Tiles and tensor slots (R364) -/

/-- The number of a tensor slot among the locations of a half: they come after its tiles. -/
def slotAt (z : Nat) : Nat := 64 + z

/-- The lines of the operations of a slot of a group on tiles and tensor slots of a half. -/
def State.tileLines (s : State) (x : GroupId × SlotId) (half : Nat) (ks : List Nat) : List Line :=
  (if (s.group? x.1).any (·.split) then [x.2] else [.a, .b]).flatMap (fun sl => ks.map (.tileBy x.1 sl half))

/-- An operation of the slots `ms` of groups of a team on tiles and tensor slots of a half, as one event of the matrix class of
each (R364, R378): it follows their earlier operations on each, and what has written one that it reads; and it leaves on those
that it writes what it follows. -/
def State.tileEvent (s : State) (ms : List (GroupId × SlotId)) (half : Nat) (reads writes : List Nat) : State :=
  let by_ : List Line := ms.flatMap (fun x => s.tileLines x half (reads ++ writes))
  let at_ (ks : List Nat) : List Line := (ms.map (·.1.teamKey)).eraseDups.flatMap (fun t => ks.map (.tile t half))
  let e : Event := ⟨ms.map (·.1), ms.flatMap (fun x => s.lines x.1 x.2 matrixClass), [.mark 0], 0, true⟩
  let s := ((s.unmark [0]).happen e nowhere 0).carry (among (by_ ++ at_ reads)) scopeAll e.trace
  s.carry (among [.mark 0]) scopeAll (by_ ++ at_ writes)

end Sys2Proof.Machine
end

