-- ==== Sys2Proof/Machine/Stack.lean ====
section
/-! DEFINITION. The reconvergence stack (R111): its entries and their 320 bytes (R191, R193, R275), the spill into
private memory (R157), pushes and pops. -/

namespace Sys2Proof.Machine

/-- KIND of an entry. -/
def Entry.kind : Entry → Nat
  | .div .. => 0
  | .call .. => 1
  | .trap .. => 2
  | .bad k _ => k

/-- The KINDs of the entries, top first; a spilled entry counts under the KIND it was pushed with (log 16). -/
def Group.kinds (g : Group) : List Nat := g.hw.map Entry.kind ++ g.spilled.map (·.kind)

/-- TDEPTH (R192): trap entries on the stack. -/
def Group.tdepth (g : Group) : Nat := (g.kinds.filter (· == 2)).length

/-- Divergence entries on the stack (R106, R113). -/
def Group.divDepth (g : Group) : Nat := (g.kinds.filter (· == 0)).length

/-- The most entries a stack holds (R111). -/
def stackMax : Nat := 256

/-- Entries held in hardware (R111). -/
def stackHw : Nat := 8

/-! ### The 320 bytes of an entry -/

/-- SLOT as a bit. -/
def slotBit : SlotId → Nat
  | .a => 0
  | .b => 1

/-- A slot from its bit. -/
def slotOfBit (b : Bool) : SlotId := if b then .b else .a

/-- The four words of a fault record (R193). -/
def Record.words (r : Record) : List Word :=
  [BitVec.ofNat 64 (r.code.toNat + r.detail.toNat * 2 ^ 8 + r.scope.toNat * 2 ^ 16 + r.cls.toNat * 2 ^ 19 +
      r.lane.toNat * 2 ^ 22 + r.mrp.toNat * 2 ^ 28 + min r.dcount 0xFFFFFFFF * 2 ^ 32),
    r.dmask, r.addr &&& 0x1FFFFFFFFFFFFFF#64, BitVec.ofNat 64 (r.dcount % 2 ^ 40)]

/-- A fault record from its words. -/
def Record.ofWords (w0 w1 w2 w3 : Word) : Record :=
  { code := w0.extractLsb' 0 8, detail := w0.extractLsb' 8 8, scope := w0.extractLsb' 16 3, cls := w0.extractLsb' 19 3,
    lane := w0.extractLsb' 22 6, mrp := w0.getLsbD 28, dcount := (w3.extractLsb' 0 40).toNat, dmask := w1, addr := w2 }

/-- WR of a divergence entry (R275). -/
def Marks.word (m : Marks) : Word :=
  BitVec.ofNat 64 (m.s.toNat + m.c.toNat * 2 ^ 32 + m.m.toNat * 2 ^ 36)

/-- The written marks of a WR word. -/
def Marks.ofWord (w : Word) : Marks := ⟨w.extractLsb' 0 32, w.extractLsb' 32 4, w.getLsbD 36⟩

/-- A PC with the KIND above it. -/
def kindWord (pc : PC) (kind : Nat) : Word := BitVec.ofNat 64 (pc.toNat + kind * 2 ^ 57)

/-- The bytes of an entry. -/
def Entry.bytes (e : Entry) : List Byte :=
  let ws (l : List Word) : List Byte := l.flatMap (fun w => leBytes 8 w.toNat)
  let pad (l : List Byte) : List Byte := (l ++ List.replicate 320 0).take 320
  match e with
  | .div pc fm bm sl frun sv _ =>
    pad (ws ([kindWord pc 0, fm, bm,
      BitVec.ofNat 64 (slotBit sl + frun.toNat * 2 + (sv.mode.toNat % 2 ^ 24) * 2 ^ 32), BitVec.ofNat 64 sv.c.toNat,
      if frun then sv.marks.word else 0] ++ sv.s.toList))
  | .call pc m sl => pad (ws [kindWord pc 1, m, 0, BitVec.ofNat 64 (slotBit sl)])
  | .trap pc m opc split om sl st r _ _ =>
    pad (ws ([kindWord pc 2, m, BitVec.ofNat 64 (opc.toNat + split.toNat * 2 ^ 57), om,
      BitVec.ofNat 64 (slotBit sl + st.toNat * 2 ^ 32)] ++ r.words))
  | .bad _ bs => bs

/-- Word `n` of bytes. -/
def wordAt (bs : List Byte) (n : Nat) : Word := BitVec.ofNat 64 (leNat ((bs.drop (8 * n)).take 8))

/-- An entry read back from private memory, with what the bytes do not hold. -/
def Entry.ofBytes (bs : List Byte) (h : Hidden) : Entry :=
  let w := wordAt bs
  let pc : PC := (w 0).setWidth 57
  let kind := ((w 0).extractLsb' 57 4).toNat
  match kind with
  | 0 =>
    let frun := (w 3).getLsbD 1
    .div pc (w 1) (w 2) (slotOfBit ((w 3).getLsbD 0)) frun
      { s := Vector.ofFn (fun i => w (6 + i.val)), c := (w 4).extractLsb' 0 4,
        mode := ((w 3).extractLsb' 32 24).zeroExtend 32, marks := Marks.ofWord (w 5) } h.outer
  | 1 => .call pc (w 1) (slotOfBit ((w 3).getLsbD 0))
  | 2 =>
    .trap pc (w 1) ((w 2).setWidth 57) ((w 2).getLsbD 57) (w 3) (slotOfBit ((w 4).getLsbD 0)) ((w 4).extractLsb' 32 32)
      (Record.ofWords (w 5) (w 6) (w 7) (w 8)) h.outer h.other
  | k => .bad k bs

/-- What an entry keeps outside its bytes. -/
def Entry.hidden (e : Entry) : Hidden :=
  match e with
  | .div _ _ _ _ _ _ outer => ⟨0, outer, none⟩
  | .trap _ _ _ _ _ _ _ _ outer other => ⟨2, outer, other⟩
  | e => ⟨e.kind, ⟨0, 0, false⟩, none⟩

/-! ### Private memory (R157) -/

/-- The address of the private block of a group. -/
def privateBase (s : State) (g : Group) : Nat :=
  ((s.ctx? g.ctx).map (·.pvbase.toNat)).getD 0 + 0x20000 * (192 * g.vcore + g.slotNo)

/-- The five 64-byte parts of the spilled entry at an index from the bottom. -/
def spillParts (s : State) (g : Group) (idx : Nat) : List Nat :=
  (List.range 5).map (fun k => privateBase s g + 320 * idx + 64 * k)

/-- Check every part of a spill or fill. -/
def checkParts (s : State) (gid : GroupId) (k : Access) : List Nat → Except (Bad × Nat) (List Place)
  | [] => .ok []
  | a :: as =>
    match placeOf s gid k false 8 a with
    | .error b => .error (b, a)
    | .ok p => (checkParts s gid k as).map (p :: ·)

/-- Write bytes to a list of places, 64 bytes each. -/
def writeParts (s : State) : List Place → List Byte → State
  | [], _ => s
  | p :: ps, bs => writeParts (s.put p (bs.take 64)) ps (bs.drop 64)

/-! ### Push and pop -/

/-- Push an entry, which the caller has found room for. The ninth entry is spilled; a fault of the spill is precise at
the pushing instruction (R111). The debug core has no private block, and its entries stay in hardware (log 16). -/
def pushEntry (s : State) (gid : GroupId) (e : Entry) : Except (Bad × Nat) State :=
  match s.group? gid with
  | none => .ok s
  | some g =>
    let hw := e :: g.hw
    if hw.length ≤ stackHw || gid.isDebug then .ok (s.setGroup gid { g with hw := hw })
    else
      match hw.getLast? with
      | none => .ok s
      | some old =>
        match checkParts s gid .write (spillParts s g g.spilled.length) with
        | .error b => .error b
        | .ok ps =>
          .ok ((writeParts s ps old.bytes).setGroup gid
            { g with hw := hw.dropLast, spilled := old.hidden :: g.spilled })

/-- Drop the top entry and fill the hardware top from private memory; a fault of the fill is precise at the popping
instruction (R157). -/
def popEntry (s : State) (gid : GroupId) : Except (Bad × Nat) State :=
  match s.group? gid with
  | none => .ok s
  | some g =>
    match g.spilled with
    | [] => .ok (s.setGroup gid { g with hw := g.hw.drop 1 })
    | h :: hs =>
      match checkParts s gid .read (spillParts s g hs.length) with
      | .error b => .error b
      | .ok ps =>
        let bs := ps.flatMap (fun p => readPlace s p 64)
        .ok (s.setGroup gid { g with hw := g.hw.drop 1 ++ [Entry.ofBytes bs h], spilled := hs })

end Sys2Proof.Machine
end

