-- ==== Sys2Proof/Machine/Float.lean ====
section
/-! DEFINITION. Exact arithmetic and rounding (13_number_formats): numbers are signed dyadics, computed exactly, and
rounded once at the end. Flags have the places of R230. -/

namespace Sys2Proof.Machine

/-- A binary format: exponent bits, fraction bits and bias (R227, R233). -/
structure Fmt where
  eb   : Nat
  fb   : Nat
  bias : Int
  deriving DecidableEq, Repr

def fmtF32 : Fmt := ⟨8, 23, 127⟩
def fmtF16 : Fmt := ⟨5, 10, 15⟩
def fmtBf16 : Fmt := ⟨8, 7, 127⟩
def fmtF64 : Fmt := ⟨11, 52, 1023⟩
def fmtAcc48 : Fmt := ⟨10, 37, 511⟩

/-- A number: `fin neg m e` is (-1)^neg × m × 2^e, and a zero keeps its sign. `nan true` is a signalling NaN, or the
NaN of an invalid operation: both raise invalid when they are rounded. -/
inductive Num where
  | nan (sig : Bool)
  | inf (neg : Bool)
  | fin (neg : Bool) (m : Nat) (e : Int)
  deriving DecidableEq, Repr

/-- Flags of R230. -/
abbrev Flags := BitVec 5
def flagInvalid : Flags := 1#5
def flagDivZero : Flags := 2#5
def flagOverflow : Flags := 4#5
def flagUnderflow : Flags := 8#5
def flagInexact : Flags := 16#5

/-- The sign bit's weight. -/
def Fmt.signBit (f : Fmt) : Nat := 2 ^ (f.eb + f.fb)

/-- The code of infinity without its sign. -/
def Fmt.infMag (f : Fmt) : Nat := (2 ^ f.eb - 1) * 2 ^ f.fb

/-- The canonical NaN (R227, R233). -/
def Fmt.nanCode (f : Fmt) : Nat := f.infMag + 2 ^ (f.fb - 1)

/-- The exponent of the last place of subnormals. -/
def Fmt.qmin (f : Fmt) : Int := 1 - f.bias - f.fb

/-- Add a sign to a magnitude code. -/
def Fmt.signed (f : Fmt) (neg : Bool) (mag : Nat) : Nat := if neg then mag + f.signBit else mag

/-- Decode a pattern (R227, R233). -/
def Fmt.decode (f : Fmt) (x : Nat) : Num :=
  let neg := x.testBit (f.eb + f.fb)
  let ex := x / 2 ^ f.fb % 2 ^ f.eb
  let fr := x % 2 ^ f.fb
  if ex = 2 ^ f.eb - 1 then (if fr = 0 then .inf neg else .nan (!fr.testBit (f.fb - 1)))
  else if ex = 0 then .fin neg fr f.qmin
  else .fin neg (2 ^ f.fb + fr) (f.qmin + (ex - 1 : Nat))

/-- Round m × 2^e, increased by less than one unit of its last place when `sticky`, to a multiple of 2^q under R228:
the multiple, and whether it differs. -/
def roundQ (rnd : Nat) (neg : Bool) (m : Nat) (e q : Int) (sticky : Bool) : Nat × Bool :=
  let sh := (q - e).toNat
  let n := if q ≤ e then m * 2 ^ (e - q).toNat else m / 2 ^ sh
  let r := if q ≤ e then 0 else m % 2 ^ sh
  let half := if q ≤ e then 1 else 2 ^ (sh - 1)
  let inexact := r != 0 || sticky
  let up := match rnd with
    | 0 => decide (half < r) || (r == half && (sticky || n % 2 == 1))
    | 1 => false
    | 2 => neg && inexact
    | 3 => !neg && inexact
    | _ => decide (half ≤ r)
  (if up then n + 1 else n, inexact)

/-- Does an overflow go to infinity (IEEE 754-2019, R228)? -/
def overflowToInf (rnd : Nat) (neg : Bool) : Bool :=
  match rnd with
  | 1 => false
  | 2 => neg
  | 3 => !neg
  | _ => true

/-- Round a finite value to a format: its code and its flags (R228, R230, R231). Tininess is detected after rounding. -/
def Fmt.roundFin (f : Fmt) (rnd : Nat) (sat neg : Bool) (m : Nat) (e : Int) (sticky : Bool) : Nat × Flags :=
  if m = 0 then (f.signed neg 0, 0#5)
  else
    let top := e + m.log2
    let q := max (top - f.fb) f.qmin
    let (n, inexact) := roundQ rnd neg m e q sticky
    let mag := n + (q - f.qmin).toNat * 2 ^ f.fb
    if f.infMag ≤ mag then
      (f.signed neg (if sat || !overflowToInf rnd neg then f.infMag - 1 else f.infMag), flagOverflow ||| flagInexact)
    else
      let tiny := decide (top < 1 - f.bias) &&
        !(top == -f.bias && (roundQ rnd neg m e (top - f.fb) sticky).1 == 2 ^ (f.fb + 1))
      (f.signed neg mag,
        (if inexact then flagInexact else 0#5) ||| (if inexact && tiny then flagUnderflow else 0#5))

/-- RoundTo of R264 for a float format. -/
def Fmt.round (f : Fmt) (rnd : Nat) (sat : Bool) : Num → Nat × Flags
  | .nan sig => (f.nanCode, if sig then flagInvalid else 0#5)
  | .inf neg => (f.signed neg f.infMag, 0#5)
  | .fin neg m e => f.roundFin rnd sat neg m e false

/-! ### Exact operations -/

/-- The sign of an exact zero sum that is no sum of zeros of one sign (R229). -/
def zeroSumNeg (rnd : Nat) : Bool := rnd == 2

/-- The signed integer that a finite value is at a common exponent. -/
def atExp (neg : Bool) (m : Nat) (e q : Int) : Int :=
  let v : Int := m * 2 ^ (e - q).toNat
  if neg then -v else v

/-- Exact sum (R229). -/
def Num.add (rnd : Nat) : Num → Num → Num
  | .nan a, .nan b => .nan (a || b)
  | .nan a, _ => .nan a
  | _, .nan b => .nan b
  | .inf a, .inf b => if a = b then .inf a else .nan true
  | .inf a, _ => .inf a
  | _, .inf b => .inf b
  | .fin a m e, .fin b n k =>
    if m = 0 ∧ n = 0 then (if a = b then .fin a 0 0 else .fin (zeroSumNeg rnd) 0 0)
    else
      let q := min e k
      let t := atExp a m e q + atExp b n k q
      if t = 0 then .fin (zeroSumNeg rnd) 0 0 else .fin (decide (t < 0)) t.natAbs q

/-- Exact product; 0 × ∞ is invalid. -/
def Num.mul : Num → Num → Num
  | .nan a, .nan b => .nan (a || b)
  | .nan a, _ => .nan a
  | _, .nan b => .nan b
  | .inf a, .inf b => .inf (a != b)
  | .inf a, .fin b m _ => if m = 0 then .nan true else .inf (a != b)
  | .fin a m _, .inf b => if m = 0 then .nan true else .inf (a != b)
  | .fin a m e, .fin b n k => .fin (a != b) (m * n) (e + k)

/-- The negation. -/
def Num.neg : Num → Num
  | .nan a => .nan a
  | .inf a => .inf (!a)
  | .fin a m e => .fin (!a) m e

/-- The order of two numbers that are not NaN: less, equal or greater; zeros of both signs are equal. -/
def Num.cmp : Num → Num → Ordering
  | .inf a, .inf b => if a = b then .eq else if a then .lt else .gt
  | .inf a, _ => if a then .lt else .gt
  | _, .inf b => if b then .gt else .lt
  | .fin a m e, .fin b n k => compare (atExp a m e (min e k)) (atExp b n k (min e k))
  | _, _ => .eq

def Num.isNan : Num → Bool
  | .nan _ => true
  | _ => false

def Num.isSig : Num → Bool
  | .nan s => s
  | _ => false

def Num.isNeg : Num → Bool
  | .nan _ => false
  | .inf a => a
  | .fin a _ _ => a

/-- IEEE 754-2019 minimum: a NaN propagates, −0 is below +0 (R229). -/
def Num.min (x y : Num) : Num :=
  if x.isNan || y.isNan then .nan (x.isSig || y.isSig)
  else match x.cmp y with
    | .lt => x
    | .gt => y
    | .eq => if x.isNeg then x else y

/-- IEEE 754-2019 maximum (R229). -/
def Num.max (x y : Num) : Num :=
  if x.isNan || y.isNan then .nan (x.isSig || y.isSig)
  else match x.cmp y with
    | .lt => y
    | .gt => x
    | .eq => if x.isNeg then y else x

/-- Quotient rounded once (R310). -/
def Fmt.div (f : Fmt) (rnd : Nat) (sat : Bool) : Num → Num → Nat × Flags
  | .nan a, .nan b => f.round rnd sat (.nan (a || b))
  | .nan a, _ => f.round rnd sat (.nan a)
  | _, .nan b => f.round rnd sat (.nan b)
  | .inf _, .inf _ => f.round rnd sat (.nan true)
  | .inf a, .fin b _ _ => f.round rnd sat (.inf (a != b))
  | .fin a _ _, .inf b => (f.signed (a != b) 0, 0#5)
  | .fin a m e, .fin b n k =>
    if n = 0 then (if m = 0 then f.round rnd sat (.nan true) else (f.signed (a != b) f.infMag, flagDivZero))
    else if m = 0 then (f.signed (a != b) 0, 0#5)
    else
      let sh := f.fb + 4 + n.log2
      let t := m * 2 ^ sh
      f.roundFin rnd sat (a != b) (t / n) (e - k - sh) (t % n != 0)

/-- Integer square root by binary digits: the largest `r` with r² ≤ n, for n < 4^fuel. -/
def isqrtGo (n : Nat) : (fuel : Nat) → (r : Nat) → Nat
  | 0, r => r
  | k + 1, r => if (r + 2 ^ k) * (r + 2 ^ k) ≤ n then isqrtGo n k (r + 2 ^ k) else isqrtGo n k r

def isqrt (n : Nat) : Nat := isqrtGo n (n.log2 / 2 + 1) 0

/-- m × 2^e with an even exponent and enough bits for a root of `p` bits: the radicand and its exponent. -/
def rootScale (p m : Nat) (e : Int) : Nat × Int :=
  let k := 2 * p + 4
  if (e - k) % 2 = 0 then (m * 2 ^ k, e - k) else (m * 2 ^ (k + 1), e - (k + 1 : Nat))

/-- Square root rounded once (R310). -/
def Fmt.sqrt (f : Fmt) (rnd : Nat) (sat : Bool) : Num → Nat × Flags
  | .nan a => f.round rnd sat (.nan a)
  | .inf a => if a then f.round rnd sat (.nan true) else f.round rnd sat (.inf false)
  | .fin a m e =>
    if m = 0 then (f.signed a 0, 0#5)
    else if a then f.round rnd sat (.nan true)
    else
      let (r, k) := rootScale f.fb m e
      let t := isqrt r
      f.roundFin rnd sat false t (k / 2) (t * t != r)

/-! ### Integers (R224, R226, R232) -/

/-- Round a number to an integer in [lo, hi] under R232: the integer and the flags. -/
def Num.toInt (rnd : Nat) (lo hi : Int) : Num → Int × Flags
  | .nan _ => (0, flagInvalid)
  | .inf neg => (if neg then lo else hi, flagInvalid)
  | .fin neg m e =>
    let (n, inexact) := roundQ rnd neg m e 0 false
    let v : Int := if neg then -(n : Int) else n
    if v < lo then (lo, flagInvalid)
    else if hi < v then (hi, flagInvalid)
    else (v, if inexact then flagInexact else 0#5)

/-- An integer as a number. -/
def Num.ofInt (v : Int) : Num := .fin (decide (v < 0)) v.natAbs 0

/-! ### Narrow formats (R234, R235, R314) -/

/-- The fields of a format word. -/
structure Narrow where
  b    : Nat
  e    : Nat
  sgn  : Bool
  spec : Nat
  bias : Int
  deriving DecidableEq, Repr

/-- The narrow fields of a format word of FMT 5. -/
def Narrow.ofWord (w : BitVec 32) : Narrow :=
  { b := (w.extractLsb' 4 3).toNat + 4, e := (w.extractLsb' 7 3).toNat, sgn := w.getLsbD 10,
    spec := (w.extractLsb' 11 2).toNat, bias := (w.extractLsb' 13 8).toInt }

/-- The mantissa width m = b − SGN − e. -/
def Narrow.m (f : Narrow) : Nat := f.b - f.e - (if f.sgn then 1 else 0)

/-- Decode of R235. -/
def Narrow.decode (f : Narrow) (x : Nat) : Num :=
  let s := f.sgn && x.testBit (f.b - 1)
  let ex := x / 2 ^ f.m % 2 ^ f.e
  let mt := x % 2 ^ f.m
  if f.spec = 1 ∧ x % 2 ^ f.b = 2 ^ f.b - 1 then .nan false
  else if f.spec = 2 ∧ ex = 2 ^ f.e - 1 then (if mt = 0 then .inf s else .nan false)
  else if ex = 0 then .fin s mt (1 - f.bias - f.m)
  else .fin s (2 ^ f.m + mt) (ex - f.bias - f.m)

/-- The largest finite code of a sign, without the sign bit (R314). -/
def Narrow.maxMag (f : Narrow) (neg : Bool) : Nat :=
  let all := 2 ^ (f.e + f.m) - 1
  if f.spec = 2 then (2 ^ f.e - 1) * 2 ^ f.m - 1
  else if f.spec = 1 ∧ (neg ∨ !f.sgn) then all - 1
  else all

/-- A magnitude with its sign bit. -/
def Narrow.signed (f : Narrow) (neg : Bool) (mag : Nat) : Nat := if neg && f.sgn then mag + 2 ^ (f.b - 1) else mag

/-- The code of R314 for a value, and its flags. -/
def Narrow.pack (f : Narrow) (rnd : Nat) (sat : Bool) : Num → Nat × Flags
  | .nan _ =>
    (if f.spec = 1 then 2 ^ f.b - 1 else if f.spec = 2 then 2 ^ (f.e + f.m) - 1 else 0, flagInvalid)
  | .inf neg =>
    if neg && !f.sgn then (0, flagInvalid)
    else if f.spec = 2 && !sat then (f.signed neg ((2 ^ f.e - 1) * 2 ^ f.m), 0#5)
    else (f.signed neg (f.maxMag neg), if f.spec = 2 then 0#5 else flagOverflow ||| flagInexact)
  | .fin neg m e =>
    if m = 0 then (f.signed neg 0, 0#5)
    else if neg && !f.sgn then (0, flagInvalid)
    else
      let qmin : Int := 1 - f.bias - f.m
      let top := e + m.log2
      let q := max (top - f.m) qmin
      let (n, inexact) := roundQ rnd neg m e q false
      let mag := n + (q - qmin).toNat * 2 ^ f.m
      if f.maxMag neg < mag then
        (f.signed neg (if f.spec = 2 && !sat && overflowToInf rnd neg then (2 ^ f.e - 1) * 2 ^ f.m else f.maxMag neg),
          flagOverflow ||| flagInexact)
      else
        let tiny := decide (top < 1 - f.bias) &&
          !(top == -f.bias && (roundQ rnd neg m e (top - f.m) false).1 == 2 ^ (f.m + 1))
        (f.signed neg mag,
          (if inexact then flagInexact else 0#5) ||| (if inexact && tiny then flagUnderflow else 0#5))

end Sys2Proof.Machine
end

