-- ==== Sys2Proof/Machine/Sync.lean ====
section
/-! DEFINITION. The synchronisation units (07_sync_groups): handles, entries, joins, leaves, arrivals and phase
boundaries, and the combination of reduction values (R139, R297). -/

namespace Sys2Proof.Machine

/-! ### Combining values (R139, R297) -/

/-- The types of a reduction. -/
inductive RedTy where
  | i32 | n32 | i64 | n64 | f32
  deriving DecidableEq, Repr

/-- TYPE of an entry (R128). -/
def RedTy.ofEntry (ty : BitVec 2) : RedTy :=
  if ty = 0#2 then .i32 else if ty = 1#2 then .n32 else if ty = 2#2 then .i64 else .f32

/-- The type of a scope reduction (R296). -/
def RedTy.ofScope (ty : BitVec 3) : RedTy :=
  if ty = 0#3 then .i32 else if ty = 1#3 then .n32 else if ty = 2#3 then .i64 else if ty = 3#3 then .n64 else .f32

/-- The low 32 bits, with zero above. -/
def low32 (x : Word) : Word := zx (x.setWidth 32)

/-- The identity of an operator (R139). 32-bit types sit in [31:0] with zero above. -/
def identity (op : Nat) (ty : RedTy) : Word :=
  match op, ty with
  | 0, _ => 0
  | 1, .i32 => 0x7FFFFFFF
  | 1, .n32 => 0xFFFFFFFF
  | 1, .i64 => 0x7FFFFFFFFFFFFFFF
  | 1, .n64 => 0xFFFFFFFFFFFFFFFF
  | 1, .f32 => 0x7F800000
  | 2, .i32 => 0x80000000
  | 2, .i64 => 0x8000000000000000
  | 2, .f32 => 0xFF800000
  | 2, _ => 0
  | 3, .i64 | 3, .n64 => 0xFFFFFFFFFFFFFFFF
  | 3, _ => 0xFFFFFFFF
  | _, _ => 0

/-- A 32-bit float operation on the low halves. -/
def f32Op (op : Nat) (a b : Word) : Word :=
  let x := fmtF32.decode (a.setWidth 32).toNat
  let y := fmtF32.decode (b.setWidth 32).toNat
  let r := if op = 0 then x.add 0 y else if op = 1 then x.min y else x.max y
  BitVec.ofNat 64 (fmtF32.round 0 false r).1

/-- One combination of two values (R139, R297). -/
def combine (op : Nat) (ty : RedTy) (a b : Word) : Word :=
  let a32 : BitVec 32 := a.setWidth 32
  let b32 : BitVec 32 := b.setWidth 32
  match ty with
  | .f32 => f32Op op a b
  | .i32 =>
    zx (if op = 0 then a32 + b32 else if op = 1 then (if a32.slt b32 then a32 else b32)
      else if op = 2 then (if a32.slt b32 then b32 else a32) else if op = 3 then a32 &&& b32 else a32 ||| b32)
  | .n32 =>
    zx (if op = 0 then a32 + b32 else if op = 1 then (if a32.ult b32 then a32 else b32)
      else if op = 2 then (if a32.ult b32 then b32 else a32) else if op = 3 then a32 &&& b32 else a32 ||| b32)
  | .i64 =>
    if op = 0 then a + b else if op = 1 then (if a.slt b then a else b)
      else if op = 2 then (if a.slt b then b else a) else if op = 3 then a &&& b else a ||| b
  | .n64 =>
    if op = 0 then a + b else if op = 1 then (if a.ult b then a else b)
      else if op = 2 then (if a.ult b then b else a) else if op = 3 then a &&& b else a ||| b

/-- Combine a list of values in order, from the identity. -/
def combineAll (op : Nat) (ty : RedTy) (xs : List Word) : Word := xs.foldl (combine op ty) (identity op ty)

/-- How a result is extended into a 64-bit register (R297, R344). -/
def extendRed (ty : RedTy) (x : Word) : Word :=
  match ty with
  | .i32 => sx (x.setWidth 32 : BitVec 32)
  | .n32 | .f32 => low32 x
  | .i64 | .n64 => x

/-! ### Handles (R126, R127) -/

def handleKind (h : BitVec 32) : Nat := (h.extractLsb' 0 4).toNat
def handleGen (h : BitVec 32) : BitVec 14 := h.extractLsb' 4 14
def handleSlot (h : BitVec 32) : Nat := (h.extractLsb' 18 12).toNat
def handleDie (h : BitVec 32) : Nat := (h.extractLsb' 30 2).toNat

/-- The handle of a user entry. -/
def userHandle (die slot : Nat) (gen : BitVec 14) : BitVec 32 :=
  BitVec.ofNat 32 (die * 2 ^ 30 + slot * 2 ^ 18 + gen.toNat * 2 ^ 4)

/-- A built-in handle (R127). -/
def builtinHandle (kind die slot count : Nat) : BitVec 32 :=
  BitVec.ofNat 32 (die * 2 ^ 30 + slot * 2 ^ 18 + count % 2 ^ 14 * 2 ^ 4 + kind)

/-- Does a handle name a user entry? -/
def isUser (h : BitVec 32) : Bool := handleKind h == 0

/-- The entry that a handle names. -/
def State.entryOf (s : State) (h : BitVec 32) : SEntry :=
  if isUser h then s.entry (handleDie h) (handleSlot h) else (s.builtins.find h).getD .reset

/-- Write the entry that a handle names. -/
def State.putEntry (s : State) (h : BitVec 32) (e : SEntry) : State :=
  if isUser h then s.setEntry (handleDie h) (handleSlot h) e else { s with builtins := s.builtins.put h e }

/-- Step 4 of R340: the handle is not stale. -/
def State.handleOk (s : State) (h : BitVec 32) : Bool :=
  if isUser h then
    let e := s.entry (handleDie h) (handleSlot h)
    e.valid && e.gen == handleGen h
  else (s.builtins.find h).isSome

/-- The home die of a key (R129). -/
def homeDie (k : Word) : Nat :=
  (k.extractLsb' 0 2 ^^^ k.extractLsb' 16 2 ^^^ k.extractLsb' 32 2 ^^^ k.extractLsb' 48 2 : BitVec 2).toNat

/-! ### Phases (R137, R138) -/

/-- Is the group a member that is not leaving? -/
def SEntry.isMember (e : SEntry) (g : GroupId) : Bool := e.members.contains g && !e.pleave.contains g

/-- May an arrival of the group be applied now (R134, R137)? -/
def SEntry.admits (e : SEntry) (g : GroupId) : Bool := e.isMember g && !e.arrived.contains g

/-- Add a contribution (R139). -/
def SEntry.contribute (e : SEntry) (a : Arrival) : SEntry :=
  let e := match a.value with
    | some v => { e with racc := combine e.op.toNat (.ofEntry e.ty) e.racc v }
    | none => e
  match a.vote with
  | some (any, all, n) => { e with vany := e.vany || any, vall := e.vall && all, vcnt := e.vcnt + BitVec.ofNat 32 n }
  | none => e

/-- Does the phase complete (R137)? -/
def SEntry.complete (e : SEntry) : Bool := e.arrived.length == e.members.length && decide (1 ≤ e.members.length)

/-- The boundary of R138. -/
def SEntry.boundary (e : SEntry) : SEntry :=
  { e with
    res := e.racc, rcnt := e.vcnt, rany := e.vany, rall := e.vall, rbrk := e.broken,
    members := e.members.filter (fun g => !e.pleave.contains g) ++ e.pjoin, pjoin := [], pleave := [],
    phase := e.phase + 1, arrived := [], broken := false, racc := identity e.op.toNat (.ofEntry e.ty),
    vcnt := 0, vany := false, vall := true, waiters := [] }

/-- A freed entry keeps only its advanced GEN (R128, R136). -/
def SEntry.freed (e : SEntry) : SEntry := { SEntry.reset with gen := e.gen + 1 }

/-- The result of a completed phase reaches a waiter: its wait becomes the result it will receive (R138). -/
def giveResult (h : BitVec 32) (e : SEntry) (s : State) (g : GroupId) : State :=
  s.modGroup g (fun x =>
    match x.wait with
    | some (.phase h' _ ret sl) =>
      if h' = h then { x with wait := some (.result h ret sl e.res e.rcnt e.rany e.rall e.rbrk) } else x
    | _ => x)

/-- Does a wait belong to a slot whose word has arrived at a handle, or waits there? -/
def Wait.isOf (sl : SlotId) : Wait → Bool
  | .phase _ _ _ t | .result _ _ t _ _ _ _ _ | .held _ _ _ t => t == sl
  | _ => false

/-- A phase of h7 clears the issue counts of its team (R127, R73): a word that has issued counts in them no more. -/
def clearIssued (s : State) (h : BitVec 32) : State :=
  if handleKind h = 1 then
    { s with groups := s.groups.mapVals (fun g x =>
        if ((s.team? g.teamKey).map (·.handle)) == some h then { x with issued := 0 } else x) }
  else s

/-- The counts of the frozen tiles at a boundary (R385): the members of the new phase on that core whose arrival is
not held. -/
def recount (s : State) (e : SEntry) : SEntry :=
  { e with absent := e.absent.map (fun (c, _) =>
      (c, (e.members.filter (fun m => ((s.group? m).map (·.core)) == some c && !e.held.any (·.1 == m))).length)) }

/-- What the arrivals of a phase have released reaches its waiters (R137, R172). -/
def State.phaseLines (s : State) (h : BitVec 32) (e : SEntry) : State :=
  s.carry (among [.phase h e.phase]) scopeAll (e.waiters.flatMap (fun g => s.lines g .a syncClass))

/-- Write an entry back; when its phase is complete, apply the boundary, release the waiters and free a user entry
that is left without members (R136, R138). -/
def State.settle (s : State) (h : BitVec 32) (e : SEntry) : State :=
  if e.complete then
    let e' := recount s e.boundary
    let s := s.putEntry h (if isUser h && e'.members.isEmpty then e'.freed else e')
    clearIssued (e.waiters.foldl (giveResult h e') (s.phaseLines h e)) h
  else s.putEntry h e

/-- A wake has been requested for an image at a handle. -/
def Frozen.ask (h : BitVec 32) (f : Frozen) : Frozen := { f with wakes := if f.wakes.contains h then f.wakes else h :: f.wakes }

/-- Ask for the frozen tiles that an entry counts as absent (R143). -/
def wakeAbsent (s : State) (h : BitVec 32) (e : SEntry) : State :=
  e.absent.foldl (fun s (c, n) =>
    if n = 0 then s else s.modCore c (fun x => { x with frozen := x.frozen.map (Frozen.ask h) })) s

/-- A group arrives, or leaves in place of it: a frozen tile that the entry counts as absent is asked for (R143), and the
mark of a group that was awaited at this handle goes (R74). -/
def State.comes (s : State) (h : BitVec 32) (g : GroupId) : State :=
  (wakeAbsent s h (s.entryOf h)).modGroup g (fun x => { x with urgent := x.urgent.filter (· != h) })

/-- Apply an arrival at its entry (R137, R140). -/
def State.arrive (s : State) (h : BitVec 32) (g : GroupId) (a : Arrival) : State :=
  let e := s.entryOf h
  ((s.comes h g).syncCarry g [.phase h e.phase]).settle h ({ e with arrived := e.arrived ++ [g] }.contribute a)

/-- Note that a group waits for the phase; a wait that meets an absent member asks for its tile (R143). -/
def State.addWaiter (s : State) (h : BitVec 32) (g : GroupId) : State :=
  let e := s.entryOf h
  (wakeAbsent s h e).putEntry h (if e.waiters.contains g then e else { e with waiters := e.waiters ++ [g] })

/-- Apply a join at its entry (R132, R134). -/
def State.join (s : State) (h : BitVec 32) (g : GroupId) : State :=
  let e := s.entryOf h
  if e.isMember g || e.pjoin.contains g then s else s.putEntry h { e with pjoin := e.pjoin ++ [g] }

/-- Apply a leave at its entry (R135), or the leave of a kill (R141). One that counts as the arrival requests wakes (R143,
log 100). -/
def State.leave (s : State) (h : BitVec 32) (g : GroupId) (kill : Bool) : State :=
  let e := s.entryOf h
  let e := { e with held := e.held.filter (fun x => x.1 != g), waiters := e.waiters.filter (· != g) }
  if e.pjoin.contains g then s.putEntry h { e with pjoin := e.pjoin.filter (· != g) }
  else if e.isMember g then
    let e := { e with pleave := e.pleave ++ [g], broken := e.broken || kill }
    if e.arrived.contains g then s.settle h e
    else ((s.comes h g).syncCarry g [.phase h e.phase]).settle h { e with arrived := e.arrived ++ [g] }
  else s.putEntry h e

/-- The valid entry of a context with a key on a die (R129). -/
def State.findKey (s : State) (die : Nat) (ctx : BitVec 20) (key : Word) : Option Nat :=
  (((s.die die).entries.filter (fun x => x.2.valid && x.2.key == key && x.2.ctx == ctx)).head?).map (·.1)

/-- The entries that the contexts of a function hold on a die, parked ones included (R130). -/
def State.heldBy (s : State) (die fn : Nat) : Nat :=
  ((s.die die).entries.filter (fun x => (x.2.valid || x.2.parked) &&
    ((s.ctx? x.2.ctx.toNat).map (·.fn)) == some fn)).length

/-- HQUOTA.MAX of a function (R130). -/
def State.quota (s : State) (fn : Nat) : Nat := ((s.hquota.find fn).getD 4096).toNat

/-- HQUOTA.USED of a function (R130): the most entries it holds on any one die. -/
def State.quotaUsed (s : State) (fn : Nat) : Nat :=
  max (max (s.heldBy 0 fn) (s.heldBy 1 fn)) (max (s.heldBy 2 fn) (s.heldBy 3 fn))

/-- HQUOTA of a function as the host reads it (R130). -/
def State.quotaWord (s : State) (fn : Nat) : BitVec 32 := BitVec.ofNat 32 (s.quota fn + s.quotaUsed fn % 2 ^ 13 * 2 ^ 16)

/-- The lowest free slot of a die (R131). The handle value 0 is null (R126), so the slot that would give it is passed
over (log 15). -/
def State.freeSlot (s : State) (die : Nat) : Option Nat :=
  (List.range (min 4096 ((s.die die).entries.length + 2))).find? (fun k =>
    let e := s.entry die k
    !e.valid && !e.parked && userHandle die k e.gen != 0#32)

/-- A created entry (R131). -/
def SEntry.created (e : SEntry) (key : Word) (ctx : BitVec 20) (op : BitVec 3) (ty : BitVec 2) (g : GroupId) : SEntry :=
  { SEntry.reset with
    key := key, ctx := ctx, gen := e.gen, op := op, ty := ty, valid := true, members := [g],
    racc := identity op.toNat (.ofEntry ty) }

/-- What `hnew` answers (R131). -/
inductive NewAnswer where
  | created (h : BitVec 32)
  | joined (h : BitVec 32)
  | refused
  deriving DecidableEq, Repr

/-- `hnew` at the key's home die (R131). -/
def State.create (s : State) (g : GroupId) (ctx : Nat) (key : Word) (op : BitVec 3) (ty : BitVec 2) :
    NewAnswer × State :=
  let d := homeDie key
  let c := BitVec.ofNat 20 ctx
  match s.findKey d c key with
  | some k =>
    let e := s.entry d k
    let h := userHandle d k e.gen
    if e.op = op ∧ e.ty = ty then
      if e.isMember g || e.pjoin.contains g then (.joined h, s)
      else if 1048575 ≤ e.members.length + e.pjoin.length then (.refused, s)
      else (.joined h, s.join h g)
    else (.refused, s)
  | none =>
    let fn := ((s.ctx? ctx).map (·.fn)).getD 0
    match s.freeSlot d with
    | some k =>
      if s.quota fn ≤ s.heldBy d fn then (.refused, s)
      else
        let e := s.entry d k
        (.created (userHandle d k e.gen), s.setEntry d k (e.created key c op ty g))
    | none => (.refused, s)

/-- A leave of a group of a context that is switched out reaches the fields of the parked entry in the context image
(R141, R144): they are put back for it and taken out again. -/
def State.leaveParked (s : State) (h : BitVec 32) (g : GroupId) (kill : Bool) : State :=
  let d := handleDie h
  let k := handleSlot h
  let e := s.entry d k
  if !isUser h || !e.parked || e.gen != handleGen h then s
  else
    match ((s.ctx? e.ctx.toNat).bind (fun c => c.parkedE.find? (fun x => x.1 == d && x.2.1 == k))) with
    | none => s
    | some (_, _, f) =>
      let t := (s.setEntry d k { f with valid := true, parked := false }).leave h g kill
      let r := t.entry d k
      let out (l : List (Nat × Nat × SEntry)) : List (Nat × Nat × SEntry) :=
        if r.valid then l.map (fun x => if x.1 = d ∧ x.2.1 = k then (d, k, r) else x)
        else l.filter (fun x => !(x.1 == d && x.2.1 == k))
      (if r.valid then t.setEntry d k e else t).modCtx e.ctx.toNat (fun c => { c with parkedE := out c.parkedE })

/-- ABSENT (R128, R143). -/
def SEntry.absentCount (e : SEntry) : Nat := (e.absent.map (·.2)).sum

/-- The 512 bits of an entry in the layout of R128 as eight words. -/
def SEntry.word (e : SEntry) (n : Nat) : Word :=
  let b (x : Bool) : BitVec 1 := BitVec.ofBool x
  match n with
  | 0 => e.key
  | 1 => (BitVec.ofNat 20 e.members.length ++ b e.valid ++ b e.parked ++ b e.broken ++ e.phase ++ e.ty ++ e.op ++ e.gen
      ++ e.ctx : BitVec (20 + 1 + 1 + 1 + 2 + 2 + 3 + 14 + 20))
  | 2 => (BitVec.ofNat 4 e.absentCount ++ BitVec.ofNat 20 e.pleave.length ++ BitVec.ofNat 20 e.pjoin.length ++
      BitVec.ofNat 20 e.arrived.length : BitVec (4 + 20 + 20 + 20))
  | 3 => BitVec.ofNat 64 (e.absentCount / 16)
  | 4 => e.racc
  | 5 => (0#30 ++ b e.vall ++ b e.vany ++ e.vcnt : BitVec (30 + 1 + 1 + 32))
  | 6 => e.res
  | _ => (0#29 ++ b e.rbrk ++ b e.rall ++ b e.rany ++ e.rcnt : BitVec (29 + 1 + 1 + 1 + 32))

end Sys2Proof.Machine
end

