-- ==== Sys2Proof/Machine/Units.lean ====
section
/-! DEFINITION. Shared operations on units: stop records and the debug core's inbox (R212, R374), errors of a queue
(R46), members and owners of relay queues (R98, R99, R115), and the end of groups, teams, gangs and grids (R75, R136,
R199, R277). -/

namespace Sys2Proof.Machine

/-! ### Groups as placement makes them (R118, R124), and the group of a debug core (R210, R370, R389) -/

/-- A base block of registers that are full and 0. -/
def zeroBlock (base : Nat) : Tbl Nat VReg := (List.range base).map (fun n => (n, ⟨true, .replicate 64 0⟩))

/-- A group as placement leaves it (R118, R124), without handles and without a baton. -/
def Group.new (ctx core quad slotNo vcore half : Nat) (role : Role) (width base order : Nat) : Group :=
  { ctx := ctx, die := dieOfCore core, core := core, quad := quad, slotNo := slotNo, vcore := vcore, half := half
    role := role, width := width, base := base, ext := 0, spawned := false, order := order
    a := { pc := 0, mask := widthMask width, parked := false, atJoin := false, fork := .reset }
    b := none, outer := ⟨0, 0, false⟩, lastB := false, p := .replicate 8 0, elected := 0, h := .replicate 8 0
    v := [], flags := 0, dhalt := false, kind := .none, mrp := 0, haltPc := 0, stopPc := 0, skid := 0, halted := false
    skidLeft := none, squad := 0, hw := [], spilled := [], view := .blank 0 .team, viewEnd := none, read := 0, batDiv := 0
    post := none, issued := 0, urgent := [], sprint := 0, skip := none, fenced := false, wb := [], wait := none }

/-- The group of a debug core when it starts (R210, R370, R389): width 16 with lane 0 alone active, at an address of its
local store. Its registers are those of a base block of 16 (log 20). -/
def debugGroup (die : Nat) (pc : PC) : Group :=
  let g := Group.new 0 (96 * die) 0 0 0 0 .none 16 16 0
  { g with a := { g.a with pc := pc, mask := 1 }, spawned := true }

/-- The debug core of a die starts at local address 0 (R370, R389): s0-s31, c0-c3, mode and status as at reset and an empty
stack; the registers that R389 does not name keep what they held. -/
def State.startDebug (s : State) (die : Nat) : State :=
  let g := ((s.dbg die).rest).getD (debugGroup die 0)
  let g := { g with
    a := (debugGroup die 0).a, b := none, flags := 0, dhalt := false, hw := [], spilled := [], wait := none }
  (s.modDbg die (fun d => { d with started := true, due := false })).setGroup (debugId die) g

/-- A wake request for a region (R83, R84): a hold is cancelled, a gated region joins the queue of the in-rush arbiter. -/
def State.wakeRegion (s : State) (r : Nat) : State :=
  match (s.region r).gate with
  | .hold => s.modRegion r (fun x => { x with gate := .running })
  | .off => (s.modRegion r (fun x => { x with gate := .waking })).modDie (r / 12) (fun d => { d with
      rampQueue := d.rampQueue ++ [r] })
  | _ => s

/-- A quadrant leaves near-threshold mode (R82). -/
def Core.leaveNear (c : Core) (quad : Nat) : Core := { c with near := c.near.filter (· != quad) }

/-- The firmware measurements of the four dies (R18). -/
def State.measures (s : State) : List (List Byte) := (List.range 4).map (fun d => (s.meas.find d).getD [])

/-! ### Stop records (R212) -/

/-- WHERE of R212. -/
def whereWord (g : Group) (code : Nat) : Nat :=
  g.vcore % 512 + g.quad % 4 * 2 ^ 9 + g.slotNo % 256 * 2 ^ 11 + code * 2 ^ 19

/-- The lanes of a slot less parked lanes (R391). -/
def shownMask (t : Slot) : Mask := if t.parked then 0 else t.mask

/-- A record of R212 for a slot of a group. -/
def stopRecord (s : State) (gid : GroupId) (g : Group) (sl : SlotId) (ty : Nat) (pc : PC) (code wpn : Nat) (data : Word) :
    StopRec :=
  let o := g.otherSlot sl
  let om := (o.map shownMask).getD 0
  #v[BitVec.ofNat 64 s.timer,
    BitVec.ofNat 64 (pc.toNat + slotBit sl * 2 ^ 57 + ty * 2 ^ 58),
    shownMask (g.slot sl),
    BitVec.ofNat 64 (gid.gang % 2 ^ 24 + gid.team % 8 * 2 ^ 24 + wpn % 16 * 2 ^ 27 + gid.grp % 2 ^ 32 * 2 ^ 32),
    BitVec.ofNat 64 (whereWord g code + om.toNat % 2 ^ 32 * 2 ^ 32),
    data, om, if ty = 5 then (o.map (fun t => zx t.pc)).getD 0 else 0]

/-- The stop records in an inbox. -/
def stopsIn (l : List InboxItem) : Nat :=
  (l.filter (fun | .stop _ => true | .hostIn => false)).length

/-- A record of a group of a context enters the inbox of a debug core, or waits for a place; the inbox takes those of dctx
(R374). -/
def State.inboxPut (s : State) (die ctx : Nat) (r : StopRec) : State :=
  s.modDbg die (fun d =>
    if d.dctx.toNat ≠ ctx then d
    else if stopsIn d.inbox < 32 then { d with inbox := d.inbox ++ [.stop r] } else { d with overflow := d.overflow ++ [r] })

/-- The steps in progress of a debug core: of the program that runs, and of the one that a predicate program has interrupted
(R388). -/
def DebugCore.steps (d : DebugCore) : List (GroupId × SlotId) := d.step.toList ++ (d.prog.bind (·.step)).toList

/-- A step of a group is over. -/
def DebugCore.stepped (d : DebugCore) (gid : GroupId) : DebugCore :=
  let left (x : Option (GroupId × SlotId)) : Option (GroupId × SlotId) := x.filter (fun y => y.1 != gid)
  { d with step := left d.step, prog := d.prog.map (fun p => { p with step := left p.step }) }

/-- The debug core that steps a group, if one does (R214). -/
def State.stepper (s : State) (gid : GroupId) : Option (Nat × SlotId) :=
  ((List.range 4).filterMap (fun d => ((s.dbg d).steps.find? (fun x => x.1 == gid)).map (fun x => (d, x.2)))).head?

/-- The end of a step (R214): the group halts again and a TYPE 5 record enters the inbox, with the PC of the stepped slot
or the one given; without a record for the stop of R390. -/
def State.endStepAt (s : State) (gid : GroupId) (record : Bool) (pc : Option PC) : State :=
  match s.stepper gid, s.group? gid with
  | some (d, sl), some g =>
    let sl := if sl = .b ∧ g.b.isNone then .a else sl
    let s := s.setGroup gid { g with dhalt := true, kind := if record then .step else g.kind }
    let s := s.modDbg d (·.stepped gid)
    if record then s.inboxPut d g.ctx (stopRecord s gid g sl 5 (pc.getD (g.slot sl).pc) 0x22 0 0) else s
  | some (d, _), none => s.modDbg d (·.stepped gid)
  | none, _ => s

/-- The end of a step at the slot's own PC. -/
def State.endStep (s : State) (gid : GroupId) (record : Bool) : State := s.endStepAt gid record none

/-- The word under a step of a group goes on in another slot. -/
def DebugCore.stepIn (d : DebugCore) (gid : GroupId) (sl : SlotId) : DebugCore :=
  let go (x : Option (GroupId × SlotId)) : Option (GroupId × SlotId) := x.map (fun y => if y.1 = gid then (gid, sl) else y)
  { d with step := go d.step, prog := d.prog.map (fun p => { p with step := go p.step }) }

/-- The word of a group that issues now ends in another slot than its own, and a step of it with that (R214). -/
def State.stepIn (s : State) (gid : GroupId) (sl : SlotId) : State :=
  { s with debugs := s.debugs.mapVals (fun _ d => d.stepIn gid sl) }

/-- An instruction of a slot has retired: a step of that slot ends (R214). -/
def State.endStepOf (s : State) (gid : GroupId) (sl : SlotId) : State :=
  if (s.stepper gid).any (fun x => x.2 == sl) then s.endStep gid true else s

/-! ### Queues (R46, R47) -/

/-- Raise an MSI-X vector of the function that owns a queue. -/
def State.raiseIrq (s : State) (queue : Nat) (vec : BitVec 11) : State :=
  { s with irqs := s.irqs ++ [⟨((s.qown.find queue).map (·.fn.toNat)).getD 0, vec⟩] }

/-- Put a queue in the error state (R46). Fields recorded already stand, and so does a held disable (R29, R36); then no
EVEC is raised (log 104). -/
def State.queueError (s : State) (n : Nat) (ecode etype : BitVec 8) (etag : BitVec 16) (eidx : BitVec 32) : State :=
  let q := s.queue n
  if (q.state = 1#2 ∨ q.state = 2#2) ∧ !q.held then
    (s.setQueue n { q with
      state := 3, ecode := ecode, etype := etype, etag := etag, eidx := eidx, waiting := false }).raiseIrq n q.evec
  else s

/-- A held disable takes effect once no served packet is incomplete (R28). -/
def State.settleDisable (s : State) (n : Nat) : State :=
  let q := s.queue n
  if q.held && q.inflight.isEmpty then
    s.setQueue n { q with
      held := false, state := 0, ecode := 0, etype := 0, etag := 0, eidx := 0, waiting := false }
  else s

/-! ### Relay queues (R98, R99, R101, R115) -/

/-- The stream that a group or a sequencer reads, if it has one. -/
def ownerOf : Member → Option SeqId
  | .group g => if g.grid = 0 then none else some ⟨.team, g.grid, g.gang, g.team, .none⟩
  | .seq q =>
    match q.level with
    | .team => some ⟨.gang, q.grid, q.gang, 0, q.role⟩
    | .gang => some ⟨.grid, q.grid, 0, 0, q.role⟩
    | .grid => none

/-- The stream of a group, by its role (R115). -/
def streamOf (gid : GroupId) (g : Group) : SeqId := ⟨.team, gid.grid, gid.gang, gid.team, g.role⟩

/-- Does a team stream, or a group, lie below a stream? -/
def inScope (q : SeqId) (grid gang team : Nat) (role : Role) : Bool :=
  q.grid == grid && q.role == role &&
  (match q.level with
    | .grid => true
    | .gang => q.gang == gang
    | .team => q.gang == gang && q.team == team)

/-- Insert a group in ascending gangid, teamid and grpid. -/
def insertGroup (l : List (GroupId × Group)) (x : GroupId × Group) : List (GroupId × Group) :=
  match l with
  | [] => [x]
  | y :: ys =>
    let before := x.1.gang < y.1.gang ∨ (x.1.gang = y.1.gang ∧ (x.1.team < y.1.team ∨
      (x.1.team = y.1.team ∧ x.1.grp < y.1.grp)))
    if before then x :: y :: ys else y :: insertGroup ys x

/-- The launch groups of a stream's scope, in ascending gangid, teamid and grpid (R103). -/
def State.scopeGroups (s : State) (q : SeqId) : List (GroupId × Group) :=
  (s.groups.filter (fun (g, x) => !x.spawned && g.grid != 0 && inScope q g.grid g.gang g.team x.role)).foldl
    insertGroup []

/-- The members that read a stream's relay queue (R98): the groups of a team, the team streams of a gang, the gang
streams of a grid, as far as they have not ended (R277). -/
def State.membersOf (s : State) (q : SeqId) : List Member :=
  match q.level with
  | .team => (s.scopeGroups q).map (fun (g, _) => .group g)
  | .gang => (s.seqs.filter (fun (k, x) => k.level == .team && k.grid == q.grid && k.gang == q.gang && k.role == q.role &&
      !x.ended)).map (fun (k, _) => .seq k)
  | .grid => (s.seqs.filter (fun (k, x) => k.level == .gang && k.grid == q.grid && k.role == q.role && !x.ended)).map
      (fun (k, _) => .seq k)

/-- Have all gangs of a stream's grid been placed, so that its members are all present (R99)? -/
def State.allPlaced (s : State) (q : SeqId) : Bool :=
  match q.level with
  | .grid => ((s.grid? q.grid).map (fun g => decide (g.gangs ≤ g.placed))).getD true
  | _ => true

/-- Where a stream stands after the run of a baton that it issued. -/
def Queued.standing (b : Queued) : Standing := ⟨b.after, b.view, b.viewEnd, b.read⟩

/-- The newest baton that some member has begun, also once it is freed. -/
def Seq.newest (x : Seq) : Option Queued := x.trail.head?

/-- The oldest baton of a stream that no member has begun. -/
def Seq.unbegun (x : Seq) : Option Queued := x.queue.find? (·.begun.isEmpty)

/-- Where R107 sends a stream back: behind the run of the newest baton that some member has begun; when none has been begun
under its present parent baton, to where it took that one. -/
def Seq.back (x : Seq) : Standing :=
  match x.unbegun, x.newest with
  | some _, some n => n.standing
  | some b, none => { b.standing with own := { b.after with pc := b.baton.pc } }
  | none, some n => if n.read = x.entry.read then n.standing else x.entry
  | none, none => x.entry

/-- The number of the oldest parent baton that a stream could still go back to under R107. -/
def Seq.backTo (x : Seq) : BitVec 32 := x.back.read

/-- Is a baton free of a member: finished by it (R98), and behind every place it could go back to (R107)? -/
def State.doneWith (s : State) (b : Queued) (m : Member) : Bool :=
  b.done.contains m &&
  (match m with
    | .group _ => true
    | .seq q => ((s.seq? q).map (fun x => decide ((x.backTo - b.baton.seq - 1).toNat < 2 ^ 31))).getD true)

/-- Free the batons that every member has finished (R98), continuation batons as soon as every member has read them
(R101). An owner whose members have all ended discards its queue and is at its end (R277). -/
def State.freeBatons (s : State) (q : SeqId) : State :=
  if !s.allPlaced q then s
  else
    let ms := s.membersOf q
    s.modSeq q (fun x =>
      if ms.isEmpty then { x with queue := [], ended := true }
      else { x with queue := x.queue.filter (fun b => !ms.all (s.doneWith b)) })

/-- Free what can be freed in a stream and in those above it. -/
def State.freeUp (s : State) (q : SeqId) : State :=
  match q.level with
  | .team => ((s.freeBatons q).freeBatons (q.atLevel .gang)).freeBatons (q.atLevel .grid)
  | .gang => (s.freeBatons q).freeBatons (q.atLevel .grid)
  | .grid => s.freeBatons q

/-- Free what every member has finished in every stream of a grid, from the teams upward. -/
def State.freeAll (s : State) (grid : Nat) : State :=
  let at_ (l : Level) : List SeqId := s.seqs.keysWhere (fun k _ => k.grid == grid && k.level == l)
  (at_ .team ++ at_ .gang ++ at_ .grid).foldl State.freeBatons s

/-! ### Ends (R36, R75, R136, R277) -/

/-- End a grid's stay on its sequencers: its grid streams go, and the launching die has the sequencer back (R62). -/
def State.dropGrid (s : State) (grid : Nat) : State :=
  { s with
    grids := s.grids.drop grid
    seqs := s.seqs.filter (fun (k, _) => k.grid != grid)
    dies := s.dies.mapVals (fun _ x => { x with
      gridSeqs := x.gridSeqs.filter (· != grid), claims := x.claims.filter (·.grid != grid) }) }

/-- End a gang: its gang sequencers and its built-in handle go (R62, R136), and its grid counts it. -/
def State.endGang (s : State) (grid gang : Nat) : State :=
  match s.gang? (grid, gang) with
  | none => s
  | some x =>
    let s := s.modRegion x.region (fun r => { r with gangSeqs := r.gangSeqs.filter (fun k => !x.seqs.contains k) })
    let s := { s with
      gangs := s.gangs.drop (grid, gang), builtins := s.builtins.drop x.handle
      seqs := s.seqs.filter (fun (k, _) => !(k.level == Level.gang && k.grid == grid && k.gang == gang)) }
    s.modGrid grid (fun g => { g with ended := g.ended + 1 })

/-- The cores that a team occupies. -/
def Team.cores (t : Team) : List Nat := if t.pair then [t.core, t.core + 1] else [t.core]

/-- The cores that hold tiles of a context, each with its virtual number, one for each team there. -/
def State.tileNumbers (s : State) (ctx : Nat) : List (Nat × Nat) :=
  s.teams.flatMap (fun (_, t) => if t.ctx = ctx then t.cores.zip t.vcores else [])

/-- The entries of a table of entries without the records of a tile (R385). -/
def forgetTile (core : Nat) (t : Tbl Nat SEntry) : Tbl Nat SEntry :=
  t.mapVals (fun _ e => { e with absent := e.absent.filter (fun a => a.1 != core) })

/-- A core is no longer frozen: every record of its absent members goes (R385). -/
def State.unfreeze (s : State) (core : Nat) : State :=
  let s := s.modCore core (fun c => { c with frozen := none })
  { s with
    dies := s.dies.mapVals (fun _ d => { d with entries := forgetTile core d.entries })
    builtins := s.builtins.mapVals (fun _ e => { e with absent := e.absent.filter (fun a => a.1 != core) }) }

/-- A core that holds no team any more is not frozen, and a migration of its tile ends with its reservation. -/
def State.thaw (s : State) (core : Nat) : State :=
  match (s.core core).frozen with
  | none => s
  | some f =>
    if s.teams.any (fun (_, t) => t.cores.contains core) then s
    else
      { s.unfreeze core with
        reserves := s.reserves.filter (fun r => !(r.queue.isNone && f.target.any (fun t => r.cores.contains t))) }

/-- A packet for a frozen tile: while the landing buffer is open and the router holds a credit for its channel, it lands
there and is owed; otherwise it is held at its responder (R203, R207, R387). -/
def State.land (s : State) (core channel : Nat) (p : Instr) : State :=
  s.modCore core (fun c =>
    match c.frozen with
    | none => c
    | some f =>
      let owed := c.counts.owed[channel]?.getD 0
      if f.stage = .landing ∧ owed.toNat < 8 then
        { c with
          frozen := some { f with landed := f.landed ++ [p] }
          counts := { c.counts with
            owed := c.counts.owed.setIfInBounds channel (owed + 1)
            router := c.counts.router.setIfInBounds channel ((c.counts.router[channel]?.getD 0) - 1) } }
      else { c with frozen := some { f with held := f.held ++ [p] } })

/-- How often a packet has landed or is held for a frozen tile. -/
def State.landedCount (s : State) (core : Nat) (p : Instr) : Nat :=
  ((s.core core).frozen.map (fun f => ((f.landed ++ f.held).filter (· == p)).length)).getD 0

/-- A read response has been consumed at a port (R387). -/
def State.readDone (s : State) (core : Nat) : State :=
  s.modCore core (fun c => { c with counts := { c.counts with outrd := if c.counts.outrd = 0 then 0 else c.counts.outrd - 1 } })

/-- End a team: what R56 lists is released. -/
def State.endTeam (s : State) (key : Nat × Nat × Nat) : State :=
  match s.team? key with
  | none => s
  | some t =>
    let s := s.modCore t.core (fun c => { c with teamSeqs := c.teamSeqs.filter (fun k => !t.seqs.contains k) })
    let s := { s with
      teams := s.teams.drop key, builtins := s.builtins.drop t.handle
      seqs := s.seqs.filter (fun (k, _) => !(k.level == Level.team && k.grid == key.1 && k.gang == key.2.1 && k.team == key.2.2)) }
    let s := t.cores.foldl State.thaw s
    match s.gang? (key.1, key.2.1) with
    | none => s
    | some g =>
      let s := s.setGang (key.1, key.2.1) { g with live := g.live - 1 }
      if g.live ≤ 1 then s.endGang key.1 key.2.1 else s

/-- Halted siblings resume together once no group of the team has TDEPTH above its value at the broadcast; the team's
streams go on (R197). -/
def State.resumeTeam (s : State) (key : Nat × Nat × Nat) : State :=
  match s.team? key with
  | none => s
  | some t =>
    let above (e : GroupId × Group) : Bool :=
      e.1.teamKey == key && decide (((t.marks.find? (·.1 = e.1)).map (·.2)).getD 0 < e.2.tdepth)
    if t.marks.isEmpty || s.groups.any above then s
    else
      let s := s.setTeam key { t with marks := [] }
      { s with
        groups := s.groups.mapVals (fun g x =>
          if g.teamKey = key then { x with halted := false, skidLeft := none } else x)
        seqs := s.seqs.mapVals (fun k x =>
          if k.level = .team ∧ k.grid = key.1 ∧ k.gang = key.2.1 ∧ k.team = key.2.2 then { x with stopped := false }
          else x) }

/-- The handles a group leaves at its end (R136): user entries, and for a launch group h6 and h7. -/
def Group.handles (g : Group) : List (BitVec 32) := (g.h.toList.filter (· != 0#32)).eraseDups

/-- Leave every membership of a group (R136, R141). -/
def State.leaveAll (s : State) (gid : GroupId) (g : Group) (kill : Bool) : State :=
  g.handles.foldl (fun s h => if s.handleOk h then s.leave h gid kill else s.leaveParked h gid kill) s

/-- The core that holds the starting-block latch of a group's team: the home core (R58, R117). -/
def State.homeCore (s : State) (gid : GroupId) (g : Group) : Nat := ((s.team? gid.teamKey).map (·.core)).getD g.core

/-- A group ends: it leaves its handles, and its slot, base block and extended blocks are free again at once (R277;
DESIGN CHOICE, log 124: R56 and R75 let its team hold them until the team ends). When it is the last of its team, the team
ends (R75). -/
def State.endGroup (s : State) (gid : GroupId) (kill : Bool) : State :=
  match s.group? gid with
  | none => s
  | some g =>
    let s := (s.leaveAll gid g kill).closeLines gid
    let s := s.modCore g.core (fun c => { c with vacq := c.vacq.filter (fun w => w.2.1 != gid) })
    let s := s.modCore (s.homeCore gid g) (fun c => { c with latch := c.latch.filter (fun l => l.group != gid) })
    let s := { s with
      groups := s.groups.drop gid
      debugs := s.debugs.mapVals (fun _ x => { x with hits := x.hits.filter (fun h => h.group != gid) }) }
    let s := s.endStep gid false
    match s.team? gid.teamKey with
    | none => s
    | some t =>
      let s := s.setTeam gid.teamKey { t with live := t.live - 1, marks := t.marks.filter (fun m => m.1 != gid) }
      let s := if t.live ≤ 1 then s.endTeam gid.teamKey else s.resumeTeam gid.teamKey
      s.freeAll gid.grid

/-- Another gang becomes head of the queue (R66, R69, R70). -/
def Queue.newHead (q : Queue) (now : Nat) : Queue :=
  { q with elev := q.prio, blk := false, rsv := false, bfc := 0, since := 0, became := now }

/-- Slots that were charged to completed issued words that are now discarded or replayed (R222): the charge moves. -/
def State.recharge (s : State) (core leaf n : Nat) : State :=
  if n = 0 then s
  else
    let add (t : Tbl Nat Word) (k : Nat) (x : Word) : Tbl Nat Word := t.put k ((t.find k).getD 0 + x)
    s.modCore core (fun c => { c with tdc := add (add c.tdc 0 (- BitVec.ofNat 64 n)) leaf (BitVec.ofNat 64 n) })

/-- Words of a group that have issued and will not retire if it is killed. -/
def Group.outstanding (g : Group) : Nat :=
  ((g.a.hold.toList ++ (g.b.bind (·.hold)).toList).filter (fun w => w == .vacq || w == .latch)).length +
    (g.wait.any (fun w => w.isOf .a || w.isOf .b)).toNat

/-- Kill a grid (R199, R36): every placed group is killed, no further gang is placed, the queue records ECODE 0x09,
and nothing is signalled. -/
def State.killGrid (s : State) (grid : Nat) : State :=
  match s.grid? grid with
  | none => s
  | some g =>
    let ids := (s.groups.filter (fun (k, _) => k.grid == grid)).map (·.1)
    let s := s.setGrid grid { g with killed := true }
    let s := ids.foldl (fun s k => (s.group? k).elim s (fun x => s.recharge x.core 16 x.outstanding)) s
    let s := ids.foldl (fun s k => s.endGroup k true) s
    let q := s.queue g.queue
    let tag := ((q.inflight.find? (fun f => f.idx == g.idx && f.work == .grid grid)).map (·.tag)).getD 0
    let head := q.grids.head? == some grid
    let q := if head then q.newHead s.timer else q
    let s := { s with reserves := if head then s.reserves.filter (fun r => r.queue != some g.queue) else s.reserves }
    let s := s.setQueue g.queue { q with
      grids := q.grids.filter (· != grid), inflight := q.inflight.filter (fun f => f.work != .grid grid) }
    let s := s.queueError g.queue 0x09 0x14 tag g.idx
    (s.settleDisable g.queue).dropGrid grid

/-! ### The pass count (R80) -/

/-- The effective pass count code of a region (R80): the largest of FLOOR, CTL and the thermal action of R10. -/
def State.passCode (s : State) (region : Nat) : Nat :=
  let r := s.region region
  max (max r.floor.toNat r.ctl.toNat) (if s.t108 then 2 else if s.t102 then 1 else 0)

end Sys2Proof.Machine
end

