-- ==== Sys2Proof/Machine/Ops.lean ====
section
/-! DEFINITION. The shared operations of the machine: taking a fault or trap (R191 to R199) and returning from one
(R195), the debug halt (R213), retiring an instruction, and the wrapper that every instruction word goes through: who
issues it (R94, R267), the checks of R269 in their order, and what its effect does to the group. -/

namespace Sys2Proof.Machine

/-- How a step ends. -/
abbrev Out := Host.Outcome State Fault Refusal

/-! ### The status word (R192) -/

/-- PARK: the not-taken slot is parked. -/
def Group.parked (g : Group) : Bool := g.a.parked || (g.b.map (·.parked)).getD false

/-- The group status word (R192). -/
def Group.status (g : Group) : BitVec 32 :=
  BitVec.ofNat 32 (g.flags.toNat + g.parked.toNat * 2 ^ 5 + min g.tdepth 3 * 2 ^ 6 + g.dhalt.toNat * 2 ^ 8)

/-! ### Fault records (R193) -/

/-- The record of a cause with nothing else to report. -/
def Cause.record (c : Cause) : Record :=
  { code := c.code, detail := c.detail, scope := 0, cls := 0, lane := 0, mrp := false, dcount := 0, dmask := 0, addr := 0 }

/-- The record of a failed access: class, lowest faulting lane and its address. -/
def Bad.record (b : Bad) (cls lane : Nat) (addr : Word) : Record :=
  { (b.cause cls).record with cls := BitVec.ofNat 3 cls, lane := BitVec.ofNat 6 lane, addr := addr &&& 0x1FFFFFFFFFFFFFF#64 }

/-- The record of a failed access of a spill or fill. -/
def spillRecord (b : Bad × Nat) : Record := b.1.record 0 0 (BitVec.ofNat 64 b.2)

/-! ### Stopping the streams of a team (R107) -/

/-- Has some member begun this baton? -/
def Queued.isBegun (b : Queued) : Bool := !b.begun.isEmpty

/-- Has a number of R97, which wraps modulo 2^32, not been reached by a reader that reads `r` next? -/
def notBefore (n r : BitVec 32) : Bool := decide ((n - r).toNat < 2 ^ 31)

/-- A member takes back its marks on the batons it reads from `r` on. -/
def unread (m : Member) (r : BitVec 32) (l : List Queued) : List Queued :=
  l.map (fun b =>
    if notBefore b.baton.seq r then { b with begun := b.begun.filter (· != m), done := b.done.filter (· != m) } else b)

/-- A member of a stream gives up what it has begun from `r` on: a baton that no member has begun any more leaves the trail. -/
def Seq.giveUp (x : Seq) (m : Member) (r : BitVec 32) : Seq :=
  let q := unread m r x.queue
  { x with queue := q, trail := x.trail.dropWhile (fun b => q.any (fun y => y.baton.seq == b.baton.seq && !y.isBegun)) }

/-- The end address at which the members of a stream wait after a baton. -/
def Queued.endsAt (b : Queued) : Option PC := if b.baton.cont then none else some b.after.pc

/-- R107 for one stream: it discards the batons that no member has begun, and goes back with its registers, flags, call
stack, place, and place in its parent's queue. -/
def Seq.rewind (x : Seq) : Seq :=
  let st := x.back
  { x with
    queue := x.queue.filter Queued.isBegun, own := st.own, view := st.view, viewEnd := st.viewEnd, read := st.read
    nextSeq := (x.unbegun.map (·.baton.seq)).getD x.nextSeq
    lastEnd := match x.newest, x.unbegun with
      | some n, _ => n.endsAt
      | none, some b => b.prevEnd
      | none, none => none
    inChain := (x.newest.map (·.baton.cont)).getD false
    entry := if st.read = x.entry.read then x.entry else st }

/-- R107 for a stream of the state; a stream of a stopped team then issues nothing until its team resumes (R197). -/
def State.rewindSeq (s : State) (stop : Bool) (q : SeqId) : State :=
  match s.seq? q with
  | none => s
  | some x =>
    let y := x.rewind
    let s := s.setSeq q { y with stopped := x.stopped || stop }
    match ownerOf (.seq q) with
    | some p => s.modSeq p (fun z => z.giveUp (.seq q) y.read)
    | none => s

/-- The streams of a team. -/
def State.teamSeqIds (s : State) (key : Nat × Nat × Nat) : List SeqId :=
  s.seqs.keysWhere (fun q _ => q.level == .team && q.grid == key.1 && q.gang == key.2.1 && q.team == key.2.2)

/-- R107 for the streams of a team, which stop, and for the gang and grid streams above it, which run forward again. -/
def State.stopStreams (s : State) (key : Nat × Nat × Nat) : State :=
  let gangs := s.seqs.keysWhere (fun q _ => q.level == .gang && q.grid == key.1 && q.gang == key.2.1)
  let grids := s.seqs.keysWhere (fun q _ => q.level == .grid && q.grid == key.1)
  let s := (s.teamSeqIds key).foldl (State.rewindSeq · true) s
  (gangs ++ grids).foldl (State.rewindSeq · false) s

/-! ### Taking a fault or trap -/

/-- A sibling is to stop after `n` more issued instructions (R197). Its halt record follows it until it stops. -/
def Group.toSkid (g : Group) (n : Nat) : Group :=
  { g with
    skidLeft := some n, skid := 0, halted := g.halted || n == 0
    haltPc := (g.slot (if g.lastB && g.split then .b else .a)).pc }

/-- The halt broadcast of a group's team (R197): every other group, spawned ones included, stops after at most 8 of
its own issued instructions (how many is a free value, log 17), and the team's streams stop (R107). Of a team that is
halted already a broadcast reaches the groups that an earlier one has not, which `spawn` has made since. -/
def State.broadcast (s : State) (gid : GroupId) : State :=
  match s.team? gid.teamKey with
  | none => s
  | some t =>
    let new := s.groups.filter (fun (k, _) => k.teamKey == gid.teamKey && !t.marks.any (·.1 == k))
    let s' := s.setTeam gid.teamKey { t with marks := t.marks ++ new.map (fun (k, x) => (k, x.tdepth)) }
    let s' := ((new.map (·.1)).filter (· != gid)).foldl (fun s k =>
      let (w, s) := s.drawWord
      s.modGroup k (fun x => x.toSkid (w.toNat % 9))) s'
    if t.marks.isEmpty then s'.stopStreams gid.teamKey else s'

/-- The handler starts on the faulting group (R191): unsplit, in slot A, with the stopped slot's lanes, at tvec. -/
def Group.enterHandler (g : Group) (sl : SlotId) (tvec : Word) : Group :=
  let t := g.slot sl
  { g with
    a := { t with pc := toPC tvec, parked := false, atJoin := false, hold := none, sent := false }, b := none, outer := ⟨0, 0, false⟩, lastB := false,
    halted := false, skidLeft := none, wait := none, skip := none }

/-- The trap entry of R191. -/
def Group.trapEntry (g : Group) (sl : SlotId) (pc : PC) (r : Record) : Entry :=
  let o := (g.otherSlot sl).map (fun t => { t with hold := none, sent := false })
  .trap pc (g.lanes sl) ((o.map (·.pc)).getD 0) o.isSome ((o.map (·.mask)).getD 0) sl g.status r g.outer o

/-- A group gives up its places in the queues of words that have not retired: `vacq` (R322) and the starting-block latch
(R356). The words, which the stop discards (R222), issue again when their slot goes on. -/
def State.unqueue (s : State) (gid : GroupId) (core home : Nat) : State :=
  let n := ((s.core core).vacq.filter (fun w => w.2.1 == gid)).length + ((s.core home).latch.filter (fun l => l.group == gid)).length
  ((s.recharge core 16 n).modCore core (fun c => { c with vacq := c.vacq.filter (fun w => w.2.1 != gid) })).modCore home (fun c => { c with
    latch := c.latch.filter (fun l => l.group != gid) })

/-- Take a fault or trap (R191, R196, R197): push the trap entry, enter the team's handler and broadcast the halt. The
group is killed when the stack is full, TDEPTH is 3 or tvec is 0 (R199), and also when the spill that the push needs
itself faults (log 18); while the stack of that spill is not ready, the stop is held (R16), and the freeze of the group's
tile captures it until the restore (R200). MRP says whether mrp holds a
restart point (R193), and is 0 for a non-uniform branch (R381). A fault of the debug core stops it and sets DERR (R210). -/
def State.takeStop (s : State) (gid : GroupId) (sl : SlotId) (r : Record) (pc : PC) : State :=
  if gid.isDebug then s.modMailbox gid.gang (fun m => { m with derr := true })
  else
    match s.group? gid, s.team? gid.teamKey with
    | some g, some t =>
      if (s.core g.core).frozen.isSome then s.setGroup gid { g with wait := some (.stop none sl r pc) }
      else if stackMax ≤ g.depth || t.tvec == 0#64 || decide (3 ≤ g.tdepth) then s.killGrid gid.grid
      else
        match pushEntry (s.broadcast gid) gid (g.trapEntry sl pc { r with mrp := r.mrp || (r.code != 0x03#8 && g.mrp.getLsbD 4) }) with
        | .error (.hold (.stack k), _) => s.setGroup gid { g with wait := some (.stop (some k) sl r pc) }
        | .error _ => (s.broadcast gid).killGrid gid.grid
        | .ok s => (((s.reslot gid (fun x => if x = sl then some .a else none)).unqueue gid g.core t.core).modGroup gid (fun g => g.enterHandler sl t.tvec)).endStep gid true
    | _, _ => s

/-- `tret` (R195): pop the trap entry and restore PC, MASK, the other slot, SLOT and STATUS, PARK with it; s, c and mode
keep the issuing slot's fork. -/
def Group.leaveHandler (g : Group) (sl : SlotId) (pc : PC) (mask : Mask) (opc : PC) (split : Bool) (omask : Mask)
    (slot : SlotId) (status : BitVec 32) (outer : Marks) (other : Option Slot) : Group :=
  let f := (g.slot sl).fork
  let merged : Marks := if g.split then ⟨f.marks.s ||| g.outer.s, f.marks.c ||| g.outer.c, f.marks.m || g.outer.m⟩ else f.marks
  let me : Slot := { pc := pc, mask := mask, parked := false, atJoin := false, fork := { f with marks := merged } }
  let o : Slot := match other with
    | some o => { o with pc := opc, mask := omask, parked := status.getLsbD 5 }
    | none => { pc := opc, mask := omask, parked := status.getLsbD 5, atJoin := false, fork := { f with marks := ⟨0, 0, false⟩ } }
  { g with
    a := if split && slot == .b then o else me
    b := if split then some (if slot = .b then me else o) else none
    outer := outer, lastB := slot == .b
    flags := status.extractLsb' 0 5, dhalt := status.getLsbD 8 }

/-- A stop that is held is taken now: that of a stack which answers again (R16), or the one that a freeze has captured (R200). -/
def State.retakeStop (s : State) (k : Option Nat) (gid : GroupId) : State :=
  match s.group? gid with
  | none => s
  | some g =>
    match g.wait with
    | some (.stop k' sl r pc) => if k' = k then (s.setGroup gid { g with wait := none }).takeStop gid sl r pc else s
    | _ => s

/-! ### A group's own end (R277, R117) -/

/-- A group ends by itself: what R277 releases, and the fault of every group that waits in the starting-block latch for
it, with the latch emptied (R117, R356) and the slots of their words discarded (R222). -/
def State.finishGroup (s : State) (gid : GroupId) : State :=
  match s.group? gid with
  | none => s
  | some g =>
    let s := if gid.isDebug then s.modDbg gid.gang (fun d => { d with rest := some g }) else s
    let hit (l : Latched) : Bool := l.group.teamKey == gid.teamKey && l.group != gid && l.memb.getLsbD gid.grp
    let home := s.homeCore gid g
    let struck := (s.core home).latch.filter hit
    let s := s.endGroup gid false
    let s := s.modCore home (fun c => { c with latch := c.latch.filter (fun l => !hit l) })
    struck.foldl (fun s l =>
      match s.group? l.group with
      | some x => (s.recharge x.core 16 1).takeStop l.group l.slot (illegal 5).record (x.slot l.slot).pc
      | none => s) s

/-! ### Debug halts (R213, R215) -/

/-- The debugger stops a group between two instructions: DHALT is set and a record enters the inbox of the debug core
of a die. -/
def State.debugHalt (s : State) (gid : GroupId) (sl : SlotId) (die : Nat) (kind : HaltKind) (ty code wpn : Nat)
    (data : Word) : State :=
  match s.group? gid with
  | none => s
  | some g =>
    let pc := (g.slot sl).pc
    let s := s.setGroup gid { g with dhalt := true, kind := kind, haltPc := pc, stopPc := pc }
    s.inboxPut die g.ctx (stopRecord s gid g sl ty pc code wpn data)

/-! ### Retiring and waiting -/

/-- What an instruction word does to its group: it retires at the next word or at a target, waits, stops with a fault
(precise: nothing of it happened) or with a trap after itself, or stops the group in another way. -/
inductive Eff where
  | next (s : State)
  | goto (s : State) (pc : PC)
  | wait (s : State) (w : Wait)
  | fault (r : Record)
  | trap (r : Record)
  | done (s : State)
  deriving Repr

/-- A spill or fill that fails: the fault of the word, with its scope code, or a wait while its stack is not ready (R16, R157). -/
def spillStop (s : State) (b : Bad × Nat) (scope : BitVec 3 := 0) : Eff :=
  match b.1 with
  | .hold w => .wait s w
  | _ => .fault { spillRecord b with scope := scope }

/-- Does a group in this wait try its instruction again? The others have issued it and wait for an answer, or wait for the
loader. -/
def Wait.retries : Wait → Bool
  | .empty _ | .baton | .post | .ring | .granule | .counter | .vrel | .aperture | .leave | .stack _ | .copies => true
  | _ => false

/-- Waits of one slot alone: the answer to a word that it has issued is outstanding (R109, R125). -/
def Wait.ofSlot : Wait → Bool
  | .vacq | .latch | .absent _ => true
  | _ => false

/-- One more instruction has issued (R73): the count saturates. -/
def Group.count (g : Group) : Group := { g with issued := if g.issued = 0xFFFFFFFF#32 then g.issued else g.issued + 1 }

/-- A group that is to stop issues one more instruction and stands at an address (R197): it counts in its skid, and the group
stops when none is left. -/
def Group.skidOne (g : Group) (pc : PC) : Group :=
  match g.skidLeft with
  | some (n + 1) => { g with skid := g.skid + 1, skidLeft := some n, haltPc := pc, halted := g.halted || n == 0 }
  | _ => g

/-- An instruction of a slot issues, and the slot stands at an address (R73, R109, R197, R215): the issue count, the slot that
issued last, the skid, and the skip bit that any issue clears. -/
def Group.issue (g : Group) (sl : SlotId) (pc : PC) : Group := { g.count.skidOne pc with lastB := sl == .b, skip := none }

/-- A word of a slot has issued and waits to retire: it is counted once, however often it is sent again. -/
def Group.send (g : Group) (sl : SlotId) : Group :=
  if (g.slot sl).sent then g else (g.issue sl (g.slot sl).pc).modSlot sl (fun t => { t with sent := true })

/-- A word of a slot waits: the slot alone, or the group. One that a later slot tries again has not issued. -/
def Group.waitIn (g : Group) (sl : SlotId) (w : Wait) : Group :=
  if w.ofSlot then { (g.send sl).modSlot sl (fun t => { t with hold := some w }) with wait := none }
  else { (if w.retries then g else g.send sl) with wait := some w }

/-- An instruction retires at an address: it issues now, unless it has issued before. The halt record of a group that is still
to stop follows it (R197). -/
def Group.retire (g : Group) (sl : SlotId) (pc : PC) : Group :=
  let g := if (g.slot sl).sent then { g with haltPc := if g.skidLeft.isSome && !g.halted then pc else g.haltPc } else g.issue sl pc
  { g.modSlot sl (fun t => { t with pc := pc, hold := none, sent := false }) with wait := none }

/-- The group of a debug core gets back what the core saved for a predicate program (R388). -/
def Group.unsave (g : Group) (p : ProgSave) : Group := { g with a := p.slot, flags := p.flags, dhalt := p.dhalt, wait := p.wait }

/-- The debug core has back what it saved for a predicate program; one that was idle idles again (R388). -/
def State.leaveProg (s : State) (die : Nat) (p : ProgSave) : State :=
  let s := s.modDbg die (fun d => { d with step := p.step })
  match s.group? (debugId die) with
  | some g =>
    let g := g.unsave p
    if p.idle then { s.modDbg die (fun d => { d with rest := some g }) with groups := s.groups.drop (debugId die) }
    else s.setGroup (debugId die) g
  | none => s

/-- The end of a predicate program (R217, R388): the debug core has back what it saved, and an idle one idles again, or
starts when INV has become 1 meanwhile. The hitting group stays halted with a record of TYPE 3 when the result is 1, or
goes on. -/
def State.endProg (s : State) (die : Nat) (result : Bool) : State :=
  match (s.dbg die).prog with
  | none => s
  | some p =>
    let s := (s.modDbg die (fun d => { d with prog := none })).leaveProg die p
    let s := if p.idle && (s.dbg die).due then s.startDebug die else s
    let h := p.hit
    let s := s.modGroup h.group (fun g => { g with wait := if g.wait = some .watch then none else g.wait })
    if result then s.debugHalt h.group h.slot die .watchpoint 3 0x12 h.wpn h.addr else s

/-- An instruction retires at `pc`; a step of its slot ends (R214), and the instructions left to a predicate program fall
(R217). -/
def State.retire (s : State) (gid : GroupId) (sl : SlotId) (pc : PC) : State :=
  let s := s.modGroup gid (fun g => g.retire sl pc)
  match (s.dbg gid.gang).prog with
  | some p =>
    if gid.isDebug then
      let s := s.modDbg gid.gang (fun d => { d with prog := some { p with left := p.left - 1 } })
      if p.left ≤ 1 then s.endProg gid.gang true else s
    else s.endStepOf gid sl
  | none => s.endStepOf gid sl

/-- A word that a slot has issued earlier retires, whatever the group waits for meanwhile. -/
def State.retireLate (s : State) (gid : GroupId) (sl : SlotId) : State :=
  match s.group? gid with
  | none => s
  | some g => (s.retire gid sl (g.slot sl).pc.next).modGroup gid (fun x => { x with wait := g.wait })

/-- Turn an effect into the next state. -/
def Eff.finish (e : Eff) (s0 : State) (gid : GroupId) (sl : SlotId) (pc : PC) : State :=
  match e with
  | .next s => s.retire gid sl pc.next
  | .goto s t => s.retire gid sl t
  | .wait s w => s.modGroup gid (·.waitIn sl w)
  | .fault r => s0.takeStop gid sl r pc
  | .trap r => (s0.modGroup gid (fun g => g.retire sl pc)).takeStop gid sl r pc.next
  | .done s => s

/-! ### Words of an upper scope (R101, R267) -/

/-- The scope of R267 of a raw word: it reads the opcode and the scope field only. -/
def wordScope (w : BitVec 32) : Option Level :=
  let op := (fld w 24 8).toNat
  let bl := (fld w 21 3).toNat
  let k := (fld w 22 2).toNat
  if op = 0x01 ∨ op = 0x03 ∨ op = 0x04 ∨ op = 0x06 then
    (if bl = 2 then some .team else if bl = 3 then some .gang else if bl = 4 then some .grid else none)
  else if 0x10 ≤ op ∧ op ≤ 0x1B then
    (if k = 1 then some .team else if k = 2 then some .gang else if k = 3 then some .grid else none)
  else if op = 0x1C then some .team
  else if op = 0x1D then some .gang
  else if op = 0x1E then some .grid
  else none

/-- The scope of R267 that a word belongs to, if an upper one. -/
def upperScope : Instr → Option Level
  | .br s _ _ _ | .call s _ | .ret s | .loop s _ _ =>
    if s = 2#3 then some .team else if s = 3#3 then some .gang else if s = 4#3 then some .grid else none
  | .kadd s .. | .ksub s .. | .kmul s .. | .kand s .. | .kor s .. | .kxor s .. | .kshl s .. | .kshr s ..
  | .kmov s .. | .kseq s .. | .kslt s .. | .ksltu s .. =>
    if s = 1#2 then some .team else if s = 2#2 then some .gang else if s = 3#2 then some .grid else none
  | .wred .. => some .team
  | .gred .. => some .gang
  | .dred .. => some .grid
  | .unassignedOpcode w => wordScope w
  | _ => none

/-- SCOPE code of a level (R97, R251). -/
def levelCode : Level → Nat
  | .team => 2
  | .gang => 3
  | .grid => 4

/-- The opcodes of the control words that have a scope field (R265): `br`, `call`, `ret` and `loop`. -/
def isControlOp (op : Nat) : Bool := op == 0x01 || op == 0x03 || op == 0x04 || op == 0x06

/-- The SCOPE of R193 for the fault of a word: the scope code of a control instruction, 0 otherwise. -/
def scopeCode (i : Instr) : BitVec 3 :=
  match i with
  | .br s _ _ _ | .call s _ | .ret s | .loop s _ _ => if s.toNat < 5 then s else 0
  | .unassignedOpcode w =>
    if isControlOp (fld w 24 8).toNat ∧ (fld w 21 3).toNat < 5 then fld w 21 3 else 0
  | _ => 0

/-- The record of a cause raised by a control word. -/
def Cause.atScope (c : Cause) (i : Instr) : Record := { c.record with scope := scopeCode i }

/-! ### The checks of R269 for a group -/

/-- The scope field that decides the debug subset (R210). -/
def scopeField : Instr → Nat
  | .br s _ _ _ | .call s _ | .ret s | .loop s _ _ => s.toNat
  | _ => 1

/-- Tile, slot and ring indices, which must lie below the team's counts (step 5 of R269, R246). -/
def countChecks (t : Team) : Instr → List Chk
  | .mma m a b _ | .mmaJ m a b _ =>
    [⟨decide (t.tiles ≤ m.toNat), illegal 8⟩, ⟨decide (t.slots ≤ a.toNat), illegal 8⟩, ⟨decide (t.slots ≤ b.toNat), illegal 8⟩]
  | .mzero m => [⟨decide (t.tiles ≤ m.toNat), illegal 8⟩]
  | .mld m a _ => [⟨decide (t.tiles ≤ m.toNat), illegal 8⟩, ⟨decide (t.slots ≤ a.toNat), illegal 8⟩]
  | .mst m a b _ _ =>
    [⟨decide (t.tiles ≤ m.toNat), illegal 8⟩, ⟨decide (t.slots ≤ a.toNat), illegal 8⟩, ⟨decide (t.slots ≤ b.toNat), illegal 8⟩]
  | .mrd m _ _ | .mwr m _ _ => [⟨decide (t.tiles ≤ m.toNat), illegal 8⟩]
  | .zld z _ _ => [⟨decide (t.slots ≤ z.toNat), illegal 8⟩]
  | .npack _ _ z _ _ | .nunpk _ _ z _ _ => [⟨decide (t.slots ≤ z.toNat), illegal 8⟩]
  | .qfill q _ | .qdrain q _ | .qwait q _ _ => [⟨decide (t.rings ≤ q.toNat), illegal 8⟩]
  | _ => []

/-- Steps 1 to 5 of R269 for a group: the first failure. -/
def groupCheck (s : State) (gid : GroupId) (sl : SlotId) (g : Group) (i : Instr) : Option Cause :=
  if !issuerAllows gid.isDebug (opOf i) (scopeField i) then some (illegal 1)
  else
    match firstBad (varChecks i ++ codingChecks i ++ typeChecks (g.ty sl) i) with
    | some c => some c
    | none =>
      if !roleAllows g.role (classOfOp (opOf i)) then some (illegal 3)
      else
        match s.team? gid.teamKey with
        | some t => firstBad (countChecks t i)
        | none => none

/-- The wrapper of every word that a group executes: the checks of R269, then the instruction's own effect, and what it
does to the group. A sequencer hands such a word down, so its meaning there is to issue the run that holds it; that is
`handDown`, which the caller gives. -/
def word (i : Instr) (s : State) (handDown : SeqId → State) (body : GroupId → SlotId → Group → Eff) : Out :=
  match s.cur with
  | .none => .refused .noIssuer
  | .seq q => .next (handDown q)
  | .group gid sl =>
    match s.group? gid with
    | none => .refused .noIssuer
    | some g =>
      let pc := (g.slot sl).pc
      match groupCheck s gid sl g i with
      | some c => .next (s.takeStop gid sl (c.atScope i) pc)
      | none => .next ((body gid sl g).finish s gid sl pc)

/-- A body that changes nothing but its group. -/
def onGroup (s : State) (gid : GroupId) (g : Group) : Eff := .next (s.setGroup gid g)

end Sys2Proof.Machine
end

