-- ==== Sys2Proof/Machine/Relay.lean ====
section
/-! DEFINITION. The sequencer tree: scanning and issuing batons (R96, R97), reading them (R101), words of an upper
scope at a member (R101, R106, R283, R392) and at their owner (R293), posts (R102) and decisions (R103, R297). -/

namespace Sys2Proof.Machine

/-- Words that need lane data from every member (R102). -/
def needsPosts : Instr → Bool
  | .br s _ c _ => decide (2 ≤ s.toNat ∧ s.toNat ≤ 4) && decide (c.toNat < 8)
  | .wred .. | .gred .. | .dred .. => true
  | _ => false

/-- Why the owner cannot execute a word of its scope (R95, R271, R295), which then every member takes. -/
def ownerStop (x : Seq) (i : Instr) : Option Cause :=
  match firstBad (codingChecks i) with
  | some c => some c
  | none =>
    match i with
    | .unassignedOpcode w => some (wordCause false w)
    | .call _ _ => if 32 ≤ x.own.stack.length then some (badScope 2) else none
    | .ret _ => if x.own.stack.isEmpty then some (badScope 3) else none
    | _ => none

/-! ### Where the streams stand -/

/-- The streams from one up to a level. -/
def chainUp (q : SeqId) (lvl : Level) : List SeqId :=
  match q.level, lvl with
  | .team, .team => [q]
  | .team, .gang => [q, q.atLevel .gang]
  | .team, .grid => [q, q.atLevel .gang, q.atLevel .grid]
  | .gang, .grid => [q, q.atLevel .grid]
  | _, _ => [q]

/-- How a word of a level at an address stands to the streams that lead to it. -/
inductive Reach where
  | notYet
  | stray                                -- R392: not at the end address of a parent's baton
  | here (owner : SeqId) (x : Seq)
  deriving DecidableEq, Repr

/-- Follow the streams upward to the owner of a word. -/
def reach (s : State) (pc : PC) (lvl : Level) : List SeqId → Reach
  | [] => .notYet
  | q :: qs =>
    match s.seq? q with
    | none => .notYet
    | some x =>
      if x.own.pc ≠ pc then .notYet
      else if q.level = lvl then .here q x
      else
        match x.viewEnd with
        | none => .notYet
        | some e => if e = pc then reach s pc lvl qs else .stray

/-- Do the batons of every stream of a list end at an address, with no decision made there since (R96)? -/
def allEnd (s : State) (pc : PC) (qs : List SeqId) : Bool :=
  qs.all (fun q => ((s.seq? q).bind (·.lastEnd)) == some pc)

/-! ### Issuing batons -/

/-- May a stream scan and issue: not stopped, not ended, and with a view of the level above (R97)? -/
def Seq.runs (x : Seq) (q : SeqId) : Bool := !x.stopped && !x.ended && (q.level == .grid || x.view.isSome)

/-- Is a stream held: a team stream with its core while that is frozen or waits for a wake (R84, R203), a gang or grid
stream with its context (R201)? -/
def State.seqHeld (s : State) (q : SeqId) : Bool :=
  match q.level with
  | .team => ((s.team? (q.grid, q.gang, q.team)).map (fun t => t.cores.any s.absentCore)).getD false
  | _ => (((s.seq? q).bind (fun x => s.ctx? x.ctx)).map (fun c => c.stage == .frozen || c.stage == .out)).getD false

/-- The baton that a stream issues now (R97): the state of every level above the receiver. -/
def Seq.baton (x : Seq) (q : SeqId) (len : Nat) (cont empty : Bool) : Baton :=
  let v := x.view.getD (.blank 0 .team)
  let b : Baton := { v with
    pc := x.own.pc, len := len, level := q.level, cont := cont, empty := empty, seq := x.nextSeq }
  let low : Vector Word 8 := Vector.ofFn (fun i => x.own.regs[i.val]?.getD 0)
  let depth := BitVec.ofNat 6 x.own.stack.length
  match q.level with
  | .team => { b with w := x.own.regs, cTeam := x.own.c, dTeam := depth }
  | .gang => { b with w := .replicate 16 0, g := low, cTeam := 0, dTeam := 0, cGang := x.own.c, dGang := depth }
  | .grid =>
    { b with
      w := .replicate 16 0, g := .replicate 8 0, d := low, cTeam := 0, dTeam := 0, cGang := 0, dGang := 0
      cGrid := x.own.c, dGrid := depth }

/-- Put a baton into the relay queue (R96). -/
def Seq.emit (x : Seq) (q : SeqId) (len : Nat) (cont empty : Bool) : Seq :=
  let after : Owner := { x.own with pc := x.own.pc + BitVec.ofNat 57 (4 * len) }
  let e : Queued :=
    { baton := x.baton q len cont empty, after := after, begun := [], done := [], prevEnd := x.lastEnd, view := x.view,
      viewEnd := x.viewEnd, read := x.read }
  { x with
    own := after, queue := x.queue ++ [e], nextSeq := x.nextSeq + 1, inChain := cont
    lastEnd := if cont then none else some after.pc }

/-- How a scan ends: at a word of the scope or an unfetchable word, at 4,096 words, or not yet because memory does not
answer. -/
inductive Scan where
  | ends (len : Nat)
  | chains
  | held
  deriving DecidableEq, Repr

/-- Scan a run from an address (R96); only the scope fields are decoded. -/
def scanRun (s : State) (ctx : Nat) (lvl : Level) : (fuel : Nat) → PC → Nat → Scan
  | 0, _, _ => .chains
  | fuel + 1, pc, n =>
    match fetchIn s ctx pc with
    | .error (.hold _) => .held
    | .error _ => .ends n
    | .ok w =>
      match wordScope w with
      | some l => if l.ge lvl then .ends n else scanRun s ctx lvl fuel pc.next (n + 1)
      | none => scanRun s ctx lvl fuel pc.next (n + 1)

/-- Must the members be brought to the word at which the stream stands (R96, R392, R295)? -/
def wantsMembers (s : State) (q : SeqId) (pc : PC) (i : Instr) (lvl : Level) : Bool :=
  match reach s pc lvl (chainUp q lvl) with
  | .notYet => false
  | .stray => true
  | .here _ x => needsPosts i || (ownerStop x i).isSome

/-- BATON_ISSUE (R96): the stream issues the run it stands at, or an empty baton where its members must come to the
word it stands at. A stream that stands at an entry stub first goes where the stub leads (R53). -/
def State.issueBaton (s : State) (q : SeqId) : State :=
  match s.seq? q with
  | none => s
  | some x =>
    if !x.runs q || s.seqHeld q || decide (8 ≤ x.queue.length) then s
    else
      match stubAt s x.ctx x.own.pc with
      | some (.body b) => s.setSeq q { x with own := { x.own with pc := b } }
      | some (.loader _) => s
      | none =>
      let pc := x.own.pc
      let emptyHere (want : Bool) : State := if want && x.lastEnd != some pc then s.setSeq q (x.emit q 0 false true) else s
      let run : State :=
        match scanRun s x.ctx q.level 4097 pc 0 with
        | .ends n => s.setSeq q (x.emit q n false false)
        | .chains => s.setSeq q (x.emit q 4096 true false)
        | .held => s
      match fetchIn s x.ctx pc with
      | .error (.hold _) => s
      | .error _ => emptyHere true
      | .ok w =>
        match wordScope w with
        | none => run
        | some l => if l.ge q.level then emptyHere (wantsMembers s q pc (decodeWord w) l) else run

/-! ### Reading batons -/

/-- The baton that a member reads next, if it has been issued. -/
def State.nextBaton (s : State) (q : SeqId) (n : BitVec 32) : Option Queued :=
  (s.seq? q).bind (fun x => x.queue.find? (fun b => b.baton.seq == n))

/-- The end address of a chain, once its last baton is read (R101). -/
def Baton.endOf (b : Baton) : Option PC := if b.cont then none else some (b.pc + BitVec.ofNat 57 (4 * b.len))

/-- Does one number of R97, which wraps modulo 2^32, come after another? -/
def laterSeq (n r : BitVec 32) : Bool := n != r && notBefore n r

/-- A baton has been begun: the newest such baton is what R107 goes back to. -/
def Seq.begin (x : Seq) (m : Member) (n : BitVec 32) : Seq :=
  let mark (b : Queued) : Queued := if b.baton.seq = n then { b with begun := m :: b.begun } else b
  let queued (b : Queued) : Bool := x.queue.any (fun y => y.baton.seq == b.baton.seq)
  let old := x.trail.takeWhile queued ++ (x.trail.dropWhile queued).take 1
  { x with
    queue := x.queue.map mark
    trail := match x.queue.find? (fun b => b.baton.seq == n) with
      | some b => if x.newest.all (fun y => laterSeq n y.baton.seq) then mark b :: old else old
      | none => old }

/-- A baton has been finished by a member. -/
def Seq.finish (x : Seq) (m : Member) (n : BitVec 32) : Seq :=
  { x with queue := x.queue.map (fun b => if b.baton.seq = n then { b with done := m :: b.done } else b) }

/-- Mark what a member has begun and finished. -/
def State.markBatons (s : State) (q : SeqId) (m : Member) (begun done : Option (BitVec 32)) : State :=
  (s.modSeq q (fun x =>
    let x := begun.elim x (x.begin m)
    done.elim x (x.finish m))).freeUp q

/-- A stream has read the next baton of its parent's chain: the places that it keeps for the same parent baton move with
it, because the parent frees what all have read (R101). -/
def Seq.readOn (x : Seq) (e : Option PC) (r : BitVec 32) : Seq :=
  let on (b : Queued) : Queued := if b.view = x.view ∧ b.viewEnd.isNone then { b with viewEnd := e, read := r } else b
  { x with
    viewEnd := e, read := r, queue := x.queue.map on, trail := x.trail.map on
    entry := { x.entry with viewEnd := e, read := r } }

/-- A stream takes its parent's next baton, and goes on at its PC. -/
def Seq.take (x : Seq) (b : Baton) : Seq :=
  let own : Owner := { x.own with pc := b.pc }
  { x with
    view := some b, viewEnd := b.endOf, read := x.read + 1, own := own, entry := ⟨own, some b, b.endOf, x.read + 1⟩ }

/-- Has a group begun no baton yet? -/
def Group.fresh (g : Group) : Bool := !g.spawned && g.viewEnd.isNone && g.view.empty

/-- Does a group run: not halted by its team, by the debugger, by a freeze of its core, or by a region whose clocks do
not run (R84)? -/
def State.runnable (s : State) (g : Group) : Bool := !g.halted && !g.dhalt && !s.absentCore g.core

/-- BATON_TAKE (R101): a member reads the next baton of its owner's queue. A group does so at its end address, unsplit
(R106); a stream does so when it has scanned to its end address. Continuation batons are read as they come. -/
def State.takeBaton (s : State) (m : Member) : State :=
  match m with
  | .group gid =>
    match s.group? gid with
    | none => s
    | some g =>
      let q := streamOf gid g
      match s.nextBaton q g.read with
      | none => s
      | some b =>
        if !s.runnable g || g.spawned then s
        else if g.viewEnd.isNone && !g.fresh then
          (s.setGroup gid { g with
            viewEnd := b.baton.endOf, read := g.read + 1, wait := if g.wait = some .baton then none else g.wait }).markBatons
            q m (some g.read) (some g.read)
        else if g.fresh || (g.viewEnd == some g.a.pc && !g.split && decide (g.divDepth ≤ g.batDiv) && g.post.isNone) then
          (s.setGroup gid { g with
            view := b.baton, viewEnd := b.baton.endOf, read := g.read + 1, a := { g.a with pc := b.baton.pc }
            batDiv := g.divDepth, wait := if g.wait = some .baton then none else g.wait }).markBatons
            q m (some g.read) (if g.fresh then none else some g.view.seq)
        else s
  | .seq q =>
    match s.seq? q, ownerOf m with
    | some x, some p =>
      match s.nextBaton p x.read with
      | none => s
      | some b =>
        if x.stopped || x.ended || s.seqHeld q then s
        else
          match x.view with
          | none => (s.setSeq q (x.take b.baton)).markBatons p m (some x.read) none
          | some v =>
            if x.viewEnd.isNone then
              (s.setSeq q (x.readOn b.baton.endOf (x.read + 1))).markBatons p m (some x.read) (some x.read)
            else if x.viewEnd = some x.own.pc then (s.setSeq q (x.take b.baton)).markBatons p m (some x.read) (some v.seq)
            else s
    | _, _ => s

/-! ### A member at a word of an upper scope -/

/-- What a member does when its contribution is asked for. -/
inductive Contribution where
  | post (p : Post)
  | wait (w : Wait)
  | fault (r : Record)
  deriving DecidableEq, Repr

/-- A group that decodes a word of an upper scope (R101, R102, R106, R283, R392): it posts, waits for the next baton, or
takes the fault of the word. A handler posts nothing: the owner decides from the posts that follow its `tret` (R104, R382). -/
def State.memberWord (s : State) (i : Instr) (lvl : Level) (gid : GroupId) (sl : SlotId) (g : Group)
    (contribute : Contribution) : State :=
  let pc := (g.slot sl).pc
  let q := streamOf gid g
  let stop (c : Cause) : State := s.takeStop gid sl (c.atScope i) pc
  let wait (w : Wait) : State := s.setGroup gid { g with wait := some w }
  if gid.isDebug then stop (illegal 1)
  else if g.spawned then stop (badScope 8)
  else
    match g.viewEnd with
    | none => wait .baton
    | some e =>
      if e ≠ pc then stop (badScope 9)
      else if g.split || decide (g.batDiv < g.divDepth) then stop (badScope 5)
      else if g.post.isSome then wait .post
      else if (s.nextBaton q g.read).isSome then wait .baton
      else
        match reach s pc lvl (chainUp q lvl) with
        | .notYet => wait .baton
        | .stray => stop (badScope 9)
        | .here _ x =>
          match ownerStop x i with
          | some c => stop c
          | none =>
            if needsPosts i && g.tdepth == 0 && allEnd s pc (chainUp q lvl) then
              match contribute with
              | .post p => s.setGroup gid { g with post := some p, wait := some .post }
              | .wait w => wait w
              | .fault r => s.takeStop gid sl r pc
            else wait .baton

/-! ### Decisions -/

/-- The members of a decision: every launch group of the scope, when each has posted at the owner's word (R99, R103). -/
def State.posted (s : State) (q : SeqId) (pc : PC) : Option (List (GroupId × Group × Post)) :=
  let l := s.scopeGroups q
  let ps := l.filterMap (fun (k, g) => (g.post.filter (·.pc = pc)).map (fun p => (k, g, p)))
  if s.allPlaced q && !l.isEmpty && ps.length == l.length then some ps else none

/-- A decision has been made: the posts are used, the members wait for the next baton, and the step of a member that
posted completes, with the PC that the decision leads to in its record (R214, log 31). -/
def State.decided (s : State) (q : SeqId) (ps : List (GroupId × Group × Post)) (dest : PC) : State :=
  let s := ps.foldl (fun s (k, _, _) =>
    (s.modGroup k (fun g => { g with post := none, wait := some .baton })).endStepAt k true (some dest)) s
  { s with seqs := s.seqs.mapVals (fun k x =>
      if inScope q k.grid k.gang k.team k.role && q.level.ge k.level then { x with lastEnd := none } else x) }

/-- Lanes of a group whose predicate differs from the reference. -/
def dissent (g : Group) (p : Nat) (ref : Bool) : Mask :=
  let m := shownMask g.a
  if ref then m &&& ~~~ (g.readP p) else m &&& g.readP p

/-- The decision of a branch on a predicate (R103). -/
def State.decideBr (s : State) (q : SeqId) (x : Seq) (i : Instr) (sense : Bool) (p : Nat) (target : PC) : State :=
  let pc := x.own.pc
  match s.posted q pc with
  | none => s
  | some ps =>
    let act : Nat := (ps.map (fun e => e.2.2.active)).sum
    let tru : Nat := (ps.map (fun e => e.2.2.true_)).sum
    if tru = 0 ∨ tru = act then
      let taken := decide (0 < act) && (tru == act) != sense
      let dest := if taken then target else pc.next
      (s.decided q ps dest).modSeq q (fun y => { y with own := { y.own with pc := dest } })
    else
      let ref :=
        if tru * 2 = act then ((ps.find? (fun e => decide (0 < e.2.2.active))).map (fun e => e.2.2.first)).getD false
        else decide (act < tru * 2)
      let total := (ps.map (fun e => countOf (dissent e.2.1 p ref))).sum
      let s := ps.foldl (fun s (k, _, _) => s.modGroup k (fun g => { g with post := none, wait := none })) s
      ps.foldl (fun s (k, g, _) =>
        let d := dissent g p ref
        s.takeStop k .a { (Cause.atScope ⟨0x03, 0⟩ i) with
          lane := BitVec.ofNat 6 (lowest d), dcount := total, dmask := d } pc) s

/-- The result of a scope reduction (R297): each owner combines its members' values in ascending order. -/
def nested (op : Nat) (ty : RedTy) (lvl : Level) (ps : List (GroupId × Group × Post)) : Word :=
  let team (gg t : Nat) : Word :=
    combineAll op ty ((ps.filter (fun e => e.1.gang == gg && e.1.team == t)).map (fun e => e.2.2.value))
  let gang (gg : Nat) : Word :=
    combineAll op ty (((ps.filter (fun e => e.1.gang == gg)).map (fun e => e.1.team)).eraseDups.map (team gg))
  match lvl with
  | .team => combineAll op ty (ps.map (fun e => e.2.2.value))
  | .gang => combineAll op ty ((ps.map (fun e => e.1.team)).eraseDups.map (team ((ps.head?.map (fun e => e.1.gang)).getD 0)))
  | .grid => combineAll op ty ((ps.map (fun e => e.1.gang)).eraseDups.map gang)

/-- The decision of a scope reduction (R297). -/
def State.decideRed (s : State) (q : SeqId) (x : Seq) (d op : Nat) (ty : RedTy) : State :=
  match s.posted q x.own.pc with
  | none => s
  | some ps =>
    let r := extendRed ty (nested op ty q.level ps)
    (s.decided q ps x.own.pc.next).modSeq q (fun y => { y with own := { y.own with
      pc := y.own.pc.next, regs := y.own.regs.setIfInBounds d r } })

/-- A word that a group executes; a stream hands it down (R94). -/
def groupWord (i : Instr) (s : State) (body : GroupId → SlotId → Group → Eff) : Out := word i s s.issueBaton body

/-- The wrapper of a word of an upper scope: at its owner `own` acts; another stream hands it down or waits (R94,
R392); a group is a member. -/
def upperWord (i : Instr) (lvl : Level) (s : State) (own : SeqId → Seq → State)
    (contribute : GroupId → SlotId → Group → Contribution) : Out :=
  match s.cur with
  | .none => .refused .noIssuer
  | .seq q =>
    match s.seq? q with
    | none => .refused .noIssuer
    | some x =>
      if q.level = lvl ∧ x.runs q ∧ !s.seqHeld q ∧ (ownerStop x i).isNone then .next (own q x) else .next (s.issueBaton q)
  | .group gid sl =>
    match s.group? gid with
    | none => .refused .noIssuer
    | some g => .next (s.memberWord i lvl gid sl g (contribute gid sl g))

/-- Does an owner run ahead (R100): while its queue has a free entry? -/
def Seq.ahead (x : Seq) : Bool := decide (x.queue.length < 8)

/-- A word that its owner executes without posts, while it runs ahead (R100): the members only wait for the batons that
follow. -/
def ownerWord (i : Instr) (lvl : Level) (s : State) (f : Owner → Owner) : Out :=
  upperWord i lvl s (fun q x => if x.ahead then s.setSeq q { x with own := f x.own } else s) (fun _ _ _ => .wait .baton)

/-- A word that needs posts: the owner decides once every member has posted, and until then brings its members to the
word (R96, R102, R103). -/
def postedWord (i : Instr) (lvl : Level) (s : State) (decide_ : SeqId → Seq → State)
    (contribute : GroupId → SlotId → Group → Contribution) : Out :=
  upperWord i lvl s
    (fun q x => if (s.posted q x.own.pc).isSome then decide_ q x else s.issueBaton q) contribute

end Sys2Proof.Machine
end

