-- ==== Sys2Proof/Machine/Operands.lean ====
section
/-! DEFINITION. Operands of vector words: the checks of v sources (R250), values under a type (R224, R225, R302),
results and pending results of long-latency producers (R119, R305), and last reads (R122). -/

namespace Sys2Proof.Machine

/-! ### Types (R224, R225, R227) -/

/-- The bits of an operand of a type code. -/
def tyBits (ty : Nat) : Nat :=
  if ty = 2 ∨ ty = 3 ∨ ty = 9 ∨ ty = 10 then 16 else if ty = 4 ∨ ty = 5 then 8
  else if ty = 6 ∨ ty = 7 ∨ ty = 11 then 64 else if ty = 12 then 48 else 32

/-- Is an integer type signed? -/
def tySigned (ty : Nat) : Bool := ty % 2 == 0

/-- The format of a float type code (R227). -/
def fmtOf (ty : Nat) : Fmt := if ty = 9 then fmtF16 else if ty = 10 then fmtBf16 else if ty = 11 then fmtF64 else fmtF32

/-- The value of an integer code. -/
def intOf (ty raw : Nat) : Int :=
  let w := tyBits ty
  if tySigned ty && raw.testBit (w - 1) then (raw % 2 ^ w : Nat) - (2 ^ w : Nat) else (raw % 2 ^ w : Nat)

/-- The code of an integer modulo 2^w. -/
def intCode (ty : Nat) (x : Int) : Nat := (x % (2 ^ tyBits ty : Nat)).toNat

/-- The ends of a type's range (R224). -/
def intLo (ty : Nat) : Int := if tySigned ty then -(2 ^ (tyBits ty - 1) : Nat) else 0
def intHi (ty : Nat) : Int := if tySigned ty then (2 ^ (tyBits ty - 1) : Nat) - 1 else (2 ^ tyBits ty : Nat) - 1

/-- The nearest value in the range of a type. -/
def clampInt (ty : Nat) (x : Int) : Int := if x < intLo ty then intLo ty else if intHi ty < x then intHi ty else x

/-- IntRes of R302. -/
def intRes (ty : Nat) (sat : Bool) (x : Int) : Nat := intCode ty (if sat then clampInt ty x else x)

/-- The exact value of a code of types 0 to 11. -/
def numOf (ty raw : Nat) : Num := if ty < 8 then .ofInt (intOf ty raw) else (fmtOf ty).decode raw

/-! ### Lanes of a register or a pair (R225) -/

/-- The v registers of an operand. -/
def occupies (ty n : Nat) : List Nat := if isPair ty then [n, n + 1] else [n]

/-- The bits of an operand in a lane. -/
def Group.rawV (g : Group) (ty n l : Nat) : Nat :=
  let lo := (g.readV n l).toNat
  if isPair ty then (lo + (g.readV (n + 1) l).toNat * 2 ^ 32) % 2 ^ tyBits ty else lo % 2 ^ tyBits ty

/-- The low lane word of a result. -/
def loLane (ty raw : Nat) : BitVec 32 :=
  if ty = 2 then (BitVec.ofNat 16 raw).signExtend 32
  else if ty = 4 then (BitVec.ofNat 8 raw).signExtend 32
  else BitVec.ofNat 32 (raw % 2 ^ tyBits ty)

/-- The high lane word of a pair. -/
def hiLane (ty raw : Nat) : BitVec 32 := BitVec.ofNat 32 (raw % 2 ^ tyBits ty / 2 ^ 32)

/-- Put of R302 in the lanes of a mask. -/
def Group.putV (g : Group) (ty n : Nat) (m : Mask) (f : Nat → Nat) : Group :=
  let g' := g.writeV n m (fun l => loLane ty (f l))
  if isPair ty then g'.writeV (n + 1) m (fun l => hiLane ty (f l)) else g'

/-! ### Checks of registers (R118, R119, R120, R250) -/

/-- What stops an instruction at its registers: a fault, or an empty register to wait for. -/
inductive Hurdle where
  | stop (c : Cause)
  | wait (v : Nat)
  deriving DecidableEq, Repr

/-- Vacant register and empty register (R190). -/
def vacant : Cause := ⟨0x08, 0⟩
def emptyReg : Cause := ⟨0x09, 0⟩

/-- The checks of R250 on source registers in order, each with its t bit. -/
def Group.checkSrcs (g : Group) : List (Nat × Bool) → Option Hurdle
  | [] => none
  | (n, t) :: rest =>
    match g.vreg n with
    | none => some (.stop vacant)
    | some r => if r.full then g.checkSrcs rest else if t then some (.stop emptyReg) else some (.wait n)

/-- Destination registers must be the group's (R118), and a write waits for an earlier producer (R120). -/
def Group.checkDsts (g : Group) : List Nat → Option Hurdle
  | [] => none
  | n :: rest =>
    if g.vLimit ≤ n then some (.stop vacant)
    else
      match g.v.find n with
      | some r => if r.full then g.checkDsts rest else some (.wait n)
      | none => g.checkDsts rest

/-- The source and destination checks of an instruction. -/
def Group.hurdle (g : Group) (srcs : List (Nat × Bool)) (dsts : List Nat) : Option Hurdle :=
  match g.checkSrcs srcs with
  | some h => some h
  | none => g.checkDsts dsts

/-- Go on where no register stops the instruction. -/
def past (s : State) (h : Option Hurdle) (k : Eff) : Eff :=
  match h with
  | some (.stop c) => .fault c.record
  | some (.wait v) => .wait s (.empty v)
  | none => k

/-- The registers of a source with its t bit. -/
def src (ty : Nat) (n : BitVec 6) (t : Bool) : List (Nat × Bool) := (occupies ty n.toNat).map (·, t)

/-! ### Effects of vector words -/

/-- The last read of b (R122): its registers become vacant, but for those that d names. -/
def Group.lastRead (g : Group) (h : BitVec 2) (b d : List Nat) : Group :=
  if h = 3#2 then (b.filter (fun n => !d.contains n)).foldl Group.vacate g else g

/-- The results of a lane function, evaluated once in the lanes of a mask. -/
def laneTable (m : Mask) (f : Nat → Nat × Flags) : Vector (Nat × Flags) 64 :=
  Vector.ofFn (fun i => if m.getLsbD i.val then f i.val else (0, 0))

/-- The flags that any active lane raises (R230). -/
def tableFlags (t : Vector (Nat × Flags) 64) : Flags := t.toList.foldl (fun a x => a ||| x.2) 0

/-- Write the results of the active lanes and OR their flags into FLAGS. -/
def Group.putAll (g : Group) (sl : SlotId) (ty : Nat) (d : BitVec 6) (f : Nat → Nat × Flags) : Group :=
  let m := g.active sl
  let t := laneTable m f
  (g.putV ty d.toNat m (fun l => (t[l]?.getD (0, 0)).1)).raise (tableFlags t)

/-- The issue of a long-latency producer (R119): the destination is empty until its write-back arrives. -/
def Group.produce (g : Group) (ty : Nat) (d : Nat) (m : Mask) (f : Nat → Nat) : Group :=
  let lo := (d, vecOf (fun l => loLane ty (f l)))
  let regs := if isPair ty then [lo, (d + 1, vecOf (fun l => hiLane ty (f l)))] else [lo]
  let g := (regs.map (·.1)).foldl Group.emptyV g
  { g with wb := g.wb ++ [{ regs := regs, mask := m }] }

/-- The issue of a long-latency producer of whole 32-bit registers. -/
def Group.produceRegs (g : Group) (m : Mask) (regs : List (Nat × (Nat → BitVec 32))) : Group :=
  let g := (regs.map (·.1)).foldl Group.emptyV g
  { g with wb := g.wb ++ [{ regs := regs.map (fun (n, f) => (n, vecOf f)), mask := m }] }

/-- The issue of a load of `n` bytes a lane at step `now`; `port` when its response comes through the core's port (R387). -/
def Group.produceLoad (g : Group) (m : Mask) (regs : List (Nat × (Nat → BitVec 32))) (n now : Nat) (port : Bool) : Group :=
  let g := (regs.map (·.1)).foldl Group.emptyV g
  { g with wb := g.wb ++ [{
      regs := regs.map (fun (n, f) => (n, vecOf f)), mask := m, bytes := n, since := now, port := port }] }

/-- The active lanes' results of a long-latency producer, with their flags. -/
def Group.produceAll (g : Group) (sl : SlotId) (ty : Nat) (d : BitVec 6) (f : Nat → Nat × Flags) : Group :=
  let m := g.active sl
  let t := laneTable m f
  (g.produce ty d.toNat m (fun l => (t[l]?.getD (0, 0)).1)).raise (tableFlags t)

/-- A T word of two v sources and a v destination, which `imad` and the fused forms also read: `f` takes the three
codes of a lane. -/
def binary (s : State) (gid : GroupId) (sl : SlotId) (g : Group) (d a b : BitVec 6) (x y : Bool) (h : BitVec 2)
    (readsD : Bool) (f : Nat → Nat → Nat → Nat × Flags) : Eff :=
  let ty := g.ty sl
  let srcs := src ty a x ++ src ty b y ++ (if readsD then src ty d false else [])
  past s (g.hurdle srcs (occupies ty d.toNat))
    (onGroup s gid ((g.putAll sl ty d (fun l =>
      f (g.rawV ty a.toNat l) (g.rawV ty b.toNat l) (g.rawV ty d.toNat l))).lastRead h
        (occupies ty b.toNat) (occupies ty d.toNat)))

/-- A T word of one v source and a v destination. -/
def unary (s : State) (gid : GroupId) (sl : SlotId) (g : Group) (d a : BitVec 6) (x : Bool)
    (f : Nat → Nat × Flags) : Eff :=
  let ty := g.ty sl
  past s (g.hurdle (src ty a x) (occupies ty d.toNat))
    (onGroup s gid (g.putAll sl ty d (fun l => f (g.rawV ty a.toNat l))))

/-- A scalar T word: S[d] takes a function of two scalar sources (R288). -/
def scalarOp (s : State) (gid : GroupId) (sl : SlotId) (g : Group) (d a b : BitVec 6) (f : Word → Word → Word) : Eff :=
  onGroup s gid (g.writeS sl d (f (g.readS sl a) (g.readS sl b)))

/-- A write-back arrives: its registers become full, and lanes it does not write keep their bits (R119). -/
def Group.putWB (g : Group) (w : WB) : Group := w.regs.foldl (fun g (n, x) => g.writeV n w.mask (fun l => x[l]?.getD 0)) g

/-- The oldest pending write-back of a group arrives (R119). -/
def Group.arriveWB (g : Group) : Group :=
  match g.wb with
  | [] => g
  | w :: ws => { g.putWB w with wb := ws }

/-- The bytes of a lane of a pending load. -/
def WB.laneBytes (w : WB) (l : Nat) : List Byte :=
  (w.regs.flatMap (fun (_, x) => leBytes 4 (x[l]?.getD 0).toNat)).take w.bytes

/-- A pending load with other bytes in a lane. -/
def WB.setLane (w : WB) (l : Nat) (bs : List Byte) : WB :=
  { w with regs := w.regs.zipIdx.map (fun ((r, x), k) =>
      (r, x.setIfInBounds l (BitVec.ofNat 32 (leNat ((bs.drop (4 * k)).take 4))))) }

/-- The lanes of a pending load of a group that are still to be performed. -/
def Loading.of (gid : GroupId) (w : WB) (l : Loading) : Bool := l.since == w.since && l.lines.any (Line.ofGroup gid)

/-- A pending load is performed: its lanes have the bytes of the later writes that they return (R171, R183). -/
def State.performed (s : State) (gid : GroupId) (w : WB) : WB × State :=
  ((s.ledger.loads.filter (fun l => Loading.of gid w l && l.value.isSome)).foldl
      (fun w l => w.setLane l.lane (l.lay (w.laneBytes l.lane))) w,
    s.perform (Loading.of gid w))

/-- Where a word names scalar registers, by its opcode and SUB (R244, R265): the lowest bit of each field, its width, and how
many registers from the one it names. -/
def scalarFields (op sub : Nat) : List (Nat × Nat × Nat) :=
  let d := (18, 6, 1)
  let a := (12, 6, 1)
  let b := (6, 6, 1)
  let base := (13, 5, 1)
  let pair := (3, 5, 2)
  let o1 := (15, 6, 1)
  let o2 := (9, 6, 1)
  match classOfOp op with
  | .scalar =>
    if op = 0x23 then [a, b] else if op < 0x25 then [d, a, b] else if op = 0x25 then [d, a] else [d]
  | .vector =>
    if op = 0x62 then (if sub = 0 then [a] else [d]) else if op = 0x63 ∧ sub ≠ 0 then [b]
    else if op = 0x64 then (if sub = 0 then [d, b] else [a, b]) else []
  | .memory =>
    if op ∈ [0x75, 0x76, 0x78, 0x85, 0x86, 0x88] then [d, base] else if op < 0xA9 then [base]
    else if op = 0xAA then [a, b] else if op = 0xAC then [a] else [d, a]
  | .handle => if op ∈ [0xB0, 0xB1, 0xB5, 0xBC, 0xBD] then [o1] else if op ∈ [0xB3, 0xB6, 0xB7, 0xB8] then [o2] else []
  | .ring => [o2]
  | .matrix =>
    if op = 0xC1 then [base] else if op = 0xC6 then (if sub = 0 then [a] else [d]) else if op = 0xC2 ∨ op = 0xC7 then [] else [pair]
  | .control =>
    if op = 0x06 then [(16, 5, 1)] else if op = 0xD0 then [a, b] else if op = 0xE2 then [d, (64, 1, 8)]
    else if op = 0xE3 then [(12, 6, 4)] else if op = 0xE4 then [(18, 6, 4)] else if op = 0xE5 then [a] else []
  | .debug => [d, a, b]
  | _ => []

/-- Does a word read or write a scalar register of its slot (R326)? A `br` at lane scope and a `join`, which fork, restore and
merge the registers (R110), do so with every one, and a word of an upper scope with none. -/
def usesScalar (w : BitVec 32) (t : BitVec 6) : Bool :=
  let op := (fld w 24 8).toNat
  op == 0x02 || (op == 0x01 && fld w 21 3 == 0#3) ||
  ((wordScope w).isNone && (scalarFields op (fld w 0 2).toNat).any (fun (lo, n, k) =>
    let f := w.toNat / 2 ^ lo % 2 ^ n
    decide (f ≤ t.toNat ∧ t.toNat < f + k)))

/-- A word of a slot is to issue: each scalar load of the slot whose register it uses has been performed (R326). -/
def State.settleScalars (s : State) (gid : GroupId) (sl : SlotId) (w : BitVec 32) : State :=
  s.perform (fun l => l.dest.any (fun (k, x, t) => k == gid && x == sl && usesScalar w t))

/-- The oldest pending write-back that satisfies a test, and the others. -/
def takeWB (f : WB → Bool) : List WB → Option (WB × List WB)
  | [] => none
  | w :: ws => if f w then some (w, ws) else (takeWB f ws).map (fun (x, l) => (x, w :: l))

/-- A pending write-back of a group arrives: the oldest that satisfies a test (R119). -/
def State.arriveAt (s : State) (gid : GroupId) (f : WB → Bool) : State :=
  match s.group? gid with
  | none => s
  | some g =>
    match takeWB f g.wb with
    | none => s
    | some (w, ws) =>
      let (w, s) := s.performed gid w
      s.setGroup gid { g.putWB w with wb := ws }

end Sys2Proof.Machine
end

