-- ==== Sys2Proof/Machine/Copy.lean ====
section
/-! DEFINITION. Copy engines (R160 to R168): templates, the causes of a rejection, acceptance into a channel, and the
moving of bytes. -/

namespace Sys2Proof.Machine

/-- The fields of a template (R161). -/
structure Template where
  src     : Word
  dst     : Word
  sstride : Nat
  dstride : Nat
  rowb    : Nat
  nrows   : Nat
  ctl     : BitVec 32
  cinc    : BitVec 32
  caddr   : Word
  tail    : Word                         -- bytes 48-63, all zero in a valid template
  deriving DecidableEq, Repr

/-- Bytes `[o, o + n)` of a block as a number. -/
def field (bs : List Byte) (o n : Nat) : Nat := leNat ((bs.drop o).take n)

/-- A template from its 64 bytes. -/
def Template.ofBytes (bs : List Byte) : Template :=
  { src := BitVec.ofNat 64 (field bs 0 8), dst := BitVec.ofNat 64 (field bs 8 8), sstride := field bs 16 4,
    dstride := field bs 20 4, rowb := field bs 24 4 + 1, nrows := field bs 28 4 + 1,
    ctl := BitVec.ofNat 32 (field bs 32 4), cinc := BitVec.ofNat 32 (field bs 36 4),
    caddr := BitVec.ofNat 64 (field bs 40 8), tail := BitVec.ofNat 64 (field bs 48 8 ||| field bs 56 8) }

def Template.fe (t : Template) : BitVec 2 := t.ctl.extractLsb' 0 2
def Template.mcg (t : Template) : Nat := (t.ctl.extractLsb' 2 8).toNat
def Template.mce (t : Template) : Bool := t.ctl.getLsbD 10

/-- The most that ROWB and NROWS may be (R161). -/
def rowMax : Nat := 16777216

/-- Split `n` bytes at an address into pieces that cross no 4 KiB boundary. -/
def pieces : (fuel : Nat) → Nat → Nat → List (Nat × Nat)
  | 0, _, _ => []
  | fuel + 1, a, n =>
    if n = 0 then []
    else
      let k := min n (4096 - a % 4096)
      (a, k) :: pieces fuel (a + k) (n - k)

/-- The pieces of a row. -/
def rowPieces (a n : Nat) : List (Nat × Nat) := pieces (n / 4096 + 2) a n

/-- Does an address lie in the scratchpad window? -/
def inSpad (a : Nat) : Bool := decide (windowBase ≤ a ∧ a < windowEnd)

/-- The address of row `i` of a copy end, modulo 2^64. -/
def CopyEnd.row (e : CopyEnd) (i : Nat) : Nat := (e.base.toNat + i * e.stride.toNat) % 2 ^ 64

/-- Is a row outside its team's allocation (R148)? An absent tile is no such failure. -/
def spadBad (s : State) (own : Nat × Nat × Nat) (n a : Nat) : Bool :=
  match spadPlace s own n (a - windowBase) with
  | .error .bound => true
  | _ => false

/-- Can a range of global addresses not be translated, or is it reserved (R162 detail 3)? So is a row above the addresses of R145,
and one that begins below the scratchpad window and runs into it (DESIGN CHOICE, log 134). -/
def rangeBad (s : State) (c : Context) (need : Leaf → Option Bad) (a n : Nat) : Option Bad :=
  ((rowPieces a n).filterMap (fun (x, _) =>
    if 2 ^ 57 ≤ x then some .page
    else if windowBase ≤ x ∧ x < reservedEnd then some (.viol 4)
    else
      match translate s c x need with
      | .ok _ => none
      | .error b => some b)).head?

/-- What a copy start comes to (R162, R163). -/
inductive CopyAnswer where
  | accepted (c : Copy)
  | rejected (detail : BitVec 8) (readAt : Option Nat)
  | hold (w : Wait)

/-- The base and row stride of an end: its own, or those of a loaded tensor slot (R161). -/
def endOf (s : State) (gid : Option GroupId) (w : Word) (stride : Nat) : Option (Word × Nat) :=
  if w.getLsbD 62 then
    match gid with
    | none => none
    | some k =>
      match s.team? k.teamKey, s.group? k with
      | some t, some g => (t.slotT.find (g.half, (w.extractLsb' 57 5).toNat)).map (fun z => (zx z.base, z.rstride.toNat))
      | _, _ => none
  else some (zx (w.extractLsb' 0 57), stride)

/-- The destinations of a copy: the starting team's address, or the same offset in every member team. -/
def Copy.keys (c : Copy) : List (Nat × Nat × Nat) :=
  match c.group, c.teams with
  | none, _ => []
  | some g, none => [g.teamKey]
  | some g, some l => l.map (fun t => (g.grid, g.gang, t))

/-- Does a copy go to the members of a multicast entry (R167)? -/
def Copy.multi (c : Copy) : Bool := c.teams.isSome

/-- The window address of a destination row for a member: under multicast its team is the member, and the other fields
count (R147, R148, R167). -/
def Copy.dstAt (c : Copy) (a : Nat) : Nat := if c.multi then windowBase + a % 2 ^ 24 else a

/-- Can the counter of a copy not be reached? 0 names none. -/
def caddrBad (s : State) (c : Context) (a : Word) : Option Bad := if a = 0#64 then none else rangeBad s c needWrite a.toNat 1

/-- The judgement of a copy at acceptance (R162): the lowest detail that applies. `mc` is the failure of its multicast entry;
its destination is then checked against the teams that the entry names and that are there, or where the entry cannot be read
as far as no team matters (DESIGN CHOICE, log 121). -/
def judge (s : State) (c : Context) (t : Template) (cp : Copy) (slots : Bool) (mc : Option (BitVec 8)) : Option (BitVec 8) :=
  let rows := List.range cp.nrows
  let srcRows := rows.map cp.src.row
  let dstRows := rows.map cp.dst.row
  let bound (a : Nat) (keys : List (Nat × Nat × Nat)) : Bool :=
    inSpad a && (cp.group.isNone || a / 2 ^ 21 % 8 != 0 || keys.any (fun k => spadBad s k cp.rowb a))
  let trans (need : Leaf → Option Bad) (a : Nat) : Bool := !inSpad a && (rangeBad s c need a cp.rowb).isSome
  let own := match cp.group with
    | some g => [g.teamKey]
    | none => []
  let d1 := t.src.getLsbD 63 || t.dst.getLsbD 63 || decide (rowMax < t.rowb) || decide (rowMax < t.nrows) ||
    t.fe == 3#2 || t.ctl.extractLsb' 11 21 != 0#21 || t.tail != 0#64 || !slots
  let d2 := srcRows.any (fun a => bound a own) || dstRows.any (fun a => inSpad a && bound (cp.dstAt a) cp.keys)
  let d3 := srcRows.any (trans needRead) || dstRows.any (trans needWrite) || mc == some 3#8 || (caddrBad s c t.caddr).isSome
  let d4 := (t.fe == 1#2 || t.fe == 2#2) && (dstRows.any (fun a => !inSpad a || a % 16 != 0) || cp.rowb % 16 != 0)
  let d5 := mc == some 5#8 || (t.mce && dstRows.any (fun a => !inSpad a))
  let d6 := t.caddr.toNat % 8 != 0
  if d1 then some 1 else if d2 then some 2 else if d3 then some 3 else if d4 then some 4 else if d5 then some 5
  else if d6 then some 6 else none

/-- Does a copy, or its counter, touch memory of a stack that is not ready? Then its judgement waits (R16). -/
def copyHold (s : State) (c : Context) (cp : Copy) : Option Wait :=
  let wait (b : Option Bad) : Option Wait :=
    match b with
    | some (.hold w) => some w
    | _ => none
  let held (need : Leaf → Option Bad) (a : Nat) : Option Wait := if inSpad a then none else wait (rangeBad s c need a cp.rowb)
  ((wait (caddrBad s c cp.caddr)) :: (List.range cp.nrows).map (fun i =>
    (held needRead (cp.src.row i)).orElse (fun _ => held needWrite (cp.dst.row i)))).filterMap id |>.head?

/-- The line of a copy: its own, or the packet's that it serves. -/
def Copy.line (cp : Copy) : Line :=
  match cp.pkt with
  | some (n, idx) => .packet n idx
  | none => .copy cp.started

/-- The event of a copy: it may go behind writes of its group that nothing has put before it (R170, R171). -/
def Copy.event (cp : Copy) : Event :=
  ⟨cp.group.toList, [cp.line], cp.group.toList.flatMap (fun g => cp.slots.map (fun sl => .path g sl 1)), cp.scope, true⟩

/-- A read of copy class. -/
def State.copyRead (s : State) (cp : Copy) (p : Place) (n : Nat) : List Byte × State := s.readBy cp.event p n

/-- What the multicast entry of a copy start comes to: the members, or a detail with those that are there. -/
inductive Members where
  | are (l : List Nat)
  | bad (detail : BitVec 8) (l : List Nat)
  | hold (w : Wait)

/-- The membership of a multicast entry, read by the engine as a template is, or the detail it fails with (R162, R167). Without a
starting team no member is there (log 112). -/
def multicast (s : State) (c : Context) (cp : Copy) (mcg : Nat) : Members × State :=
  match translate s c (c.mcbase.toNat + 8 * mcg) needRead with
  | .ok pa =>
    let (bs, s) := s.copyRead cp (.phys pa) 8
    let e := BitVec.ofNat 64 (leNat bs)
    let ms := (List.range 8).filter (fun k => e.getLsbD k)
    let there := ms.filter (fun k =>
      ((cp.group.bind (fun g => s.team? (g.grid, g.gang, k))).map (·.live)).getD 0 != 0)
    (if !e.getLsbD 8 || e.getLsbD 9 || there != ms || cp.group.isNone then .bad 5 there else .are ms, s)
  | .error (.hold w) => (.hold w, s)
  | .error _ => (.bad 3 [], s)

/-- A copy that starts now on a channel: known by the step, it follows what was before the copies of its slot (R171), and the
copies of its channel that have completed (R163, log 112). -/
def State.copyBegin (s : State) (gid : GroupId) (sl : SlotId) (engine channel : Nat) : State :=
  let src := among (s.lines gid sl 1)
  (s.mapAfter (fun f => match f.knows.reach src with
    | some k => { f with knows := f.knows.nameAll [.copy s.steps] k }
    | none => f)).order (among [.channel engine channel]) scopeAll [.copy s.steps]

/-- The copies of a channel complete in order (R163): those behind one follow it. -/
def State.copyEnd (s : State) (k : Nat × Nat) (cp : Copy) (rest : List Copy) : State :=
  (s.order (among [cp.line]) scopeAll (rest.map Copy.line)).carry (among [cp.line]) scopeAll [.channel k.1 k.2]

/-- A copy that a slot of a group starts on an engine, with no ends yet; a debug core has no team and starts it as no group's
(R162, R210). Its engine is reached at die scope from the engine's own die, and at package scope from another (R169, R181). -/
def State.newCopy (s : State) (gid : GroupId) (sl : SlotId) (engine ctx : Nat) (tmpl : BitVec 8) : Copy :=
  { ctx := ctx, group := if gid.isDebug then none else some gid, tmpl := tmpl, src := ⟨0, 0⟩, dst := ⟨0, 0⟩, rowb := 1, nrows := 1, fe := 0, teams := none
    cinc := 0, caddr := 0, parts := 0, kept := [], waiting := false, pkt := none, started := s.steps
    slots := if (s.group? gid).any (·.split) then [sl] else [.a, .b]
    scope := if (s.group? gid).any (fun g => g.die == engine / 4) then 3 else 4
    fenced := false, granule := [] }

/-- A copy start is judged (R162): template bytes and rows added to both starts; and the state after the read of its multicast
entry. -/
def acceptCopy (s : State) (c : Context) (cp : Copy) (bs : List Byte) (srow drow : Nat) : CopyAnswer × State :=
  let t := Template.ofBytes bs
  let mk (w : Word) (stride add : Nat) : CopyEnd × Bool :=
    match endOf s cp.group w stride with
    | some (b, st) => (⟨b + BitVec.ofNat 64 (add * st), BitVec.ofNat 64 st⟩, true)
    | none => (⟨0, 0⟩, false)
  let (src, ok1) := mk t.src t.sstride srow
  let (dst, ok2) := mk t.dst t.dstride drow
  let go (s : State) (teams : Option (List Nat)) (mcBad : Option (BitVec 8)) : CopyAnswer :=
    let cp : Copy :=
      { cp with
        src := src, dst := dst, rowb := min t.rowb rowMax, nrows := min t.nrows rowMax, fe := t.fe, teams := teams
        cinc := t.cinc, caddr := t.caddr }
    match copyHold s c cp with
    | some w => .hold w
    | none =>
      match judge s c t cp (ok1 && ok2) mcBad with
      | some d => .rejected d none
      | none => .accepted cp
  if !t.mce then (go s none none, s)
  else
    let (m, s) := multicast s c cp t.mcg
    (match m with
      | .are l => go s (some l) none
      | .bad d l => go s (some l) (some d)
      | .hold w => .hold w, s)

/-- Copies that a channel queues (R163). -/
def channelMax : Nat := 16

/-- The number of the context in which a group's addresses are translated, and the context (R161, R210). -/
def State.spaceAt (s : State) (gid : GroupId) (g : Group) : Option (Nat × Context) :=
  (s.spaceOf gid).map (fun c => (if gid.isDebug then (s.dbg gid.gang).dctx.toNat else g.ctx, c))

/-- A start store to the aperture (R160 to R163); `k` is what follows it. A disabled engine accepts nothing, so its start waits (log 22). -/
def startCopy (s : State) (gid : GroupId) (sl : SlotId) (g : Group) (engine channel : Nat) (data : Word) (k : State → Eff) :
    Eff :=
  match s.spaceAt gid g with
  | none => .fault (Cause.record ⟨0x0B, 3⟩)
  | some (n, c) =>
    if !((s.umap (engine / 4)).copy.getLsbD (engine % 4)) || decide (channelMax ≤ (s.channel (engine, channel)).length) then
      .wait s .aperture
    else
      let tmpl : BitVec 8 := data.extractLsb' 0 8
      let at_ := c.tmbase.toNat + 64 * tmpl.toNat
      match translate s c at_ needRead with
      | .error (.hold w) => .wait s w
      | .error _ => .fault { (Cause.record ⟨0x0B, 3⟩) with cls := 1, addr := BitVec.ofNat 64 at_ }
      | .ok pa =>
        let cp := s.newCopy gid sl engine n tmpl
        let (bs, s') := (s.copyBegin gid sl engine channel).copyRead cp (.phys pa) 64
        match acceptCopy s' c cp bs (data.extractLsb' 8 28).toNat (data.extractLsb' 36 28).toNat with
        | (.hold w, _) => .wait s w
        | (.rejected d _, _) => .fault (Cause.record ⟨0x0B, d⟩)
        | (.accepted cp, s') =>
          k ((s'.happen (s.eventOf gid sl 0) nowhere 0).setChannel (engine, channel) (s.channel (engine, channel) ++ [cp]))

/-! ### Moving bytes -/

/-- Where a piece of a row lies, for a team, whether its tile answers or not; none when its page has gone. -/
def copyPlace (s : State) (c : Context) (own : Option (Nat × Nat × Nat)) (need : Leaf → Option Bad) (a : Nat) :
    Option (Option Place) :=
  if inSpad a then
    some (own.bind (fun k =>
      let key := spadTeam k (a - windowBase)
      (s.team? key).map (fun _ => .spad key (a % 2 ^ 21))))
  else
    match translate s c a need with
    | .ok pa => some (some (.phys pa))
    | .error _ => none

/-- Does the tile of a place answer "absent, retry" (R209)? -/
def State.absentAt (s : State) (p : Option Place) : Bool :=
  match p with
  | some (.spad k off) => (s.team? k).any (fun t => s.absentCore (spadCore t off))
  | _ => false

/-- The places of `n` bytes at an address, with the length of each: none when a piece cannot be reached now. -/
def placesOf (s : State) (c : Context) (own : Option (Nat × Nat × Nat)) (need : Leaf → Option Bad) (a n : Nat) :
    Option (List (Option Place × Nat)) :=
  (rowPieces a n).foldr (fun (x, k) acc =>
    match copyPlace s c own need x, acc with
    | some p, some l => if s.absentAt p then none else some ((p, k) :: l)
    | _, _ => none) (some [])

/-- Does byte `i` of a place lie in a run of another place? -/
def touches (p : Place) (i : Nat) (q : Place) (n : Nat) : Bool :=
  match p, q with
  | .phys a, .phys b => decide (b ≤ a + i ∧ a + i < b + n)
  | .spad k o, .spad k' o' => k == k' && decide (o' ≤ o + i ∧ o + i < o' + n)
  | _, _ => false

/-- Bytes of the source of a copy, with those that the copy itself has overwritten as they were (R163); of a team that has
ended nothing constrains them (log 3). -/
def sourceBytes (cp : Copy) : State → List (Option Place × Nat) → List Byte × State
  | s, [] => ([], s)
  | s, (p, n) :: l =>
    let (bs, s) := match p with
      | some p =>
        let (bs, s) := s.copyRead cp p n
        (cp.kept.foldr (fun (q, old) bs => overlay p bs q old) bs, s)
      | none => ((List.range n).map (fun i => Config.freeByte (s.free + i)), { s with free := s.free + n })
    let (rest, s) := sourceBytes cp s l
    (bs ++ rest, s)

/-- The event of a write of a copy: one of FE mode 2 follows what has emptied the granule (R150, R164). -/
def Copy.putEvent (cp : Copy) : Event :=
  if cp.fe = 2#2 then { cp.event with lines := [cp.line, .refill] } else cp.event

/-- A write of a copy: of copy class for the group that started it (R170); after a restore of the group it is before what the
group does (R178). -/
def State.copyPut (s : State) (cp : Copy) (p : Place) (bs : List Byte) : State :=
  let t := s.writeBy cp.putEvent cp.group false [] p bs
  if cp.fenced then t.order (among [cp.line]) 4 (cp.group.toList.flatMap linesOf) else t

/-- Write bytes to places in order; a byte of the destination that overlaps the source is free (R163). -/
def copyWrite (cp : Copy) (ranges : List (Option Place × Nat)) :
    State → List (Option Place × Nat) → List Byte → State
  | s, [], _ => s
  | s, (p, n) :: l, bs =>
    let s := match p with
      | none => s
      | some p =>
        let overlaps (i : Nat) : Bool := ranges.any (fun (q, m) =>
          match q with
          | some q => touches p i q m
          | none => false)
        let out := ((bs.take n).zipIdx).map (fun (b, i) => if overlaps i then Config.freeByte (s.free + i) else b)
        let s := s.copyPut cp p out
        if ((List.range n).any overlaps) then { s with free := s.free + n } else s
    copyWrite cp ranges s l (bs.drop n)

/-- Set granules of a team full (R150). -/
def State.fillGranules (s : State) (k : Nat × Nat × Nat) (gs : List Nat) : State :=
  s.modTeam k (fun t => { t with full := gs.foldl (fun l x => if l.contains x then l else x :: l) t.full })

/-- The granules that `n` bytes at an offset cover. -/
def granules (off n : Nat) : List Nat := (List.range ((n + 15) / 16)).map (fun k => off / 16 + k)

/-- Where the source of a copy lies, as far as its pages are there (R163). -/
def Copy.sources (cp : Copy) (s : State) (c : Context) : List (Option Place × Nat) :=
  (List.range cp.nrows).flatMap (fun i => (rowPieces (cp.src.row i) cp.rowb).filterMap (fun (x, n) =>
    (copyPlace s c (cp.group.map (·.teamKey)) needRead x).map (·, n)))

/-- The team and the first granule of a destination row, for a member. -/
def Copy.granuleAt (cp : Copy) (k : Nat × Nat × Nat) (i : Nat) : (Nat × Nat × Nat) × Nat :=
  let a := cp.dstAt (cp.dst.row i)
  (spadTeam k (a - windowBase), a % 2 ^ 21 / 16)

/-- Has a granule its last byte of the copy once row `i` is written: no later row reaches it (R150, R164)? -/
def Copy.lastAt (cp : Copy) (k : Nat × Nat × Nat) (i : Nat) (x : (Nat × Nat × Nat) × Nat) : Bool :=
  (List.range (cp.nrows - (i + 1))).all (fun d =>
    let y := cp.granuleAt k (i + 1 + d)
    !(y.1 == x.1 && decide (y.2 ≤ x.2 ∧ x.2 < y.2 + cp.rowb / 16)))

/-- One row of a copy of FE 0 or 1 at one destination, with the granules it fills (R164). -/
def moveRow (cp : Copy) (all : List (Option Place × Nat)) (bytes : List (List Byte)) (s : State)
    (d : Nat × Option (Nat × Nat × Nat) × List (Option Place × Nat)) : State :=
  let s := copyWrite cp all s d.2.2 (bytes[d.1]?.getD [])
  match d.2.1 with
  | some k =>
    if cp.fe = 1#2 then
      let x := cp.granuleAt k d.1
      s.fillGranules x.1 (((List.range (cp.rowb / 16)).map (x.2 + ·)).filter (fun n => cp.lastAt k d.1 (x.1, n)))
    else s
  | none => s

/-- The destinations of some rows of a copy, row by row: none when some row cannot be reached now (R209). -/
def Copy.dests (cp : Copy) (s : State) (c : Context) (rows : List Nat) :
    Option (List (Nat × Option (Nat × Nat × Nat) × List (Option Place × Nat))) :=
  let keys : List (Option (Nat × Nat × Nat)) := if cp.group.isNone then [none] else cp.keys.map some
  rows.flatMap (fun i => keys.map (fun k => (i, k))) |>.mapM (fun (i, k) =>
    (placesOf s c k needWrite (cp.dstAt (cp.dst.row i)) cp.rowb).map (fun l => (i, k, l)))

/-- The bytes of a copy's source that a write at a place overwrites (R163). -/
def keptBytes (s : State) (ranges : List (Option Place × Nat)) (dst : List (Option Place × Nat)) : List (Place × List Byte) :=
  dst.filterMap (fun (p, n) => p.bind (fun p =>
    if ranges.any (fun (q, m) => q.any (fun q => q.meets m p n)) then some (p, readPlace s p n) else none))

/-- Move the next `n` rows of a copy of FE 0 or 1 (R164), all of them read before any is written: none when some row
cannot be reached now (R209). -/
def moveRows (s : State) (c : Context) (cp : Copy) (n : Nat) : Option (State × Copy) :=
  let rows := (List.range n).map (cp.parts + ·)
  match rows.mapM (fun i => placesOf s c (cp.group.map (·.teamKey)) needRead (cp.src.row i) cp.rowb), cp.dests s c rows with
  | some srcs, some dsts =>
    let all := cp.sources s c
    let (bytes, t) := srcs.foldl (fun (x : List (List Byte) × State) l =>
      let (bs, s) := sourceBytes cp x.2 l
      (x.1 ++ [bs], s)) (List.replicate cp.parts [], s)
    some (dsts.foldl (moveRow cp all bytes) t,
      { cp with waiting := false, parts := cp.parts + n, kept := cp.kept ++ dsts.flatMap (fun d => keptBytes s all d.2.2) })
  | _, _ => none

/-- Move every row that is left. -/
def moveAll (s : State) (c : Context) (cp : Copy) : Option State := (moveRows s c cp (cp.nrows - cp.parts)).map (·.1)

/-- How many separate writes a copy has: its rows, or in FE mode 2 one for each 16 bytes and each team. -/
def Copy.total (cp : Copy) : Nat := if cp.fe = 2#2 then cp.nrows * (cp.rowb / 16) * cp.keys.length else cp.nrows

/-- The next granule write of a mode-2 copy (R164), with the copy after it: none while the granule is full or its tile is
absent. The source granule is read once for all members (R167). Rows, the granules of a row and the members of a granule go in
ascending order, so the first full granule holds all later ones back (DESIGN CHOICE, log 133: R163 states no order). -/
def moveGranule (s : State) (c : Context) (cp : Copy) : Option (State × Copy) :=
  let nk := cp.keys.length
  let part := cp.parts / nk
  let i := part / (cp.rowb / 16)
  let o := part % (cp.rowb / 16) * 16
  match cp.keys[cp.parts % nk]? with
  | none => none
  | some k =>
    let first := cp.parts % nk = 0
    let src := if first then placesOf s c (cp.group.map (·.teamKey)) needRead (cp.src.row i + o) 16 else some []
    match src, placesOf s c (some k) needWrite (cp.dstAt (cp.dst.row i) + o) 16 with
    | some src, some dst =>
      let row := cp.granuleAt k i
      let x := (row.1, row.2 + o / 16)
      if ((s.team? x.1).map (fun t => t.full.contains x.2)).getD false then none
      else
        let all := cp.sources s c
        let (bs, t) := if first then sourceBytes cp s src else (cp.granule, s)
        let t := copyWrite cp all t dst bs
        some (if cp.lastAt k i x then t.fillGranules x.1 [x.2] else t,
          { cp with waiting := false, parts := cp.parts + 1, kept := cp.kept ++ keptBytes s all dst, granule := bs })
    | _, _ => none

/-- COPY_GRANULE_WRITE (R164): the next granule of the oldest copy of a channel in FE mode 2, or in the other modes its
next row, since a copy may be seen in part before it signals (R163, R165, log 112). Without progress the copy waits. -/
def execCopyGranuleWrite (engine : Fin 16) (channel : Nat) (s : State) : Out :=
  let k := (engine.val, channel)
  match s.channel k with
  | [] => .next s
  | cp :: rest =>
    match s.ctx? cp.ctx with
    | none => .next s
    | some c =>
      if cp.total ≤ cp.parts then .next s
      else
        match (if cp.fe = 2#2 then moveGranule s c cp else moveRows s c cp 1) with
        | none => .next (s.setChannel k ({ cp with waiting := true } :: rest))
        | some (s, cp) => .next (s.setChannel k (cp :: rest))

end Sys2Proof.Machine
end

