-- ==== Sys2Proof/Machine/Place.lean ====
section
/-! DEFINITION. How a debug core is started through its mailbox (R211, R370, R389). -/

namespace Sys2Proof.Machine

/-- INV has become 1 (R211, R370, R374, R389): IN enters the inbox, and an idle debug core starts, after the predicate
program that it may be running. -/
def State.postIn (s : State) (die : Nat) : State :=
  let m := s.mailbox die
  if m.inv then s
  else
    let s := s.setMailbox die { m with inv := true }
    let s := s.modDbg die (fun d => { d with inbox := d.inbox ++ [.hostIn] })
    if m.derr then s
    else if (s.group? (debugId die)).isNone then s.startDebug die
    else if ((s.dbg die).prog.map (·.idle)).getD false then s.modDbg die (fun d => { d with due := true })
    else s

end Sys2Proof.Machine
end

