-- ==== Sys2Proof/Machine/Queues.lean ====
section
/-! DEFINITION. Host queues (02_host_queues): writes of the queue record and of the other registers, doorbells, the
service round of the firmware, the packets, and their completion. -/

namespace Sys2Proof.Machine

/-! ### The record (R28 to R31) -/

/-- The owning die of a queue (R26). -/
def dieOfQueue (n : Nat) : Nat := n / 256

/-- DRAINED (R28). -/
def Queue.drained (q : Queue) : Bool := q.inflight.isEmpty

/-- How many packets a ring holds. -/
def Queue.size64 (q : Queue) : Nat := 2 ^ (q.size.toNat + 6)

/-- An applied write of the record: the version rises and the replicas of the other dies go (R31). -/
def State.versioned (s : State) (n : Nat) : State :=
  let s := s.modQueue n (fun q => { q with ver := q.ver + 1 })
  { s with dies := s.dies.mapVals (fun d x => if d = dieOfQueue n then x else { x with replicas := x.replicas.drop n }) }

/-- A replica of a queue record at a die that holds none, or one older than the version that served the work (R31,
log 117). -/
def State.fetchRecord (s : State) (die n : Nat) (ver : BitVec 32) : State :=
  if die = dieOfQueue n ∨ ((s.die die).replicas.find n).any (fun q => decide (ver.toNat ≤ q.ver.toNat)) then s
  else s.modDie die (fun d => { d with replicas := d.replicas.put n (s.queue n) })

/-- A write of EN and STOP (R28), judged by the value of STOP after the write; in STATE 3 a STOP of 0 is ignored. -/
def Queue.control (q : Queue) (en stop : Bool) : Queue :=
  let q := if q.state = 3#2 && !stop then q else { q with stop := stop }
  if q.state = 0#2 then
    if en then { q with en := true, state := if stop then 2 else 1, rdx := 0, wrx := 0, waiting := false } else q
  else
    let q : Queue :=
      if q.state = 1#2 && stop then { q with state := 2, waiting := false }
      else if q.state = 2#2 && !stop then { q with state := 1 }
      else q
    if en then q else { q with en := false, held := true, waiting := false }

/-- ECLR (R28). -/
def Queue.clear (q : Queue) : Queue :=
  if q.state = 3#2 then { q with state := 2, ecode := 0, etype := 0, etag := 0, eidx := 0 } else q

/-- A write of EN and STOP at a queue; a disable whose queue is drained takes effect at once. -/
def State.queueControl (s : State) (n : Nat) (en stop : Bool) : State :=
  (s.modQueue n (fun q => q.control en stop)).settleDisable n

/-- A write of WRX (R29): the overrun is judged while EN reads 1 and no disable is held. -/
def State.doorbell (s : State) (n : Nat) (wrx : BitVec 32) : State :=
  let s := s.modQueue n (fun q => { q with wrx := wrx })
  let q := s.queue n
  if q.en && !q.held && decide (q.size64 < (wrx - q.rdx).toNat) then s.queueError n 0x08 0 0 q.rdx else s

/-- QUEUE_ENABLE (R28): a write of EN = 1 with this STOP. -/
def execQueueEnable (n : Fin 1024) (stop : Bool) (s : State) : Out := .next ((s.queueControl n.val true stop).versioned n.val)

/-- QUEUE_DOORBELL (R29). -/
def execQueueDoorbell (n : Fin 1024) (wrx : BitVec 32) (s : State) : Out := .next ((s.doorbell n.val wrx).versioned n.val)

/-- The queue that an event names. -/
def State.selQueue (s : State) : Nat := s.sel % 1024

/-- QUEUE_STOP (R28): a write of STOP = 1 that leaves EN as it reads. -/
def execQueueStop (s : State) : Out :=
  .next ((s.queueControl s.selQueue (s.queue s.selQueue).en true).versioned s.selQueue)

/-- QUEUE_RESUME (R28): a write of STOP = 0 that leaves EN as it reads. -/
def execQueueResume (s : State) : Out :=
  .next ((s.queueControl s.selQueue (s.queue s.selQueue).en false).versioned s.selQueue)

/-- QUEUE_DISABLE (R28): a write of EN = 0 that leaves STOP as it reads. -/
def execQueueDisable (s : State) : Out :=
  .next ((s.queueControl s.selQueue false (s.queue s.selQueue).stop).versioned s.selQueue)

/-- QUEUE_DISABLE_DONE (R28). -/
def execQueueDisableDone (s : State) : Out := .next (s.settleDisable s.selQueue)

/-- QUEUE_ECLR (R28): a write of ECLR = 1. -/
def execQueueEclr (s : State) : Out := .next ((s.modQueue s.selQueue Queue.clear).versioned s.selQueue)

/-! ### Register writes (R5, R26 to R28, R67, R80, R130, R201, R211, R370) -/

/-- QOWN_WRITE (R26): dropped unless the queue is disabled. -/
def State.writeQown (s : State) (n : Nat) (v : BitVec 32) : State :=
  if (s.queue n).state = 0#2 then
    { s with qown := s.qown.put n ⟨v.extractLsb' 0 6, v.getLsbD 6, v.extractLsb' 7 10⟩ }
  else s

/-- QOWN_WRITE (R26). -/
def execQownWrite (n : Fin 1024) (v : BitVec 32) (s : State) : Out := .next (s.writeQown n.val v)

/-- The queue at an index of a function's window: the lowest assigned with that LIDX (R26). -/
def State.queueAt (s : State) (fn lidx : Nat) : Option Nat :=
  (s.qown.keysWhere (fun _ o => o.val && o.fn.toNat == fn && o.lidx.toNat == lidx)).foldl (fun a k =>
    match a with
    | none => some k
    | some x => some (min x k)) none

/-- What the writable fields of a 32-bit part of a queue record hold (R28). -/
def Queue.part (q : Queue) : Nat → BitVec 32
  | 0 => q.base.extractLsb' 0 32
  | 1 => (q.base.extractLsb' 32 25).zeroExtend 32
  | 2 => BitVec.ofNat 32 (q.en.toNat + q.stop.toNat * 2 + q.size.toNat * 4 + q.prio.toNat * 64 + q.vec.toNat * 256 + q.evec.toNat * 2 ^ 19)
  | 5 => q.wrx
  | 8 => q.pasid.zeroExtend 32
  | _ => 0

/-- A write of a 32-bit part of a queue record with its new value; `lead` when the access carries its first byte, where
EN, STOP and ECLR lie. -/
def State.writePart (s : State) (n part : Nat) (v : BitVec 32) (lead pf : Bool) : State :=
  let s0 := s.queue n
  match part with
  | 0 => s.setQueue n { s0 with base := (s0.base &&& ~~~ 0xFFFFFFFF#57) ||| v.zeroExtend 57 }
  | 1 => s.setQueue n { s0 with base := (s0.base &&& 0xFFFFFFFF#57) ||| (v.zeroExtend 57 <<< 32) }
  | 2 =>
    let q := { s0 with
      size := v.extractLsb' 2 4, prio := if pf then v.extractLsb' 6 2 else s0.prio
      elev := if pf then BitVec.ofNat 2 (min 3 ((v.extractLsb' 6 2).toNat + (s0.elev.toNat - s0.prio.toNat))) else s0.elev
      vec := v.extractLsb' 8 11, evec := v.extractLsb' 19 11 }
    let s := s.setQueue n q
    if lead then s.queueControl n (v.getLsbD 0) (v.getLsbD 1) else s
  | 3 => if lead && v.getLsbD 4 then s.setQueue n s0.clear else s
  | 5 => s.doorbell n v
  | 8 => if pf then s.setQueue n { s0 with pasid := v.extractLsb' 0 20 } else s
  | _ => s

/-- A part of the record that an access of bytes at `off` carries: its number, its value with the bytes that the
access does not carry as they were, and whether its first byte is carried. -/
def Queue.carried (q : Queue) (off : Nat) (bs : List Byte) (part : Nat) : Nat × BitVec 32 × Bool :=
  let byte (i : Nat) : Byte :=
    let old := (q.part part).extractLsb' (8 * i) 8
    if off ≤ 4 * part + i then bs[4 * part + i - off]?.getD old else old
  (part, BitVec.ofNat 32 (leNat ((List.range 4).map byte)), decide (off ≤ 4 * part))

/-- The parts of a record that an access of bytes at `off` carries. -/
def Queue.parts (q : Queue) (off : Nat) (bs : List Byte) : List (Nat × BitVec 32 × Bool) :=
  ((List.range (ceilDiv (off + bs.length) 4)).drop (off / 4)).map (q.carried off bs)

/-- Does an access carry a SIZE above 10, or a BASE that is not 4 KiB aligned (R28)? -/
def Queue.refuses (q : Queue) (off : Nat) (bs : List Byte) : Bool :=
  (q.parts off bs).any (fun p =>
    (p.1 == 0 && p.2.1.extractLsb' 0 12 != 0#12) || (p.1 == 2 && decide (11 ≤ (p.2.1.extractLsb' 2 4).toNat)))

/-- A write access to bytes of a queue record (R28). It raises VER when a part that it carries can be written there (R31,
log 118). That EN and STOP act before ECLR in one access is a DESIGN CHOICE (log 102). -/
def State.writeRecord (s : State) (n off : Nat) (bs : List Byte) (pf : Bool) : State :=
  let parts := (s.queue n).parts off bs
  let t := parts.foldl (fun s p => s.writePart n p.1 p.2.1 p.2.2 pf) s
  if parts.any (fun p => [0, 1, 2, 5].contains p.1 || (p.1 == 3 && p.2.2) || (p.1 == 8 && pf)) then t.versioned n else t

/-- The bytes of an access, split at the blocks of 64: the block of each piece, its offset there, and its bytes. -/
def blocks64 : (fuel off : Nat) → List Byte → List (Nat × Nat × List Byte)
  | 0, _, _ => []
  | fuel + 1, off, bs =>
    if bs.isEmpty then []
    else (off / 64, off % 64, bs.take (64 - off % 64)) :: blocks64 fuel (off + (64 - off % 64)) (bs.drop (64 - off % 64))

/-- A write access of any width to the records of a window (R28): dropped whole when a record refuses what it carries.
`own` names the queue of each block. -/
def State.writeRecords (s : State) (own : Nat → Option Nat) (off : Nat) (bs : List Byte) (pf : Bool) : State :=
  let ps := (blocks64 (bs.length / 64 + 2) off bs).filterMap (fun (k, o, b) => (own k).map (fun n => (n, o, b)))
  if ps.any (fun (n, o, b) => (s.queue n).refuses o b) then s
  else ps.foldl (fun s (n, o, b) => s.writeRecord n o b pf) s

/-- A host write of DMBCTL (R211): INV posts IN or withdraws it from the inbox (R374, log 115), OUTV is cleared by a 1. -/
def State.writeDmbctl (s : State) (die : Nat) (v : BitVec 32) : State :=
  let s := s.modMailbox die (fun m => { m with
    outv := m.outv && !v.getLsbD 1, ien := v.getLsbD 2, vec := v.extractLsb' 3 11 })
  if v.getLsbD 0 then s.postIn die
  else
    (s.modMailbox die (fun m => { m with inv := false })).modDbg die (fun d => { d with
      inbox := d.inbox.filter (· != .hostIn) })

/-- A host write of half a word of IN: dropped while INV is 1 (R211). -/
def Mailbox.hostIn (m : Mailbox) (k : Nat) (v : BitVec 32) : Mailbox :=
  if m.inv then m
  else
    let old := m.inw[k / 2]?.getD 0
    let new := if k % 2 = 0 then (old &&& ~~~ 0xFFFFFFFF#64) ||| zx v else (old &&& 0xFFFFFFFF#64) ||| (zx v <<< 32)
    { m with inw := m.inw.setIfInBounds (k / 2) new }

/-- A write of a 32-bit register of the physical function's window. FWIN keeps a SIZE of 65 to 127 as written (DESIGN
CHOICE, log 101). Of a write of PWRCTL with FLOOR 3 nothing is kept, NTT and NOGATE included (DESIGN CHOICE, log 135). -/
def State.writeReg32 (s : State) (off : Nat) (v : BitVec 32) : State :=
  if off = 0x2000 then
    if v.extractLsb' 0 16 = 0#16 then s else { s with quantum := v.extractLsb' 0 16, nopromo := v.getLsbD 16 }
  else if 0x3000 ≤ off ∧ off < 0x30C0 then
    if v.extractLsb' 2 2 = 3#2 then s
    else s.modRegion ((off - 0x3000) / 4) (fun r => { r with
      floor := v.extractLsb' 2 2, ntt := v.extractLsb' 6 4, nogate := v.getLsbD 10 })
  else if 0x4000 ≤ off ∧ off < 0x4100 then
    if 4096 < (v.extractLsb' 0 13).toNat then s else { s with hquota := s.hquota.put ((off - 0x4000) / 4) (v.extractLsb' 0 13) }
  else if off = 0x5000 then
    if v.extractLsb' 0 16 = 0#16 then s else { s with pdeadline := v.extractLsb' 0 16 }
  else if 0x6000 ≤ off ∧ off < 0x6400 then
    let die := (off - 0x6000) / 0x100
    if off % 0x100 = 128 then s.writeDmbctl die v
    else if off % 0x100 < 64 then s.modMailbox die (fun m => m.hostIn (off % 0x100 / 4) v)
    else s
  else if 0x20000 ≤ off ∧ off < 0x21000 then s.writeQown ((off - 0x20000) / 4) v
  else if 0x30000 ≤ off ∧ off < 0x34000 ∧ off % 16 < 8 then
    let k := ((off - 0x30000) / 0x100, off % 0x100 / 16)
    if 8 ≤ k.2 then s
    else
      let old := (s.fwin.find k).getD 0
      let new := if off % 8 = 0 then (old &&& ~~~ 0xFFFFFFFF#64) ||| zx v else old
      { s with fwin := s.fwin.put k (new &&& 0x1FFFFF#64) }
  else s

/-- Aligned 4-byte writes of registers, in order. -/
def State.writeRegs : (fuel off : Nat) → List Byte → State → State
  | 0, _, _, s => s
  | fuel + 1, off, bs, s => State.writeRegs fuel (off + 4) (bs.drop 4) (s.writeReg32 off (BitVec.ofNat 32 (leNat (bs.take 4))))

/-- REGISTER_WRITE (R27, R28): a write of bytes in a function's window, of any width. Only the physical function's window
holds registers other than queue records (R25), and the local stores of the debug cores (R370); those registers take the
aligned groups of 4 bytes of a write (log 41). A write that names no register is dropped. -/
def execRegisterWrite (fn : Fin 64) (off size v : Nat) (s : State) : Out :=
  let bs := leBytes size v
  if 0x100000 ≤ off ∧ off < 0x110000 then .next (s.writeRecords (s.queueAt fn.val) (off - 0x100000) bs (fn.val == 0))
  else if fn.val = 0 ∧ 0x140000 ≤ off ∧ off < 0x150000 then
    .next (s.writeRecords (fun k => if k < 1024 then some k else none) (off - 0x140000) bs true)
  else if fn.val = 0 ∧ 0x200000 ≤ off ∧ off < 0x300000 then
    .next (s.modDbg ((off - 0x200000) / 0x40000) (fun d => { d with
      store := memWrite d.store (off % 0x40000) (bs.take (0x40000 - off % 0x40000)) }))
  else if fn.val = 0 ∧ bs.length % 4 = 0 ∧ off % 4 = 0 then .next (s.writeRegs (bs.length / 4) off bs)
  else .next s

/-! ### Packets (R33 to R39) -/

/-- The eight words of a packet. -/
abbrev Packet := Vector Word 8

/-- A packet from its 64 bytes. -/
def Packet.ofBytes (bs : List Byte) : Packet := Vector.ofFn (fun i => BitVec.ofNat 64 (field bs (8 * i.val) 8))

def Packet.typ (p : Packet) : BitVec 8 := p[0].extractLsb' 0 8
def Packet.irq (p : Packet) : Bool := p[0].getLsbD 8
def Packet.sys (p : Packet) : Bool := p[0].getLsbD 9
def Packet.tag (p : Packet) : BitVec 16 := p[0].extractLsb' 16 16

/-- Fields of a LAUNCH (R36). -/
def Packet.gangs (p : Packet) : Nat := (p[2].extractLsb' 0 24).toNat
def Packet.teams (p : Packet) : Nat := (p[2].extractLsb' 32 4).toNat
def Packet.groups (p : Packet) : Nat := (p[2].extractLsb' 36 6).toNat
def Packet.widthCode (p : Packet) : Nat := (p[2].extractLsb' 42 2).toNat
def Packet.pair (p : Packet) : Bool := p[2].getLsbD 44
def Packet.roles (p : Packet) : Bool := p[2].getLsbD 45
def Packet.baseCode (p : Packet) : Nat := (p[2].extractLsb' 46 2).toNat
def Packet.spad (p : Packet) : Nat := (p[3].extractLsb' 0 11).toNat
def Packet.tiles (p : Packet) : Nat := (p[3].extractLsb' 11 7).toNat
def Packet.slots (p : Packet) : Nat := (p[3].extractLsb' 18 6).toNat
def Packet.rings (p : Packet) : Nat := (p[3].extractLsb' 24 3).toNat
def Packet.stages (p : Packet) : Nat := (p[3].extractLsb' 27 4).toNat

/-- Fields of a ROLES packet (R37): the groups and base code of role `k`. -/
def Packet.count (p : Packet) (k : Nat) : Nat := (p[4].extractLsb' (6 * k) 6).toNat
def Packet.roleBase (p : Packet) (k : Nat) : Nat := (p[4].extractLsb' (18 + 2 * k) 2).toNat

/-- Bits above an address (R33). -/
def overAddr (w : Word) : Bool := w.extractLsb' 57 7 != 0#7

/-- Is a word of the packet nonzero from index `k` on? -/
def Packet.tail (p : Packet) (k : Nat) : Bool := (p.toList.drop k).any (· != 0#64)

/-- Reserved bits of the header (R33). -/
def Packet.badHeader (p : Packet) : Bool := p[0].extractLsb' 10 6 != 0#6 || p[0].extractLsb' 32 32 != 0#32

/-- Reserved fields of a packet by its type (R33, R36, R39, R40). -/
def Packet.badReserved (p : Packet) : Bool :=
  p.badHeader ||
  (match p.typ.toNat with
    | 0x10 => overAddr p[1] || overAddr p[3] || overAddr p[5] || p.tail 7
    | 0x11 => overAddr p[1] || p.tail 3
    | 0x12 => overAddr p[1] || p.tail 3
    | 0x13 => overAddr p[1] || p[3].extractLsb' 3 61 != 0#61 || overAddr p[4] || p.tail 5
    | 0x14 =>
      overAddr p[1] || p[2].extractLsb' 24 8 != 0#8 || p[2].extractLsb' 48 16 != 0#16 || p[3].getLsbD 31 ||
        overAddr p[4] || overAddr p[5] || p[6].extractLsb' 32 32 != 0#32 || overAddr p[7]
    | 0x16 => overAddr p[1] || overAddr p[2] || overAddr p[4] || p.tail 5
    | 0x17 => overAddr p[1] || p.tail 2
    | _ => false)

/-- Fields outside their limits (R36, R40, R59). -/
def Packet.badLimit (p : Packet) : Bool :=
  match p.typ.toNat with
  | 0x13 => p[2] == 0#64 || p[3].extractLsb' 0 3 == 0#3
  | 0x14 =>
    (p.roles && p[1] != 0#64) || p.gangs == 0 || p.teams == 0 || decide (8 < p.teams) || p.groups == 0 ||
      decide (32 < p.groups) || p.widthCode == 3 || p.baseCode == 3 || (p.roles && p.baseCode != 0) ||
      decide (8 < p.teams * (p.pair.toNat + 1)) || decide (768 * (p.pair.toNat + 1) < p.spad) || decide (64 < p.tiles) ||
      decide (32 < p.slots) || decide (4 < p.rings) ||
      (if p.rings = 0 then p.stages != 0 else p.stages == 0 || decide (8 < p.stages))
  | 0x16 => p[3].extractLsb' 0 32 == 0#32
  | _ => false

/-- Is an address not a multiple of `n`? -/
def misaligned (w : Word) (n : Nat) : Bool := w.toNat % n != 0

/-- Misaligned addresses (R35, R36, R39, R46). -/
def Packet.badAlign (p : Packet) : Bool :=
  match p.typ.toNat with
  | 0x10 => misaligned p[1] 8 || misaligned p[3] 8 || misaligned p[5] 8
  | 0x11 | 0x12 | 0x17 => misaligned p[1] 8
  | 0x13 | 0x16 => misaligned p[4] 8
  | 0x14 => misaligned p[1] 4 || misaligned p[4] 256 || misaligned p[5] 32 || misaligned p[7] 8
  | _ => false

/-- The first of the errors that the bytes of a packet alone show, in the order of R46. -/
def Packet.error (p : Packet) : Option (BitVec 8) :=
  if p.badReserved then some 0x02 else if p.badLimit then some 0x03 else if p.badAlign then some 0x06 else none

/-- The error of a ROLES packet with its LAUNCH (R37, R46). The entry of a role without groups is ignored. -/
def rolesError (l r : Packet) : Option (BitVec 8) :=
  let used := (List.range 3).filter (fun k => r.count k != 0)
  let entry (k : Nat) : Word := (r.toList[k + 1]?).getD 0
  if r.badHeader || r[4].extractLsb' 24 40 != 0#40 || r.tail 5 || used.any (fun k => overAddr (entry k)) then some 0x02
  else if r.count 0 + r.count 1 + r.count 2 != l.groups || (List.range 3).any (fun k => r.roleBase k == 3) then some 0x03
  else if used.any (fun k => misaligned (entry k) 4) then some 0x06
  else none

/-- Registers of a base block code (R36). -/
def baseRegs (code : Nat) : Nat := 16 * (code + 1)

/-- Lanes of a width code (R36). -/
def widthLanes (code : Nat) : Nat := 16 * 2 ^ code

/-- The grid of a served LAUNCH, with its ROLES packet if it has one (R36, R37). -/
def gridOf (n : Nat) (idx ver : BitVec 32) (ctx : Nat) (l : Packet) (r : Option Packet) (args : List Byte) : Grid :=
  let z : Packet := r.getD (.replicate 8 0)
  { queue := n, idx := idx, ver := ver, ctx := ctx, entry := toPC l[1], gangs := l.gangs, teams := l.teams, groups := l.groups
    width := widthLanes l.widthCode, pair := l.pair, roles := l.roles, base := baseRegs l.baseCode, spad := l.spad
    tiles := l.tiles, slots := l.slots, rings := l.rings, stages := l.stages, ncopy := z.count 0, nmat := z.count 1
    nvec := z.count 2, bcopy := baseRegs (z.roleBase 0), bmat := baseRegs (z.roleBase 1), bvec := baseRegs (z.roleBase 2)
    ecopy := toPC z[1], emat := toPC z[2], evec := toPC z[3], cinc := l[3].extractLsb' 32 32
    args := Vector.ofFn (fun i => BitVec.ofNat 64 (field args (8 * i.val) 8)), caddr := l[7], placed := 0, ended := 0
    killed := false, level := 0 }

/-- The role of group `i` of a team (R37). -/
def Grid.roleOf (g : Grid) (i : Nat) : Role :=
  if !g.roles then .none else if i < g.ncopy then .copy else if i < g.ncopy + g.nmat then .matrix else .vector

/-- Registers of the base block of a role (R37, R56). -/
def Grid.baseOf (g : Grid) : Role → Nat
  | .none => g.base
  | .copy => g.bcopy
  | .matrix => g.bmat
  | .vector => g.bvec

/-- The entry of a role. -/
def Grid.entryOf (g : Grid) : Role → PC
  | .none => g.entry
  | .copy => g.ecopy
  | .matrix => g.emat
  | .vector => g.evec

/-- The roles of a grid that have groups (R62, R115). -/
def Grid.roleList (g : Grid) : List Role :=
  if !g.roles then [.none]
  else (if g.ncopy = 0 then [] else [Role.copy]) ++ (if g.nmat = 0 then [] else [.matrix]) ++ (if g.nvec = 0 then [] else [.vector])

/-- The half and quadrant of group `i` of a team (R58). -/
def Grid.seat (g : Grid) (i : Nat) : Nat × Nat :=
  if g.pair && decide (4 ≤ i % 8) then (1, i % 8 - 4) else (0, i % 4)

/-- Bytes of base blocks that a team needs in a quadrant of one of its cores, and its groups there. -/
def Grid.quadNeed (g : Grid) (half quad : Nat) : Nat × Nat :=
  let mine := (List.range g.groups).filter (fun i => g.seat i == (half, quad))
  (mine.length, (mine.map (fun i => g.baseOf (g.roleOf i) * g.width * 4)).sum)

/-- Scratchpad KiB of a team on each of its cores (R56). -/
def Grid.spadNeed (g : Grid) : Nat := if g.pair then ceilDiv g.spad 2 else g.spad

/-- Does a team fit an empty core or core pair (R38, R56)? -/
def Grid.fitsEmpty (g : Grid) : Bool :=
  g.roleList.length ≤ 16 && g.spadNeed ≤ 768 && g.tiles ≤ 64 && g.slots ≤ 256 &&
  [0, 1].all (fun h => (List.range 4).all (fun q => (g.quadNeed h q).1 ≤ 48 && (g.quadNeed h q).2 ≤ 0x40000))

/-! ### Service (R40, R43 to R47) -/

/-- The context of a queue: the one whose address space the queue's PASID names. -/
def State.ctxOfQueue (s : State) (n : Nat) : Option (Nat × Context) :=
  s.contexts.find? (fun (_, c) => c.pasid == (s.queue n).pasid)

/-- Read the slot of a ring at an index (R29). -/
def State.readSlot (s : State) (n : Nat) (c : Context) (idx : BitVec 32) : Except Bad Packet :=
  let q := s.queue n
  match translate s c (q.base.toNat + 64 * (idx.toNat % q.size64)) needRead with
  | .error b => .error b
  | .ok pa => .ok (.ofBytes (physRead s pa 64))

/-- What serving a head packet comes to. -/
inductive Serve where
  | served (s : State)
  | waits
  | later                                -- nothing can be done in this round
  | error (ecode etype : BitVec 8)
  deriving Repr

/-- A counter can be used, is held, or faults; 0 names none (R35, R46). -/
def counterBad (s : State) (c : Context) (need : Leaf → Option Bad) (a : Word) : Option Bad :=
  if a = 0#64 then none
  else
    match translate s c a.toNat need with
    | .ok _ => none
    | .error b => some b

/-- Has a counter reached its target (R35)? -/
def counterReached (s : State) (c : Context) (a target : Word) : Bool :=
  a == 0#64 ||
  (match translate s c a.toNat needRead with
    | .ok pa => decide (target.toNat ≤ leNat (physRead s pa 8))
    | .error _ => false)

/-- A packet of a queue observes a counter at its target (R35): at a scope, what its writes have followed comes before the later
packets of the queue and the work they start. -/
def State.counterSeen (s : State) (n : Nat) (sc : Nat) (c : Context) (a : Word) : State :=
  if a = 0#64 then s
  else
    match translate s c a.toNat needRead with
    | .ok pa =>
      let e : Event := ⟨[], [], [.mark 0], sc, true⟩
      ((s.unmark [0]).newest e (.phys pa) 8).carry (among [.mark 0]) sc [.queue n]
    | .error _ => s

/-- A completion signal (R35, R165), a bridge at a scope for what events of the lines `src` have followed (R172): none while a
memory stack does not answer. A counter whose page has gone, or whose stack has failed, since it was judged gets no signal
(DESIGN CHOICE, log 39, log 65: R162 says that an accepted copy is never rejected later). -/
def State.signal (s : State) (c : Context) (inc a : Word) (src : Line → Bool) (sc : Nat) : Option State :=
  if a = 0#64 then some s
  else
    match translate s c a.toNat needWrite with
    | .error (.hold _) => none
    | .error _ => some s
    | .ok pa => some (s.bridge src sc (.phys pa) (leBytes 8 ((leNat (physRead s pa 8) + inc.toNat) % 2 ^ 64)))

/-- The scope of a packet's completion signal (R172). -/
def sysScope (sys : Bool) : Nat := if sys then 5 else 4

/-- The read index passes `k` packets. The firmware's own changes of a record leave VER (R31, log 103). -/
def State.advance (s : State) (n k : Nat) : State :=
  s.modQueue n (fun q => { q with rdx := q.rdx + BitVec.ofNat 32 k, waiting := false })

/-- A packet completes as it is served (R47). -/
def State.completeNow (s : State) (n : Nat) (p : Packet) : State :=
  let s := s.advance n 1
  if p.irq then s.raiseIrq n (s.queue n).vec else s

/-- A served packet stays incomplete; its work follows what earlier packets of the queue have observed (R35). -/
def State.putFlight (s : State) (n k : Nat) (p : Packet) (w : Flight) : State :=
  let q := s.queue n
  let s := s.relay [.queue n] (.packet n q.rdx)
  let f : Served := { idx := q.rdx, typ := p.typ, tag := p.tag, irq := p.irq, sys := p.sys, work := w }
  (s.setQueue n { q with inflight := q.inflight ++ [f] }).advance n k

/-- A served packet completes: its interrupt follows its signal, and a held disable may take effect (R28, R47). -/
def State.completeFlight (s : State) (n : Nat) (f : Served) : State :=
  let s := s.modQueue n (fun q => { q with inflight := q.inflight.filter (fun x => x.idx != f.idx) })
  let s := if f.irq then s.raiseIrq n (s.queue n).vec else s
  s.settleDisable n

/-- The first bad of a list of checks: held, or a fault with ECODE 0x07. -/
def badOf (l : List (Option Bad)) : Option Serve :=
  match (l.filterMap id).head? with
  | none => none
  | some (.hold _) => some .later
  | some _ => some (.error 0x07 0)

/-- BARRIER_AND (R40). -/
def serveBarrier (s : State) (n : Nat) (c : Context) (p : Packet) : Serve :=
  match badOf [counterBad s c needRead p[1], counterBad s c needRead p[3], counterBad s c needRead p[5]] with
  | some e => e
  | none =>
    if (s.queue n).drained && counterReached s c p[1] p[2] && counterReached s c p[3] p[4] && counterReached s c p[5] p[6] then
      .served ([p[1], p[3], p[5]].foldl (fun s a => s.counterSeen n (sysScope p.sys) c a) s |>.completeNow n p)
    else .waits

/-- WAIT_COUNTER (R40). -/
def serveWait (s : State) (n : Nat) (c : Context) (p : Packet) : Serve :=
  match badOf [counterBad s c needRead p[1]] with
  | some e => e
  | none =>
    if counterReached s c p[1] p[2] then .served ((s.counterSeen n (sysScope p.sys) c p[1]).completeNow n p) else .waits

/-- SIGNAL_COUNTER (R40). -/
def serveSignal (s : State) (n : Nat) (c : Context) (p : Packet) : Serve :=
  match badOf [counterBad s c needWrite p[1]] with
  | some e => e
  | none =>
    match s.signal c p[2] p[1] (among [.queue n]) (sysScope p.sys) with
    | some s => .served (s.completeNow n p)
    | none => .later

/-- INVALIDATE_RANGE (R40): it completes once every die has acknowledged. -/
def serveInval (s : State) (n : Nat) (c : Context) (p : Packet) : Serve :=
  match badOf [counterBad s c needWrite p[4]] with
  | some e => e
  | none => .served (s.putFlight n 1 p (.inval p[1] p[2] (p[3].extractLsb' 0 3) p[4]))

/-- A LAUNCH that passes its checks joins the placement list of its queue (R38): its arguments are read, and the
context's overflow area is the one it names (R77): that of the LAUNCH served last, for every grid of the context (DESIGN CHOICE,
log 132). -/
def State.startGrid (s : State) (n ctx : Nat) (p : Packet) (r : Option Packet) (args : List Byte) : State :=
  let id := s.nextGrid
  let s := { s with nextGrid := id + 1, grids := s.grids.put id (gridOf n (s.queue n).rdx (s.queue n).ver ctx p r args) }
  let s := s.modCtx ctx (fun c => { c with ovf := p[5], ovfn := (p[6].extractLsb' 0 32).toNat })
  let s := s.putFlight n (if r.isSome then 2 else 1) p (.grid id)
  s.modQueue n (fun q =>
    if q.grids.isEmpty then { q.newHead s.timer with grids := [id] } else { q with grids := q.grids ++ [id] })

/-- LAUNCH (R36 to R38), with the ROLES packet that follows it. Which TYPE an error that needs both packets records is a
DESIGN CHOICE (log 105), and so is that the argument block is read once, here, for the batons of every unit (log 123: R36 says
only that it is read before the first baton of each). -/
def serveLaunch (s : State) (n ctx : Nat) (c : Context) (p : Packet) : Serve :=
  let q := s.queue n
  let go (r : Option Packet) (etype : BitVec 8) : Serve :=
    if !(gridOf n q.rdx q.ver ctx p r []).fitsEmpty then .error 0x04 etype
    else
      match translate s c p[4].toNat needRead, counterBad s c needWrite p[7] with
      | .error (.hold _), _ | _, some (.hold _) => .later
      | .error _, _ | _, some _ => .error 0x07 0x14
      | .ok pa, none => .served (s.startGrid n ctx p r (physRead s pa 256))
  if !p.roles then go none 0x14
  else if (q.wrx - q.rdx).toNat < 2 then .waits
  else
    match s.readSlot n c (q.rdx + 1) with
    | .error (.hold _) => .later
    | .error _ => .error 0x07 0
    | .ok r =>
      if r.typ ≠ 0x15#8 then .error 0x05 r.typ
      else
        match rolesError p r with
        | some e => .error e 0x15
        | none => go (some r) 0x14

/-- The channel number that stands for an engine's firmware channel (R40). -/
def firmwareChannel : Nat := 64

/-- A firmware channel of the die's enabled engines that has room (R40, R163): of the lowest such engine (DESIGN CHOICE,
log 106). -/
def State.firmwareEngine (s : State) (die : Nat) : Option Nat :=
  ((List.range 4).find? (fun e => (s.umap die).copy.getLsbD e &&
    decide ((s.channel (4 * die + e, firmwareChannel)).length < channelMax))).map (4 * die + ·)

/-- Does a COPY fail its translation at an end or at its counter? That comes before a rejection of detail 2 (R46). -/
def copyUntranslated (s : State) (c : Context) (cp : Copy) : Bool :=
  let bad (need : Leaf → Option Bad) (a : Nat) : Bool := !inSpad a && (rangeBad s c need a cp.rowb).isSome
  bad needRead (cp.src.row 0) || bad needWrite (cp.dst.row 0) || (caddrBad s c cp.caddr).isSome

/-- COPY (R40): judged as a start store is (R162), without a team. -/
def serveCopy (s : State) (n ctx : Nat) (c : Context) (p : Packet) : Serve :=
  let t : Template :=
    { src := p[1], dst := p[2], sstride := 0, dstride := 0, rowb := 1, nrows := 1, ctl := 0, cinc := p[3].extractLsb' 32 32
      caddr := p[4], tail := 0 }
  let cp : Copy :=
    { ctx := ctx, group := none, tmpl := 0, src := ⟨p[1], 0⟩, dst := ⟨p[2], 0⟩, rowb := (p[3].extractLsb' 0 32).toNat
      nrows := 1, fe := 0, teams := none, cinc := p[3].extractLsb' 32 32, caddr := p[4], parts := 0, kept := [], waiting := false
      pkt := some (n, (s.queue n).rdx), started := s.steps, slots := [], scope := 0, fenced := false, granule := [] }
  match copyHold s c cp with
  | some _ => .later
  | none =>
    match judge s c t cp true none with
    | some d => .error (if d = 3#8 || copyUntranslated s c cp then 0x07 else 0x0A) 0x16
    | none =>
      match s.firmwareEngine (dieOfQueue n) with
      | none => .later
      | some e =>
        let k := (e, firmwareChannel)
        .served ((s.setChannel k (s.channel k ++ [cp])).putFlight n 1 p .copy)

/-- TIMESTAMP (R40, R46). -/
def serveTime (s : State) (n : Nat) (c : Context) (p : Packet) : Serve :=
  if !(s.queue n).drained then .waits
  else
    match translate s c p[1].toNat needWrite with
    | .error (.hold _) => .later
    | .error _ => .error 0x07 0x17
    | .ok pa =>
      let e : Event := ⟨[], [], [], sysScope p.sys, true⟩
      .served ((s.writeBy e none false [.queue n] (.phys pa) (leBytes 8 (s.timer % 2 ^ 64))).completeNow n p)

/-- Serve a head packet of a defined type. -/
def servePacket (s : State) (n ctx : Nat) (c : Context) (p : Packet) : Serve :=
  match p.error with
  | some e => .error e p.typ
  | none =>
    match p.typ.toNat with
    | 0x10 => serveBarrier s n c p
    | 0x11 => serveWait s n c p
    | 0x12 => serveSignal s n c p
    | 0x13 => serveInval s n c p
    | 0x14 => serveLaunch s n ctx c p
    | 0x16 => serveCopy s n ctx c p
    | _ => serveTime s n c p

/-- Is a lane of the firmware active: its queue in STATE 1 with an unserved or waiting head (R43)? A queue of a context
that is switched out or frozen is not served (R201). -/
def State.laneActive (s : State) (n : Nat) : Bool :=
  let q := s.queue n
  q.state == 1#2 && !q.held && q.rdx != q.wrx &&
  ((s.ctxOfQueue n).map (fun (_, c) => c.stage == .running || c.stage == .soft)).getD true

/-- The types in the order of R34; a ROLES packet is served with its LAUNCH. -/
def serviceOrder : List Nat := [0x10, 0x11, 0x12, 0x13, 0x14, 0x16, 0x17]

/-- The error handler of a round at a lane (R43): a head that cannot be read, has an undefined TYPE, or is a ROLES
packet out of place. -/
def State.errorLane (s : State) (n : Nat) : State × Bool :=
  let q := s.queue n
  match s.ctxOfQueue n with
  | none => (s.queueError n 0x07 0 0 q.rdx, true)
  | some (_, c) =>
    match s.readSlot n c q.rdx with
    | .error (.hold _) => (s, false)
    | .error _ => (s.queueError n 0x07 0 0 q.rdx, true)
    | .ok p =>
      if p.typ = 0x15#8 then (s.queueError n 0x05 0x15 p.tag q.rdx, true)
      else if p.typ.toNat ∈ serviceOrder then (s, false)
      else (s.queueError n 0x01 p.typ p.tag q.rdx, true)

/-- The handler of one type at a lane. Where the ROLES slot cannot be read, ETAG and EIDX are the LAUNCH's (DESIGN CHOICE, log
81). The result says whether the lane has been dealt with in this round. -/
def State.serveLane (s : State) (ty n : Nat) : State × Bool :=
  let q := s.queue n
  match s.ctxOfQueue n with
  | none => (s, false)
  | some (ctx, c) =>
    match s.readSlot n c q.rdx with
    | .error _ => (s, false)
    | .ok p =>
      if p.typ.toNat ≠ ty then (s, false)
      else
        match servePacket s n ctx c p with
        | .served s => (s, true)
        | .waits => (s.setQueue n { q with waiting := true }, true)
        | .later => (s, true)
        | .error e t => (s.queueError n e (if e = 0x07 && ty != 0x14 then p.typ else t) p.tag q.rdx, true)

/-- Run a handler over lanes, in ascending order (DESIGN CHOICE, log 107); the lanes that it has not dealt with. -/
def overLanes (f : State → Nat → State × Bool) : State → List Nat → State × List Nat
  | s, [] => (s, [])
  | s, n :: l =>
    let (s, hit) := f s n
    let (s, rest) := overLanes f s l
    (s, if hit then rest else n :: rest)

/-- SERVICE_ROUND (R43): mark the lanes, run the error handler, then the handlers in the order of R34. The firmware of a
die runs once the die is ready (R16). -/
def execServiceRound (die : Fin 4) (k : Fin 8) (s : State) : Out :=
  if !s.ready (1 + die.val) then .next s
  else
    let lanes := ((List.range 32).map (fun l => 256 * die.val + 32 * k.val + l)).filter s.laneActive
    let (s, lanes) := overLanes State.errorLane s lanes
    .next (serviceOrder.foldl (fun (x : State × List Nat) ty => overLanes (fun s n => s.serveLane ty n) x.1 x.2) (s, lanes)).1

/-! ### Completion (R35, R36, R40, R165, R199) -/

/-- INVALIDATE_RANGE_COMPLETE (R40): every die has acknowledged; the counter is signalled with 1. -/
def execInvalidateRangeComplete (n : Fin 1024) (idx : BitVec 32) (s : State) : Out :=
  match (s.queue n.val).inflight.find? (fun f => f.idx == idx) with
  | none => .next s
  | some f =>
    match f.work, s.ctxOfQueue n.val with
    | .inval _ _ _ caddr, some (_, c) =>
      match s.signal c 1 caddr (among [.packet n.val idx]) (sysScope f.sys) with
      | some s => .next (s.completeFlight n.val f)
      | none => .next s
    | .inval .., none => .next (s.completeFlight n.val f)
    | _, _ => .next s

/-- GRID_COMPLETE (R36): every gang has ended; CINC is added at CADDR and the grid's sequencer is returned. -/
def execGridComplete (s : State) : Out :=
  match s.grid? s.sel with
  | none => .next s
  | some g =>
    let f := (s.queue g.queue).inflight.find? (fun f => f.work == .grid s.sel)
    if g.killed || decide (g.ended < g.gangs) then .next s
    else
      match f, s.ctx? g.ctx with
      | some f, some c =>
        match s.signal c (zx g.cinc) g.caddr (fun x => Line.ofGrid s.sel x || x == .packet g.queue f.idx) (sysScope f.sys) with
        | some t => .next ((t.completeFlight g.queue f).dropGrid s.sel)
        | none => .next s
      | _, _ => .next (s.dropGrid s.sel)

/-- GRID_KILL (R36, R199): Isacor kills a grid. -/
def execGridKill (s : State) : Out := .next (s.killGrid s.sel)

/-- The packet in flight that a copy serves. -/
def State.flightOf (s : State) (cp : Copy) : Option (Nat × Served) :=
  cp.pkt.bind (fun (n, idx) => ((s.queue n).inflight.find? (fun f => f.idx == idx)).map (n, ·))

/-- The packet that a copy serves completes (R40, R47). -/
def State.copyDone (s : State) (cp : Copy) : State :=
  match s.flightOf cp with
  | some (n, f) => s.completeFlight n f
  | none => s

/-- The scope of a copy's completion signal (R165, R172): a packet's may be system scope (R35). -/
def State.copyScope (s : State) (cp : Copy) : Nat := sysScope ((s.flightOf cp).any (·.2.sys))

/-- COPY_COMPLETE (R164, R165): the oldest copy of a channel has written every byte, its granules are full, and its
counter is signalled. A copy that cannot reach a page or a tile now, or whose granules are not all written, waits. -/
def execCopyComplete (engine : Fin 16) (channel : Nat) (s : State) : Out :=
  let k := (engine.val, channel)
  match s.channel k with
  | [] => .next s
  | cp :: rest =>
    match s.ctx? cp.ctx with
    | none => .next (s.setChannel k rest)
    | some c =>
      let moved : Option State := if cp.total ≤ cp.parts then some s else if cp.fe = 2#2 then none else moveAll s c cp
      match moved.bind (fun s => s.signal c (zx cp.cinc) cp.caddr (among [cp.line]) (s.copyScope cp)) with
      | none => .next (s.setChannel k ({ cp with waiting := true } :: rest))
      | some s => .next (((s.copyEnd k cp rest).setChannel k rest).copyDone cp)

end Sys2Proof.Machine
end

