-- ==== Sys2Proof/Machine/Watch.lean ====
section
/-! DEFINITION. Watchpoints (R216 to R218): which accesses meet them, and how a word that has accessed memory retires. -/

namespace Sys2Proof.Machine

/-- Does an access of `n` bytes touch an armed watchpoint (R216)? -/
def wptHit (w : BitVec 128) (write : Bool) (a n : Nat) : Bool :=
  let base := (w.extractLsb' 0 57).toNat
  let len := 2 ^ (w.extractLsb' 57 4).toNat
  w.getLsbD 63 && w.getLsbD (if write then 62 else 61) && decide (a < base + len ∧ base < a + n)

/-- The lowest watchpoint of the core that an instruction hits, for the lowest lane that hit it (R218); an access is its
address and its bytes. -/
def firstHit (wpts : Vector (BitVec 128) 16) (write : Bool) (accs : List (Nat × Nat)) : Option (Nat × Nat) :=
  ((List.range 16).filterMap (fun k =>
    (accs.find? (fun (a, n) => wptHit (wpts[k]?.getD 0) write a n)).map (fun (a, _) => (k, a)))).head?

/-- A hit is queued at the debug core of a group's die, with PROG as it stands (R217, R218, R373). -/
def State.queueHit (s : State) (gid : GroupId) (sl : SlotId) (g : Group) (k a : Nat) : State :=
  let prog := ((s.core g.core).wpt[k]?.getD 0).extractLsb' 64 64
  s.modDbg (dieOfCore g.core) (fun d => { d with hits := d.hits ++ [⟨gid, sl, k, BitVec.ofNat 64 a, prog⟩] })

/-- A memory word retires; when it hits a watchpoint, its group is held before its next instruction and the hit is
queued (R217, R218). -/
def accessesDone (s : State) (gid : GroupId) (sl : SlotId) (pc : PC) (write : Bool) (accs : List (Nat × Nat)) : Eff :=
  match s.group? gid with
  | none => .next s
  | some g =>
    match (if gid.isDebug then none else firstHit (s.core g.core).wpt write accs) with
    | none => .next s
    | some (k, a) =>
      let s := s.retire gid sl pc.next
      .done ((s.modGroup gid (fun g => { g with wait := some .watch })).queueHit gid sl g k a)

/-- The same for accesses of `n` bytes each, by lane and address. -/
def accessDone (s : State) (gid : GroupId) (sl : SlotId) (pc : PC) (write : Bool) (n : Nat) (accs : List (Nat × Nat)) : Eff :=
  accessesDone s gid sl pc write (accs.map (fun (_, a) => (a, n)))

/-- Has a group a hit that is not yet evaluated? -/
def State.hitPending (s : State) (gid : GroupId) (g : Group) : Bool :=
  let d := s.dbg (dieOfCore g.core)
  d.hits.any (fun h => h.group == gid) || d.prog.any (fun p => p.hit.group == gid)

end Sys2Proof.Machine
end

