-- ==== Sys2Proof/Machine/Loads.lean ====
section
/-! DEFINITION. Loads and stores (R325 to R329). -/

namespace Sys2Proof.Machine

/-! ### Addresses -/

/-- The address of a lane (R254): S[base] + V[index] × n + off × n, with no middle term for index 63. -/
def laneAddr (g : Group) (sl : SlotId) (b : BitVec 5) (i : BitVec 6) (n off : Nat) (l : Nat) : Word :=
  g.readS sl (b.zeroExtend 6) + (if i = 63#6 then 0 else BitVec.ofNat 64 ((g.readV i.toNat l).toNat * n)) +
    BitVec.ofNat 64 (off * n)

/-- The index register as a source (R250); index 63 is none. -/
def indexSrc (i : BitVec 6) : List (Nat × Bool) := if i = 63#6 then [] else [(i.toNat, false)]

/-- Check the address of every lane in ascending order: the places, or the first that fails (R325). A lane whose memory
does not answer yet holds the access only when no lane fails. -/
def checkLanes (chk : Word → Except Bad Place) (addr : Nat → Word) : List Nat → Except (Bad × Nat × Word) (List (Nat × Place))
  | [] => .ok []
  | l :: ls =>
    match chk (addr l), checkLanes chk addr ls with
    | .ok p, .ok ps => .ok ((l, p) :: ps)
    | .ok _, .error e => .error e
    | .error (.hold w), .ok _ => .error (.hold w, l, addr l)
    | .error (.hold w), .error (.hold _, _, _) => .error (.hold w, l, addr l)
    | .error (.hold _), .error e => .error e
    | .error b, _ => .error (b, l, addr l)

/-- Go on with the places of an access, wait where the memory does not answer yet, or fault (R155, R193). -/
def withPlaces (s : State) (cls : Nat) (r : Except (Bad × Nat × Word) (List (Nat × Place)))
    (k : List (Nat × Place) → Eff) : Eff :=
  match r with
  | .error (.hold w, _, _) => .wait s w
  | .error (b, l, a) => .fault (b.record cls l a)
  | .ok ps => k ps

/-- The four bytes of register `k` of a lane's bytes. -/
def lane32 (bs : List Byte) (k : Nat) : BitVec 32 := BitVec.ofNat 32 (leNat ((bs.drop (4 * k)).take 4))

/-- The registers that a vector access of `n` bytes uses, `t` and those it implies (R327). -/
def dataRegs (t : BitVec 6) (n : Nat) : List Nat := (List.range (ceilDiv n 4)).map (t.toNat + ·)

/-- Does an access to a place go through the port of the group's core (R387)? Its own core's scratchpad does not. -/
def State.viaPort (s : State) (g : Group) (p : Place) : Bool :=
  match p with
  | .phys _ | .aperture .. => true
  | .spad k off => ((s.team? k).map (fun t => spadCore t off != g.core)).getD true
  | .store .. => false

/-- A vector load of `n` bytes a lane from checked places: the registers of t are empty until the write-back (R119). `rd` reads
the lanes, and `post` comes after it. -/
def vectorLoad (s : State) (gid : GroupId) (sl : SlotId) (g : Group) (t : BitVec 6) (i : BitVec 6) (n : Nat)
    (chk : Word → Except Bad Place) (addr : Nat → Word) (rd : State → List (Nat × Place) → Vector (List Byte) 64 × State)
    (post : State → List (Nat × Place) → State) : Eff :=
  let regs := dataRegs t n
  let m := g.active sl
  past s (g.hurdle (indexSrc i) regs)
    (withPlaces s 0 (checkLanes chk addr (lanesOf m)) (fun ps =>
      if m = 0#64 then .next s
      else
        let (data, s') := rd s ps
        let g := g.produceLoad m (regs.zipIdx.map (fun (r, k) => (r, fun l => lane32 (data[l]?.getD []) k))) n s.steps
          (ps.any (fun (_, p) => s.viaPort g p))
        accessDone (post (s'.setGroup gid g) ps) gid sl (g.slot sl).pc false n (ps.map (fun (l, _) => (l, (addr l).toNat)))))

/-- The bytes that a lane stores: the low `n` bytes of t, or of t and the registers it implies (R327). -/
def storeBytes (g : Group) (t : BitVec 6) (n l : Nat) : List Byte :=
  ((dataRegs t n).flatMap (fun r => leBytes 4 (g.readV r l).toNat)).take n

/-- The lanes of a store are at hand: a release at a scope comes before all of them (R172, R329). -/
def State.storeBegin (s : State) (gid : GroupId) (sl : SlotId) (release : Option Nat) : State :=
  match release with
  | some sc => (s.unmark [1]).release gid sl [0] sc [.mark 1]
  | none => s

/-- The write of a store, after its release. -/
def State.storeAs (s : State) (gid : GroupId) (sl : SlotId) (release : Option Nat) (p : Place) (bs : List Byte) : State :=
  s.writeAs gid sl 0 (if release.isSome then [.mark 1] else []) p bs

/-- A vector store of `n` bytes a lane: lanes ascend, so the highest one's bytes stand (R177). -/
def vectorStore (s : State) (gid : GroupId) (sl : SlotId) (g : Group) (t : BitVec 6) (i : BitVec 6) (n : Nat)
    (chk : Word → Except Bad Place) (addr : Nat → Word) (release : Option Nat) (post : State → List (Nat × Place) → State) : Eff :=
  let srcs := (t.toNat, false) :: indexSrc i ++ ((dataRegs t n).drop 1).map (·, false)
  past s (g.checkSrcs srcs)
    (withPlaces s 0 (checkLanes chk addr (lanesOf (g.active sl))) (fun ps =>
      let s' := ps.foldl (fun s (l, p) => s.storeAs gid sl release p (storeBytes g t n l)) (s.storeBegin gid sl release)
      accessDone (post s' ps) gid sl (g.slot sl).pc true n (ps.map (fun (l, _) => (l, (addr l).toNat)))))

/-- Nothing beside its bytes. -/
def noPost (s : State) (_ : List (Nat × Place)) : State := s

/-- A plain vector load, whose lanes are performed later. -/
def plainLoad (s : State) (gid : GroupId) (sl : SlotId) (g : Group) (t : BitVec 6) (i : BitVec 6) (n : Nat)
    (chk : Word → Except Bad Place) (addr : Nat → Word) : Eff :=
  vectorLoad s gid sl g t i n chk addr (fun s ps => s.readLanes { s.eventOf gid sl 0 with now := false } n none ps) noPost

/-- The read event of an acquire load, performed later. -/
def State.acquireEvent (s : State) (gid : GroupId) (sl : SlotId) : Event :=
  { s.eventOf gid sl 0 with also := [.mark 0], now := false }

/-- An acquire load: later core events of the slot follow what its lanes have read (R172, R329). -/
def acquireLoad (s : State) (gid : GroupId) (sl : SlotId) (g : Group) (t : BitVec 6) (i : BitVec 6) (n sc : Nat)
    (chk : Word → Except Bad Place) (addr : Nat → Word) : Eff :=
  vectorLoad s gid sl g t i n chk addr (fun s ps => (s.unmark [0]).readLanes (s.acquireEvent gid sl) n none ps)
    (fun s _ => s.acquire gid sl sc [0])

/-- A global vector load word; `acq` is the scope of an acquire. -/
def loadV (w : Instr) (t : BitVec 6) (b : BitVec 5) (i : BitVec 6) (off n : Nat) (acq : Option (BitVec 3)) (s : State) : Out :=
  groupWord w s (fun gid sl g =>
    match acq with
    | none => plainLoad s gid sl g t i n (checkAddr s gid .read false n) (laneAddr g sl b i n off)
    | some sc =>
      acquireLoad s gid sl g t i n (s.scopeFor gid sc) (checkAddr s gid .read false n) (laneAddr g sl b i n off))

/-- A global vector store word; `rel` is the scope of a release. -/
def storeV (w : Instr) (t : BitVec 6) (b : BitVec 5) (i : BitVec 6) (off n : Nat) (rel : Option (BitVec 3))
    (post : GroupId → SlotId → Group → State → List (Nat × Place) → State) (s : State) : Out :=
  groupWord w s (fun gid sl g =>
    vectorStore s gid sl g t i n (checkAddr s gid .write false n) (laneAddr g sl b i n off) (rel.map (s.scopeFor gid))
      (post gid sl g))

/-- A scalar load word: once, with LANE 0. It is performed later, before a word of its slot that reads or writes its register
(R326); later core events of the slot follow an acquire (R172, R329). -/
def loadS (w : Instr) (t : BitVec 6) (b : BitVec 5) (off n : Nat) (acq : Option (BitVec 3)) (s : State) : Out :=
  groupWord w s (fun gid sl g =>
    let a := laneAddr g sl b 63 n off 0
    withPlaces s 0 (checkLanes (checkAddr s gid .read false n) (fun _ => a) [0]) (fun ps =>
      let (data, s') := (s.unmark [0]).readLanes (s.acquireEvent gid sl) n (some (gid, sl, t)) ps
      let s' := match acq with
        | some sc => s'.acquire gid sl (s.scopeFor gid sc) [0]
        | none => s'
      accessDone (s'.setGroup gid (g.writeS sl t (BitVec.ofNat 64 (leNat (data[0]?.getD []))))) gid sl
        (g.slot sl).pc false n [(0, a.toNat)]))

/-- The queue that a release store at package scope rings: the one whose doorbell page Isacor has mapped at its address
(R30, R329; log 33). -/
def State.bellOf (s : State) (gid : GroupId) (sc : BitVec 3) (a : Word) : Option Nat :=
  if sc != 4#3 || (gid.isDebug && decide (a.toNat < storeEnd)) then none
  else (s.spaceOf gid).bind (fun c => c.bells.find (a.toNat / 4096))

/-- A doorbell page is stored to: the index in the low 32 bits becomes WRX of its queue (R29 to R31). -/
def State.ringBell (s : State) (bell : Option Nat) (data : Word) : State :=
  match bell with
  | some q => (s.doorbell q (data.setWidth 32)).versioned q
  | none => s

/-- A scalar store word; `st.d` alone may name the aperture, where it starts a copy (R160). `bell` says which queue an
address rings. -/
def storeS (w : Instr) (t : BitVec 6) (b : BitVec 5) (off n : Nat) (st8 : Bool) (rel : Option (BitVec 3))
    (bell : State → GroupId → Word → Option Nat) (s : State) : Out :=
  groupWord w s (fun gid sl g =>
    let a := laneAddr g sl b 63 n off 0
    withPlaces s 0 (checkLanes (checkAddr s gid .write st8 n) (fun _ => a) [0]) (fun ps =>
      match ps with
      | [(_, .aperture e c)] =>
        startCopy s gid sl g e c (g.readS sl t) (fun s => accessDone s gid sl (g.slot sl).pc true n [(0, a.toNat)])
      | _ =>
        let r := rel.map (s.scopeFor gid)
        let s' := ps.foldl (fun s (_, p) => s.storeAs gid sl r p (leBytes n (g.readS sl t).toNat)) (s.storeBegin gid sl r)
        accessDone (s'.ringBell (bell s gid a) (g.readS sl t)) gid sl (g.slot sl).pc true n [(0, a.toNat)]))

/-- `ld.b` into v registers (R327): 1 byte a lane. -/
def execLdB (t : BitVec 6) (b : BitVec 5) (i : BitVec 6) (m : BitVec 7) (s : State) : Out :=
  loadV (.ldB t b i m) t b i m.toNat 1 none s

/-- `ld.h` into v registers (R327): 2 bytes a lane. -/
def execLdH (t : BitVec 6) (b : BitVec 5) (i : BitVec 6) (m : BitVec 7) (s : State) : Out :=
  loadV (.ldH t b i m) t b i m.toNat 2 none s

/-- `ld.w` into v registers (R327): 4 bytes a lane. -/
def execLdWV (t : BitVec 6) (b : BitVec 5) (i : BitVec 6) (m : BitVec 7) (s : State) : Out :=
  loadV (.ldWV t b i m) t b i m.toNat 4 none s

/-- `ld.d` into v registers (R327): 8 bytes a lane. -/
def execLdDV (t : BitVec 6) (b : BitVec 5) (i : BitVec 6) (m : BitVec 7) (s : State) : Out :=
  loadV (.ldDV t b i m) t b i m.toNat 8 none s

/-- `ld.q` into v registers (R327): 16 bytes a lane. -/
def execLdQ (t : BitVec 6) (b : BitVec 5) (i : BitVec 6) (m : BitVec 7) (s : State) : Out :=
  loadV (.ldQ t b i m) t b i m.toNat 16 none s

/-- `ld.w` into an s register (R327), zero-extended. -/
def execLdWS (t : BitVec 6) (b : BitVec 5) (m : BitVec 7) (s : State) : Out :=
  loadS (.ldWS t b m) t b m.toNat 4 none s

/-- `ld.d` into an s register (R327), zero-extended. -/
def execLdDS (t : BitVec 6) (b : BitVec 5) (m : BitVec 7) (s : State) : Out :=
  loadS (.ldDS t b m) t b m.toNat 8 none s

/-- `ld.acq` into a v register (R329). -/
def execLdAcqV (t : BitVec 6) (b : BitVec 5) (i : BitVec 6) (sc : BitVec 3) (o : BitVec 4) (s : State) : Out :=
  loadV (.ldAcqV t b i sc o) t b i o.toNat 4 (some sc) s

/-- `ld.acq` into an s register (R329). -/
def execLdAcqS (t : BitVec 6) (b : BitVec 5) (sc : BitVec 3) (o : BitVec 4) (s : State) : Out :=
  loadS (.ldAcqS t b sc o) t b o.toNat 8 (some sc) s

/-- `st.b` from v registers (R327): 1 byte a lane. -/
def execStB (t : BitVec 6) (b : BitVec 5) (i : BitVec 6) (m : BitVec 7) (s : State) : Out :=
  storeV (.stB t b i m) t b i m.toNat 1 none (fun _ _ _ => noPost) s

/-- `st.h` from v registers (R327): 2 bytes a lane. -/
def execStH (t : BitVec 6) (b : BitVec 5) (i : BitVec 6) (m : BitVec 7) (s : State) : Out :=
  storeV (.stH t b i m) t b i m.toNat 2 none (fun _ _ _ => noPost) s

/-- `st.w` from v registers (R327): 4 bytes a lane. -/
def execStWV (t : BitVec 6) (b : BitVec 5) (i : BitVec 6) (m : BitVec 7) (s : State) : Out :=
  storeV (.stWV t b i m) t b i m.toNat 4 none (fun _ _ _ => noPost) s

/-- `st.d` from v registers (R327): 8 bytes a lane. -/
def execStDV (t : BitVec 6) (b : BitVec 5) (i : BitVec 6) (m : BitVec 7) (s : State) : Out :=
  storeV (.stDV t b i m) t b i m.toNat 8 none (fun _ _ _ => noPost) s

/-- `st.q` from v registers (R327): 16 bytes a lane. -/
def execStQ (t : BitVec 6) (b : BitVec 5) (i : BitVec 6) (m : BitVec 7) (s : State) : Out :=
  storeV (.stQ t b i m) t b i m.toNat 16 none (fun _ _ _ => noPost) s

/-- `st.w` from a scalar source (R327). -/
def execStWS (t : BitVec 6) (b : BitVec 5) (m : BitVec 7) (s : State) : Out :=
  storeS (.stWS t b m) t b m.toNat 4 false none (fun _ _ _ => none) s

/-- `st.d` from a scalar source (R327). -/
def execStDS (t : BitVec 6) (b : BitVec 5) (m : BitVec 7) (s : State) : Out :=
  storeS (.stDS t b m) t b m.toNat 8 true none (fun _ _ _ => none) s

/-- `st.rel` from a v register (R329); at package scope a lane rings the doorbell page it stores to (R30). -/
def execStRelV (t : BitVec 6) (b : BitVec 5) (i : BitVec 6) (sc : BitVec 3) (o : BitVec 4) (s : State) : Out :=
  storeV (.stRelV t b i sc o) t b i o.toNat 4 (some sc) (fun gid sl g s ps =>
    ps.foldl (fun s (l, _) => s.ringBell (s.bellOf gid sc (laneAddr g sl b i 4 o.toNat l)) (zx (g.readV t.toNat l))) s) s

/-- `st.rel` from a scalar source (R329); it starts no copy, and at package scope it rings a doorbell page (R30). -/
def execStRelS (t : BitVec 6) (b : BitVec 5) (sc : BitVec 3) (o : BitVec 4) (s : State) : Out :=
  storeS (.stRelS t b sc o) t b o.toNat 8 false (some sc) (fun s gid a => s.bellOf gid sc a) s

end Sys2Proof.Machine
end

