-- ==== Sys2Proof/Machine/Atomics.lean ====
section
/-! DEFINITION. Atomics (R159, R330 to R332): each lane's operation is one step at the unit that holds its address. -/

namespace Sys2Proof.Machine

/-- The result in memory of an operation of R159 on `8 × n` bits: `ty` is the mode TYPE. -/
def atomResult (op : AtomOp) (ty n : Nat) (old operand comparand : Nat) : Nat :=
  let flt (f : Num → Num → Num) : Nat := ((fmtOf ty).round 0 false (f (numOf ty old) (numOf ty operand))).1
  let less (a b : Nat) : Bool := decide (intOf ty a < intOf ty b)
  match op with
  | .add => if 8 ≤ ty then flt (Num.add 0) else (old + operand) % 2 ^ (8 * n)
  | .min => if 8 ≤ ty then flt Num.min else if less operand old then operand else old
  | .max => if 8 ≤ ty then flt Num.max else if less old operand then operand else old
  | .and => old &&& operand
  | .or => old ||| operand
  | .xor => old ^^^ operand
  | .xchg => operand
  | .cas => if old = comparand then operand else old

/-- The number in a lane of consecutive registers. -/
def laneNat (g : Group) (rs : List Nat) (l : Nat) : Nat := leNat (rs.flatMap (fun r => leBytes 4 (g.readV r l).toNat))

/-- The atomics lane by lane, in ascending order (R332 states none): the old values and the state. Each
reads the newest bytes (R174 item 6). -/
def atomLanes (gid : GroupId) (sl : SlotId) (op : AtomOp) (ty n : Nat) (operand comparand : Nat → Nat) :
    State → List (Nat × Place) → Vector Nat 64 → State × Vector Nat 64
  | s, [], v => (s, v)
  | s, (l, p) :: ps, v =>
    let old := leNat (readPlace s p n)
    let s := s.amo gid sl p (leBytes n (atomResult op ty n old (operand l) (comparand l)))
    atomLanes gid sl op ty n operand comparand s ps (v.setIfInBounds l old)

/-- An atomic word of `n` bytes a lane (R330 to R332): ORD bit 1 is a release before it, bit 0 an acquire after it (R172). -/
def atomicEff (op : AtomOp) (n : Nat) (s : State) (gid : GroupId) (sl : SlotId) (g : Group) (t : BitVec 6) (b : BitVec 5)
    (i : BitVec 6) (ord : BitVec 2) (sc : BitVec 3) (ret : Bool) : Eff :=
  let k := n / 4
  let regs := (List.range (if op = .cas then 2 * k else k)).map (t.toNat + ·)
  let m := g.active sl
  let addr := laneAddr g sl b i n 0
  past s (g.checkSrcs ((t.toNat, false) :: indexSrc i ++ (regs.drop 1).map (·, false)))
    (withPlaces s 4 (checkLanes (checkAddr s gid .amo false n) addr (lanesOf m)) (fun ps =>
      if m = 0#64 then .next s
      else
        let first := laneNat g (regs.take k)
        let second := laneNat g (regs.drop k)
        let scope := s.scopeFor gid sc
        let before := s.amoBegin gid sl (if ord.getLsbD 1 then some scope else none)
        let (s', olds) := atomLanes gid sl op (g.ty sl) n (if op = .cas then second else first) first before ps (.replicate 64 0)
        let s' := if ord.getLsbD 0 then s'.acquire gid sl scope [0, atomicClass] else s'
        let out := (regs.take k).zipIdx.map (fun (r, j) => (r, fun l => lane32 (leBytes n (olds[l]?.getD 0)) j))
        let s' := if ret then s'.setGroup gid (g.produceLoad m out 0 s.steps (ps.any (fun (_, p) => s.viaPort g p))) else s'
        accessDone s' gid sl (g.slot sl).pc true n (ps.map (fun (l, _) => (l, (addr l).toNat)))))

/-- The size that the mode TYPE gives an atomic (R331). -/
def atomSize (ty : Nat) : Nat := tyBits ty / 8

/-- An atomic whose size is the TYPE's. -/
def atomWord (w : Instr) (op : AtomOp) (t : BitVec 6) (b : BitVec 5) (i : BitVec 6) (ord : BitVec 2)
    (sc : BitVec 3) (ret : Bool) (s : State) : Out :=
  groupWord w s (fun gid sl g => atomicEff op (atomSize (g.ty sl)) s gid sl g t b i ord sc ret)

/-- A 16-byte atomic, which reads no TYPE. -/
def atomWordQ (w : Instr) (op : AtomOp) (t : BitVec 6) (b : BitVec 5) (i : BitVec 6) (ord : BitVec 2)
    (sc : BitVec 3) (ret : Bool) (s : State) : Out :=
  groupWord w s (fun gid sl g => atomicEff op 16 s gid sl g t b i ord sc ret)

/-- `aadd` (R331): add. -/
def execAadd (t : BitVec 6) (b : BitVec 5) (i : BitVec 6) (o : BitVec 2) (sc : BitVec 3) (r : Bool) (s : State) : Out :=
  atomWord (.aadd t b i o sc r) .add t b i o sc r s

/-- `amin` (R331): minimum. -/
def execAmin (t : BitVec 6) (b : BitVec 5) (i : BitVec 6) (o : BitVec 2) (sc : BitVec 3) (r : Bool) (s : State) : Out :=
  atomWord (.amin t b i o sc r) .min t b i o sc r s

/-- `amax` (R331): maximum. -/
def execAmax (t : BitVec 6) (b : BitVec 5) (i : BitVec 6) (o : BitVec 2) (sc : BitVec 3) (r : Bool) (s : State) : Out :=
  atomWord (.amax t b i o sc r) .max t b i o sc r s

/-- `aand` (R331): AND. -/
def execAand (t : BitVec 6) (b : BitVec 5) (i : BitVec 6) (o : BitVec 2) (sc : BitVec 3) (r : Bool) (s : State) : Out :=
  atomWord (.aand t b i o sc r) .and t b i o sc r s

/-- `aor` (R331): OR. -/
def execAor (t : BitVec 6) (b : BitVec 5) (i : BitVec 6) (o : BitVec 2) (sc : BitVec 3) (r : Bool) (s : State) : Out :=
  atomWord (.aor t b i o sc r) .or t b i o sc r s

/-- `axor` (R331): exclusive OR. -/
def execAxor (t : BitVec 6) (b : BitVec 5) (i : BitVec 6) (o : BitVec 2) (sc : BitVec 3) (r : Bool) (s : State) : Out :=
  atomWord (.axor t b i o sc r) .xor t b i o sc r s

/-- `axchg` (R331): exchange. -/
def execAxchg (t : BitVec 6) (b : BitVec 5) (i : BitVec 6) (o : BitVec 2) (sc : BitVec 3) (r : Bool) (s : State) : Out :=
  atomWord (.axchg t b i o sc r) .xchg t b i o sc r s

/-- `acas` (R331): compare-exchange. -/
def execAcas (t : BitVec 6) (b : BitVec 5) (i : BitVec 6) (o : BitVec 2) (sc : BitVec 3) (r : Bool) (s : State) : Out :=
  atomWord (.acas t b i o sc r) .cas t b i o sc r s

/-- `axchg.q` (R331): 16-byte exchange. -/
def execAxchgQ (t : BitVec 6) (b : BitVec 5) (i : BitVec 6) (o : BitVec 2) (sc : BitVec 3) (r : Bool) (s : State) : Out :=
  atomWordQ (.axchgQ t b i o sc r) .xchg t b i o sc r s

/-- `acas.q` (R331): 16-byte compare-exchange. -/
def execAcasQ (t : BitVec 6) (b : BitVec 5) (i : BitVec 6) (o : BitVec 2) (sc : BitVec 3) (r : Bool) (s : State) : Out :=
  atomWordQ (.acasQ t b i o sc r) .cas t b i o sc r s

end Sys2Proof.Machine
end

