-- ==== Sys2Proof/Machine/Flags.lean ====
section
/-! DEFINITION. The lane functions of the vector words with the flags they raise (R306 to R317), and the comparisons that
set group and scope flags (R291, R294). Each takes codes and answers a code and flags. -/

namespace Sys2Proof.Machine

/-! ### Integers (R306 to R308) -/

/-- A result that raises no flag (R226: integer operations set none). -/
def quiet (x : Nat) : Nat × Flags := (x, 0)

/-- A function of the values of two integer codes, through IntRes. -/
def intOp (ty : Nat) (sat : Bool) (f : Int → Int → Int) (x y : Nat) : Nat × Flags :=
  quiet (intRes ty sat (f (intOf ty x) (intOf ty y)))

/-- The upper w bits of the exact product. -/
def mulHigh (ty : Nat) (x y : Nat) : Nat × Flags :=
  quiet (intCode ty (intOf ty x * intOf ty y / (2 ^ tyBits ty : Nat)))

/-- The complement over w bits. -/
def notBits (ty x : Nat) : Nat := 2 ^ tyBits ty - 1 - x % 2 ^ tyBits ty

/-- Shift right arithmetically within w bits. -/
def sarBits (ty x n : Nat) : Nat :=
  let w := tyBits ty
  if x.testBit (w - 1) then (x / 2 ^ n + (2 ^ w - 2 ^ (w - n))) % 2 ^ w else x / 2 ^ n

/-- Rotate left within w bits. -/
def rolBits (ty x n : Nat) : Nat :=
  let w := tyBits ty
  (x * 2 ^ n + x / 2 ^ (w - n)) % 2 ^ w

/-- `idiv` of R307. -/
def divInt (ty : Nat) (sat : Bool) (x y : Nat) : Nat × Flags :=
  let b := intOf ty y
  quiet (if b = 0 then 2 ^ tyBits ty - 1 else intRes ty sat ((intOf ty x).tdiv b))

/-- `irem` of R307. -/
def remInt (ty : Nat) (x y : Nat) : Nat × Flags :=
  let b := intOf ty y
  quiet (if b = 0 then x else intCode ty ((intOf ty x).tmod b))

/-- The immediate of `vli` as a code (R309). -/
def vliCode (ty : Nat) (sat : Bool) (i : BitVec 18) : Nat :=
  if ty < 8 then intRes ty sat i.toInt
  else if ty = 8 then i.toNat * 2 ^ 14
  else if ty = 11 then i.toNat * 2 ^ 46
  else i.toNat

/-! ### Floats (R310 to R312) -/

/-- Round an exact result under the mode. -/
def roundTo (ty : Nat) (m : BitVec 32) (x : Num) : Nat × Flags := (fmtOf ty).round (modeRnd m) (modeSat m) x

/-- A function of the exact values of two float codes. -/
def fltOp (ty : Nat) (m : BitVec 32) (f : Num → Num → Num) (x y : Nat) : Nat × Flags :=
  roundTo ty m (f (numOf ty x) (numOf ty y))

/-- A fused form: `±(x × y) ± z` rounded once. -/
def fused (ty : Nat) (m : BitVec 32) (negP negZ : Bool) (x y z : Nat) : Nat × Flags :=
  let p := (numOf ty x).mul (numOf ty y)
  let p := if negP then p.neg else p
  let c := numOf ty z
  let c := if negZ then c.neg else c
  roundTo ty m (p.add (modeRnd m) c)

/-- `fmin`, `fmax`: exact, so RND and SAT do not matter (R311). -/
def fltPick (ty : Nat) (f : Num → Num → Num) (x y : Nat) : Nat × Flags :=
  (fmtOf ty).round 0 false (f (numOf ty x) (numOf ty y))

/-- The sign bit of a value cleared or flipped (R311). -/
def fltSign (ty : Nat) (flip : Bool) (x : Nat) : Nat × Flags :=
  let f := fmtOf ty
  match f.decode x with
  | .nan sig => f.round 0 false (.nan sig)
  | v => (f.signed (flip && !v.isNeg) (x % f.signBit), 0)

/-! ### Conversion (R313) -/

/-- `cvt` from an exact value; `intSrc` says that the source is an integer. -/
def convert (ty : Nat) (m : BitVec 32) (intSrc : Option Int) (x : Num) : Nat × Flags :=
  if ty < 8 then
    match intSrc with
    | some v => quiet (intRes ty (modeSat m) v)
    | none =>
      let (v, f) := x.toInt (modeRnd m) (intLo ty) (intHi ty)
      (intCode ty v, f)
  else roundTo ty m x

/-! ### Comparisons -/

/-- The compares of R317: 0 equal, 1 less, 2 less or equal, 3 not equal. -/
def cmpOrd (sub : Nat) (o : Ordering) : Bool :=
  match sub with
  | 0 => o == .eq
  | 1 => o == .lt
  | 2 => o != .gt
  | _ => o != .eq

/-- A compare of two codes with its flags (R317). -/
def compareV (ty sub x y : Nat) : Bool × Flags :=
  if ty < 8 then (cmpOrd sub (compare (intOf ty x) (intOf ty y)), 0)
  else
    let a := numOf ty x
    let b := numOf ty y
    if a.isNan || b.isNan then
      (sub == 3, if sub = 1 ∨ sub = 2 ∨ a.isSig ∨ b.isSig then flagInvalid else 0)
    else (cmpOrd sub (a.cmp b), 0)

/-- The scalar and scope compares (R291, R294). -/
def wordEq (a b : Word) : Bool := a == b
def wordLt (a b : Word) : Bool := a.slt b
def wordLtu (a b : Word) : Bool := a.ult b
def wordLe (a b : Word) : Bool := a.sle b

/-- Division of scalars (R290). -/
def sdivWord (a b : Word) : Word := if b = 0#64 then BitVec.allOnes 64 else BitVec.sdiv a b
def udivWord (a b : Word) : Word := if b = 0#64 then BitVec.allOnes 64 else a / b
def sremWord (a b : Word) : Word := if b = 0#64 then a else BitVec.srem a b
def uremWord (a b : Word) : Word := if b = 0#64 then a else a % b

/-- The shift amount B[5:0] (R289, R294). -/
def amount (b : Word) : Nat := b.toNat % 64

end Sys2Proof.Machine
end

