-- ==== Sys2Proof/Machine/Control.lean ====
section
/-! DEFINITION. Control words (R270 to R280): branches, `join` and divergence (R108 to R112), calls, returns, loops,
`elect`, traps and returns from them (R191, R195). -/

namespace Sys2Proof.Machine

/-- The level of an execution scope of 2 to 4 (R251). -/
def bLevel (sc : BitVec 3) : Option Level :=
  if sc = 2#3 then some .team else if sc = 3#3 then some .gang else if sc = 4#3 then some .grid else none

/-- Push an entry and go on; a full stack, or a fault of the spill, stops the pushing word (R111). -/
def pushThen (s : State) (gid : GroupId) (g : Group) (i : Instr) (e : Entry) (k : State → Eff) : Eff :=
  if stackMax ≤ g.depth then .fault ((badScope 4).atScope i)
  else
    match pushEntry s gid e with
    | .ok s => k s
    | .error b => spillStop s b (scopeCode i)

/-! ### Branches -/

/-- The merge of written marks. -/
def Marks.union (a b : Marks) : Marks := ⟨a.s ||| b.s, a.c ||| b.c, a.m || b.m⟩

/-- No register written. -/
def Marks.none : Marks := ⟨0, 0, false⟩

/-- Split an unsplit group (R108, R110, R112): slot A takes the lanes `t` at the target, slot B the others at the next
word, parked when the predicate is elected. -/
def Group.splitAt (g : Group) (t n : Mask) (target pc : PC) (park : Bool) : Group :=
  let f := { g.a.fork with marks := Marks.none }
  { g with
    a := { pc := target, mask := t, parked := false, atJoin := false, fork := f }
    b := some { pc := pc.next, mask := n, parked := park, atJoin := false, fork := f }
    outer := g.a.fork.marks }

/-- A lane-scope branch on a predicate (R108, R273). -/
def branchLane (s : State) (gid : GroupId) (sl : SlotId) (g : Group) (i : Instr) (sense : Bool) (p : Nat) (target : PC) : Eff :=
  let m := g.lanes sl
  let pc := (g.slot sl).pc
  let cond := if sense then ~~~ (g.readP p) else g.readP p
  let t := m &&& cond
  let n := m &&& ~~~ cond
  if t = 0#64 then .next s
  else if n = 0#64 then .goto s target
  else if !g.split then .goto (s.setGroup gid (g.splitAt t n target pc (g.elected.getLsbD p))) target
  else
    let x := g.slot sl
    pushThen s gid g i (.div pc.next n m sl false x.fork x.fork.marks) (fun s =>
      .goto (s.modGroup gid (fun g => g.modSlot sl (fun y => { y with mask := t, fork := { y.fork with marks := .none } })))
        target)

/-- A group-scope branch on a predicate: its lanes must agree (R105, R273). -/
def branchGroup (s : State) (sl : SlotId) (g : Group) (i : Instr) (sense : Bool) (p : Nat) (target : PC) : Eff :=
  let m := g.lanes sl
  let t := m &&& g.readP p
  if m = 0#64 then .next s
  else if t = m ∨ t = 0#64 then
    (if (t == m) != sense then .goto s target else .next s)
  else
    let ref := if countOf t * 2 = countOf m then (g.readP p).getLsbD (lowest m) else decide (countOf m < countOf t * 2)
    let d := if ref then m &&& ~~~ (g.readP p) else t
    .fault { (Cause.atScope ⟨0x03, 0⟩ i) with lane := BitVec.ofNat 6 (lowest d), dcount := countOf d, dmask := d }

/-- `br` (R272, R273). -/
def execBr (sc : BitVec 3) (e : Bool) (c : BitVec 4) (o : BitVec 16) (s : State) : Out :=
  let i := Instr.br sc e c o
  match bLevel sc with
  | none =>
    groupWord i s (fun gid sl g =>
      let target := relTarget (g.slot sl).pc o
      if c = 15#4 then .goto s target
      else if 8 ≤ c.toNat then (if g.readC sl (c.toNat - 8) != e then .goto s target else .next s)
      else if sc = 0#3 then branchLane s gid sl g i e c.toNat target
      else branchGroup s sl g i e c.toNat target)
  | some l =>
    if c.toNat < 8 then
      postedWord i l s (fun q x => s.decideBr q x i e c.toNat (relTarget x.own.pc o)) (fun _ sl g =>
        let m := g.lanes sl
        .post { pc := (g.slot sl).pc, active := countOf m, true_ := countOf (m &&& g.readP c.toNat),
                first := (g.readP c.toNat).getLsbD (lowest m), value := 0 })
    else
      ownerWord i l s (fun w =>
        let taken := if c = 15#4 then true else w.c.getLsbD (c.toNat - 8) != e
        { w with pc := if taken then relTarget w.pc o else w.pc.next })

/-! ### Reconvergence -/

/-- The fork of a popped divergence entry (R275): a register that the true half wrote takes the entry's value, and
every other keeps the slot's. -/
def mergeFork (outer : Marks) (saved cur : Fork) : Fork :=
  { s := Vector.ofFn (fun i => if saved.marks.s.getLsbD i.val then saved.s[i.val]?.getD 0 else cur.s[i.val]?.getD 0)
    c := (saved.c &&& saved.marks.c) ||| (cur.c &&& ~~~ saved.marks.c)
    mode := if saved.marks.m then saved.mode else cur.mode
    marks := (outer.union saved.marks).union cur.marks }

/-- The merge of the two slots (R110): written in A, A's value; written in B only, B's; written in neither, the value
from before the split, which A still has. -/
def mergeSlots (outer : Marks) (a b : Fork) : Fork := mergeFork outer { a with marks :=
  ⟨~~~ b.marks.s ||| a.marks.s, ~~~ b.marks.c ||| a.marks.c, !b.marks.m || a.marks.m⟩ } b

/-- The group with its slots merged into slot A (R109 item 4). -/
def Group.mergeAt (g : Group) (a b : Slot) : Group :=
  let f := mergeSlots g.outer a.fork b.fork
  { g with
    a := { a with
      mask := a.mask ||| b.mask, parked := false, atJoin := false
      fork := { f with marks := (g.outer.union a.fork.marks).union b.fork.marks } }
    b := none, outer := .none }

/-- `join` by a slot (R109). A slot that must wait has issued and stands at its `join` until the other slot comes to
one; a step onto it completes there, since the other slot cannot move during a step (R214, log 30). -/
def joinEff (s : State) (gid : GroupId) (sl : SlotId) (g : Group) : Eff :=
  let me := g.slot sl
  let apart : Eff :=
    match g.otherSlot sl with
    | none => .next s
    | some o =>
      if o.atJoin then
        if o.pc = me.pc then
          let g' := if sl = .a then g.mergeAt me o else g.mergeAt o me
          .done (((((s.perform (Loading.scalarOf gid)).joinLines gid).setGroup gid g').stepIn gid .a).retire gid .a me.pc.next)
        else .fault (badScope 6).record
      else
        let g := g.setSlot sl { me with atJoin := true }
        let other : SlotId := if sl = .a then .b else .a
        let g := g.setSlot other { o with parked := false }
        .done ((s.setGroup gid { g.issue sl me.pc with wait := none }).endStepOf gid sl)
  match g.hw with
  | .div pc fm bm slot frun saved outer :: rest =>
    if slot ≠ sl then apart
    else if !frun then
      let g := { g with hw := .div pc fm bm slot true me.fork outer :: rest }
      .goto (s.setGroup gid (g.setSlot sl { me with
        mask := fm, atJoin := false, fork := { saved with marks := .none } })) pc
    else
      match popEntry s gid with
      | .error b => spillStop s b
      | .ok s =>
        .next (s.modGroup gid (fun g => g.setSlot sl { me with
          mask := bm, atJoin := false, fork := mergeFork outer saved me.fork }))
  | _ => apart

/-- `join` (R274). -/
def execJoin (s : State) : Out := groupWord .join s (fun gid sl g => joinEff s gid sl g)

/-! ### Calls, returns and loops -/

/-- `call` (R276). -/
def execCall (sc : BitVec 3) (o : BitVec 16) (s : State) : Out :=
  let i := Instr.call sc o
  match bLevel sc with
  | none =>
    groupWord i s (fun gid sl g =>
      let pc := (g.slot sl).pc
      pushThen s gid g i (.call pc.next (g.lanes sl) sl) (fun s => .goto s (relTarget pc o)))
  | some l =>
    ownerWord i l s (fun w => { w with stack := w.pc.next :: w.stack, pc := relTarget w.pc o })

/-- `ret` (R277): return at a scope, or end the group when its stack is empty and it is not split. -/
def execRet (sc : BitVec 3) (s : State) : Out :=
  let i := Instr.ret sc
  match bLevel sc with
  | none =>
    groupWord i s (fun gid sl g =>
      match g.hw with
      | [] =>
        if g.split then .fault ((badScope 3).atScope i)
        else if gid.isDebug && ((s.dbg gid.gang).prog).isSome then .done (s.endProg gid.gang true)
        else .done (s.finishGroup gid)
      | .call pc _ slot :: _ =>
        if slot ≠ sl then .fault ((badScope 3).atScope i)
        else
          match popEntry s gid with
          | .error b => spillStop s b (scopeCode i)
          | .ok s => .goto s pc
      | .bad _ _ :: _ => .fault ((illegal 7).atScope i)
      | _ => .fault ((badScope 3).atScope i))
  | some l =>
    ownerWord i l s (fun w =>
      match w.stack with
      | pc :: rest => { w with stack := rest, pc := pc }
      | [] => w)

/-- `loop` (R278). -/
def execLoop (sc : BitVec 3) (c : BitVec 5) (o : BitVec 16) (s : State) : Out :=
  let i := Instr.loop sc c o
  match bLevel sc with
  | none =>
    groupWord i s (fun gid sl g =>
      let x := g.readS sl (c.zeroExtend 6) - 1
      let s := s.setGroup gid (g.writeSn sl c.toNat x)
      if x ≠ 0#64 then .goto s (relTarget (g.slot sl).pc o) else .next s)
  | some l =>
    ownerWord i l s (fun w =>
      let x := w.regs[c.toNat]?.getD 0 - 1
      { w with
        regs := w.regs.setIfInBounds c.toNat x
        pc := if x ≠ 0#64 then relTarget w.pc o else w.pc.next })

/-- `elect` (R279): only the lowest active lane is set, and the predicate is tagged as elected. -/
def execElect (d : BitVec 6) (s : State) : Out :=
  groupWord (.elect d) s (fun gid sl g =>
    let e := g.active sl
    let v := if e = 0#64 then 0#64 else laneBit (lowest e)
    let g := g.writeP d.toNat (g.lanes sl) v
    onGroup s gid { g with elected := setBit g.elected d.toNat true })

/-! ### Traps -/

/-- `trap` (R280): the trap of R191, or the kill of R199 in a handler. -/
def execTrap (c : BitVec 24) (s : State) : Out :=
  groupWord (.trap c) s (fun gid _ g =>
    if 1 ≤ g.tdepth ∧ c = 0xFF#24 then .done (s.killGrid gid.grid)
    else .trap (Cause.record ⟨0x10, c.extractLsb' 0 8⟩))

/-- Does dctx of a debug core name a context (R215)? -/
def State.names (s : State) (die ctx : Nat) : Bool := ctx != 0 && (s.dbg die).dctx.toNat == ctx

/-- The debug core that a stop of a group reaches: one that steps it while its dctx names the group's context (R390), else
the one of its die. -/
def State.debugDie (s : State) (gid : GroupId) (g : Group) : Nat :=
  match s.stepper gid with
  | some (d, _) => if s.names d g.ctx then d else dieOfCore g.core
  | none => dieOfCore g.core

/-- Is a debug core attached to a group's context (R215, R390)? -/
def State.attached (s : State) (gid : GroupId) (g : Group) : Bool := s.names (s.debugDie gid g) g.ctx

/-- `brk` (R280): the debug halt of R215 while dctx names the group's context, otherwise the trap of R191. A step that
meets it ends without a record of its own (R390). -/
def execBrk (s : State) : Out :=
  groupWord .brk s (fun gid sl g =>
    if s.attached gid g then .done ((s.debugHalt gid sl (s.debugDie gid g) .brk 2 0x11 0 0).endStep gid false)
    else .trap (Cause.record ⟨0x11, 0⟩))

/-- A team whose groups are all back at the depth of the broadcast goes on together; until then a group that has left
its handler waits with its siblings (R197). -/
def State.afterHandler (s : State) (gid : GroupId) (pc : PC) : State :=
  let s := s.resumeTeam gid.teamKey
  match s.team? gid.teamKey with
  | none => s
  | some t =>
    match t.marks.find? (·.1 = gid) with
    | some (_, m) =>
      s.modGroup gid (fun g => if g.tdepth ≤ m then { g with halted := true, haltPc := pc, skid := 0 } else g)
    | none => s

/-- `tret` (R195); in a predicate program its end, with group c0 as the result (R217). -/
def execTret (s : State) : Out :=
  groupWord .tret s (fun gid sl g =>
    if gid.isDebug && ((s.dbg gid.gang).prog).isSome then .done (s.endProg gid.gang (g.readC sl 0))
    else
      match g.hw with
      | .trap pc mask opc split omask slot status _ outer other :: _ =>
        if status &&& 0xFFFFFE00#32 ≠ 0#32 then .fault (illegal 7).record
        else
          match popEntry s gid with
          | .error b => spillStop s b
          | .ok s =>
            let back : SlotId := if split && slot == .b then .b else .a
            let s := (s.reslot gid (fun x => if x = sl then some back else none)).modGroup gid (fun g => g.leaveHandler sl pc mask opc split omask slot status outer other)
            .done (((s.stepIn gid back).retire gid back pc).afterHandler gid pc)
      | .bad _ _ :: _ => .fault (illegal 7).record
      | _ => .fault (illegal 6).record)

/-- `nop` (R280). -/
def execNop (s : State) : Out := groupWord .nop s (fun _ _ _ => .next s)

end Sys2Proof.Machine
end

