-- ==== Sys2Proof/Machine/System.lean ====
section
/-! DEFINITION. System words: the mode (R281), control registers (R299 to R301), `sprint` (R368), `spawn` (R282),
continuations (R284, R285) and `trace` (R369). -/

namespace Sys2Proof.Machine

/-! ### The mode -/

/-- The 24-bit value of R256. -/
def modeWord (e n : Bool) (p : BitVec 3) (t : BitVec 4) (r : BitVec 3) (sat : Bool) : BitVec 32 :=
  (0#8 ++ BitVec.ofBool e ++ BitVec.ofBool n ++ p ++ t ++ r ++ BitVec.ofBool sat ++ 0#11 :
    BitVec (8 + 1 + 1 + 3 + 4 + 3 + 1 + 11))

/-- `mode` (R281): for the issuing slot only. -/
def execMode (e n : Bool) (p : BitVec 3) (t : BitVec 4) (r : BitVec 3) (sat : Bool) (s : State) : Out :=
  groupWord (.mode e n p t r sat) s (fun gid sl g => onGroup s gid (g.writeMode sl (modeWord e n p t r sat)))

/-! ### Control registers (R300) -/

/-- Words 0 to 3 of the record of the top trap entry (R193, R300), 0 when TDEPTH is 0; a spilled entry is read from
private memory. -/
def frec (s : State) (gid : GroupId) (g : Group) (n : Nat) : Except (Bad × Nat) Word :=
  let inHw := g.hw.filterMap (fun | .trap _ _ _ _ _ _ _ r _ _ => some r | _ => none)
  match inHw with
  | r :: _ => .ok (r.words[n]?.getD 0)
  | [] =>
    match g.spilled.dropWhile (fun h => h.kind != 2) with
    | [] => .ok 0
    | _ :: below =>
      match checkParts s gid .read (spillParts s g below.length) with
      | .error b => .error b
      | .ok ps => .ok (wordAt (ps.flatMap (fun p => readPlace s p 64)) (5 + n))

/-- The state word of a stage ring (R116). -/
def ringWord (t : Team) (q : Nat) : Word :=
  let f : BitVec 8 := t.ringF[q]?.getD 0
  let p : BitVec 8 := t.ringP[q]?.getD 0
  zx f + (zx p <<< 8) + (if q < t.rings then BitVec.ofNat 64 (t.stages * 2 ^ 16) else 0)

/-- The context whose registers a group reads: its own, or dctx's for the debug core (log 20). -/
def State.ctxOf (s : State) (gid : GroupId) (g : Group) : Option (Nat × Context) :=
  let n := if gid.isDebug then (s.dbg gid.gang).dctx.toNat else g.ctx
  (s.ctx? n).map (n, ·)

/-- What a control register answers: a value, a fault of the register's own (R299), or a failed read of a spilled entry. -/
inductive Reg where
  | val (x : Word)
  | bad (c : Cause)
  | spill (b : Bad × Nat)

/-- Not assigned for the issuer (R299). -/
def unassigned : Reg := .bad (illegal 2)

/-- `getc` of a control register by its number (R300). -/
def readCr (s : State) (gid : GroupId) (sl : SlotId) (g : Group) (n : Nat) : Reg :=
  let core := s.core g.core
  let ofCtx (f : Context → Word) : Reg :=
    match s.ctxOf gid g with
    | some (_, c) => .val (f c)
    | none => unassigned
  let ofTeam (f : Team → Reg) : Reg :=
    match s.team? gid.teamKey with
    | some t => f t
    | none => unassigned
  let dbgReg (f : DebugCore → Word) : Reg := if gid.isDebug then .val (f (s.dbg gid.gang)) else unassigned
  if n = 0x000 then .val (zx (g.mode sl))
  else if n = 0x001 then .val (zx g.status)
  else if 0x002 ≤ n ∧ n ≤ 0x005 then
    match frec s gid g (n - 2) with
    | .ok w => .val w
    | .error b => .spill b
  else if n = 0x006 then .val (zx g.haltPc + (zx g.skid <<< 57))
  else if n = 0x007 then .val (zx g.mrp)
  else if n = 0x010 then .val (BitVec.ofNat 64 gid.grp)
  else if n = 0x011 then .val (BitVec.ofNat 64 gid.team)
  else if n = 0x012 then .val (BitVec.ofNat 64 (if gid.isDebug then 0 else gid.gang))
  else if n = 0x013 then .val (BitVec.ofNat 64 g.width)
  else if n = 0x014 then .val (BitVec.ofNat 64 g.vcore)
  else if n = 0x015 then .val (BitVec.ofNat 64 g.quad)
  else if n = 0x016 then .val (BitVec.ofNat 64 s.timer)
  else if n = 0x017 then .val (BitVec.ofInt 64 (s.region (regionOfCore g.core)).bal)
  else if 0x018 ≤ n ∧ n ≤ 0x01B then
    ofTeam (fun t => if t.rings ≤ n - 0x018 then .bad (illegal 8) else .val (ringWord t (n - 0x018)))
  else if n = 0x020 then ofTeam (fun t => .val t.tvec)
  else if n = 0x021 then ofCtx (·.pvbase)
  else if n = 0x022 then ofCtx (·.tmbase)
  else if n = 0x023 then ofCtx (·.mcbase)
  else if n = 0x024 then ofCtx (·.trbase)
  else if n = 0x025 then ofCtx (·.trctl)
  else if n = 0x026 then .val 0
  else if 0x100 ≤ n ∧ n ≤ 0x112 then .val ((core.tdc.find (n - 0x100)).getD 0)
  else if 0x120 ≤ n ∧ n ≤ 0x132 then .val ((core.tds.find (n - 0x120)).getD 0)
  else if n = 0x200 then dbgReg (·.dctx)
  else if n = 0x201 then dbgReg (·.dgrid)
  else if 0x210 ≤ n ∧ n ≤ 0x217 then dbgReg (fun d => d.bpt[n - 0x210]?.getD 0)
  else if 0x220 ≤ n ∧ n ≤ 0x23F then
    dbgReg (fun d => (d.wpt[(n - 0x220) / 2]?.getD 0).extractLsb' (64 * (n % 2)) 64)
  else unassigned

/-- Is a value of a control register refused: a reserved bit set, or a field outside its limits (R299, R256, R258,
R216, R220)? -/
def crBad (n : Nat) (x : Word) : Bool :=
  let f (lo len : Nat) : Nat := (x.extractLsb' lo len).toNat
  if n = 0x000 then f 0 11 != 0 || f 24 40 != 0 || decide (13 ≤ f 15 4) || decide (5 ≤ f 12 3)
  else if n = 0x001 then f 9 55 != 0
  else if n = 0x007 then f 5 59 != 0
  else if n = 0x020 then f 0 2 != 0 || f 57 7 != 0
  else if n = 0x025 then f 32 32 != 0 || (x.getLsbD 0 && !(decide (6 ≤ f 1 5) && decide (f 1 5 ≤ 20)))
  else if n = 0x026 then f 1 63 != 0
  else if n = 0x200 then f 20 44 != 0
  else if n = 0x201 then f 42 21 != 0
  else if 0x210 ≤ n ∧ n ≤ 0x217 then f 58 6 != 0
  else if 0x220 ≤ n ∧ n ≤ 0x23F then
    (if n % 2 = 0 then decide (13 ≤ f 57 4) || f 0 57 % 2 ^ f 57 4 != 0 else f 0 2 != 0)
  else false

/-- May the issuer write a control register (R300)? RO registers and numbers that are not assigned for it are refused. -/
def crWritable (dbg : Bool) (n : Nat) : Bool :=
  n == 0x000 || n == 0x001 || n == 0x007 || n == 0x025 || n == 0x026 ||
  (if dbg then n == 0x200 || n == 0x201 || decide (0x210 ≤ n ∧ n ≤ 0x217) || decide (0x220 ≤ n ∧ n ≤ 0x23F)
    else n == 0x020)

/-- Half of a watchpoint register written. -/
def setHalf (w : BitVec 128) (hi : Bool) (x : Word) : BitVec 128 :=
  if hi then (x ++ w.extractLsb' 0 64 : BitVec (64 + 64)) else (w.extractLsb' 64 64 ++ x : BitVec (64 + 64))

/-- `setc` of a writable control register with an accepted value (R299 to R301). -/
def writeCr (s : State) (gid : GroupId) (sl : SlotId) (g : Group) (n : Nat) (x : Word) : Option State :=
  let dbg (f : DebugCore → DebugCore) : Option State := some (s.modDbg gid.gang f)
  if n = 0x000 then some (s.setGroup gid (g.writeMode sl (x.setWidth 32)))
  else if n = 0x001 then some (s.setGroup gid { g with flags := x.setWidth 5 })
  else if n = 0x007 then some (s.setGroup gid { g with mrp := x.setWidth 5 })
  else if n = 0x020 then some (s.modTeam gid.teamKey (fun t => { t with tvec := x }))
  else if n = 0x025 then (s.ctxOf gid g).map (fun (k, c) => s.setCtx k { c with trctl := x })
  else if n = 0x026 then
    some (if x.getLsbD 0 then s.modCore g.core (fun c => { c with tds := c.tdc }) else s)
  else if n = 0x200 then dbg (fun d => { d with dctx := x })
  else if n = 0x201 then dbg (fun d => { d with dgrid := x })
  else if n ≤ 0x217 then dbg (fun d => { d with bpt := d.bpt.setIfInBounds (n - 0x210) x })
  else
    let k := (n - 0x220) / 2
    dbg (fun d => { d with wpt := d.wpt.setIfInBounds k (setHalf (d.wpt[k]?.getD 0) (n % 2 == 1) x) })

/-- `getc` (R299). -/
def execGetc (d : BitVec 6) (n : BitVec 18) (s : State) : Out :=
  groupWord (.getc d n) s (fun gid sl g =>
    match readCr s gid sl g n.toNat with
    | .val x => onGroup s gid (g.writeS sl d x)
    | .bad c => .fault c.record
    | .spill b => spillStop s b)

/-- `setc` (R299). -/
def execSetc (d : BitVec 6) (n : BitVec 18) (s : State) : Out :=
  groupWord (.setc d n) s (fun gid sl g =>
    let x := g.readS sl d
    if !crWritable gid.isDebug n.toNat || crBad n.toNat x then .fault (illegal 2).record
    else
      match writeCr s gid sl g n.toNat x with
      | some s => .next s
      | none => .fault (illegal 2).record)

/-- `sprint` (R368): the standing request of the group. -/
def execSprint (b : BitVec 2) (s : State) : Out :=
  groupWord (.sprint b) s (fun gid _ g => onGroup s gid { g with sprint := b })

/-! ### Spawn (R75, R282) -/

/-- Bytes of one v register at a width (R118). -/
def vregBytes (width : Nat) : Nat := if width ≤ 16 then 64 else if width ≤ 32 then 128 else 256

/-- Register space of a group in its quadrant. -/
def Group.space (g : Group) : Nat := (g.base + 16 * g.ext) * vregBytes g.width

/-- The groups of a quadrant of a core. -/
def State.inQuad (s : State) (core quad : Nat) : List (GroupId × Group) :=
  s.groups.filter (fun (k, g) => !k.isDebug && g.core == core && g.quad == quad)

/-- Register space free in a quadrant: 256 KiB less what its groups hold (R92). -/
def State.freeSpace (s : State) (core quad : Nat) : Nat :=
  262144 - ((s.inQuad core quad).map (fun e => e.2.space)).sum

/-- The lowest free group slot of a quadrant: slots are numbered 48 to a quadrant (log 21). -/
def State.freeGroupSlot (s : State) (core quad : Nat) : Option Nat :=
  ((List.range 48).map (48 * quad + ·)).find? (fun k => !(s.inQuad core quad).any (fun e => e.2.slotNo == k))

/-- A place for a base block of `base` registers: from a quadrant upward modulo 4 (R75). -/
def State.spawnPlace (s : State) (core quad base width : Nat) : Option (Nat × Nat) :=
  ((List.range 4).filterMap (fun k =>
    let q := (quad + k) % 4
    if base * vregBytes width ≤ s.freeSpace core q then (s.freeGroupSlot core q).map (fun n => (q, n)) else none)).head?

/-- The group that `spawn` makes (R282). -/
def Group.child (g : Group) (sl : SlotId) (quad slotNo order : Nat) (pc : PC) : Group :=
  { g with
    quad := quad, slotNo := slotNo, ext := 0, spawned := true, order := order
    a := { pc := pc, mask := widthMask g.width, parked := false, atJoin := false
           fork := { Fork.reset with s := Vector.ofFn (fun i => if i.val < 8 then (g.slot sl).fork.s[i] else 0) } }
    b := none, outer := ⟨0, 0, false⟩, lastB := false
    p := .replicate 8 0, elected := 0, h := .replicate 8 0, v := zeroBlock g.base, flags := 0
    dhalt := false, kind := .none, mrp := 0, haltPc := 0, stopPc := 0, skid := 0, halted := false, skidLeft := none, squad := 0
    hw := [], spilled := [], viewEnd := none, batDiv := 0, post := none, issued := 0, urgent := [], sprint := 0
    skip := none, fenced := false, wb := [], wait := none }

/-- The ordering of `spawn` (R282): a release at team scope over core events, which the new group's first instruction acquires. -/
def State.spawnLines (s : State) (gid : GroupId) (sl : SlotId) (new : GroupId) : State :=
  let e : Event := { s.eventOf gid sl syncClass with also := [.mark 0] }
  (((s.unmark [0]).happen e nowhere 0).release gid sl [0] 1 (e.trace ++ s.lines new .a syncClass)).acquire new .a 1 [0]

/-- `spawn` (R282). -/
def execSpawn (d : BitVec 6) (i : BitVec 18) (s : State) : Out :=
  groupWord (.spawn d i) s (fun gid sl g =>
    match s.team? gid.teamKey, s.spawnPlace g.core g.quad g.base g.width with
    | some t, some (quad, n) =>
      if 0xFFFFFFFF < t.nextId then onGroup s gid ((g.writeS sl d (BitVec.allOnes 64)).writeC sl 0 true)
      else
        let s := s.setTeam gid.teamKey { t with nextId := t.nextId + 1, live := t.live + 1 }
        let s := s.setGroup gid ((g.writeS sl d (BitVec.ofNat 64 t.nextId)).writeC sl 0 false)
        let new : GroupId := ⟨gid.grid, gid.gang, gid.team, t.nextId⟩
        .next ((s.setGroup new (g.child sl quad n s.timer (spawnTarget (g.slot sl).pc i))).spawnLines gid sl new)
    | _, _ => onGroup s gid ((g.writeS sl d (BitVec.allOnes 64)).writeC sl 0 true))

/-! ### Continuations (R76, R77, R284, R285) -/

/-- The die of a record (R76). -/
def taskHome (w : Word) : Nat := (w.extractLsb' 12 2 ^^^ w.extractLsb' 20 2 : BitVec 2).toNat

/-- The records a die holds (R76). -/
def taskMax : Nat := 4096

/-- Set c0 and c1 of the issuing slot's fork. -/
def Group.putC01 (g : Group) (sl : SlotId) (c0 c1 : Bool) : Group := (g.writeC sl 0 c0).writeC sl 1 c1

/-- The bytes of a record. -/
def taskBytes (w : Vector Word 4) : List Byte := w.toList.flatMap (fun x => leBytes 8 x.toNat)

/-- A record from its bytes. -/
def taskOf (bs : List Byte) : Vector Word 4 := Vector.ofFn (fun i => wordAt bs i.val)

/-- The address of a record of an overflow area (R77, R284). -/
def ovfAddr (c : Context) (k : Nat) : Nat := (c.ovf.toNat + 32 * k) % 2 ^ 57

/-- The address of the next free record of the overflow area (R77): the lowest that is free (DESIGN CHOICE, log 128). -/
def Context.ovfFree (c : Context) : Option Nat :=
  ((List.range (min c.ovfn (c.ovfUsed.length + 1))).find? (fun k => !c.ovfUsed.contains (ovfAddr c k))).map (ovfAddr c)

/-- The firmware moves one overflow record whose home is the die back into it, in spill order (R77). -/
def State.refill (s : State) (die : Nat) : State :=
  let readable (e : Nat × Context) : Option (Nat × Context × Nat × Vector Word 4) :=
    (e.2.ovfUsed.filterMap (fun k =>
      match translate s e.2 k needRead with
      | .ok pa =>
        let r := taskOf (physRead s pa 32)
        if taskHome (r[0]) = die then some (e.1, e.2, k, r) else none
      | .error _ => none)).head?
  if taskMax ≤ (s.die die).tasks.length then s
  else
    match (s.contexts.filterMap readable).head? with
    | none => s
    | some (n, c, k, r) =>
      (s.setCtx n { c with ovfUsed := c.ovfUsed.filter (· != k) }).modDie die (fun d => { d with tasks := d.tasks ++ [⟨n, r⟩] })

/-- Records move back while the die has room, at most `fuel` of them (R77). -/
def State.refills (die : Nat) : (fuel : Nat) → State → State
  | 0, s => s
  | n + 1, s => State.refills die n (s.refill die)

/-- The records in all overflow areas. -/
def State.spilledTasks (s : State) : Nat := (s.contexts.map (fun (_, c) => c.ovfUsed.length)).sum

/-- The firmware moves back every record for which a die has room (R77): the records in overflow are older than any that
is posted now (R76). -/
def State.refillAll (s : State) (die : Nat) : State := State.refills die s.spilledTasks s

/-- `cpost` (R284). -/
def execCpost (a : BitVec 6) (s : State) : Out :=
  groupWord (.cpost a) s (fun gid sl g =>
    let r : Vector Word 4 := Vector.ofFn (fun i => g.readS sl (a + BitVec.ofNat 6 i.val))
    let die := taskHome r[0]
    let s := (s.syncRelease gid sl [0] 4 [.post g.ctx]).refillAll die
    if (s.die die).tasks.length < taskMax then
      onGroup (s.modDie die (fun d => { d with tasks := d.tasks ++ [⟨g.ctx, r⟩] })) gid (g.putC01 sl false false)
    else
      let full : Eff := onGroup s gid (g.putC01 sl true false)
      match s.ctx? g.ctx with
      | none => full
      | some c =>
        match c.ovfFree with
        | none => full
        | some k =>
          match placeOf s gid .write false 32 k with
          | .error (.hold w) => .wait s w
          | .error b => .fault (b.record 0 0 (BitVec.ofNat 64 k))
          | .ok p =>
            let s := (s.put p (taskBytes r)).modCtx g.ctx (fun c => { c with ovfUsed := c.ovfUsed ++ [k] })
            onGroup s gid (g.putC01 sl false true))

/-- The die, of four searched from one upward, that holds a record of a context (R76). -/
def State.taskAt (s : State) (die ctx : Nat) : Option (Nat × Task) :=
  ((List.range 4).filterMap (fun k =>
    let d := (die + k) % 4
    ((s.die d).tasks.find? (fun t => t.ctx == ctx)).map (fun t => (d, t)))).head?

/-- Write the four registers of a record. -/
def Group.putTask (g : Group) (sl : SlotId) (d : BitVec 6) (r : Vector Word 4) : Group :=
  (List.range 4).foldl (fun g k => g.writeSn sl (d.toNat + k) (r[k]?.getD 0)) g

/-- `ctake` (R285). -/
def execCtake (d : BitVec 6) (s : State) : Out :=
  groupWord (.ctake d) s (fun gid sl g =>
    match s.taskAt (dieOfCore g.core) g.ctx with
    | some (die, t) =>
      let s := (s.syncAcquire gid sl [.post g.ctx] [0] 4 []).modDie die (fun x => { x with tasks := x.tasks.erase t })
      onGroup (s.refillAll die) gid ((g.putTask sl d t.words).writeC sl 0 false)
    | none =>
      let none_ : Eff := onGroup s gid (g.writeC sl 0 true)
      match s.ctx? g.ctx with
      | none => none_
      | some c =>
        match c.ovfUsed with
        | [] => none_
        | k :: rest =>
          match placeOf s gid .read false 32 k with
          | .error (.hold w) => .wait s w
          | .error b => .fault (b.record 0 0 (BitVec.ofNat 64 k))
          | .ok p =>
            let r := taskOf (readPlace s p 32)
            onGroup ((s.syncAcquire gid sl [.post g.ctx] [0] 4 []).setCtx g.ctx { c with ovfUsed := rest }) gid ((g.putTask sl d r).writeC sl 0 false))

/-! ### Trace (R219, R369) -/

/-- The bytes of a record of R212. -/
def recBytes (r : StopRec) : List Byte := r.toList.flatMap (fun x => leBytes 8 x.toNat)

/-- Take an index of a context's trace buffer and write a record of a group at its slot, under a value of trctl (R219):
the addresses and sizes of the two accesses. While a stack is not ready, the record is held (R16); where a page cannot be
written, it is dropped (R369). -/
def State.traceRecord (s : State) (gid : GroupId) (sl : SlotId) (c : Context) (ctl : Word) (r : StopRec) : Except Wait (State × List (Nat × Nat)) :=
  let n := (ctl.extractLsb' 1 5).toNat
  let base := c.trbase.toNat
  match translate s c base needWrite with
  | .error (.hold w) => .error w
  | .error _ => .ok (s, [])
  | .ok pa =>
    let idx := leNat (physRead s pa 8)
    let at_ := base + 64 * (idx % 2 ^ n + 1)
    let t := (s.amoBegin gid sl none).amo gid sl (.phys pa) (leBytes 8 (idx + 1))
    match translate s c at_ needWrite with
    | .error (.hold w) => .error w
    | .error _ => .ok (t, [(base, 8)])
    | .ok pb => .ok (t.writeAs gid sl 0 [] (.phys pb) (recBytes r), [(base, 8), (at_, 64)])

/-- `trace` (R369): its two accesses can hit watchpoints (R216, R219). -/
def execTrace (a : BitVec 6) (s : State) : Out :=
  groupWord (.trace a) s (fun gid sl g =>
    let pc := (g.slot sl).pc
    match s.ctx? g.ctx with
    | some c =>
      if c.trctl.getLsbD 0 then
        match s.traceRecord gid sl c c.trctl (stopRecord s gid g sl 0 pc 0 0 (g.readS sl a)) with
        | .error w => .wait s w
        | .ok (t, accs) => accessesDone t gid sl pc true accs
      else .next s
    | none => .next s)

end Sys2Proof.Machine
end

