-- ==== Sys2Proof/Machine/Debug.lean ====
section
/-! DEFINITION. Waiting on a completion counter (R365, R366), the debug core's words (R370 to R375, R393), and the events
of debugging: breakpoints, predicate programs, samples and the host's side of the mailbox (R211, R215, R217, R220, R388,
R389). -/

namespace Sys2Proof.Machine

/-! ### Counters (R366) -/

/-- The checked read of a counter, an event of atomic class; `k` has the state after it, the address and the value. -/
def counterRead (s : State) (gid : GroupId) (sl : SlotId) (g : Group) (a : BitVec 6) (k : State → Word → Word → Eff) : Eff :=
  let addr := g.readS sl a
  withPlaces s atomicClass (checkLanes (checkAddr s gid .read false 8) (fun _ => addr) [0]) (fun ps =>
    let e : Event := { s.eventOf gid sl atomicClass with also := [.mark 0] }
    let (data, s) := (s.unmark [0]).readLanes e 8 none ps
    k s addr (BitVec.ofNat 64 (leNat (data[0]?.getD []))))

/-- A counter found at its target is an acquire over core, atomic and sync events (R172). -/
def State.reached (s : State) (gid : GroupId) (sl : SlotId) (sc : BitVec 3) : State :=
  s.acquire gid sl (s.scopeFor gid sc) [0, atomicClass, syncClass]

/-- `cwait` (R366): it waits until the counter reaches the target. -/
def execCwait (sc : BitVec 3) (a b : BitVec 6) (s : State) : Out :=
  groupWord (.cwait sc a b) s (fun gid sl g =>
    counterRead s gid sl g a (fun s addr v =>
      if (g.readS sl b).toNat ≤ v.toNat then accessDone (s.reached gid sl sc) gid sl (g.slot sl).pc false 8 [(0, addr.toNat)]
      else .wait s .counter))

/-- `ctest` (R366): c0 says whether the counter has reached the target. -/
def execCtest (sc : BitVec 3) (a b : BitVec 6) (s : State) : Out :=
  groupWord (.ctest sc a b) s (fun gid sl g =>
    counterRead s gid sl g a (fun s addr v =>
      let hit := decide ((g.readS sl b).toNat ≤ v.toNat)
      let s := if hit then s.reached gid sl sc else s
      accessDone (s.setGroup gid (g.writeC sl 0 hit)) gid sl (g.slot sl).pc false 8 [(0, addr.toNat)]))

/-- `ivr` (R375): a fence and an invalidation, which this model of memory without caches has nothing to do for (log 23);
with dctx 0 it is refused. -/
def execIvr (w : BitVec 3) (a b : BitVec 6) (s : State) : Out :=
  groupWord (.ivr w a b) s (fun gid _ _ =>
    if gid.isDebug && (s.dbg gid.gang).dctx == 0#64 then .fault (illegal 2).record else .next s)

/-! ### Naming groups (R371, R393) -/

/-- The grid that dgrid selects among the running grids of a context (R393). -/
def State.targetGrid (s : State) (ctx : Nat) (dgrid : Word) (holds : Nat → Bool) : Option Nat :=
  let mine := (s.grids.filter (fun (_, g) => g.ctx == ctx)).map (·.1)
  if dgrid.getLsbD 63 then
    mine.find? (fun k => ((s.grid? k).map (fun g => g.queue == (dgrid.extractLsb' 0 10).toNat && g.idx == dgrid.extractLsb' 10 32)).getD
      false)
  else
    (mine.filter holds).foldl (fun a k => match a with
      | none => some k
      | some x => some (min x k)) none

/-- What a target word names. -/
inductive Target where
  | bad
  | none
  | groups (l : List GroupId)
  deriving DecidableEq, Repr

/-- The groups that a target word names for a debug core (R371, R393). -/
def State.target (s : State) (die : Nat) (w : Word) : Target :=
  let gang := (w.extractLsb' 0 24).toNat
  let team := (w.extractLsb' 24 3).toNat
  let grp := (w.extractLsb' 27 32).toNat
  let all := w.getLsbD 59
  let d := s.dbg die
  let named (grid : Nat) : List GroupId :=
    (s.groups.filter (fun (k, _) => k.grid == grid && k.gang == gang && k.team == team && (all || k.grp == grp))).map (·.1)
  if w.extractLsb' 60 4 ≠ 0#4 ∨ (all ∧ grp ≠ 0) then .bad
  else if d.dctx = 0#64 ∨ (s.ctx? d.dctx.toNat).isNone then .none
  else
    match s.targetGrid d.dctx.toNat d.dgrid (fun k => !(named k).isEmpty) with
    | none => .none
    | some k => if (named k).isEmpty then .none else .groups (named k)

/-- Is the group in a frozen tile, or is its context not resident (status 6 of R372)? -/
def State.away (s : State) (gid : GroupId) : Bool :=
  match s.group? gid with
  | some g => (s.core g.core).frozen.isSome || ((s.ctx? g.ctx).map (fun c => c.stage == .out)).getD false
  | none => false

/-- Is a group halted by the debugger? -/
def State.isHalted (s : State) (gid : GroupId) : Bool := ((s.group? gid).map (·.dhalt)).getD false

/-- A request of the debug core wakes the regions of the tiles it names (R83). -/
def State.callTiles (s : State) (cores : List Nat) : State := cores.foldl (fun s c => s.wakeRegion (regionOfCore c)) s

/-- The cores of groups. -/
def State.coresOf (s : State) (l : List GroupId) : List Nat := (l.filterMap (fun k => (s.group? k).map (·.core))).eraseDups

/-- Write a status and c0 (R372). -/
def status (s : State) (gid : GroupId) (sl : SlotId) (d : BitVec 6) (x : Nat) : Eff :=
  .next (s.modGroup gid (fun g => (g.writeS sl d (BitVec.ofNat 64 x)).writeC sl 0 (x != 0)))

/-- The debugger halts one group (R213), or marks it in a frozen tile, whose record follows the restore (R372). -/
def State.haltGroup (s : State) (die : Nat) (gid : GroupId) : State :=
  match s.group? gid with
  | none => s
  | some g =>
    if g.dhalt then s
    else if s.away gid then s.setGroup gid { g with dhalt := true, kind := .pending die }
    else s.debugHalt gid (if g.lastB && g.split then .b else .a) die .halt 4 0x22 0 0

/-- `dhalt` (R372). -/
def execDhalt (d a : BitVec 6) (s : State) : Out :=
  groupWord (.dhalt d a) s (fun gid sl g =>
    match s.target gid.gang (g.readS sl a) with
    | .bad => status s gid sl d 5
    | .none => status s gid sl d 1
    | .groups l =>
      if l.all s.isHalted then status s gid sl d 2
      else
        status (l.foldl (fun s k => s.haltGroup gid.gang k) (s.callTiles (s.coresOf l))) gid sl d (if l.any s.away then 6 else 0))

/-- DHALT goes, and after a breakpoint stop the skip bit is set for the PC of the stop (R215, R372). -/
def Group.released (g : Group) : Group := { g with dhalt := false, skip := if g.kind = .breakpoint then some g.stopPc else g.skip }

/-- `dres` of one group (R372). -/
def Group.resume (g : Group) : Group := { g.released with kind := .none }

/-- `dres` (R372). -/
def execDres (d a : BitVec 6) (s : State) : Out :=
  groupWord (.dres d a) s (fun gid sl g =>
    match s.target gid.gang (g.readS sl a) with
    | .bad => status s gid sl d 5
    | .none => status s gid sl d 1
    | .groups l =>
      if l.any s.away then status s gid sl d 6
      else
        let s' := l.foldl (fun s k => s.modGroup k (fun x => if x.dhalt then x.resume else x)) (s.callTiles (s.coresOf l))
        status s' gid sl d (if l.all s.isHalted then 0 else 3))

/-- May a slot be stepped: present, not parked and not waiting at a `join` (R214)? -/
def Group.mayStep (g : Group) (sl : SlotId) : Bool :=
  match sl with
  | .a => !g.a.parked && !g.a.atJoin
  | .b => (g.b.map (fun b => !b.parked && !b.atJoin)).getD false

/-- The slots, the one that has issued less recently first (R109). -/
def Group.slotOrder (g : Group) : List SlotId := if g.lastB then [.a, .b] else [.b, .a]

/-- The slot that R109 lets issue first; one that waits for the answer to its word comes last. -/
def Group.pick (g : Group) : Option SlotId :=
  (g.slotOrder.find? (fun sl => g.mayStep sl && (g.slot sl).hold.isNone)).or (g.slotOrder.find? g.mayStep)

/-- The slot that a selector names (R372). -/
def Group.selected (g : Group) (n : Nat) : Option SlotId :=
  if n = 2 then g.pick
  else
    let sl : SlotId := if n = 0 then .a else .b
    if g.mayStep sl then some sl else none

/-- `dstep` (R214, R372): it releases the group for one instruction and waits until that step has completed. -/
def execDstep (d a b : BitVec 6) (s : State) : Out :=
  groupWord (.dstep d a b) s (fun gid sl g =>
    if (s.dbg gid.gang).step.isSome then .wait s .debug
    else if g.wait = some .debug then status s gid sl d 0
    else
      match s.target gid.gang (g.readS sl a) with
      | .bad => status s gid sl d 5
      | .none => status s gid sl d 1
      | .groups l =>
        let sel := (g.readS sl b).toNat
        if (g.readS sl a).getLsbD 59 || decide (3 ≤ sel) then status s gid sl d 5
        else
          match l with
          | [] => status s gid sl d 1
          | k :: _ =>
            if s.away k then status s gid sl d 6
            else
              match s.group? k with
              | none => status s gid sl d 1
              | some x =>
                if !x.dhalt then status s gid sl d 3
                else
                  match x.selected sel with
                  | none => status s gid sl d 4
                  | some t =>
                    let s := (s.callTiles [x.core]).setGroup k x.released
                    .wait (s.modDbg gid.gang (fun y => { y with step := some (k, t) })) .debug)

/-! ### Breakpoint and watchpoint sets (R373) -/

/-- The cores of a die that hold a tile of a context, with one virtual number or all. -/
def State.tilesOf (s : State) (die ctx : Nat) (vcore : Option Nat) : List Nat :=
  (((s.tileNumbers ctx).filter (fun (k, v) => dieOfCore k == die && vcore.all (· == v))).map (·.1)).eraseDups

/-- A copy of a set to tiles: `core` writes a core and `keep` the set for later tiles. -/
def setTiles (s : State) (gid : GroupId) (sl : SlotId) (g : Group) (d a : BitVec 6) (core : Core → Core)
    (keep : Context → Context) : Eff :=
  let w := g.readS sl a
  let ctx := (s.dbg gid.gang).dctx.toNat
  let v := (w.extractLsb' 0 10).toNat
  let every := decide (v = 0x3FF)
  let l := if ctx = 0 then [] else s.tilesOf gid.gang ctx (if every then none else some v)
  if 1024 ≤ w.toNat ∨ (!every && l.isEmpty) then status s gid sl d 1
  else
    let s := if every then s.modCtx ctx keep else s
    status (l.foldl (fun s k => s.modCore k core) (s.callTiles l)) gid sl d 0

/-- `dbpt` (R373). -/
def execDbpt (d a : BitVec 6) (s : State) : Out :=
  groupWord (.dbpt d a) s (fun gid sl g =>
    let x := (s.dbg gid.gang).bpt
    setTiles s gid sl g d a (fun c => { c with bpt := x }) (fun c => { c with bptSet := c.bptSet.put gid.gang x }))

/-- `dwpt` (R373). -/
def execDwpt (d a : BitVec 6) (s : State) : Out :=
  groupWord (.dwpt d a) s (fun gid sl g =>
    let x := (s.dbg gid.gang).wpt
    setTiles s gid sl g d a (fun c => { c with wpt := x }) (fun c => { c with wptSet := c.wptSet.put gid.gang x }))

/-! ### The mailbox (R211, R374) -/

/-- DMBCTL (R211). -/
def Mailbox.ctl (m : Mailbox) : BitVec 32 :=
  BitVec.ofNat 32 (m.inv.toNat + m.outv.toNat * 2 + m.ien.toNat * 4 + m.vec.toNat * 8 + m.derr.toNat * 2 ^ 14)

/-- An 8-byte word of the mailbox (R374). -/
def Mailbox.word (m : Mailbox) (n : Nat) : Word :=
  if n < 8 then m.inw[n]?.getD 0 else if n < 16 then m.outw[n - 8]?.getD 0 else zx m.ctl

/-- `mbrd` (R374). -/
def execMbrd (d a : BitVec 6) (s : State) : Out :=
  groupWord (.mbrd d a) s (fun gid sl g =>
    let n := (g.readS sl a).toNat
    if 16 < n then .fault (illegal 2).record else onGroup s gid (g.writeS sl d ((s.mailbox gid.gang).word n)))

/-- `mbwr` (R374): an index out of range is refused before the wait for OUTV. -/
def execMbwr (a b : BitVec 6) (s : State) : Out :=
  groupWord (.mbwr a b) s (fun gid sl g =>
    let n := (g.readS sl a).toNat
    if 7 < n then .fault (illegal 2).record
    else if (s.mailbox gid.gang).outv then .wait s .debug
    else .next (s.modMailbox gid.gang (fun m => { m with outw := m.outw.setIfInBounds n (g.readS sl b) })))

/-- `mbpost` (R374): OUTV is set, and VEC of the physical function is raised when IEN is 1. -/
def execMbpost (s : State) : Out :=
  groupWord .mbpost s (fun gid _ _ =>
    let m := s.mailbox gid.gang
    if m.outv then .wait s .debug
    else
      let s := s.setMailbox gid.gang { m with outv := true }
      .next (if m.ien then { s with irqs := s.irqs ++ [⟨0, m.vec⟩] } else s))

/-- A place frees in the inbox: the oldest waiting record enters (R374). -/
def DebugCore.taken (d : DebugCore) : DebugCore :=
  let rest := d.inbox.drop 1
  match d.overflow with
  | r :: rs => if stopsIn rest < 32 then { d with inbox := rest ++ [.stop r], overflow := rs } else { d with inbox := rest }
  | [] => { d with inbox := rest }

/-- `mbtake` (R374): four 16-byte parts are checked before the oldest item is taken. -/
def execMbtake (d a : BitVec 6) (s : State) : Out :=
  groupWord (.mbtake d a) s (fun gid sl g =>
    let addr := g.readS sl a
    let put (bs : List Byte) (k : State → State) (x : Nat) : Eff :=
      withPlaces s 0 (checkLanes (checkAddr s gid .write false 16) (fun l => addr + BitVec.ofNat 64 (16 * l)) [0, 1, 2, 3])
        (fun ps =>
          let s := ps.foldl (fun s (l, p) => s.put p ((bs.drop (16 * l)).take 16)) s
          .next ((k s).modGroup gid (fun g => (g.writeS sl d (BitVec.ofNat 64 x)).writeC sl 0 false)))
    match (s.dbg gid.gang).inbox with
    | [] => .next (s.modGroup gid (fun g => (g.writeS sl d 0).writeC sl 0 true))
    | .hostIn :: _ =>
      put ((s.mailbox gid.gang).inw.toList.flatMap (fun w => leBytes 8 w.toNat))
        (fun s => (s.modDbg gid.gang DebugCore.taken).modMailbox gid.gang (fun m => { m with inv := false })) 1
    | .stop r :: _ => put (recBytes r) (fun s => s.modDbg gid.gang DebugCore.taken) 2)

/-! ### Events -/

/-- Does the next issue of a slot meet an enabled breakpoint register, at a PC other than the one it skips (R215)? -/
def State.bptHit (s : State) (g : Group) (sl : SlotId) : Bool :=
  let pc := (g.slot sl).pc
  g.skip != some pc && (s.core g.core).bpt.toList.any (fun b => b.getLsbD 57 && (b.setWidth 57 : PC) == pc)

/-- BREAKPOINT_HIT (R215): a group whose next instruction's PC matches an enabled entry halts before it. -/
def execBreakpointHit (gid : GroupId) (sl : SlotId) (s : State) : Out :=
  match s.group? gid with
  | none => .next s
  | some g =>
    if gid.isDebug || !s.runnable g || !g.mayStep sl || (g.slot sl).hold.isSome || !s.bptHit g sl then .next s
    else .next ((s.debugHalt gid sl (s.debugDie gid g) .breakpoint 2 0x22 0 0).endStep gid false)

/-- The 8 bytes that hold an address, as the hitting group reads them (R217). -/
def hitValue (s : State) (h : Hit) : Option Word :=
  let a := h.addr.toNat / 8 * 8
  match placeOf s h.group .read false 8 a with
  | .ok p => some (BitVec.ofNat 64 (leNat (readPlace s p 8)))
  | .error _ => none

/-- The debug core with the registers of a predicate program (R217, R388). -/
def progGroup (s : State) (h : Hit) (g : Group) (pc : PC) (x : Group) : Group :=
  let v := hitValue s h
  let x := { x with a := { x.a with pc := pc, atJoin := false, hold := none, sent := false }, wait := none }
  let x := (((x.writeSn .a 0 h.addr).writeSn .a 1 (v.getD 0)).writeSn .a 2 (BitVec.ofNat 64 h.wpn)).writeSn .a 3
    (BitVec.ofNat 64 (whereWord g 0x12))
  x.writeC .a 3 v.isNone

/-- Can a hit be served now: its group is not in a frozen tile? -/
def State.hitReady (s : State) (h : Hit) : Bool :=
  ((s.group? h.group).map (fun g => !(s.core g.core).frozen.isSome)).getD true

/-- PREDICATE_RUN (R217, R218, R388): the debug core serves its oldest hit; PROG 0 always halts the group. -/
def execPredicateRun (s : State) : Out :=
  let die := s.sel % 4
  let d := s.dbg die
  match d.hits.find? s.hitReady with
  | none => .next s
  | some h =>
    if d.prog.isSome || (s.mailbox die).derr then .next s
    else
      let rest := d.hits.erase h
      match s.group? h.group with
      | none => .next (s.setDbg die { d with hits := rest })
      | some g =>
        let present := s.group? (debugId die)
        let x := present.getD (d.rest.getD (debugGroup die 0))
        let save : ProgSave :=
          { idle := present.isNone, slot := x.a, flags := x.flags, dhalt := x.dhalt, wait := x.wait, step := d.step, hit := h
            left := 16 }
        let s := s.setDbg die { d with hits := rest, prog := some save, step := none }
        if h.prog = 0#64 then .next (s.endProg die true)
        else .next (s.setGroup (debugId die) (progGroup s h g (toPC h.prog) x))

/-- TRACE_SAMPLE (R220): the sample that a quadrant took of the word a group issued in the last slot of a period is
written, though the group may have ended since, and can hit watchpoints as `trace` can (log 113). It waits while a stack is not ready (R16). -/
def execTraceSample (core : Fin 384) (quad : Fin 4) (last : Option (GroupId × SlotId)) (s : State) : Out :=
  let k := core.val
  match (s.core k).sampled.find? (fun x => x.quad == quad.val && some (x.group, x.slot) == last) with
  | none => .next s
  | some x =>
    let t := s.modCore k (fun c => { c with sampled := c.sampled.erase x })
    match s.ctx? x.ctx with
    | none => .next t
    | some c =>
      match t.traceRecord x.group x.slot c x.ctl x.record with
      | .error _ => .next s
      | .ok (t, accs) =>
        match s.group? x.group, firstHit (s.core k).wpt true accs with
        | some g, some (w, a) =>
          .next ((t.modGroup x.group (fun g => { g with wait := g.wait.or (some .watch) })).queueHit x.group x.slot g w a)
        | _, _ => .next t

/-- MAILBOX_IN_WRITE (R211): dropped while INV is 1. -/
def execMailboxInWrite (die : Fin 4) (w : Fin 8) (v : Word) (s : State) : Out :=
  .next (s.modMailbox die.val (fun m => if m.inv then m else { m with inw := m.inw.set w.val v }))

/-- MAILBOX_IN_POST (R211, R370, R374). -/
def execMailboxInPost (s : State) : Out := .next (s.postIn (s.sel % 4))

/-- MAILBOX_OUTV_CLEAR (R211). -/
def execMailboxOutvClear (s : State) : Out := .next (s.modMailbox (s.sel % 4) (fun m => { m with outv := false }))

end Sys2Proof.Machine
end

