-- ==== Sys2Proof/Machine/Sha.lean ====
section
/-! DEFINITION. The hash functions SHA-256 and SHA-512, which R17, R18, R48, R52 and R204 name, SHA-512 through the
signature scheme of R17, and the specification does not define (log 27). Both are one function of the word width: the
constants are computed from what they are, fractional parts of roots of primes, and a block is worked off by two
recurrences, each on its last four words. -/

namespace Sys2Proof.Machine

/-! ### Constants -/

/-- The primes below 410, which are the first 80. -/
def primes80 : List Nat := (List.range 410).filter (fun n => decide (1 < n) && (List.range n).all (fun d => d < 2 || n % d != 0))

/-- The integer root of degree `k`: the largest number below 2^`bits` whose power does not exceed `n`. -/
def rootBelow (k n : Nat) : (bits : Nat) → (found : Nat) → Nat
  | 0, r => r
  | b + 1, r => rootBelow k n b (if (r + 2 ^ b) ^ k ≤ n then r + 2 ^ b else r)

/-- The first `w` bits after the point of the root of degree `k` of a number below 512. -/
def rootFraction (k w p : Nat) : BitVec w := BitVec.ofNat w (rootBelow k (p * 2 ^ (k * w)) (w + 5) 0)

/-! ### The two widths -/

/-- What tells the widths apart: the rotations of the four mixing functions (the last amount of a schedule function is a
shift), and the number of rounds. -/
structure Sha2 (w : Nat) where
  mixA   : Nat × Nat × Nat
  mixE   : Nat × Nat × Nat
  early  : Nat × Nat × Nat
  recent : Nat × Nat × Nat
  consts : List (BitVec w)
  start  : List (BitVec w)

/-- SHA-256. -/
def sha2Short : Sha2 32 :=
  { mixA := (2, 13, 22), mixE := (6, 11, 25), early := (7, 18, 3), recent := (17, 19, 10)
    consts := (primes80.take 64).map (rootFraction 3 32), start := (primes80.take 8).map (rootFraction 2 32) }

/-- SHA-512. -/
def sha2Long : Sha2 64 :=
  { mixA := (28, 34, 39), mixE := (14, 18, 41), early := (1, 8, 7), recent := (19, 61, 6)
    consts := primes80.map (rootFraction 3 64), start := (primes80.take 8).map (rootFraction 2 64) }

/-- The exclusive OR of three rotations. -/
def turned {w : Nat} (n : Nat × Nat × Nat) (x : BitVec w) : BitVec w :=
  x.rotateRight n.1 ^^^ x.rotateRight n.2.1 ^^^ x.rotateRight n.2.2

/-- The exclusive OR of two rotations and a shift. -/
def turnedOff {w : Nat} (n : Nat × Nat × Nat) (x : BitVec w) : BitVec w :=
  x.rotateRight n.1 ^^^ x.rotateRight n.2.1 ^^^ (x >>> n.2.2)

/-! ### One block -/

/-- Word `k` of a list, zero past its end. -/
def wordOf {w : Nat} (l : List (BitVec w)) (k : Nat) : BitVec w := (l[k]?).getD 0

/-- Words added to a message schedule that is held newest first. -/
def Sha2.extend {w : Nat} (p : Sha2 w) : (n : Nat) → (newest : List (BitVec w)) → List (BitVec w)
  | 0, l => l
  | n + 1, l =>
    p.extend n ((wordOf l 15 + turnedOff p.early (wordOf l 14) + wordOf l 6 + turnedOff p.recent (wordOf l 1)) :: l)

/-- The two recurrences, each held newest first, after one more round with its constant and schedule word added up. -/
def Sha2.advance {w : Nat} (p : Sha2 w) (ae : List (BitVec w) × List (BitVec w)) (kw : BitVec w) :
    List (BitVec w) × List (BitVec w) :=
  let x := wordOf ae.1
  let y := wordOf ae.2
  let chosen := (y 0 &&& y 1) ||| (~~~ (y 0) &&& y 2)
  let most := (x 0 &&& (x 1 ||| x 2)) ||| (x 1 &&& x 2)
  let fed := kw + y 3 + chosen + turned p.mixE (y 0)
  ((most + fed + turned p.mixA (x 0)) :: ae.1.take 3, (fed + x 3) :: ae.2.take 3)

/-- A big-endian number. -/
def beNat (bs : List Byte) : Nat := bs.foldl (fun x b => 256 * x + b.toNat) 0

/-- The bytes of a number, most significant first. -/
def beBytes (n x : Nat) : List Byte := (leBytes n x).reverse

/-- The chaining value after a block of sixteen words. -/
def Sha2.absorb {w : Nat} (p : Sha2 w) (v : List (BitVec w)) (block : List Byte) : List (BitVec w) :=
  let words := (List.range 16).map (fun k => BitVec.ofNat w (beNat ((block.drop (k * w / 8)).take (w / 8))))
  let sched := (p.extend (p.consts.length - 16) words.reverse).reverse
  let ae := (List.zipWith (· + ·) p.consts sched).foldl p.advance (v.take 4, v.drop 4)
  List.zipWith (· + ·) v (ae.1 ++ ae.2)

/-- The blocks of a padded message in order. -/
def Sha2.absorbAll {w : Nat} (p : Sha2 w) : (blocks : Nat) → (v : List (BitVec w)) → List Byte → List (BitVec w)
  | 0, v, _ => v
  | n + 1, v, bs => p.absorbAll n (p.absorb v (bs.take (2 * w))) (bs.drop (2 * w))

/-- The hash of a byte string: the message, the end mark, zeros up to a whole block, and the length in bits. -/
def Sha2.hash {w : Nat} (p : Sha2 w) (bs : List Byte) : List Byte :=
  let used := bs.length + 1 + w / 4
  let msg := bs ++ 0x80 :: (List.replicate (ceilDiv used (2 * w) * (2 * w) - used) 0 ++ beBytes (w / 4) (8 * bs.length))
  (p.absorbAll (msg.length / (2 * w)) p.start msg).flatMap (fun x => beBytes (w / 8) x.toNat)

/-- SHA-256: 32 bytes. -/
def sha256 (bs : List Byte) : List Byte := sha2Short.hash bs

/-- SHA-512: 64 bytes. -/
def sha512 (bs : List Byte) : List Byte := sha2Long.hash bs

end Sys2Proof.Machine
end

