-- ==== Sys2Proof/Machine/Slh.lean ====
section
/-! DEFINITION. SLH-DSA-SHA2-192s, which R17 and R18 name under FIPS 205 and the specification does not define: key
generation, signature and check, with the parameters n = 24, h = 63 in 7 layers of 9, k = 17 trees of height 14, and
w = 16 (log 27). Messages are signed as they are, with an empty context string. -/

namespace Sys2Proof.Machine

/-- A hash value or key part of 24 bytes. -/
abbrev Node := List Byte

/-- The keys that every hash of the scheme takes: SK.seed, which the check does not use, and PK.seed. -/
structure SlhSeeds where
  secret : List Byte
  shown  : List Byte
  deriving DecidableEq, Repr

/-- Where in the hypertree a hash stands: layer, tree of the layer, and key pair of the tree. -/
structure SlhSpot where
  layer : Nat
  tree  : Nat
  pair  : Nat
  deriving DecidableEq, Repr

/-- The compressed address of a hash: its spot, a type, and the three words that the type gives a meaning. -/
def SlhSpot.address (p : SlhSpot) (type a b c : Nat) : List Byte :=
  BitVec.ofNat 8 p.layer :: (beBytes 8 p.tree ++ BitVec.ofNat 8 type :: (beBytes 4 a ++ beBytes 4 b ++ beBytes 4 c))

/-- The hash of one part, and the keyed derivation of a secret: SHA-256. -/
def SlhSeeds.single (k : SlhSeeds) (address m : List Byte) : Node :=
  (sha256 (k.shown ++ List.replicate 40 0 ++ address ++ m)).take 24

/-- The hash of several parts: SHA-512. -/
def SlhSeeds.several (k : SlhSeeds) (address m : List Byte) : Node :=
  (sha512 (k.shown ++ List.replicate 104 0 ++ address ++ m)).take 24

/-! ### Trees -/

/-- The value of a node of a binary tree, by its height and index. -/
def nodeAt (leaf : Nat → Node) (pair : Nat → Nat → Node → Node) : (height : Nat) → (index : Nat) → Node
  | 0, i => leaf i
  | z + 1, i => pair (z + 1) i (nodeAt leaf pair z (2 * i) ++ nodeAt leaf pair z (2 * i + 1))

/-- The sibling of each node from a leaf up to below the root. -/
def siblings (leaf : Nat → Node) (pair : Nat → Nat → Node → Node) (height index : Nat) : List Node :=
  (List.range height).map (fun j => nodeAt leaf pair j ((index / 2 ^ j) ^^^ 1))

/-- The root that a leaf value and its siblings lead to. -/
def climb (pair : Nat → Nat → Node → Node) : (path : List Node) → (z index : Nat) → Node → Node
  | [], _, _, x => x
  | y :: ys, z, i, x => climb pair ys (z + 1) (i / 2) (pair (z + 1) (i / 2) (if i % 2 = 0 then x ++ y else y ++ x))

/-! ### One-time signatures -/

/-- Digits of `bits` bits of a big-endian byte string, most significant first. -/
def digits (bits count : Nat) (m : List Byte) : List Nat :=
  let total := 8 * m.length
  (List.range count).map (fun k => beNat m / 2 ^ (total - bits * (k + 1)) % 2 ^ bits)

/-- The 51 digits of a value: 48 of its own and 3 of their checksum. -/
def chainDigits (m : Node) : List Nat :=
  let own := digits 4 48 m
  own ++ digits 4 3 (beBytes 2 ((own.map (15 - ·)).sum * 16))

/-- A chain of `steps` hashes from a position on. -/
def SlhSeeds.chain (k : SlhSeeds) (p : SlhSpot) (c : Nat) : (steps : Nat) → (at_ : Nat) → Node → Node
  | 0, _, x => x
  | n + 1, j, x => k.chain p c n (j + 1) (k.single (p.address 0 p.pair c j) x)

/-- The start of a chain. -/
def SlhSeeds.chainStart (k : SlhSeeds) (p : SlhSpot) (c : Nat) : Node := k.single (p.address 5 p.pair c 0) k.secret

/-- The public value of a one-time key from the ends of its chains. -/
def SlhSeeds.chainKey (k : SlhSeeds) (p : SlhSpot) (ends : List Node) : Node := k.several (p.address 1 p.pair 0 0) ends.flatten

/-- The public value of a one-time key. -/
def SlhSeeds.leafKey (k : SlhSeeds) (p : SlhSpot) : Node :=
  k.chainKey p ((List.range 51).map (fun c => k.chain p c 15 0 (k.chainStart p c)))

/-- A one-time signature. -/
def SlhSeeds.signOnce (k : SlhSeeds) (p : SlhSpot) (m : Node) : List Node :=
  (chainDigits m).zipIdx.map (fun (n, c) => k.chain p c n 0 (k.chainStart p c))

/-- The public value that a one-time signature leads to. -/
def SlhSeeds.openOnce (k : SlhSeeds) (p : SlhSpot) (sig : List Node) (m : Node) : Node :=
  k.chainKey p (((chainDigits m).zip sig).zipIdx.map (fun ((n, x), c) => k.chain p c (15 - n) n x))

/-! ### The hypertree -/

/-- The combination of two nodes in a tree of a layer. -/
def SlhSeeds.layerPair (k : SlhSeeds) (p : SlhSpot) (z i : Nat) (x : Node) : Node := k.several (p.address 2 0 z i) x

/-- The leaves of a tree of a layer. -/
def SlhSeeds.layerLeaf (k : SlhSeeds) (p : SlhSpot) (i : Nat) : Node := k.leafKey { p with pair := i }

/-- The root of a tree of a layer. -/
def SlhSeeds.layerRoot (k : SlhSeeds) (p : SlhSpot) : Node := nodeAt (k.layerLeaf p) (k.layerPair p) 9 0

/-- PK.root (R17): the root of the top layer. -/
def SlhSeeds.root (k : SlhSeeds) : Node := k.layerRoot ⟨6, 0, 0⟩

/-- The spot of a value of 54 + 9 bits on a layer. -/
def spotOn (tree leaf layer : Nat) : SlhSpot :=
  let whole := tree * 2 ^ 9 + leaf
  ⟨layer, whole / 2 ^ (9 * (layer + 1)), whole / 2 ^ (9 * layer) % 2 ^ 9⟩

/-- A signature through the layers from one upward. -/
def SlhSeeds.signLayers (k : SlhSeeds) (tree leaf : Nat) : (left : Nat) → (layer : Nat) → Node → List Node
  | 0, _, _ => []
  | n + 1, l, m =>
    let p := spotOn tree leaf l
    k.signOnce p m ++ siblings (k.layerLeaf p) (k.layerPair p) 9 p.pair ++ k.signLayers tree leaf n (l + 1) (k.layerRoot p)

/-- The root that a signature through the layers leads to. -/
def SlhSeeds.openLayers (k : SlhSeeds) (tree leaf : Nat) : (left : Nat) → (layer : Nat) → List Node → Node → Node
  | 0, _, _, m => m
  | n + 1, l, sig, m =>
    let p := spotOn tree leaf l
    k.openLayers tree leaf n (l + 1) (sig.drop 60)
      (climb (k.layerPair p) ((sig.drop 51).take 9) 0 p.pair (k.openOnce p (sig.take 51) m))

/-! ### The few-time signature of the message -/

/-- A secret of the 17 trees, by its index over all of them. -/
def SlhSeeds.treeSecret (k : SlhSeeds) (p : SlhSpot) (i : Nat) : Node := k.single (p.address 6 p.pair 0 i) k.secret

/-- The leaf of a secret. -/
def SlhSeeds.treeLeaf (k : SlhSeeds) (p : SlhSpot) (i : Nat) (x : Node) : Node := k.single (p.address 3 p.pair 0 i) x

/-- The combination of two nodes of the 17 trees. -/
def SlhSeeds.treePair (k : SlhSeeds) (p : SlhSpot) (z i : Nat) (x : Node) : Node := k.several (p.address 3 p.pair z i) x

/-- The signature of a digest of 17 indices. -/
def SlhSeeds.signTrees (k : SlhSeeds) (p : SlhSpot) (picks : List Nat) : List Node :=
  picks.zipIdx.flatMap (fun (x, t) =>
    let i := t * 2 ^ 14 + x
    k.treeSecret p i :: siblings (fun j => k.treeLeaf p j (k.treeSecret p j)) (k.treePair p) 14 i)

/-- The value that a signature of 17 indices leads to. -/
def SlhSeeds.openTrees (k : SlhSeeds) (p : SlhSpot) (picks : List Nat) (sig : List Node) : Node :=
  k.several (p.address 4 p.pair 0 0) (picks.zipIdx.flatMap (fun (x, t) =>
    let i := t * 2 ^ 14 + x
    let own := (sig.drop (15 * t)).take 15
    climb (k.treePair p) (own.drop 1) 0 i (k.treeLeaf p i (own.headD []))))

/-! ### Messages -/

/-- The message as it is hashed: pure, with an empty context string. -/
def framed (m : List Byte) : List Byte := 0 :: 0 :: m

/-- HMAC-SHA-512 under a key of 24 bytes. -/
def keyedHash (key m : List Byte) : List Byte :=
  let block (x : Byte) : List Byte := (key ++ List.replicate 104 0).map (· ^^^ x)
  sha512 (block 0x5C ++ sha512 (block 0x36 ++ m))

/-- What a message and a randomizer choose: the 17 indices, the tree and the leaf. -/
def slhChoice (r shown root m : List Byte) : List Nat × Nat × Nat :=
  let inner := sha512 (r ++ shown ++ root ++ framed m)
  let d := (sha512 (r ++ shown ++ inner ++ beBytes 4 0)).take 39
  (digits 14 17 (d.take 30), beNat ((d.drop 30).take 7) % 2 ^ 54, beNat (d.drop 37) % 2 ^ 9)

/-- The 24-byte parts of a signature. -/
def nodesOf : (n : Nat) → List Byte → List Node
  | 0, _ => []
  | n + 1, bs => bs.take 24 :: nodesOf n (bs.drop 24)

/-- The bytes of a signature (R18). -/
def slhBytes : Nat := 16224

/-- The signature of a message under the 72 bytes of seeds of R17; `extra` is the additional randomness. -/
def slhSign (seeds extra m : List Byte) : List Byte :=
  let k : SlhSeeds := ⟨seeds.take 24, (seeds.drop 48).take 24⟩
  let r := (keyedHash ((seeds.drop 24).take 24) (extra ++ framed m)).take 24
  let (picks, tree, leaf) := slhChoice r k.shown k.root m
  let p : SlhSpot := ⟨0, tree, leaf⟩
  let trees := k.signTrees p picks
  (r :: trees ++ k.signLayers tree leaf 7 0 (k.openTrees p picks trees)).flatten

/-- Does a signature of a message hold under a public key of 48 bytes? One of another length does not. -/
def slhHolds (key m sig : List Byte) : Bool :=
  let k : SlhSeeds := ⟨[], key.take 24⟩
  let root := key.drop 24
  let parts := nodesOf 676 sig
  let (picks, tree, leaf) := slhChoice (parts.headD []) k.shown root m
  sig.length == slhBytes &&
    k.openLayers tree leaf 7 0 (parts.drop 256) (k.openTrees ⟨0, tree, leaf⟩ picks ((parts.drop 1).take 255)) == root

end Sys2Proof.Machine
end

