-- ==== Sys2Proof/Machine/Device.lean ====
section
/-! DEFINITION. The package and its links (01_package_links): reset, self-test, readiness, identity, thermal actions, ports
and flits, requests of other devices, and host accesses to memory windows (R9 to R24, R27). -/

namespace Sys2Proof.Machine

/-! ### Reset, identity and attestation (R11, R17, R18) -/

/-- The three seeds of a die's identity key from its corrected response P (R17). -/
def identitySeeds (p : List Byte) : List Byte :=
  (sha256 (0 :: p) ++ sha256 (1 :: p) ++ sha256 (2 :: p)).take 72

/-- The 48-byte public key (R17): PK.seed, then PK.root. -/
def publicKey (seeds : List Byte) : List Byte :=
  (seeds.drop 48).take 24 ++ SlhSeeds.root ⟨seeds.take 24, (seeds.drop 48).take 24⟩

/-- Does a die hold an image that carries a Creostou signature of 16,224 bytes (R18)? -/
def State.signed (s : State) (die : Nat) : Bool :=
  (s.plat.fw.find die).any (fun fw => slhHolds Config.creostouKey fw ((s.plat.sig.find die).getD []))

/-- The boot ROM of a die (R17, R18): it corrects the PUF response with the helper data and derives the identity key,
measures the firmware, and refuses an image without a signature that holds. -/
def State.boot (s : State) (die : Nat) : State :=
  let seeds := identitySeeds (Config.pufCorrect die ((s.plat.puf.find die).getD []) ((s.plat.aid.find die).getD [])).toList
  let s := { s with ident := s.ident.put die (publicKey seeds, seeds) }
  let s := match s.plat.fw.find die with
    | some fw => { s with meas := s.meas.put die (sha256 fw) }
    | none => s
  if s.signed die then s else { s with devfail := setBit s.devfail (13 + die) true }

/-- RESET: every die starts anew (R11, R17, R18). What lies outside the package stays: other devices and the routes to
them, the helper data and firmware images, and of the linked-image cache on the NVMe device the entries whose measurements are those
of now (R52). -/
def execReset (s : State) : Out :=
  let r : State := { State.reset with
    steps := s.steps, free := s.free, plat := s.plat, linked := s.linked, far := s.far, routes := s.routes, sel := s.sel }
  let s := (List.range 4).foldl State.boot r
  .next { s with linked := s.linked.filter (fun l => l.meas == s.measures) }

/-- SELF_TEST_DONE (R11, R12): the unit map is written once after a reset. -/
def execSelfTestDone (die : Fin 4) (core : BitVec 96) (copy : BitVec 4) (port : BitVec 9) (slices : BitVec 32) (s : State) :
    Out :=
  if (s.umap die.val).done then .next s
  else .next { s with umaps := s.umaps.put die.val ⟨core, copy, port, true, slices⟩ }

/-- ATTESTATION_REPORT (R18): the measurements, the nonce and the unit maps, signed with the identity key. A die without a
firmware image has no measurement, and the report leaves its 32 bytes out (DESIGN CHOICE, log 8). -/
def execAttestationReport (die : Fin 4) (nonce : List Byte) (s : State) : Out :=
  match s.ident.find die.val with
  | none => .next s
  | some (_, seeds) =>
    if nonce.length ≠ 32 then .next s
    else
      let map (d : Nat) : List Byte :=
        let u := s.umap d
        leBytes 16 (u.core.toNat + u.copy.toNat * 2 ^ 96 + u.port.toNat * 2 ^ 100 + u.done.toNat * 2 ^ 109)
      let report := ((List.range 4).flatMap (fun d => (s.meas.find d).getD [])) ++ nonce ++ (List.range 4).flatMap map
      let extra := (List.range 24).map (fun k => Config.freeByte (s.free + k))
      .next { s with reports := s.reports ++ [(report, slhSign seeds extra report)], free := s.free + 24 }

/-! ### Readiness (R13 to R16, R21) -/

/-- The bit of a function in DEVRDY and DEVFAIL (R13, R14). -/
def devBit : DevFn → Nat
  | .host => 0
  | .die d => 1 + d.val
  | .hbm k => 5 + k.val
  | .ctl d => 13 + d.val
  | .cpy d => 17 + d.val
  | .lnk d => 21 + d.val
  | .stg => 25

/-- The enabled ports of a die. -/
def State.enabledPorts (s : State) (die : Nat) : List Nat :=
  ((List.range 9).filter (fun p => (s.umap die).port.getLsbD p)).map (9 * die + ·)

/-- May LNK rise (R13): every enabled port has trained or failed, one has trained, and the device number is set? -/
def State.linkUp (s : State) (die : Nat) : Bool :=
  let ps := s.enabledPorts die
  ps.all (fun p => (s.port p).up || (s.port p).fail) && ps.any (fun p => (s.port p).up) && s.devnum.isSome

/-- Have all enabled ports of a die failed, so that none trains or carries traffic any more (R14)? -/
def State.linkLost (s : State) (die : Nat) : Bool := (s.enabledPorts die).all (fun p => (s.port p).fail)

/-- FUNCTION_READY (R13 to R15, R18): LNK follows R13, and CTL rises only where the boot ROM has measured an image. HOST
is announced by its message. -/
def execFunctionReady (f : DevFn) (s : State) : Out :=
  let ok := match f with
    | .lnk d => s.linkUp d.val
    | .ctl d => (s.meas.find d.val).isSome
    | _ => true
  if s.devfail.getLsbD (devBit f) || !ok then .next s
  else
    .next { s with
      devrdy := setBit s.devrdy (devBit f) true
      hostMsgs := if f = .host && !s.ready 0 then s.hostMsgs ++ [.readiness] else s.hostMsgs }

/-- A function fails: its DEVFAIL bit is set and its DEVRDY bit cleared (R14). -/
def State.failed (s : State) (f : DevFn) : State :=
  { s with devfail := setBit s.devfail (devBit f) true, devrdy := setBit s.devrdy (devBit f) false }

/-- FUNCTION_FAIL (R14): LNK fails only when no enabled port of the die trains or every trained one has failed. -/
def execFunctionFail (f : DevFn) (s : State) : Out :=
  let ok := match f with
    | .lnk d => s.linkLost d.val
    | _ => true
  .next (if ok then s.failed f else s)

/-- DEVICE_NUMBER_SET (R21): Isacor, which runs once a CTL bit has risen, sets the device's own number. -/
def execDeviceNumberSet (n : BitVec 21) (s : State) : Out :=
  if (List.range 4).any (fun d => s.ready (13 + d)) then .next { s with devnum := some n } else .next s

/-! ### Thermal limits (R10) -/

/-- THERMAL_ACTION (R10): at 95 °C every region runs at 2.0 GHz and boost is refused. -/
def execThermalAction (t : ThermalLevel) (s : State) : Out :=
  match t with
  | .t95 => .next { s with t95 := true, regions := s.regions.mapVals (fun _ r => { r with bin := 0 }) }
  | .t102 => .next { s with t102 := true }
  | .t108 => .next { s with t108 := true }

/-- THERMAL_WITHDRAW (R10). -/
def execThermalWithdraw (t : ThermalLevel) (s : State) : Out :=
  match t with
  | .t95 => .next { s with t95 := false }
  | .t102 => .next { s with t102 := false }
  | .t108 => .next { s with t108 := false }

/-- THERMAL_TRIP (R10): all clocks stop, and the host link reports a fatal error. -/
def execThermalTrip (s : State) : Out := .next { s with tripped := true, hostMsgs := s.hostMsgs ++ [.fatal] }

/-! ### Ports (R22 to R24) -/

/-- The port that an event names. -/
def State.selPort (s : State) : Nat := s.sel % 36

/-- Is a port enabled in UMAP.PORT (R12)? -/
def State.portEnabled (s : State) (p : Nat) : Bool := (s.umap (p / 9)).port.getLsbD (p % 9)

/-- The port that a route of a port that carries no traffic moves to (R24): of the ports that do, the lowest of the same
die, else the lowest of all (log 98). -/
def State.detour (s : State) (p : Nat) : Option Nat :=
  let live (k : Nat) : Bool := (s.port k).up
  match ((List.range 9).map (9 * (p / 9) + ·)).find? live with
  | some k => some k
  | none => (List.range 36).find? live

/-- Routes whose port carries no traffic move to the remaining ports; with none left they stay where they are, and reach
nothing (R21, R24). -/
def State.reroute (s : State) : State :=
  { s with routes := s.routes.mapVals (fun _ p => if (s.port p).up then p else (s.detour p).getD p) }

/-- PORT_TRAINED (R24). -/
def execPortTrained (s : State) : Out :=
  let p := s.selPort
  if s.portEnabled p && !(s.port p).fail then .next (s.modPort p (fun x => { x with up := true })).reroute else .next s

/-- PORT_FAILURE (R24): FAIL stays until the next reset, and the routes move. When no enabled port of the die is left, LNK
fails (R14). -/
def execPortFailure (s : State) : Out :=
  let p := s.selPort
  if s.portEnabled p then
    let s := (s.modPort p (fun x => { x with up := false, fail := true })).reroute
    .next (if s.linkLost (p / 9) then s.failed (.lnk (Fin.ofNat 4 (p / 9))) else s)
  else .next s

/-- The fields of a flit (R22). -/
def Flit.of (header : BitVec 128) (payload : List Byte) : Flit :=
  { dest := header.extractLsb' 0 21, src := header.extractLsb' 21 21, typ := header.extractLsb' 42 6
    vc := header.extractLsb' 48 3, seq := header.extractLsb' 51 12, payload := payload }

/-- FLIT_RECEIVE (R22): a flit of 256 bytes, 224 of them payload. One whose CRC fails is replayed, and no software sees
it; of the others a port takes those whose destination is this device. -/
def execFlitReceive (p : Fin 36) (header : BitVec 128) (payload : List Byte) (crcOk : Bool) (s : State) : Out :=
  let f := Flit.of header payload
  if !(s.port p.val).up || payload.length != 224 then .next s
  else
    .next (s.modPort p.val (fun x =>
      if !crcOk then { x with replays := x.replays + 1 }
      else { x with replays := 0, rx := if f.dest.toNat = s.ownDev then x.rx ++ [f] else x.rx }))

/-- PORT_RETRAIN (R22): a replayed flit has failed 8 times in a row. -/
def execPortRetrain (s : State) : Out :=
  let p := s.selPort
  if (s.port p).replays < 8 then .next s else .next (s.modPort p (fun x => { x with replays := 0, up := false })).reroute

/-- LANE_NARROW (R23): after 10 µs below 25% utilisation from x4 to x2, and after a further 10 µs below 10% to x1. -/
def execLaneNarrow (s : State) : Out :=
  let p := s.selPort
  let x := s.port p
  let use := Config.portUse p s.timer
  if x.since + 10000 ≤ s.timer ∧ ((x.lanes = 4 ∧ use < 25) ∨ (x.lanes = 2 ∧ use < 10)) then
    .next (s.setPort p { x with lanes := x.lanes / 2, since := s.timer })
  else .next s

/-- LANE_WIDEN (R23): a port whose transmit queue holds more than 16 flits regains x4. -/
def execLaneWiden (s : State) : Out :=
  let p := s.selPort
  if 16 < Config.portQueue p s.timer then .next (s.modPort p (fun x => { x with lanes := 4, since := s.timer }))
  else .next s

/-- The code of an element type (R256). -/
def tyCode : Ty → Nat
  | .i32 => 0
  | .n32 => 1
  | .i16 => 2
  | .n16 => 3
  | .i8 => 4
  | .n8 => 5
  | .i64 => 6
  | .n64 => 7
  | .f32 => 8
  | .f16 => 9
  | .bf16 => 10
  | .f64 => 11
  | .acc48 => 12

/-- Bytes that a request reads or writes. -/
def RemoteOp.bytes : RemoteOp → Nat
  | .load n => n
  | .store bs | .copyWrite bs => bs.length
  | .atomic _ ty _ _ => atomSize (tyCode ty)

/-- A request of another device at a local address (R21). The reply goes back to it, with no bytes for a write and none
for a request that faults; a stack that is not ready holds the request (R16). -/
def State.serveRemote (s : State) (src : BitVec 21) (op : RemoteOp) (addr : BitVec 43) : State :=
  let a := addr.toNat
  let reply (s : State) (bs : List Byte) : State := { s with replies := s.replies ++ [(src, bs)] }
  match localRange s a (RemoteOp.bytes op) with
  | some (.hold _) => { s with heldReqs := s.heldReqs ++ [(src, op, addr)] }
  | some _ => reply s []
  | none =>
    match op with
    | .load n => reply s (memRead s.mem a n)
    | .store bs | .copyWrite bs => reply (s.put (.phys (s.localPa a)) bs) []
    | .atomic op ty x y =>
      let n := atomSize (tyCode ty)
      let old := leNat (memRead s.mem a n)
      let new := atomResult op (tyCode ty) n old (x.toNat % 2 ^ (8 * n)) (y.toNat % 2 ^ (8 * n))
      reply (s.put (.phys (s.localPa a)) (leBytes n new)) (leBytes n old)

/-- The oldest flit of a device goes from the port that holds it: the request that it carried is being served. -/
def State.takeFlit (s : State) (src : BitVec 21) : State :=
  match (List.range 36).find? (fun p => (s.port p).rx.any (fun f => f.src == src)) with
  | some p => s.modPort p (fun x => { x with rx := x.rx.eraseP (fun f => f.src == src) })
  | none => s

/-- REMOTE_REQUEST (R21, R22): the request that flits of another device carry. -/
def execRemoteRequest (src : BitVec 21) (op : RemoteOp) (addr : BitVec 43) (s : State) : Out :=
  .next ((s.takeFlit src).serveRemote src op addr)

/-- STACK_HOLD_RELEASE (R16): the held accesses to a stack are made again; on a stack that has failed they fault with
detail 8 (log 119). -/
def execStackHoldRelease (s : State) : Out :=
  let k := s.sel % 8
  if s.devrdy.getLsbD (5 + k) || s.devfail.getLsbD (5 + k) then
    let s := { s with groups := s.groups.mapVals (fun _ g =>
      if g.wait = some (Wait.stack k) then { g with wait := none } else g) }
    let s := (s.groups.map (·.1)).foldl (fun s g => s.retakeStop (some k) g) s
    .next (s.heldReqs.foldl (fun s (src, op, a) => s.serveRemote src op a) { s with heldReqs := [] })
  else .next s

/-! ### Memory windows (R9, R16, R27) -/

/-- HOST_ACCESS (R27): `n` bytes at an offset of BAR 2, read, or written when bytes are given. -/
def execHostAccess (fn : Fin 64) (off : Nat) (n : Nat) (wr : Option (List Byte)) (s : State) : Out :=
  let answer (s : State) (r : HostReply) : Out := .next { s with hostReply := r }
  let gib := 2 ^ 30
  let f := (s.fwin.find (fn.val, off / (64 * gib))).getD 0
  let o := off % (64 * gib)
  let size := (f.extractLsb' 13 7).toNat
  let a := (f.extractLsb' 0 13).toNat * gib + o
  let len := (wr.map (·.length)).getD n
  if 8 * 64 * gib ≤ off ∨ size * gib < o + len ∨ hbmEnd < a + len ∨ hbmEnd ≤ a ∨ (wr.isSome ∧ !f.getLsbD 20) then
    answer s .unsupportedRequest
  else if (localBad s a).isSome || (localBad s (a + len - 1)).isSome then answer s .completerAbort
  else
    match wr with
    | none => answer s (.data (memRead s.mem a n))
    | some bs => answer (s.put (.phys (s.localPa a)) bs) .done

end Sys2Proof.Machine
end

