-- ==== Sys2Proof/Machine/Scope.lean ====
section
/-! DEFINITION. Scope-register words (R293 to R295) and scope reductions (R296 to R298). -/

namespace Sys2Proof.Machine

/-- The level of K.scope (R251). -/
def kLevel (sc : BitVec 2) : Option Level :=
  if sc = 1#2 then some .team else if sc = 2#2 then some .gang else if sc = 3#2 then some .grid else none

/-- Register `k` of an owner's file. -/
def Owner.reg (o : Owner) (k : Nat) : Word := o.regs[k]?.getD 0

/-- Y of R294: register b, or the immediate. -/
def Owner.kY (o : Owner) (f : Bool) (b : BitVec 13) : Word := if f then sx b else o.reg (b.toNat % 16)

/-- A K word: its owner executes it once; one without a scope is a group's word, which its coding check stops (R293). -/
def kWord (i : Instr) (sc : BitVec 2) (f : Owner → Owner) (s : State) : Out :=
  match kLevel sc with
  | some l => ownerWord i l s f
  | none => groupWord i s (fun _ _ _ => .next s)

/-- An owner writes a register of its file and goes on at the next word. -/
def Owner.put (o : Owner) (d : BitVec 4) (x : Word) : Owner :=
  { o with regs := o.regs.setIfInBounds d.toNat x, pc := o.pc.next }

/-- An owner writes a flag of its scope and goes on at the next word (R294). -/
def Owner.putFlag (o : Owner) (d : BitVec 4) (x : Bool) : Owner := { o with c := setBit o.c d.toNat x, pc := o.pc.next }

/-- `kadd` (R294): add. -/
def execKadd (sc : BitVec 2) (d a : BitVec 4) (f : Bool) (b : BitVec 13) (s : State) : Out :=
  kWord (.kadd sc d a f b) sc (fun o =>
    let x := o.reg a.toNat
    let y := o.kY f b
    o.put d (x + y)) s

/-- `ksub` (R294): subtract. -/
def execKsub (sc : BitVec 2) (d a : BitVec 4) (f : Bool) (b : BitVec 13) (s : State) : Out :=
  kWord (.ksub sc d a f b) sc (fun o =>
    let x := o.reg a.toNat
    let y := o.kY f b
    o.put d (x - y)) s

/-- `kmul` (R294): multiply, the low 64 bits. -/
def execKmul (sc : BitVec 2) (d a : BitVec 4) (f : Bool) (b : BitVec 13) (s : State) : Out :=
  kWord (.kmul sc d a f b) sc (fun o =>
    let x := o.reg a.toNat
    let y := o.kY f b
    o.put d (x * y)) s

/-- `kand` (R294): AND. -/
def execKand (sc : BitVec 2) (d a : BitVec 4) (f : Bool) (b : BitVec 13) (s : State) : Out :=
  kWord (.kand sc d a f b) sc (fun o =>
    let x := o.reg a.toNat
    let y := o.kY f b
    o.put d (x &&& y)) s

/-- `kor` (R294): OR. -/
def execKor (sc : BitVec 2) (d a : BitVec 4) (f : Bool) (b : BitVec 13) (s : State) : Out :=
  kWord (.kor sc d a f b) sc (fun o =>
    let x := o.reg a.toNat
    let y := o.kY f b
    o.put d (x ||| y)) s

/-- `kxor` (R294): exclusive OR. -/
def execKxor (sc : BitVec 2) (d a : BitVec 4) (f : Bool) (b : BitVec 13) (s : State) : Out :=
  kWord (.kxor sc d a f b) sc (fun o =>
    let x := o.reg a.toNat
    let y := o.kY f b
    o.put d (x ^^^ y)) s

/-- `kshl` (R294): shift left by Y[5:0]. -/
def execKshl (sc : BitVec 2) (d a : BitVec 4) (f : Bool) (b : BitVec 13) (s : State) : Out :=
  kWord (.kshl sc d a f b) sc (fun o =>
    let x := o.reg a.toNat
    let y := o.kY f b
    o.put d (x <<< amount y)) s

/-- `kshr` (R294): logical shift right by Y[5:0]. -/
def execKshr (sc : BitVec 2) (d a : BitVec 4) (f : Bool) (b : BitVec 13) (s : State) : Out :=
  kWord (.kshr sc d a f b) sc (fun o =>
    let x := o.reg a.toNat
    let y := o.kY f b
    o.put d (x >>> amount y)) s

/-- `kmov` (R294): D := Y. -/
def execKmov (sc : BitVec 2) (d : BitVec 4) (f : Bool) (b : BitVec 13) (s : State) : Out :=
  kWord (.kmov sc d f b) sc (fun o => o.put d (o.kY f b)) s

/-- `kseq` (R294): the scope's flag, equal. -/
def execKseq (sc : BitVec 2) (d a : BitVec 4) (f : Bool) (b : BitVec 13) (s : State) : Out :=
  kWord (.kseq sc d a f b) sc (fun o => o.putFlag d (wordEq (o.reg a.toNat) (o.kY f b))) s

/-- `kslt` (R294): the scope's flag, signed less than. -/
def execKslt (sc : BitVec 2) (d a : BitVec 4) (f : Bool) (b : BitVec 13) (s : State) : Out :=
  kWord (.kslt sc d a f b) sc (fun o => o.putFlag d (wordLt (o.reg a.toNat) (o.kY f b))) s

/-- `ksltu` (R294): the scope's flag, unsigned less than. -/
def execKsltu (sc : BitVec 2) (d a : BitVec 4) (f : Bool) (b : BitVec 13) (s : State) : Out :=
  kWord (.ksltu sc d a f b) sc (fun o => o.putFlag d (wordLtu (o.reg a.toNat) (o.kY f b))) s

/-- A partial value (R297, R344): the identity combined with lanes in ascending order. -/
def partialValue (g : Group) (m : Mask) (a op : Nat) (ty : RedTy) : Word :=
  let lane (l : Nat) : Word :=
    match ty with
    | .i64 | .n64 => ((g.readV (a + 1) l) ++ (g.readV a l) : BitVec (32 + 32))
    | _ => zx (g.readV a l)
  combineAll op ty ((lanesOf m).map lane)

/-- A scope reduction (R296 to R298). -/
def reduction (i : Instr) (lvl : Level) (d a : BitVec 6) (p y : BitVec 3) (t : Bool) (s : State) : Out :=
  let ty := RedTy.ofScope y
  let regs := if y = 2#3 ∨ y = 3#3 then [a.toNat, a.toNat + 1] else [a.toNat]
  postedWord i lvl s (fun q x => s.decideRed q x d.toNat p.toNat ty) (fun _ sl g =>
    match g.checkSrcs (regs.map (·, t)) with
    | some (.stop c) => .fault c.record
    | some (.wait v) => .wait (.empty v)
    | none =>
      .post { pc := (g.slot sl).pc, active := 0, true_ := 0, first := false, value := partialValue g (g.active sl) a.toNat p.toNat ty })

/-- `wred` (R296): a reduction into a w register. -/
def execWred (d a : BitVec 6) (p y : BitVec 3) (t : Bool) (h : BitVec 2) (s : State) : Out :=
  reduction (.wred d a p y t h) .team d a p y t s

/-- `gred` (R296): a reduction into a g register. -/
def execGred (d a : BitVec 6) (p y : BitVec 3) (t : Bool) (h : BitVec 2) (s : State) : Out :=
  reduction (.gred d a p y t h) .gang d a p y t s

/-- `dred` (R296): a reduction into a d register. -/
def execDred (d a : BitVec 6) (p y : BitVec 3) (t : Bool) (h : BitVec 2) (s : State) : Out :=
  reduction (.dred d a p y t h) .grid d a p y t s

end Sys2Proof.Machine
end

