-- ==== Sys2Proof/Machine/Handles.lean ====
section
/-! DEFINITION. Handle words (R340 to R345), stage-ring words (R346), and the events of the synchronisation units:
arrivals, joins, leaves and completions (R132, R134 to R138, R140, R141). -/

namespace Sys2Proof.Machine

/-- Stale handle (R190). -/
def stale (detail : BitVec 8) : Cause := ⟨0x0A, detail⟩

/-- Is the group split, or is a divergence entry on its stack (R113)? -/
def Group.diverged (g : Group) : Bool := g.split || decide (0 < g.divDepth)

/-- A handle or ring word, which a diverged group may not issue (step 1 of R340). -/
def wholeWord (i : Instr) (s : State) (body : GroupId → SlotId → Group → Eff) : Out :=
  groupWord i s (fun gid sl g => if g.diverged then .fault (badScope 7).record else body gid sl g)

/-- A handle word on a handle that is not null and not stale (steps 2 to 4 of R340). -/
def handleWord (i : Instr) (h : BitVec 3) (s : State) (body : GroupId → SlotId → Group → BitVec 32 → SEntry → Eff) : Out :=
  wholeWord i s (fun gid sl g =>
    let v := g.readH h.toNat
    if v = 0#32 then .fault (stale 4).record
    else if !s.handleOk v then .fault (stale 1).record
    else body gid sl g v (s.entryOf v))

/-! ### Creating, joining and leaving -/

/-- `hnew`, which writes null and c0 where it is refused, and `hnew.t`, which faults there (R131, R341). -/
def createEff (s : State) (gid : GroupId) (sl : SlotId) (g : Group) (h : BitVec 3) (k : BitVec 6) (y : BitVec 2)
    (p : BitVec 3) (faults : Bool) : Eff :=
  if g.readH h.toNat ≠ 0#32 then .fault (stale 3).record
  else
    match s.create gid g.ctx (g.readS sl k) p y with
    | (.created v, s) => onGroup s gid ((g.writeH h.toNat v).putC01 sl false true)
    | (.joined v, s) => onGroup s gid ((g.writeH h.toNat v).putC01 sl false false)
    | (.refused, s) =>
      if faults then .fault (stale 2).record else onGroup s gid ((g.writeH h.toNat 0).putC01 sl true false)

/-- `hnew` (R341). -/
def execHnew (h : BitVec 3) (k : BitVec 6) (y : BitVec 2) (p : BitVec 3) (s : State) : Out :=
  wholeWord (.hnew h k y p) s (fun gid sl g => createEff s gid sl g h k y p false)

/-- `hnew.t` (R341). -/
def execHnewT (h : BitVec 3) (k : BitVec 6) (y : BitVec 2) (p : BitVec 3) (s : State) : Out :=
  wholeWord (.hnewT h k y p) s (fun gid sl g => createEff s gid sl g h k y p true)

/-- `hjoin` (R132, R342). -/
def execHjoin (h : BitVec 3) (k : BitVec 6) (s : State) : Out :=
  wholeWord (.hjoin h k) s (fun gid sl g =>
    if g.readH h.toNat ≠ 0#32 then .fault (stale 3).record
    else
      let key := g.readS sl k
      let die := homeDie key
      match s.findKey die (BitVec.ofNat 20 g.ctx) key with
      | some n =>
        let v := userHandle die n (s.entry die n).gen
        onGroup (s.join v gid) gid ((g.writeH h.toNat v).writeC sl 0 false)
      | none => onGroup s gid ((g.writeH h.toNat 0).writeC sl 0 true))

/-- The checks of a handle value (R342). -/
def checkValue (s : State) (ctx : Nat) (v : BitVec 32) : Option Cause :=
  if v = 0#32 then some (stale 4)
  else if handleKind v = 1 ∨ handleKind v = 2 then some (illegal 4)
  else if handleKind v ≠ 0 then some (stale 1)
  else if !s.handleOk v || (s.entryOf v).ctx != BitVec.ofNat 20 ctx then some (stale 1)
  else none

/-- `hjoin.h` (R342). -/
def execHjoinH (h : BitVec 3) (k : BitVec 6) (s : State) : Out :=
  wholeWord (.hjoinH h k) s (fun gid sl g =>
    if g.readH h.toNat ≠ 0#32 then .fault (stale 3).record
    else
      let v : BitVec 32 := (g.readS sl k).setWidth 32
      match checkValue s g.ctx v with
      | some c => .fault c.record
      | none => onGroup (s.join v gid) gid ((g.writeH h.toNat v).writeC sl 0 false))

/-- `hleave` (R343). -/
def execHleave (h : BitVec 3) (s : State) : Out :=
  wholeWord (.hleave h) s (fun gid sl g =>
    let v := g.readH h.toNat
    if v = 0#32 then .fault (stale 4).record
    else if 6 ≤ h.toNat then .fault (illegal 4).record
    else if !s.handleOk v then .fault (stale 1).record
    else .next (((s.syncRelease gid sl [0, 3] 4 []).leave v gid false).modGroup gid (fun g => g.writeH h.toNat 0)))

/-! ### Arriving and waiting -/

/-- An arriving form that waits for its phase (R344): the arrival is applied, or held at the core until the entry
admits it (R134, R137). It is a release (R172). An arrival of a group that is no member any more is held for good (DESIGN
CHOICE, log 137). -/
def arriveWaiting (s : State) (gid : GroupId) (sl : SlotId) (g : Group) (v : BitVec 32) (e : SEntry) (a : Arrival)
    (ret : PhaseRet) : Eff :=
  let s := s.syncRelease gid sl [0, 3] 4 []
  let park (w : Wait) : State := s.setGroup gid (g.waitIn sl w)
  if e.admits gid then .done (((park (.phase v e.phase ret sl)).addWaiter v gid).arrive v gid a)
  else .done ((park (.held v none (some ret) sl)).putEntry v { e with held := e.held ++ [(gid, a)] })

/-- An arrival that carries nothing. -/
def Arrival.plain : Arrival := ⟨none, none⟩

/-- `harv` (R344). -/
def execHarv (h : BitVec 3) (d : BitVec 6) (s : State) : Out :=
  handleWord (.harv h d) h s (fun gid sl g v e =>
    let s := s.syncRelease gid sl [0, 3] 4 []
    if e.admits gid then
      .next ((s.setGroup gid ((g.writeS sl d (zx e.phase)).send sl)).arrive v gid .plain)
    else
      .done ((s.setGroup gid (g.waitIn sl (.held v (some d) none sl))).putEntry v
        { e with held := e.held ++ [(gid, .plain)] }))

/-- `hbar` (R344). -/
def execHbar (h : BitVec 3) (s : State) : Out :=
  handleWord (.hbar h) h s (fun gid sl g v e => arriveWaiting s gid sl g v e .plain .bar)

/-- `hwait` (R344): no arrival; it waits while PHASE is the given phase. -/
def execHwait (h : BitVec 3) (a : BitVec 6) (s : State) : Out :=
  handleWord (.hwait h a) h s (fun gid sl g v e =>
    let ph : BitVec 2 := (g.readS sl a).setWidth 2
    if e.phase = ph then
      .done ((s.setGroup gid (g.waitIn sl (.phase v ph .wait sl))).addWaiter v gid)
    else onGroup (s.syncAcquire gid sl [.phase v (e.phase - 1)] [0, 3] 4 []) gid (g.writeC sl 0 e.rbrk))

/-- The vote of the lanes of a slot (R139): an H word reads no field of mode, so its guard takes none away (R257, R339). -/
def voteOf (g : Group) (sl : SlotId) (p : Nat) : Option (Bool × Bool × Nat) :=
  let m := g.lanes sl
  let t := m &&& g.readP p
  if m = 0#64 then none else some (t != 0#64, t == m, countOf t)

/-- `hvote` (R344). -/
def execHvote (h : BitVec 3) (a d : BitVec 6) (s : State) : Out :=
  handleWord (.hvote h a d) h s (fun gid sl g v e =>
    arriveWaiting s gid sl g v e ⟨none, voteOf g sl a.toNat⟩ (.vote d))

/-- `hred` (R344): the lane value passes the checks of R250, then OP and TYPE must be the entry's (step 5 of R340). -/
def execHred (h : BitVec 3) (a d : BitVec 6) (y : BitVec 2) (p : BitVec 3) (s : State) : Out :=
  let i := Instr.hred h a d y p
  let regs := if y = 2#2 then [a.toNat, a.toNat + 1] else [a.toNat]
  groupWord i s (fun gid sl g =>
    past s (g.checkSrcs (regs.map (·, false)))
      (let v := g.readH h.toNat
      if g.diverged then .fault (badScope 7).record
      else if v = 0#32 then .fault (stale 4).record
      else if !s.handleOk v then .fault (stale 1).record
      else
        let e := s.entryOf v
        if e.op ≠ p ∨ e.ty ≠ y then .fault (illegal 9).record
        else arriveWaiting s gid sl g v e ⟨some (partialValue g (g.lanes sl) a.toNat p.toNat (.ofEntry y)), none⟩ (.red d)))

/-- What `hinfo` reads of an entry (R345). -/
def infoWord (e : SEntry) (v : BitVec 32) (ctx : BitVec 20) (n : Nat) : Word :=
  if isUser v then e.word n
  else { e with key := 0, ctx := ctx, gen := handleGen v, valid := true, pjoin := [], pleave := [], absent := [] }.word n

/-- `hinfo` (R345). -/
def execHinfo (h : BitVec 3) (d : BitVec 6) (n : BitVec 3) (s : State) : Out :=
  handleWord (.hinfo h d n) h s (fun gid sl g v e =>
    onGroup s gid (g.writeS sl d (infoWord e v (BitVec.ofNat 20 g.ctx) n.toNat)))

/-! ### Stage rings (R116, R346) -/

/-- A ring word on a stage below STAGES: `f` gives the state word by the team, ring and stage. -/
def ringWordOf (i : Instr) (q k : BitVec 6) (s : State) (f : GroupId → SlotId → Team → Nat → Nat → Eff) : Out :=
  wholeWord i s (fun gid sl g =>
    match s.team? gid.teamKey with
    | none => .fault (illegal 8).record
    | some t =>
      let stage := (g.readS sl k).toNat
      if t.stages ≤ stage then .fault (illegal 8).record else f gid sl t q.toNat stage)

/-- FULL and PHASE of a stage. -/
def Team.stageFull (t : Team) (q k : Nat) : Bool := (t.ringF[q]?.getD 0).getLsbD k
def Team.stagePhase (t : Team) (q k : Nat) : Bool := (t.ringP[q]?.getD 0).getLsbD k

/-- Write FULL and PHASE of a stage. -/
def Team.setStage (t : Team) (q k : Nat) (full phase : Bool) : Team :=
  { t with
    ringF := t.ringF.setIfInBounds q (setBit (t.ringF[q]?.getD 0) k full)
    ringP := t.ringP.setIfInBounds q (setBit (t.ringP[q]?.getD 0) k phase) }

/-- `qfill` (R346): a release over core and matrix (R172). -/
def execQfill (q k : BitVec 6) (s : State) : Out :=
  ringWordOf (.qfill q k) q k s (fun gid sl t r n =>
    if t.stageFull r n then .wait s .ring
    else .next ((s.syncRelease gid sl [0, 2] 1 [.fill gid.teamKey r n]).setTeam gid.teamKey (t.setStage r n true (t.stagePhase r n))))

/-- `qdrain` (R346): an acquire over core and matrix (R172). -/
def execQdrain (q k : BitVec 6) (s : State) : Out :=
  ringWordOf (.qdrain q k) q k s (fun gid sl t r n =>
    if t.stageFull r n then
      .next ((s.syncAcquire gid sl [.fill gid.teamKey r n] [0, 2] 1 [.drain gid.teamKey r n]).setTeam gid.teamKey
        (t.setStage r n false (!t.stagePhase r n)))
    else .wait s .ring)

/-- `qwait` (R346). -/
def execQwait (q k : BitVec 6) (f : Bool) (s : State) : Out :=
  ringWordOf (.qwait q k f) q k s (fun gid sl t r n =>
    if t.stagePhase r n = f then .wait s .ring else .next (s.syncAcquire gid sl [.drain gid.teamKey r n] [0, 2] 1 []))

/-! ### Events of the units -/

/-- SYNC_ARRIVAL (R140): the arrival that a group holds is applied once its entry admits it (R134, R137). -/
def execSyncArrival (gid : GroupId) (s : State) : Out :=
  match s.group? gid with
  | none => .next s
  | some g =>
    match g.wait with
    | some (.held v harv ret sl) =>
      let e := s.entryOf v
      match e.held.find? (·.1 = gid) with
      | none => .next s
      | some (_, a) =>
        if !e.admits gid then .next s
        else
          let s := s.putEntry v { e with held := e.held.filter (fun x => x.1 != gid) }
          match ret with
          | some r =>
            .next (((s.setGroup gid { g with wait := some (.phase v e.phase r sl) }).addWaiter v gid).arrive v gid a)
          | none =>
            let d := harv.getD 0
            .next (((s.setGroup gid (g.writeS sl d (zx e.phase))).arrive v gid a).retire gid sl (g.slot sl).pc.next)
    | _ => .next s

/-- The handle of the user entry in a slot of a die. -/
def State.handleAt (s : State) (die slot : Nat) : BitVec 32 := userHandle die slot (s.entry die slot).gen

/-- SYNC_JOIN (R132, R134): a join of a group of the entry's context is applied. -/
def execSyncJoin (gid : GroupId) (die : Fin 4) (slot : Fin 4096) (s : State) : Out :=
  let e := s.entry die.val slot.val
  match s.group? gid with
  | none => .next s
  | some g =>
    if e.valid && e.ctx == BitVec.ofNat 20 g.ctx then .next (s.join (s.handleAt die.val slot.val) gid) else .next s

/-- SYNC_LEAVE (R135, R141): a leave, or the leave of a kill, is applied. -/
def execSyncLeave (gid : GroupId) (die : Fin 4) (slot : Fin 4096) (kill : Bool) (s : State) : Out :=
  if (s.entry die.val slot.val).valid then .next (s.leave (s.handleAt die.val slot.val) gid kill) else .next s

/-- The results that a returning form writes (R344). -/
def Group.giveReturn (g : Group) (sl : SlotId) (e : SEntry) (ret : PhaseRet) (res : Word) (cnt : BitVec 32)
    (any all brk : Bool) : Group :=
  match ret with
  | .bar | .wait => g.writeC sl 0 brk
  | .vote d => (((g.writeS sl d (zx cnt)).writeC sl 0 brk).writeC sl 1 any).writeC sl 2 all
  | .red d => (g.writeS sl d (extendRed (.ofEntry e.ty) res)).writeC sl 0 brk

/-- The return of a waiting form is an acquire over core and sync events at package scope, of what its phase has brought to its
sync events (R137, R172). -/
def State.phaseReturn (s : State) (gid : GroupId) (sl : SlotId) : State :=
  s.syncAcquire gid sl (s.lines gid sl syncClass) [0, 3] 4 []

/-- PHASE_COMPLETION (R138, R344): the completion reaches a waiting group, which returns; a stopped or frozen group takes
it when it goes on (R143). The return is an acquire (R172). -/
def execPhaseCompletion (gid : GroupId) (s : State) : Out :=
  match s.group? gid with
  | none => .next s
  | some g =>
    match g.wait with
    | some (.result v ret sl res cnt any all brk) =>
      if (s.core g.core).frozen.isSome then
        .next (if s.landedCount g.core (.phaseCompletion gid) = 0 then s.land g.core 2 (.phaseCompletion gid) else s)
      else if !s.runnable g then .next s
      else
        .next (((s.phaseReturn gid sl).setGroup gid (g.giveReturn sl (s.entryOf v) ret res cnt any all brk)).retire gid sl (g.slot sl).pc.next)
    | _ => .next s

end Sys2Proof.Machine
end

