-- ==== Sys2Proof/Machine/Image.lean ====
section
/-! DEFINITION. Freeze images as bytes in the save area of their context (R203, R204), the parked entries of a context's
image (R128, R144), and the counts that an image records for the port (R387). Where Isacor puts a save area, and what lies
behind an image's header, is open: the one is the model's choice, the other free values (log 80). -/

namespace Sys2Proof.Machine

/-! ### Memory that Isacor gives -/

/-- The local address above everything that Isacor has given to a context. -/
def State.frameTop (s : State) : Nat := s.contexts.foldl (fun m e => max m e.2.frames) 0x10000

/-- Where the stacks begin (R9). -/
def stackStarts : List Nat := (List.range 8).map (· * (80 * 2 ^ 30))

/-- Are all stacks that a range lies on ready (R16)? -/
def State.stacksReady (s : State) (a n : Nat) : Bool :=
  (List.range 8).all (fun k => decide (stackOf (a + n - 1) < k ∨ k < stackOf a) || (s.devrdy.getLsbD (5 + k) && !s.devfail.getLsbD (5 + k)))

/-- May a stack that is not ready yet still become so (R16)? -/
def State.roomHeld (s : State) : Bool := (List.range 8).any (fun k => !s.devrdy.getLsbD (5 + k) && !s.devfail.getLsbD (5 + k))

/-- Give `n` bytes at a multiple of `align`: the first ones above all that has been given, or from a later stack on, that
lie on ready stacks alone (DESIGN CHOICE, log 28). -/
def State.giveFrames (s : State) (ctx n align : Nat) : Option (Nat × State) :=
  let starts := (s.frameTop :: stackStarts.filter (fun x => decide (s.frameTop < x))).map (fun x => ceilDiv x align * align)
  (starts.find? (fun a => decide (a + n ≤ hbmEnd) && s.stacksReady a n)).map (fun a => (a, s.modCtx ctx (fun c => { c with frames := a + n })))

/-- Write bytes at a local address, unless a stack of theirs cannot be reached (R16). -/
def State.poke (s : State) (a : Nat) (bs : List Byte) : State :=
  if (localRange s a bs.length).isSome then s else s.put (.phys (s.localPa a)) bs

/-! ### The save area (R203) -/

/-- Bytes of one core's image, with its header (R203, R204). -/
def imageSize : Nat := 2201728

/-- Bytes of a save area: an image for each virtual core, and the parked entries. -/
def saveSize : Nat := 2 ^ 30

/-- Where the parked entries lie in a save area. -/
def parkedAt : Nat := 0x38000000

/-- The save area of a context, mapped when it is first needed; none when no memory is left. -/
def State.saveArea (s : State) (ctx : Nat) : Option (Nat × State) :=
  match s.ctx? ctx with
  | none => none
  | some c =>
    match c.save with
    | some a => some (a, s)
    | none => (s.giveFrames ctx saveSize 4096).map (fun (a, s) => (a, s.modCtx ctx (fun c => { c with save := some a })))

/-- Bytes 0 to 63 of the header of an image (R204). -/
def Frozen.header (f : Frozen) : List Byte :=
  leBytes 4 0x53465A49 ++ leBytes 2 f.rev.toNat ++ leBytes 2 0 ++ leBytes 8 f.lhash.toNat ++ leBytes 8 f.units.toNat ++
  leBytes 4 (f.ctx % 2 ^ 20) ++ leBytes 4 imageSize ++ leBytes 4 f.vcore ++ List.replicate 28 0

/-- The digest of an image (R204): over its first 64 bytes and all that follows the header. -/
def imageDigest (head body : List Byte) : List Byte := sha256 (head ++ body)

/-- Where the image of a core stands: none while its context has no save area. -/
def State.imageBase (s : State) (f : Frozen) : Option Nat :=
  ((s.ctx? f.ctx).bind (·.save)).map (· + imageSize * f.vcore)

/-- What stops a write or a read of an image: a stack that is not ready holds it, and one that has failed refuses it (R16). -/
def State.imageBad (s : State) (f : Frozen) : Option Bad := (s.imageBase f).bind (fun a => localRange s a imageSize)

/-- Write the image of a core: the header, and a body that nothing constrains. -/
def State.writeImage (s : State) (f : Frozen) : State :=
  match s.saveArea f.ctx with
  | none => s
  | some (base, s) =>
    let n := imageSize - 128
    let body := (List.range n).map (fun i => Config.freeByte (s.free + i))
    let bytes := f.header ++ imageDigest f.header body ++ List.replicate 32 0 ++ body
    { s.poke (base + imageSize * f.vcore) bytes with free := s.free + n }

/-- Does the digest of an image match its bytes (R205)? -/
def State.imageOk (s : State) (f : Frozen) : Bool :=
  match s.imageBase f with
  | none => true
  | some a =>
    let bytes := memRead s.mem a imageSize
    (bytes.drop 64).take 32 == imageDigest (bytes.take 64) (bytes.drop 128)

/-! ### Parked entries (R128, R144) -/

/-- The 64 bytes of an entry in the layout of R128. -/
def SEntry.bytes (e : SEntry) : List Byte := (List.range 8).flatMap (fun n => leBytes 8 (e.word n).toNat)

/-- Where an entry of a die and slot is parked in a save area. -/
def parkedPlace (base d k : Nat) : Nat := base + parkedAt + 64 * (4096 * d + k)

/-- What stops a write of parked entries into the image of a context (R16). -/
def State.parkedBad (s : State) (ctx : Nat) (l : List (Nat × Nat × SEntry)) : Option Bad :=
  ((s.ctx? ctx).bind (·.save)).bind (fun base => (l.filterMap (fun (d, k, _) => localRange s (parkedPlace base d k) 64)).head?)

/-- Write the parked entries of a context into its image, each at the place of its die and slot. -/
def State.writeParked (s : State) (ctx : Nat) (l : List (Nat × Nat × SEntry)) : State :=
  if l.isEmpty then s
  else
    match s.saveArea ctx with
    | none => s
    | some (base, s) => l.foldl (fun s (d, k, e) => s.poke (parkedPlace base d k) e.bytes) s

/-! ### The port (R387) -/

/-- The counts that an image records for the port of a core. -/
def PortCounts.word (c : PortCounts) : Word :=
  let three (v : Vector (BitVec 4) 3) : Nat := (v[0]).toNat + (v[1]).toNat * 16 + (v[2]).toNat * 256
  BitVec.ofNat 64 (three c.scred + three c.owed * 2 ^ 12 + c.outrd.toNat * 2 ^ 24 + c.outwr.toNat * 2 ^ 32)

/-- The counts that the port of a restored core takes from an image (R387 steps 1 and 2). -/
def PortCounts.ofWord (w : Word) : PortCounts :=
  let owed : Vector (BitVec 4) 3 := Vector.ofFn (fun i => w.extractLsb' (12 + 4 * i.val) 4)
  { scred := Vector.ofFn (fun i => w.extractLsb' (4 * i.val) 4), owed := owed, outrd := w.extractLsb' 24 8
    outwr := w.extractLsb' 32 8, router := owed.map (8 - ·) }

/-- A replayed packet of a channel is consumed (R387 step 3): the router has its credit back. -/
def PortCounts.consume (c : PortCounts) (channel : Nat) : PortCounts :=
  { c with
    owed := c.owed.setIfInBounds channel ((c.owed[channel]?.getD 0) - 1)
    router := c.router.setIfInBounds channel ((c.router[channel]?.getD 0) + 1) }

end Sys2Proof.Machine
end

