-- ==== Sys2Proof/Machine/VectorInt.lean ====
section
/-! DEFINITION. Vector integer arithmetic, logic, shifts and bit counts, and the immediate forms (R306 to R309). -/

namespace Sys2Proof.Machine

/-- A vector word of two sources whose lane function depends on TYPE and SAT. -/
def vecWord2 (i : Instr) (d a b : BitVec 6) (x y : Bool) (h : BitVec 2) (readsD : Bool)
    (f : (ty : Nat) → (m : BitVec 32) → Nat → Nat → Nat → Nat × Flags) (s : State) : Out :=
  groupWord i s (fun gid sl g => binary s gid sl g d a b x y h readsD (f (g.ty sl) (g.mode sl)))

/-- A vector word of one source. -/
def vecWord1 (i : Instr) (d a : BitVec 6) (x : Bool) (f : (ty : Nat) → (m : BitVec 32) → Nat → Nat × Flags)
    (s : State) : Out :=
  groupWord i s (fun gid sl g => unary s gid sl g d a x (f (g.ty sl) (g.mode sl)))

/-- `add` (R306): IntRes(x + y). -/
def execAdd (d a b : BitVec 6) (x y : Bool) (h : BitVec 2) (s : State) : Out :=
  vecWord2 (.add d a b x y h) d a b x y h false (fun ty m p q _ => intOp ty (modeSat m) (· + ·) p q) s

/-- `sub` (R306): IntRes(x − y). -/
def execSub (d a b : BitVec 6) (x y : Bool) (h : BitVec 2) (s : State) : Out :=
  vecWord2 (.sub d a b x y h) d a b x y h false (fun ty m p q _ => intOp ty (modeSat m) (· - ·) p q) s

/-- `mul` (R306): IntRes(x × y). -/
def execMul (d a b : BitVec 6) (x y : Bool) (h : BitVec 2) (s : State) : Out :=
  vecWord2 (.mul d a b x y h) d a b x y h false (fun ty m p q _ => intOp ty (modeSat m) (· * ·) p q) s

/-- `mulh` (R306): the upper w bits of the product. -/
def execMulh (d a b : BitVec 6) (x y : Bool) (h : BitVec 2) (s : State) : Out :=
  vecWord2 (.mulh d a b x y h) d a b x y h false (fun ty _ p q _ => mulHigh ty p q) s

/-- `and` (R306): bitwise AND over w bits. -/
def execAnd (d a b : BitVec 6) (x y : Bool) (h : BitVec 2) (s : State) : Out :=
  vecWord2 (.and d a b x y h) d a b x y h false (fun _ _ p q _ => quiet (p &&& q)) s

/-- `or` (R306): bitwise OR over w bits. -/
def execOr (d a b : BitVec 6) (x y : Bool) (h : BitVec 2) (s : State) : Out :=
  vecWord2 (.or d a b x y h) d a b x y h false (fun _ _ p q _ => quiet (p ||| q)) s

/-- `xor` (R306): bitwise exclusive OR over w bits. -/
def execXor (d a b : BitVec 6) (x y : Bool) (h : BitVec 2) (s : State) : Out :=
  vecWord2 (.xor d a b x y h) d a b x y h false (fun _ _ p q _ => quiet (p ^^^ q)) s

/-- `andn` (R306): x AND NOT y over w bits. -/
def execAndn (d a b : BitVec 6) (x y : Bool) (h : BitVec 2) (s : State) : Out :=
  vecWord2 (.andn d a b x y h) d a b x y h false (fun ty _ p q _ => quiet (p &&& notBits ty q)) s

/-- `shl` (R306): left within w bits by y mod w. -/
def execShl (d a b : BitVec 6) (x y : Bool) (h : BitVec 2) (s : State) : Out :=
  vecWord2 (.shl d a b x y h) d a b x y h false (fun ty _ p q _ => quiet (p <<< (q % tyBits ty) % 2 ^ tyBits ty)) s

/-- `shr` (R306): right logically by y mod w. -/
def execShr (d a b : BitVec 6) (x y : Bool) (h : BitVec 2) (s : State) : Out :=
  vecWord2 (.shr d a b x y h) d a b x y h false (fun ty _ p q _ => quiet (p >>> (q % tyBits ty))) s

/-- `sar` (R306): right arithmetically by y mod w. -/
def execSar (d a b : BitVec 6) (x y : Bool) (h : BitVec 2) (s : State) : Out :=
  vecWord2 (.sar d a b x y h) d a b x y h false (fun ty _ p q _ => quiet (sarBits ty p (q % tyBits ty))) s

/-- `rol` (R306): rotate left by y mod w. -/
def execRol (d a b : BitVec 6) (x y : Bool) (h : BitVec 2) (s : State) : Out :=
  vecWord2 (.rol d a b x y h) d a b x y h false (fun ty _ p q _ => quiet (rolBits ty p (q % tyBits ty))) s

/-- `imin` (R306): the lesser value. -/
def execImin (d a b : BitVec 6) (x y : Bool) (h : BitVec 2) (s : State) : Out :=
  vecWord2 (.imin d a b x y h) d a b x y h false (fun ty _ p q _ => quiet (if intOf ty q < intOf ty p then q else p)) s

/-- `imax` (R306): the greater value. -/
def execImax (d a b : BitVec 6) (x y : Bool) (h : BitVec 2) (s : State) : Out :=
  vecWord2 (.imax d a b x y h) d a b x y h false (fun ty _ p q _ => quiet (if intOf ty p < intOf ty q then q else p)) s

/-- `iabsd` (R306): IntRes(|x − y|). -/
def execIabsd (d a b : BitVec 6) (x y : Bool) (h : BitVec 2) (s : State) : Out :=
  vecWord2 (.iabsd d a b x y h) d a b x y h false (fun ty m p q _ => intOp ty (modeSat m) (fun u v => ((u - v).natAbs : Int)) p q) s

/-- `imad` (R306): IntRes(x × y + z), one clamp or wrap of the exact value. -/
def execImad (d a b : BitVec 6) (x y : Bool) (h : BitVec 2) (s : State) : Out :=
  vecWord2 (.imad d a b x y h) d a b x y h true (fun ty m p q r => quiet (intRes ty (modeSat m) (intOf ty p * intOf ty q + intOf ty r))) s

/-- `idiv` (R306): R307. -/
def execIdiv (d a b : BitVec 6) (x y : Bool) (h : BitVec 2) (s : State) : Out :=
  vecWord2 (.idiv d a b x y h) d a b x y h false (fun ty m p q _ => divInt ty (modeSat m) p q) s

/-- `irem` (R306): R307. -/
def execIrem (d a b : BitVec 6) (x y : Bool) (h : BitVec 2) (s : State) : Out :=
  vecWord2 (.irem d a b x y h) d a b x y h false (fun ty _ p q _ => remInt ty p q) s

/-- `popc` (R306): the count of ones in w bits. -/
def execPopc (d a : BitVec 6) (x : Bool) (h : BitVec 2) (s : State) : Out :=
  vecWord1 (.popc d a x h) d a x (fun ty _ p => quiet (popCount (tyBits ty) p)) s

/-- `clz` (R306): the count of leading zeros in w bits. -/
def execClz (d a : BitVec 6) (x : Bool) (h : BitVec 2) (s : State) : Out :=
  vecWord1 (.clz d a x h) d a x (fun ty _ p => quiet (leadingZeros (tyBits ty) p)) s

/-- `brev` (R306): the w bits reversed. -/
def execBrev (d a : BitVec 6) (x : Bool) (h : BitVec 2) (s : State) : Out :=
  vecWord1 (.brev d a x h) d a x (fun ty _ p => quiet (reverseBits (tyBits ty) p)) s

/-- `addi` (R308): IntRes(x + SignExt64(imm11)). -/
def execAddi (d a : BitVec 6) (t : Bool) (i : BitVec 11) (s : State) : Out :=
  vecWord1 (.addi d a t i) d a t (fun ty m p => quiet (intRes ty (modeSat m) (intOf ty p + i.toInt))) s

/-- `andi` (R308): x AND SignExt64(imm11) over w bits. -/
def execAndi (d a : BitVec 6) (t : Bool) (i : BitVec 11) (s : State) : Out :=
  vecWord1 (.andi d a t i) d a t (fun ty _ p => quiet (p &&& (sx i).toNat % 2 ^ tyBits ty)) s

/-- `shli` (R308): x shifted left by imm11 within w bits; 0 when imm11 ≥ w. -/
def execShli (d a : BitVec 6) (t : Bool) (i : BitVec 11) (s : State) : Out :=
  vecWord1 (.shli d a t i) d a t (fun ty _ p => quiet (p <<< i.toNat % 2 ^ tyBits ty)) s

/-- `vli` (R309): an immediate in every active lane. -/
def execVli (d : BitVec 6) (i : BitVec 18) (s : State) : Out :=
  groupWord (.vli d i) s (fun gid sl g =>
    let ty := g.ty sl
    past s (g.checkDsts (occupies ty d.toNat))
      (onGroup s gid (g.putAll sl ty d (fun _ => quiet (vliCode ty (modeSat (g.mode sl)) i)))))

end Sys2Proof.Machine
end

