-- ==== Sys2Proof/Machine/Lanes.lean ====
section
/-! DEFINITION. Conversion and moves (R313 to R316), compares and predicates (R317 to R319), lane exchange (R320, R321)
and extended registers (R322, R323). -/

namespace Sys2Proof.Machine

/-! ### Conversion -/

/-- `cvt` (R313): from a source type, or from the lane number with code 13. -/
def execCvt (d a : BitVec 6) (k : BitVec 4) (x : Bool) (h : BitVec 2) (s : State) : Out :=
  groupWord (.cvt d a k x h) s (fun gid sl g =>
    let ty := g.ty sl
    let m := g.mode sl
    let from_ := k.toNat
    if from_ = 13 then
      past s (g.checkDsts (occupies ty d.toNat))
        (onGroup s gid (g.putAll sl ty d (fun l => ((convert ty m (some (l : Int)) (.ofInt l)).1, 0))))
    else
      past s (g.hurdle (src from_ a x) (occupies ty d.toNat))
        (onGroup s gid (g.putAll sl ty d (fun l =>
          let raw := g.rawV from_ a.toNat l
          convert ty m (if from_ < 8 then some (intOf from_ raw) else none) (numOf from_ raw)))))

/-- The loaded slot of the group's half (R347). -/
def Team.slotOf (t : Team) (g : Group) (z : Nat) : Option TSlot := t.slotT.find (g.half, z)

/-- The narrow format of a slot for `npack` and `nunpk`: unloaded is detail 8, FMT other than 5 detail 2 (R314). -/
def narrowOf (s : State) (gid : GroupId) (g : Group) (z : BitVec 5) : Except Cause Narrow :=
  match (s.team? gid.teamKey).bind (fun t => t.slotOf g z.toNat) with
  | none => .error (illegal 8)
  | some t => if t.fmt.extractLsb' 0 4 ≠ 5#4 then .error (illegal 2) else .ok (Narrow.ofWord t.fmt)

/-- `npack` (R314): each lane's float as a narrow code. -/
def execNpack (d a : BitVec 6) (z : BitVec 5) (x : Bool) (h : BitVec 2) (s : State) : Out :=
  groupWord (.npack d a z x h) s (fun gid sl g =>
    let ty := g.ty sl
    let m := g.mode sl
    past s (g.hurdle (src ty a x) [d.toNat])
      (match narrowOf s gid g z with
        | .error c => .fault c.record
        | .ok f =>
          let t := laneTable (g.active sl) (fun l => f.pack (modeRnd m) (modeSat m) (numOf ty (g.rawV ty a.toNat l)))
          onGroup s gid ((g.writeV d.toNat (g.active sl) (fun l => BitVec.ofNat 32 (t[l]?.getD (0, 0)).1)).raise
            (tableFlags t))))

/-- `nunpk` (R315): each lane's narrow code as a float. -/
def execNunpk (d a : BitVec 6) (z : BitVec 5) (x : Bool) (h : BitVec 2) (s : State) : Out :=
  groupWord (.nunpk d a z x h) s (fun gid sl g =>
    let ty := g.ty sl
    let m := g.mode sl
    past s (g.hurdle (src 0 a x) [d.toNat])
      (match narrowOf s gid g z with
        | .error c => .fault c.record
        | .ok f =>
          onGroup s gid (g.putAll sl ty d (fun l => roundTo ty m (f.decode ((g.readV a.toNat l).toNat % 2 ^ f.b))))))

/-- The high lane word of a pair that is moved: under acc48 its bits [31:16] are ignored (R225). -/
def Group.highV (g : Group) (ty a l : Nat) : BitVec 32 :=
  let x := g.readV (a + 1) l
  if ty = 12 then x &&& 0xFFFF#32 else x

/-- Copy the 32-bit lanes of a register, or of a pair, through a function of the lane number. -/
def Group.copyLanes (g : Group) (ty d a : Nat) (m : Mask) (f : Nat → Nat) : Group :=
  let g' := g.writeV d m (fun l => g.readV a (f l))
  if isPair ty then g'.writeV (d + 1) m (fun l => g.highV ty a (f l)) else g'

/-- `mov` (R316): bit for bit, the pair under a 64-bit type or acc48. -/
def execMov (d a : BitVec 6) (x : Bool) (h : BitVec 2) (s : State) : Out :=
  groupWord (.mov d a x h) s (fun gid sl g =>
    let ty := g.ty sl
    past s (g.hurdle (src ty a x) (occupies ty d.toNat))
      (onGroup s gid (g.copyLanes ty d.toNat a.toNat (g.active sl) id)))

/-! ### Compares and predicates -/

/-- A compare into a predicate (R317). -/
def compareWord (i : Instr) (sub : Nat) (d a b : BitVec 6) (x y : Bool) (h : BitVec 2) (s : State) : Out :=
  groupWord i s (fun gid sl g =>
    let ty := g.ty sl
    let m := g.active sl
    past s (g.checkSrcs (src ty a x ++ src ty b y))
      (let t := laneTable m (fun l =>
        let r := compareV ty sub (g.rawV ty a.toNat l) (g.rawV ty b.toNat l)
        (r.1.toNat, r.2))
      onGroup s gid (((g.writeP d.toNat m (maskOf (fun l => (t[l]?.getD (0, 0)).1 == 1))).raise (tableFlags t)).lastRead h
        (occupies ty b.toNat) [])))

/-- `ceq` (R317). -/
def execCeq (d a b : BitVec 6) (x y : Bool) (h : BitVec 2) (s : State) : Out :=
  compareWord (.ceq d a b x y h) 0 d a b x y h s

/-- `clt` (R317). -/
def execClt (d a b : BitVec 6) (x y : Bool) (h : BitVec 2) (s : State) : Out :=
  compareWord (.clt d a b x y h) 1 d a b x y h s

/-- `cle` (R317). -/
def execCle (d a b : BitVec 6) (x y : Bool) (h : BitVec 2) (s : State) : Out :=
  compareWord (.cle d a b x y h) 2 d a b x y h s

/-- `cne` (R317). -/
def execCne (d a b : BitVec 6) (x y : Bool) (h : BitVec 2) (s : State) : Out :=
  compareWord (.cne d a b x y h) 3 d a b x y h s

/-- A predicate word (R318). -/
def predWord (i : Instr) (d a b : BitVec 6) (f : Mask → Mask → Mask) (s : State) : Out :=
  groupWord i s (fun gid sl g =>
    onGroup s gid (g.writeP d.toNat (g.active sl) (f (g.readP a.toNat) (g.readP b.toNat))))

/-- `pand` (R318). -/
def execPand (d a b : BitVec 6) (s : State) : Out := predWord (.pand d a b) d a b (· &&& ·) s

/-- `por` (R318). -/
def execPor (d a b : BitVec 6) (s : State) : Out := predWord (.por d a b) d a b (· ||| ·) s

/-- `pxor` (R318). -/
def execPxor (d a b : BitVec 6) (s : State) : Out := predWord (.pxor d a b) d a b (· ^^^ ·) s

/-- `pandn` (R318). -/
def execPandn (d a b : BitVec 6) (s : State) : Out := predWord (.pandn d a b) d a b (fun p q => p &&& ~~~ q) s

/-- `pset` (R319): predicate bits of the active lanes from a scalar. -/
def execPset (d a : BitVec 6) (s : State) : Out :=
  groupWord (.pset d a) s (fun gid sl g => onGroup s gid (g.writeP d.toNat (g.active sl) (g.readS sl a)))

/-- `pget` (R319): the predicate bits of the slot's lanes; the guard does not filter them. -/
def execPget (d a : BitVec 6) (s : State) : Out :=
  groupWord (.pget d a) s (fun gid sl g => onGroup s gid (g.writeS sl d (g.readP a.toNat &&& g.lanes sl)))

/-- `pcnt` (R319): how many bits `pget` would set. -/
def execPcnt (d a : BitVec 6) (s : State) : Out :=
  groupWord (.pcnt d a) s (fun gid sl g =>
    onGroup s gid (g.writeS sl d (BitVec.ofNat 64 (countOf (g.readP a.toNat &&& g.lanes sl)))))

/-! ### Lane exchange (R320, R321) -/

/-- A lane exchange, a long-latency producer: lane `l` of d takes lane `f l` of a, read at issue. -/
def Group.exchange (g : Group) (sl : SlotId) (ty d a : Nat) (f : Nat → Nat) : Group :=
  let lo := (d, fun l => g.readV a (f l))
  g.produceRegs (g.active sl) (if isPair ty then [lo, (d + 1, fun l => g.highV ty a (f l))] else [lo])

/-- `shfl` (R320): by a vector index, mod width. -/
def execShfl (d a b : BitVec 6) (x y : Bool) (h : BitVec 2) (s : State) : Out :=
  groupWord (.shfl d a b x y h) s (fun gid sl g =>
    let ty := g.ty sl
    past s (g.hurdle (src ty a x ++ src 0 b y) (occupies ty d.toNat))
      (onGroup s gid ((g.exchange sl ty d.toNat a.toNat (fun l => (g.readV b.toNat l).toNat % g.width)).lastRead h
        [b.toNat] (occupies ty d.toNat))))

/-- `shxor` (R320): l XOR (S[b] mod width). -/
def execShxor (d a b : BitVec 6) (x : Bool) (h : BitVec 2) (s : State) : Out :=
  groupWord (.shxor d a b x h) s (fun gid sl g =>
    let ty := g.ty sl
    let k := (g.readS sl b).toNat % g.width
    past s (g.hurdle (src ty a x) (occupies ty d.toNat))
      (onGroup s gid (g.exchange sl ty d.toNat a.toNat (fun l => l ^^^ k))))

/-- `bcast` (R320): S[b] mod width. -/
def execBcast (d a b : BitVec 6) (x : Bool) (h : BitVec 2) (s : State) : Out :=
  groupWord (.bcast d a b x h) s (fun gid sl g =>
    let ty := g.ty sl
    let k := (g.readS sl b).toNat % g.width
    past s (g.hurdle (src ty a x) (occupies ty d.toNat))
      (onGroup s gid (g.exchange sl ty d.toNat a.toNat (fun _ => k))))

/-- `vrd` (R321): one lane into a scalar. -/
def execVrd (d a b : BitVec 6) (x : Bool) (h : BitVec 2) (s : State) : Out :=
  groupWord (.vrd d a b x h) s (fun gid sl g =>
    let ty := g.ty sl
    let l := (g.readS sl b).toNat % g.width
    let lo := g.readV a.toNat l
    let hi := g.highV ty a.toNat l
    let v : Word :=
      if isPair ty then (hi ++ lo : BitVec (32 + 32)) else zx lo
    past s (g.checkSrcs (src ty a x)) (onGroup s gid (g.writeS sl d v)))

/-- `vwr` (R321): a scalar into one lane, when that lane is active, in the layout of R225: extended under an 8-bit or 16-bit
type (R302). -/
def execVwr (d a b : BitVec 6) (s : State) : Out :=
  groupWord (.vwr d a b) s (fun gid sl g =>
    let ty := g.ty sl
    let l := (g.readS sl b).toNat % g.width
    let v := g.readS sl a
    let m := g.active sl &&& laneBit l
    past s (g.checkDsts (occupies ty d.toNat))
      (if m = 0#64 then .next s
      else
        onGroup s gid (g.putV ty d.toNat m (fun _ => v.toNat))))

/-! ### Extended registers (R118, R322, R323) -/

/-- The next block of a group, granted (R322). -/
def Group.grantBlock (g : Group) (sl : SlotId) : Group := ({ g with ext := g.ext + 1 }).writeC sl 0 false

/-- Is a block of 16 registers of a group's width free in its quadrant? -/
def State.blockFree (s : State) (g : Group) : Bool := decide (16 * vregBytes g.width ≤ s.freeSpace g.core g.quad)

/-- `vacq` (R322): at v63 it sets c0; otherwise it takes the next block, waiting its turn in its quadrant. -/
def execVacq (s : State) : Out :=
  groupWord .vacq s (fun gid sl g =>
    if 64 ≤ g.vLimit then onGroup s gid (g.writeC sl 0 true)
    else
      let c := s.core g.core
      if c.vacq.any (fun w => w.2 == (gid, sl)) then .wait s .vacq
      else if c.vacq.all (fun w => w.1 != g.quad) && s.blockFree g then onGroup s gid (g.grantBlock sl)
      else .wait (s.setCore g.core { c with vacq := c.vacq ++ [(g.quad, gid, sl)] }) .vacq)

/-- The answer to a waiting `vacq`: the next block, or c0 where the group's registers reach v63 by now (R322). -/
def Group.answerVacq (g : Group) (sl : SlotId) : Group := if 64 ≤ g.vLimit then g.writeC sl 0 true else g.grantBlock sl

/-- REGISTER_BLOCK_GRANT (R322): the oldest waiter of a quadrant is served once a block is free. -/
def execRegisterBlockGrant (core : Fin 384) (quad : Fin 4) (s : State) : Out :=
  let c := s.core core.val
  match c.vacq.find? (fun w => w.1 = quad.val) with
  | none => .next s
  | some (q, gid, sl) =>
    match s.group? gid with
    | none => .next s
    | some g =>
      if (s.blockFree g || decide (64 ≤ g.vLimit)) && c.frozen.isNone then
        let s := s.setCore core.val { c with vacq := c.vacq.filter (fun w => !(w.1 == q && w.2 == (gid, sl))) }
        .next ((s.setGroup gid (g.answerVacq sl)).retireLate gid sl)
      else .next s

/-- `vrel` (R323): the highest block goes back once no write into it is pending. -/
def execVrel (s : State) : Out :=
  groupWord .vrel s (fun gid sl g =>
    if g.ext = 0 then onGroup s gid (g.writeC sl 0 true)
    else
      let lo := g.base + 16 * (g.ext - 1)
      let inBlock (n : Nat) : Bool := decide (lo ≤ n ∧ n < lo + 16)
      if g.wb.any (fun w => w.regs.any (fun r => inBlock r.1)) then .wait s .vrel
      else
        onGroup s gid (({ g with
          ext := g.ext - 1, v := g.v.filter (fun e => !inBlock e.1) }).writeC sl 0 false))

/-- WRITEBACK (R119): the oldest pending write-back of a group arrives. For a frozen tile, whose clocks have stopped, the
responses that come through its port land or are held, and the restore delivers them (R207, R386). -/
def execWriteback (gid : GroupId) (s : State) : Out :=
  match s.group? gid with
  | none => .next s
  | some g =>
    if (s.core g.core).frozen.isSome then
      .next (if s.landedCount g.core (.writeback gid) < (g.wb.filter (·.port)).length then s.land g.core 1 (.writeback gid) else s)
    else .next (s.arriveAt gid (fun _ => true))

end Sys2Proof.Machine
end

