-- ==== Sys2Proof/Machine/Sched.lean ====
section
/-! DEFINITION. The scheduler (04_scheduler): what fits where (R57 to R62), placement passes (R64 to R66), claims of other
dies (R61), backfill and reservations (R69 to R71), and the placing of a gang (R56, R58, R124, R127). -/

namespace Sys2Proof.Machine

/-! ### What a core holds (R56, R57) -/

/-- The teams that hold something on a core, with the half of each that lies there. -/
def State.teamsOn (s : State) (core : Nat) : List ((Nat × Nat × Nat) × Team × Nat) :=
  s.teams.filterMap (fun (k, t) =>
    if t.core = core then some (k, t, 0) else if t.pair && t.core + 1 == core then some (k, t, 1) else none)

/-- The groups in a quadrant of a core. -/
def State.groupsIn (s : State) (core quad : Nat) : List (GroupId × Group) :=
  s.groups.filter (fun (k, g) => !k.isDebug && g.core == core && g.quad == quad)

/-- Register bytes in use in a quadrant, extended blocks included. -/
def State.regsIn (s : State) (core quad : Nat) : Nat :=
  ((s.groupsIn core quad).map (fun (_, g) => (g.base + 16 * g.ext) * g.width * 4)).sum

/-- Is any unit on a core (R71)? -/
def State.coreUsed (s : State) (core : Nat) : Bool := !(s.teamsOn core).isEmpty

/-- Is a core enabled in UMAP.CORE (R12)? -/
def State.enabled (s : State) (core : Nat) : Bool := (s.umap (dieOfCore core)).core.getLsbD (core % 96)

/-- The scratchpad ranges in use on a core: start and end in bytes. -/
def State.spadRanges (s : State) (core : Nat) : List (Nat × Nat) :=
  (s.teamsOn core).map (fun (_, t, half) =>
    let at_ := t.spadAt[half]?.getD 0
    let kib := if t.pair then ceilDiv t.spad 2 else t.spad
    (at_, at_ + kib * 1024))

/-- The lowest multiple of 1,536 at which an allocation fits the core's scratchpad (R149; the lowest: log 24). -/
def State.spadGap (s : State) (core kib : Nat) : Option Nat :=
  if kib = 0 then some 0
  else
    let used := s.spadRanges core
    ((List.range 512).map (1536 * ·)).find? (fun b =>
      decide (b + kib * 1024 ≤ 768 * 1024) && used.all (fun (lo, hi) => decide (b + kib * 1024 ≤ lo ∨ hi ≤ b)))

/-- Does a core fit a half of a team of a grid (R57)? The streams of a team take sequencers on its home core. -/
def State.coreFits (s : State) (g : Grid) (half core : Nat) : Bool :=
  let on := s.teamsOn core
  s.enabled core && !(s.core core).frozen.isSome &&
  (half == 1 || decide ((s.core core).teamSeqs.length + g.roleList.length ≤ 16)) &&
  decide ((on.map (fun (_, t, _) => t.tiles)).sum + g.tiles ≤ 64) &&
  decide ((on.map (fun (_, t, _) => t.slots)).sum + g.slots ≤ 256) &&
  (s.spadGap core g.spadNeed).isSome &&
  (List.range 4).all (fun q =>
    let (n, bytes) := g.quadNeed half q
    decide ((s.groupsIn core q).length + n ≤ 48) && decide (s.regsIn core q + bytes ≤ 0x40000))

/-! ### Windows (R59, R60) -/

/-- Cores that a gang of a grid needs. -/
def Grid.cores (g : Grid) : Nat := g.teams * (g.pair.toNat + 1)

/-- The start cores of the windows of a region. -/
def Grid.starts (g : Grid) (region : Nat) : List Nat :=
  ((List.range (9 - g.cores)).filter (fun k => !g.pair || k % 2 == 0)).map (8 * region + ·)

/-- The start cores of every window of the package, in the order of R60. -/
def Grid.windows (g : Grid) (die : Nat) : List Nat :=
  (List.range 4).flatMap (fun k => (List.range 12).flatMap (fun r => g.starts (12 * ((die + k) % 4) + r)))

/-- The cores of a window. -/
def Grid.window (g : Grid) (start : Nat) : List Nat := (List.range g.cores).map (start + ·)

/-- The grid of the head of a queue. -/
def State.headOf (s : State) (queue : Nat) : Option (Nat × Grid) :=
  (s.queue queue).grids.head?.bind (fun k => (s.grid? k).map (k, ·))

/-! ### Restores (R74, R205) -/

/-- The cores of the tile of a core: both of a pair when a resident team spans it (R203). -/
def State.tileCores (s : State) (core : Nat) : List Nat :=
  let home := core / 2 * 2
  if s.teams.any (fun (_, t) => t.pair && t.core == home) then [home, home + 1] else [core]

/-- Is a core free for a tile: nothing lies on it, or it is the core on which the tile is frozen? -/
def State.freeFor (s : State) (img target : Nat) : Bool :=
  target == img || (!s.coreUsed target && !(s.core target).frozen.isSome)

/-- Does a core accept an image (R205): revision and scan layout match, or the image is portable, and the core is
enabled? -/
def State.accepts (s : State) (f : Frozen) (target : Nat) : Bool :=
  s.enabled target && (f.portable || (f.rev == Config.tileRev target && f.lhash == Config.scanHash target))

/-- Is the context of an image one that runs? -/
def State.imageRuns (s : State) (f : Frozen) : Bool := (s.ctx? f.ctx).any (fun c => c.stage == .running || c.stage == .soft)

/-- The cores that the tile of an image takes from a target on. -/
def State.coresFrom (s : State) (img target : Nat) : List Nat := (s.tileCores img).zipIdx.map (fun (_, i) => target + i)

/-- Could the image at `img` stand on a target: accepted, free, the target of its migration if it has one (R384), not that of
another's, and of a context that runs? A head's reservation bars gangs only (R70). -/
def State.suits (s : State) (img : Nat) (f : Frozen) (target : Nat) : Bool :=
  let cores := s.tileCores img
  (cores.length == 1 || target % 2 == 0) && decide (target + cores.length ≤ 384) &&
  f.target.all (· == target) && s.imageRuns f &&
  cores.zipIdx.all (fun (c, i) =>
    s.freeFor c (target + i) && s.accepts f (target + i) &&
    (f.target.isSome || s.reserves.all (fun r => r.queue.isSome || !r.cores.contains (target + i))))

/-- Is a restore due: of a tile for which a wake has been requested (R143), from the request on, or of one that a restore has
been refused (R205)? -/
def State.restoring (s : State) (f : Frozen) : Bool := (f.due || !f.wakes.isEmpty) && s.imageRuns f

/-- The restores that are due, by image, each with the target that it holds reserved (R74): the core that Isacor named, else the
core the tile was frozen from, else the lowest that R205 accepts, and not one that a restore before it holds; none while no such
core is free (log 26). The reservation is taken at once and so is no field: it stands from the moment the restore is due. It
stands beside another one of its region, also a head's (DESIGN CHOICE, log 26: R70 lets a region carry one). -/
def State.dueRestores (s : State) : List (Nat × Option Nat) :=
  s.cores.foldl (fun (l : List (Nat × Option Nat)) (k, c) =>
    match c.frozen with
    | none => l
    | some f =>
      let cores := s.tileCores k
      if cores.headD k != k || !cores.any (fun c => (s.core c).frozen.any s.restoring) then l
      else
        let held := l.flatMap (fun (i, t) => t.elim [] (s.coresFrom i))
        let open_ (t : Nat) : Bool := s.suits k f t && (s.coresFrom k t).all (fun c => !held.contains c)
        l ++ [(k, ((f.target.getD f.home) :: (if f.target.isSome then [] else List.range 384)).find? open_)]) []

/-- The cores that due restores hold reserved, but that of one image. -/
def State.dueCores (s : State) (but : Option Nat) : List Nat :=
  (s.dueRestores.filter (fun (i, _) => some i != but)).flatMap (fun (i, t) => t.elim [] (s.coresFrom i))

/-- The target of a restore by the device itself (R74). -/
def State.autoTarget (s : State) (img : Nat) : Option Nat := (s.dueRestores.find? (fun x => x.1 == img)).bind (·.2)

/-- May the image at `img` be restored on a core: complete, and on a core that suits it and that no restore which is due holds? -/
def State.restorable (s : State) (img target : Nat) : Bool :=
  match (s.core img).frozen with
  | none => false
  | some f =>
    f.stage == .complete && s.suits img f target &&
    (s.coresFrom img target).all (fun c => !(s.dueCores (some img)).contains c)

/-- Does a restore on a die wait for its turn: its target lies there, or, while it has none, the core that Isacor named or the
tile's own? From the moment it is due it comes before every placement on that die (R74, R143, R205; log 26). -/
def State.restoreDue (s : State) (die : Nat) : Bool :=
  s.dueRestores.any (fun (i, t) =>
    dieOfCore (t.getD (((s.core i).frozen.map (fun f => f.target.getD f.home)).getD 0)) == die)

/-- Is a region reserved, by a head, a migration or a restore that is due? -/
def State.reservedRegion (s : State) (region : Nat) : Bool :=
  s.reserves.any (fun r => r.cores.any (fun c => regionOfCore c == region)) ||
    (s.dueCores none).any (fun c => regionOfCore c == region)

/-- Gang sequencers of a region that are claimed by the reservation of another head (R70). -/
def State.claimedSeqs (s : State) (queue region : Nat) : Nat :=
  ((s.reserves.filter (fun r => r.queue != some queue && r.cores.any (fun c => regionOfCore c == region))).map (fun r =>
    (r.queue.bind s.headOf).elim 0 (fun (_, g) => g.roleList.length))).sum

/-- The cores of a die that count toward the cap of R65. -/
def State.cappedCores (s : State) (die : Nat) : List Nat :=
  ((s.teams.filter (fun (k, _) => decide (1 ≤ ((s.gang? (k.1, k.2.1)).map (·.level)).getD 0))).flatMap
    (fun (_, t) => t.cores.filter (fun c => dieOfCore c == die))).eraseDups

/-- Would a window at level 1 or above raise the count of its die above the cap (R65)? -/
def State.overCap (s : State) (die : Nat) (win : List Nat) : Bool :=
  let enabled := ((List.range 96).filter (fun k => (s.umap die).core.getLsbD k)).length
  let before := s.cappedCores die
  let after := (before ++ win).eraseDups.length
  decide (enabled * 3 / 4 < after) && decide (before.length < after)

/-- Does a window fit a gang of a queue's head (R59)? -/
def State.windowFits (s : State) (queue : Nat) (g : Grid) (level : Nat) (start : Nat) : Bool :=
  let win := g.window start
  let region := regionOfCore start
  let die := dieOfCore start
  s.ready (1 + die) && !s.restoreDue die &&
  win.zipIdx.all (fun (c, i) => s.coreFits g (if g.pair then i % 2 else 0) c) &&
  s.reserves.all (fun r => r.queue == some queue || !r.cores.any (fun c => win.contains c)) &&
  decide ((s.region region).gangSeqs.length + s.claimedSeqs queue region + g.roleList.length ≤ 8) &&
  (level == 0 || (s.queue queue).rsv || !s.overCap die win)

/-! ### Reservations (R70, R71) -/

/-- The window that a reservation takes: the fewest cores in use, in a region without a reservation (R71). -/
def State.bestWindow (s : State) (die : Nat) (g : Grid) : Option (Nat × Nat) :=
  (g.windows die).foldl (fun best w =>
    if s.reservedRegion (regionOfCore w) || !(g.window w).all s.enabled then best
    else
      let used := ((g.window w).filter s.coreUsed).length
      match best with
      | some (u, _) => if used < u then some (used, w) else best
      | none => some (used, w)) none

/-- Are too few grid sequencers free for the first gang of a grid? It waits without being blocked (R62), also where some are
free but fewer than its roles need (DESIGN CHOICE, log 126). -/
def State.short (s : State) (queue : Nat) (g : Grid) : Bool :=
  g.placed == 0 && decide (16 < (s.die (dieOfQueue queue)).gridSeqs.length + g.roleList.length)

/-- Is the head of a queue blocked (R62, R69)? -/
def State.blocked (s : State) (queue : Nat) : Bool :=
  (s.queue queue).blk && (s.headOf queue).any (fun (_, g) => !s.short queue g)

/-- A blocked head takes a reservation (R70); with no region open to it, it waits for one. -/
def State.reserve (s : State) (queue : Nat) : State :=
  match s.headOf queue with
  | none => s
  | some (_, g) =>
    if (s.queue queue).rsv then s
    else
      match s.bestWindow (dieOfQueue queue) g with
      | none => s
      | some (_, w) =>
        { s.modQueue queue (fun q => { q with rsv := true }) with
          reserves := s.reserves ++ [⟨some queue, g.window w⟩] }

/-- Is the head of a queue due for a reservation (R70)? -/
def State.due (s : State) (queue : Nat) : Bool :=
  let q := s.queue queue
  s.blocked queue && !q.rsv && (q.bfc == 4#3 || decide (q.since + 1000000 ≤ s.timer))

/-- Insert a queue in the order in which the heads first became blocked, of those at one time the lower queue first (DESIGN
CHOICE, log 127). -/
def insertSince (s : State) (l : List Nat) (n : Nat) : List Nat :=
  match l with
  | [] => [n]
  | m :: ms =>
    if (s.queue n).since < (s.queue m).since ∨ ((s.queue n).since = (s.queue m).since ∧ n < m) then n :: m :: ms
    else m :: insertSince s ms n

/-- Heads that wait for a region take their reservations, in the order in which they first became blocked (R70). -/
def State.renew (s : State) : State :=
  ((s.queues.keysWhere (fun n _ => s.due n)).foldl (insertSince s) []).foldl State.reserve s

/-! ### Placing a gang -/

/-- The virtual core number of a new tile of a context on a core (R157): the core's own number, or the lowest that no
tile of the context has, nor another half of the team, `more` (log 25). -/
def State.newVcore (s : State) (ctx core : Nat) (more : List Nat) : Nat :=
  let mine := s.tileNumbers ctx
  match mine.find? (fun x => x.1 == core) with
  | some (_, v) => v
  | none =>
    let used := mine.map (·.2) ++ more
    if used.contains core then ((List.range 384).find? (fun v => !used.contains v)).getD core else core

/-- The lowest numbers below a bound that a list does not hold: which of the free sequencers a unit takes, and so the numbers in
h6 and h7 (R127), is a DESIGN CHOICE (log 125). -/
def lowestFree (bound need : Nat) (used : List Nat) : List Nat := ((List.range bound).filter (fun k => !used.contains k)).take need

/-- A sequencer stream at placement (R36, R115): eight or sixteen registers from the argument block. -/
def Grid.stream (g : Grid) (level : Level) (role : Role) : Seq :=
  let regs (o n : Nat) : Vector Word 16 := Vector.ofFn (fun i => if i.val < n then g.args[o + i.val]?.getD 0 else 0)
  let r : Vector Word 16 := match level with
    | .grid => regs 0 8
    | .gang => regs 8 8
    | .team => regs 16 16
  let own : Owner := ⟨g.entryOf role, r, 0, []⟩
  { own := own, ctx := g.ctx, queue := [], nextSeq := 0, stopped := false, ended := false
    view := none, viewEnd := none, read := 0, inChain := false, lastEnd := none, trail := [], entry := ⟨own, none, none, 0⟩ }

/-- The streams of a level, one for each role that has groups. -/
def State.addStreams (s : State) (g : Grid) (level : Level) (grid gang team : Nat) : State :=
  g.roleList.foldl (fun s r => s.setSeq ⟨level, grid, gang, team, r⟩ (g.stream level r)) s

/-- Take sequencers: their placement counts rise by 1 (R127). -/
def counted (t : Tbl Nat Nat) (ks : List Nat) : Tbl Nat Nat := ks.foldl (fun t k => t.put k ((t.find k).getD 0 + 1)) t

/-- The entry of a built-in handle (R127): add over i64. -/
def builtinEntry (ctx : Nat) (members : List GroupId) : SEntry :=
  { SEntry.reset with ctx := BitVec.ofNat 20 ctx, op := 0, ty := 2, valid := true, members := members }

/-- The first tile of a context on a core takes the breakpoint and watchpoint sets kept for its die (R373); where nothing is
kept, a core that holds no tile of another context either has none armed (DESIGN CHOICE, log 131). -/
def State.dressCore (s : State) (ctx core : Nat) : State :=
  if (s.teamsOn core).any (fun (_, t, _) => t.ctx == ctx) then s
  else
    let c := s.ctx? ctx
    let die := dieOfCore core
    let used := s.coreUsed core
    s.modCore core (fun x => { x with
      bpt := (c.bind (fun c => c.bptSet.find die)).getD (if used then x.bpt else .replicate 8 0)
      wpt := (c.bind (fun c => c.wptSet.find die)).getD (if used then x.wpt else .replicate 16 0) })

/-- Place the groups of a team (R58, R124). They follow what the packets before their LAUNCH have observed (R35). -/
def State.addGroups (s : State) (g : Grid) (grid gang team core : Nat) (vcores : List Nat) (h6 h7 : BitVec 32) : State :=
  (List.range g.groups).foldl (fun s i =>
    let role := g.roleOf i
    let (half, quad) := g.seat i
    let c := core + half
    let slot := ((lowestFree 48 1 ((s.groupsIn c quad).map (fun (_, x) => x.slotNo - 48 * quad))).headD 0) + 48 * quad
    let x := Group.new g.ctx c quad slot (vcores[half]?.getD c) half role g.width (g.baseOf role) s.timer
    let x := ({ x with a := { x.a with pc := g.entryOf role } }.writeH 6 h6).writeH 7 h7
    (s.setGroup ⟨grid, gang, team, i⟩ x).order (among [.packet g.queue g.idx]) scopeAll (linesOf ⟨grid, gang, team, i⟩)) s

/-- Place one team (R56, R59). -/
def State.addTeam (s : State) (g : Grid) (grid gang team core : Nat) (h6 : BitVec 32) : State :=
  let s := s.dressCore g.ctx core
  let s := if g.pair then s.dressCore g.ctx (core + 1) else s
  let seqs := lowestFree 16 g.roleList.length (s.core core).teamSeqs
  let v := s.newVcore g.ctx core []
  let vcores := v :: (if g.pair then [s.newVcore g.ctx (core + 1) [v]] else [])
  let spadAt := (s.spadGap core g.spadNeed).getD 0 :: (if g.pair then [(s.spadGap (core + 1) g.spadNeed).getD 0] else [])
  let s := s.modCore core (fun c => { c with teamSeqs := c.teamSeqs ++ seqs, teamCnt := counted c.teamCnt seqs })
  let first := seqs.headD 0
  let h7 := builtinHandle 1 (dieOfCore core) (core % 96 * 16 + first) (((s.core core).teamCnt.find first).getD 0)
  let ids := (List.range g.groups).map (fun i => (⟨grid, gang, team, i⟩ : GroupId))
  let t : Team :=
    { ctx := g.ctx, core := core, pair := g.pair, vcores := vcores, seqs := seqs, handle := h7, width := g.width, groups := g.groups
      spad := g.spad, spadAt := spadAt, tiles := g.tiles, slots := g.slots, rings := g.rings, stages := g.stages
      tvec := 0, nextId := 32, bytes := [], full := [], tags := [], ringF := .replicate 4 0, ringP := .replicate 4 0
      tileT := [], slotT := [], marks := [], live := g.groups }
  let s := { s with builtins := s.builtins.put h7 (builtinEntry g.ctx ids) }
  ((s.addGroups g grid gang team core vcores h6 h7).setTeam (grid, gang, team) t).addStreams g .team grid gang team

/-- Place the next gang of a grid on a window (R56 to R62). -/
def State.placeGang (s : State) (grid : Nat) (g : Grid) (start level : Nat) : State :=
  let gang := g.placed
  let region := regionOfCore start
  let die := dieOfCore start
  let home := dieOfQueue g.queue
  let s := s.wakeRegion region
  let s := if gang = 0 then (s.modDie home (fun d => { d with
      gridSeqs := d.gridSeqs ++ List.replicate g.roleList.length grid })).addStreams g .grid grid 0 0 else s
  let seqs := lowestFree 8 g.roleList.length (s.region region).gangSeqs
  let s := s.modRegion region (fun r => { r with gangSeqs := r.gangSeqs ++ seqs, gangCnt := counted r.gangCnt seqs })
  let first := seqs.headD 0
  let h6 := builtinHandle 2 die (region % 12 * 8 + first) (((s.region region).gangCnt.find first).getD 0)
  let ids := (List.range g.teams).flatMap (fun t => (List.range g.groups).map (fun i => (⟨grid, gang, t, i⟩ : GroupId)))
  let s := { s with builtins := s.builtins.put h6 (builtinEntry g.ctx ids) }
  let s := s.setGang (grid, gang)
    { die := die, region := region, start := start, seqs := seqs, handle := h6, level := level, live := g.teams }
  let s := s.addStreams g .gang grid gang 0
  let s := s.fetchRecord die g.queue g.ver
  let s := (List.range g.teams).foldl (fun s t => s.addTeam g grid gang t (start + t * (g.pair.toNat + 1)) h6) s
  s.modGrid grid (fun x => { x with placed := x.placed + 1, level := level })

/-- A backfill past a blocked head (R69); the fourth makes it due for a reservation (R70). -/
def State.backfill (s : State) (queue : Nat) : State :=
  s.modQueue queue (fun q => { q with bfc := BitVec.ofNat 3 (min 4 (q.bfc.toNat + 1)) })

/-- The head of a queue has been placed at a level: its reservation ends, the next gang is head, and each head that is
blocked at that level or above counts a backfill (R66, R69). Those that are due take reservations in their order (R70). -/
def State.headPlaced (s : State) (queue level : Nat) : State :=
  let s := { s with reserves := s.reserves.filter (fun r => r.queue != some queue) }
  let s := s.modQueue queue (fun q => q.newHead s.timer)
  let s := match s.headOf queue with
    | some (_, g) => if g.placed < g.gangs then s else s.modQueue queue (fun q => { q with grids := q.grids.drop 1 })
    | none => s
  let past := s.queues.keysWhere (fun n q => n != queue && s.blocked n && decide (level ≤ q.elev.toNat))
  (past.foldl State.backfill s).renew

/-- Place the head of a queue on a window of any die. -/
def State.placeHead (s : State) (queue grid : Nat) (g : Grid) (start level : Nat) : State :=
  let fn := ((s.qown.find queue).map (·.fn.toNat)).getD 0
  let s := (s.placeGang grid g start level).headPlaced queue level
  s.modDie (dieOfQueue queue) (fun d => { d with lastFn := d.lastFn.put level fn, lastQ := d.lastQ.put fn queue })

/-! ### Passes (R64) -/

/-- A head that no window fits, or that R69 holds back, is blocked; the time at which it first became so stays. -/
def State.block (s : State) (queue : Nat) : State :=
  s.modQueue queue (fun q => if q.blk then q else { q with blk := true, since := if q.since = 0 then s.timer else q.since })

/-- Does R69 hold a head back: another blocked head at its level or above needs no more cores? A head with a reservation
is not held back, for otherwise the bound of R72 would not hold. -/
def State.heldBack (s : State) (queue level need : Nat) : Bool :=
  !(s.queue queue).rsv && s.queues.any (fun (n, q) =>
    n != queue && s.blocked n && decide (level ≤ q.elev.toNat) &&
    (match s.headOf n with
      | some (_, g) => decide (g.cores ≤ need)
      | none => false))

/-- Is a claim of the queue's head outstanding (R61)? -/
def State.claiming (s : State) (queue : Nat) : Bool :=
  (List.range 4).any (fun d => (s.die d).claims.any (fun c => c.queue == queue))

/-- Are gangs of a context placed (R201)? -/
def State.placeable (s : State) (ctx : Nat) : Bool := ((s.ctx? ctx).map (fun c => c.stage == .running)).getD false

/-- What trying a head comes to: nothing, a placement, or a claim of a window of another die, for whose answer the pass
waits (R61, R64). -/
inductive Try where
  | no | placed | claimed
  deriving DecidableEq, Repr

/-- Try the head of a queue. -/
def State.tryHead (s : State) (queue level : Nat) : State × Try :=
  match s.headOf queue with
  | none => (s, .no)
  | some (k, g) =>
    if s.short queue g then (s.modQueue queue (fun q => { q with blk := false }), .no)
    else if s.heldBack queue level g.cores then (s.block queue, .no)
    else
      match (g.windows (dieOfQueue queue)).find? (s.windowFits queue g level) with
      | none => (s.block queue, .no)
      | some w =>
        if dieOfCore w = dieOfQueue queue then (s.placeHead queue k g w level, .placed)
        else (s.modDie (dieOfCore w) (fun d => { d with claims := d.claims ++ [⟨queue, k, w, g.ver⟩] }), .claimed)

/-- A list in round robin, from the first element after `last`. -/
def rotate (last : Option Nat) (l : List Nat) : List Nat :=
  match last with
  | none => l
  | some x => l.filter (fun y => decide (x < y)) ++ l.filter (fun y => decide (y ≤ x))

/-- The queues of a die with a head to try at a level, of one function: not one whose claim this pass has seen refused. -/
def State.tryable (s : State) (die level fn : Nat) : List Nat :=
  ((List.range 256).map (256 * die + ·)).filter (fun n =>
    let q := s.queue n
    !q.grids.isEmpty && q.elev.toNat == level && ((s.qown.find n).map (·.fn.toNat)).getD 0 == fn && !(s.die die).refused.contains n &&
    (match s.headOf n with
      | some (_, g) => s.placeable g.ctx
      | none => false))

/-- A visit to a function: its heads one after another until one is placed (R64), or has claimed. -/
def visitHeads (level : Nat) : State → List Nat → State × Try
  | s, [] => (s, .no)
  | s, n :: l =>
    match s.tryHead n level with
    | (s, .no) => visitHeads level s l
    | r => r

/-- One round over the functions at a level, up to a claim. -/
def State.passRound (s : State) (die level : Nat) : State × Try :=
  (rotate ((s.die die).lastFn.find level) (List.range 64)).foldl (fun (x : State × Try) fn =>
    if x.2 = .claimed then x
    else
      let heads := rotate ((x.1.die die).lastQ.find fn) (x.1.tryable die level fn)
      match visitHeads level x.1 heads with
      | (s, .no) => (s, x.2)
      | r => r) (s, .no)

/-- Rounds at a level until no head can be placed; no level ever has more placements than team sequencers. -/
def passLevel (die level : Nat) : (fuel : Nat) → State → State × Try
  | 0, s => (s, .no)
  | fuel + 1, s =>
    match s.passRound die level with
    | (s, .placed) => passLevel die level fuel s
    | r => r

/-- PLACEMENT_PASS (R64): a pass of the firmware of a die over its own queues, from level 3 down. A claim halts it, and the
next step of this name goes on with it once the claim has been answered: until the pass has come to its end, a queue whose
claim was refused is not tried again (R61, log 116). -/
def execPlacementPass (s : State) : Out :=
  let die := s.sel % 4
  let waits := (List.range 256).any (fun k => s.claiming (256 * die + k))
  if !s.ready (1 + die) || waits then .next s
  else
    match [3, 2, 1, 0].foldl (fun (x : State × Try) level =>
        if x.2 = .claimed then x else passLevel die level 6144 x.1) (s.renew, .no) with
    | (s, .claimed) => .next s
    | (s, _) => .next (s.modDie die (fun d => { d with refused := [] }))

/-- PLACEMENT_CLAIM (R61): a die answers its oldest claim, with a record no older than the claim's (R31); a claim whose
window no longer fits is refused, and so is one whose head R69 holds back, which is then blocked. -/
def execPlacementClaim (s : State) : Out :=
  let die := s.sel % 4
  match (s.die die).claims with
  | [] => .next s
  | c :: rest =>
    let s := (s.modDie die (fun d => { d with claims := rest })).fetchRecord die c.queue c.ver
    let refuse (s : State) : Out := .next (s.modDie (dieOfQueue c.queue) (fun d => { d with refused := c.queue :: d.refused }))
    match s.headOf c.queue with
    | none => refuse s
    | some (k, g) =>
      let level := (s.queue c.queue).elev.toNat
      if k ≠ c.grid ∨ !s.placeable g.ctx ∨ s.short c.queue g then refuse s
      else if s.heldBack c.queue level g.cores then refuse (s.block c.queue)
      else if s.windowFits c.queue g level c.start then .next (s.placeHead c.queue k g c.start level)
      else refuse s

/-- RESERVATION_TIMEOUT (R70): 1 ms after the head of a queue first became blocked; heads that are due before it come
first. -/
def execReservationTimeout (s : State) : Out := if s.due s.selQueue then .next s.renew else .next s

/-- QUANTUM_PROMOTION (R66, R67): the head of a queue has waited for 8 quanta since it became head or last rose. -/
def execQuantumPromotion (s : State) : Out :=
  let q := s.queue s.selQueue
  let wait := 8 * s.quantum.toNat * 1000
  if s.nopromo || q.grids.isEmpty || q.elev == 3#2 || decide (s.timer < q.became + wait) then .next s
  else .next (s.setQueue s.selQueue { q with elev := q.elev + 1, became := q.became + wait })

end Sys2Proof.Machine
end

