-- ==== Sys2Proof/Machine/Freeze.lean ====
section
/-! DEFINITION. Freezing, restoring and migrating tiles (R203 to R209, R384, R385, R387), and switching contexts (R144,
R201, R202). A frozen tile keeps its place in the tables of State; an image whose core has been released stands under a
core number from 384 up, which is no core. -/

namespace Sys2Proof.Machine

/-! ### Tiles (R203) -/

/-- The groups of some cores. -/
def State.groupsOf (s : State) (cores : List Nat) : List (GroupId × Group) :=
  s.groups.filter (fun (k, g) => !k.isDebug && cores.contains g.core)

/-- UNITS of an image (R204). -/
def State.unitsOf (s : State) (core : Nat) : BitVec 64 :=
  let gs := s.groupsOf [core]
  let ts := s.teamsOn core
  let b (x : Bool) : Nat := x.toNat
  BitVec.ofNat 64 (((List.range 4).map (fun q => b (gs.any (fun (_, g) => g.quad == q)) * 2 ^ q)).sum +
    b (ts.any (fun (_, t, _) => decide (0 < t.tiles))) * 16 + b (ts.any (fun (_, t, _) => decide (0 < t.spad))) * 32 +
    b (ts.any (fun (_, t, _) => !t.tags.isEmpty)) * 64)

/-- The groups of a core that an entry counts as absent (R143): members that have not arrived. -/
def absentIn (gs : List (GroupId × Group)) (h : BitVec 32) (e : SEntry) : Nat :=
  (gs.filter (fun (k, g) => g.handles.contains h && e.isMember k && !e.arrived.contains k)).length

/-- Every entry named in the groups' h registers records the absent members of a core (R143, R385). -/
def State.reportAbsent (s : State) (core : Nat) : State :=
  let gs := s.groupsOf [core]
  let hs := (gs.flatMap (fun (_, g) => g.handles)).eraseDups
  (hs.filter s.handleOk).foldl (fun s h =>
    let e := s.entryOf h
    let n := absentIn gs h e
    s.putEntry h { e with absent := e.absent ++ [(core, n)] }) s

/-- Freeze one core of a tile (R203, R204, R387): reads outstanding on its port are counted. `target` is the core Isacor has
named in a migration. -/
def State.freezeCore (s : State) (target : Option Nat) (core : Nat) : State :=
  let gs := s.groupsOf [core]
  let ctx := ((s.teamsOn core).head?.map (fun (_, t, _) => t.ctx)).getD 0
  let f : Frozen :=
    { stage := .landing, vcore := s.newVcore ctx core [], ctx := ctx, rev := Config.tileRev core
      lhash := Config.scanHash core, units := s.unitsOf core, landed := [], held := [], wakes := [], due := false, target := target
      portable := false, home := core }
  let reads := (gs.map (fun (_, g) => (g.wb.filter (·.port)).length)).sum
  let s := s.reportAbsent core
  s.modCore core (fun c => { c with
    frozen := some f, counts := { PortCounts.reset with outrd := BitVec.ofNat 8 reads } })

/-- Freeze the tile of a core (R203): its clocks stop, its streams stop under R107, and its absent members are
reported. -/
def State.freezeTile (s : State) (core : Nat) (target : Option Nat) : State :=
  let cores := s.tileCores core
  let keys := (cores.flatMap (fun c => (s.teamsOn c).map (·.1))).eraseDups
  let s := keys.foldl State.stopStreams s
  cores.zipIdx.foldl (fun s (c, i) => s.freezeCore (target.map (· + i)) c) s

/-- The core that an event names. -/
def State.selCore (s : State) : Nat := s.sel % 384

/-- FREEZE (R203). -/
def execFreeze (s : State) : Out :=
  let core := s.selCore
  if s.coreUsed core && !(s.core core).frozen.isSome then .next (s.freezeTile core none) else .next s

/-- Change the image of a core. -/
def State.modFrozen (s : State) (core : Nat) (f : Frozen → Frozen) : State :=
  s.modCore core (fun c => { c with frozen := c.frozen.map f })

/-- LANDING_CLOSE (R203): 64 cycles after the freeze the landing buffer closes. -/
def execLandingClose (s : State) : Out :=
  .next ((s.tileCores s.selCore).foldl (fun s c => s.modFrozen c (fun f =>
    if f.stage = .landing then { f with stage := .closed } else f)) s)

/-! ### Moving a tile -/

/-- Move all that lies on a core to another core number, which holds nothing. The placement counts, the leave state and
the clocks of the quadrants belong to the physical core and stay (R127). -/
def State.moveCore (s : State) (src dst : Nat) : State :=
  let a := s.core src
  let b := s.core dst
  let ren (l : List (Nat × Nat)) : List (Nat × Nat) := l.map (fun x => if x.1 = src then (dst, x.2) else x)
  let s := (s.setCore dst { a with
    teamCnt := b.teamCnt, near := b.near, slow := b.slow, leave := b.leave, stepped := b.stepped, tdc := b.tdc
    tds := b.tds, passing := b.passing, periods := b.periods, sampled := b.sampled }).setCore src { Core.reset with
    teamCnt := a.teamCnt, near := a.near, slow := a.slow, leave := a.leave, stepped := a.stepped, tdc := a.tdc
    tds := a.tds, passing := a.passing, periods := a.periods, sampled := a.sampled }
  { s with
    groups := s.groups.mapVals (fun k g => if !k.isDebug && g.core == src then { g with core := dst } else g)
    teams := s.teams.mapVals (fun _ t => if t.core = src then { t with core := dst } else t)
    dies := s.dies.mapVals (fun _ d => { d with entries := d.entries.mapVals (fun _ e => { e with absent := ren e.absent }) })
    builtins := s.builtins.mapVals (fun _ e => { e with absent := ren e.absent }) }

/-- Move a tile. The home core of a pair goes last of the renamings that look at it, so the partner is moved first. -/
def State.moveTile (s : State) (cores : List Nat) (dst : Nat) : State :=
  (cores.zipIdx.reverse).foldl (fun s (c, i) => s.moveCore c (dst + i)) s

/-- The lowest even number from 384 up under which no image stands, nor under the one after it. -/
def State.shelf (s : State) : Nat :=
  let used := (s.cores.keysWhere (fun _ c => c.frozen.isSome))
  ((List.range (s.cores.length + 1)).map (fun k => 384 + 2 * k)).find? (fun p => !used.contains p && !used.contains (p + 1)) |>.getD 384

/-- Is the image of a core released when it is complete: a migration (R384), or a context switch (R201)? -/
def State.releases (s : State) (f : Frozen) : Bool :=
  f.target.isSome || ((s.ctx? f.ctx).map (fun c => c.stage == .frozen || c.stage == .out)).getD false

/-- The images of a tile are complete: header, digest and body stand in the save area of its context. -/
def State.completeImages (s : State) (cores : List Nat) (portable : Bool) : State :=
  cores.foldl (fun s c =>
    match (s.core c).frozen with
    | none => s
    | some f =>
      let f := { f with stage := .complete, portable := f.portable || portable }
      (s.modFrozen c (fun _ => f)).writeImage f) s

/-- Drop the shelf entries that hold no team any more. -/
def State.clearShelf (s : State) : State :=
  { s with cores := s.cores.filter (fun (k, _) => decide (k < 384) || s.teams.any (fun (_, t) => t.cores.contains k)) }

/-- Kill every grid of a context. -/
def State.killGrids (s : State) (ctx : Nat) : State :=
  ((s.grids.keysWhere (fun _ g => g.ctx == ctx))).foldl State.killGrid s

/-- Isacor resets a context (R206, R199). -/
def State.resetCtx (s : State) (ctx : Nat) : State :=
  (s.killGrids ctx).clearShelf.modCtx ctx (fun c => { c with stage := .running, susp := [] })

/-- The freeze of a tile has failed: its context is reset (R206, R199), and a migration's reservation ends. -/
def State.freezeFailed (s : State) (img : Nat) : State :=
  match (s.core img).frozen with
  | none => s
  | some f =>
    let s := { s with reserves := s.reserves.filter (fun r => !(r.queue.isNone && f.target.any (fun t => r.cores.contains t))) }
    s.resetCtx f.ctx

/-- What stops a write or a read of the images of a tile (R16). -/
def State.imagesBad (s : State) (cores : List Nat) : Option Bad :=
  (cores.filterMap (fun c => (s.core c).frozen.bind s.imageBad)).head?

/-- IMAGE_COMPLETE (R203, R204): the scan ends and the header is written; in a migration or a context switch the core is
released (R57). An image waits for a stack that is not ready, and one that has failed is a soft error of the scan (R16, R206,
DEDUCED, log 80). -/
def execImageComplete (s : State) : Out :=
  let cores := s.tileCores s.selCore
  match (s.core (cores.headD 0)).frozen with
  | none => .next s
  | some f =>
    if f.stage ≠ .closed then .next s
    else
      match s.imagesBad cores with
      | some (.hold _) => .next s
      | some _ => .next (s.freezeFailed (cores.headD 0))
      | none =>
        let s := s.completeImages cores false
        .next (if s.releases f then s.moveTile cores s.shelf else s)

/-! ### Restoring (R205, R207, R208) -/

/-- Where the image of the tile frozen on a core stands: on the core itself, or under a shelf number. An image of a
context that may run comes first. -/
def State.imageOf (s : State) (core : Nat) : Option Nat :=
  let l := s.cores.keysWhere (fun _ c => (c.frozen.map (fun f => f.home == core)).getD false)
  let live (k : Nat) : Bool := ((s.core k).frozen.bind (fun f => s.ctx? f.ctx)).elim false (fun c =>
    c.stage == .running || c.stage == .soft)
  ((l.find? live).or l.head?).map (fun k => (s.tileCores k).headD k)

/-- The response of a read on the port arrives at a restored tile: the group's oldest such write-back (R207). -/
def State.response (s : State) (gid : GroupId) : State := s.arriveAt gid (·.port)

/-- Deliver a packet to a core of a restored tile; one that had landed returns its credit (R207, R387). -/
def State.deliver (s : State) (core : Nat) (landed : Bool) (p : Instr) : State :=
  let used (s : State) (channel : Nat) : State :=
    if landed then s.modCore core (fun c => { c with counts := c.counts.consume channel }) else s
  match p with
  | .writeback g => (used (s.response g) 1).readDone core
  | .phaseCompletion g =>
    match execPhaseCompletion g s with
    | .next t => used t 2
    | _ => s
  | _ => s

/-- A group of a restored tile (R143, R178, R202): it is urgent for the handles at which a wake was requested and it has not
arrived; the restore is a fence for it, behind the copies it has started; a group that the debugger halted gives a notice of
TYPE 6, or to the debug core that named it while it was frozen the record of that halt (R372). -/
def State.restoreGroup (s : State) (wakes : List (BitVec 32)) (gid : GroupId) : State :=
  match s.group? gid with
  | none => s
  | some g =>
    let late := wakes.filter (fun h => g.handles.contains h && s.handleOk h && (s.entryOf h).isMember gid &&
      !(s.entryOf h).arrived.contains gid)
    let s := (s.fenceAll gid).setGroup gid { g with urgent := (g.urgent ++ late).eraseDups, fenced := true }
    let s := if late.isEmpty then s else s.modCore g.core (·.leaveNear g.quad)
    let sl : SlotId := if g.lastB && g.split then .b else .a
    let pc := (g.slot sl).pc
    if !g.dhalt then s
    else
      match g.kind with
      | .pending die =>
        (s.modGroup gid (fun g => { g with kind := .halt, haltPc := pc, stopPc := pc })).inboxPut die g.ctx (stopRecord s gid g sl 4 pc 0x22 0 0)
      | _ => s.inboxPut (dieOfCore g.core) g.ctx (stopRecord s gid g sl 6 pc 0x22 0 0)

/-- Restore the image at `img` on a core (R205, R207, R208, R387): the tile moves, its port takes the counts of the image, its
landed and then its held packets are delivered, its counts at the entries go, its team streams go on, and the stops that the freeze
has captured are taken (R200). -/
def State.restoreTile (s : State) (img target : Nat) : State :=
  let cores := s.tileCores img
  let f := (s.core img).frozen
  let wakes := (cores.flatMap (fun c => ((s.core c).frozen.map (·.wakes)).getD [])).eraseDups
  let s := s.wakeRegion (regionOfCore target)
  let s := if img = target then s else s.moveTile cores target
  let new := cores.zipIdx.map (fun (_, i) => target + i)
  let packets := new.flatMap (fun c => ((s.core c).frozen.map (fun f =>
    f.landed.map (fun p => (c, true, p)) ++ f.held.map (fun p => (c, false, p)))).getD [])
  let s := new.foldl State.unfreeze s
  let s := new.foldl (fun s c => s.modCore c (fun x => { x with counts := .ofWord x.counts.word })) s
  let s := { s with
    reserves := if (f.bind (·.target)).isSome then s.reserves.filter (fun r => !(r.queue.isNone && r.cores.contains target))
      else s.reserves }
  let keys := (new.flatMap (fun c => (s.teamsOn c).map (·.1))).eraseDups
  let going := keys.filter (fun k => ((s.team? k).map (fun t => t.marks.isEmpty)).getD false)
  let s := (going.flatMap s.teamSeqIds).foldl (fun s q => s.modSeq q (fun x => { x with stopped := false })) s
  let s := packets.foldl (fun s (c, l, p) => s.deliver c l p) s
  let ids := (s.groupsOf new).map (·.1)
  ids.foldl (State.retakeStop · none) (ids.foldl (State.restoreGroup · wakes) s.clearShelf)

/-- Load the image at `img` on a core that accepts it: an image whose digest does not match resets its context (R205,
R206), and so does one on a stack that has failed (DEDUCED, log 80). The load waits for a stack that is not ready (R16). -/
def State.loadImage (s : State) (img target : Nat) : State :=
  match s.imagesBad (s.tileCores img) with
  | some (.hold _) => s
  | some _ => s.freezeFailed img
  | none =>
    if (s.tileCores img).all (fun c => ((s.core c).frozen.map s.imageOk).getD true) then (s.restoreTile img target).renew
    else s.freezeFailed img

/-- RESTORE (R205, R207): a target that the checks refuse leaves image and context as they were. A complete image of a context
that runs is then due: the firmware restores it on another core as soon as one is free. -/
def execRestore (core target : Fin 384) (s : State) : Out :=
  match s.imageOf core.val with
  | none => .next s
  | some img =>
    if s.restorable img target.val then .next (s.loadImage img target.val)
    else
      .next (s.modFrozen img (fun f =>
        if f.stage = .complete ∧ f.target.isNone ∧
            s.imageRuns f then { f with due := true } else f))

/-- FREEZE_FAIL (R206): a digest mismatch or a soft error. -/
def execFreezeFail (s : State) : Out :=
  match s.imageOf s.selCore with
  | none => .next s
  | some img => .next (s.freezeFailed img)

/-- AUTO_RESTORE (R74, R143, R205): a wake has been requested, or a restore has been refused, and the image is complete. Until
then, and while no core is free, it waits ahead of placements (`State.restoreDue`). -/
def execAutoRestore (s : State) : Out :=
  match s.imageOf s.selCore with
  | none => .next s
  | some img =>
    match (s.core img).frozen with
    | none => .next s
    | some f =>
      let asked := ((s.tileCores img).flatMap (fun c => ((s.core c).frozen.map (·.wakes)).getD [])).eraseDups
      if (asked.isEmpty && !f.due) || f.stage != .complete then .next s
      else
        match s.autoTarget img with
        | none => .next s
        | some t => .next ((s.modFrozen img (fun f => { f with wakes := asked })).loadImage img t)

/-- MIGRATE_BY_REPLAY (R205): the image is restored on a compatible tile, run to an instruction boundary, and saved there as a
portable image, which is due for a restore on any revision. Every state of this model lies at an instruction boundary. On a stack
that is not ready the image is completed later, and on one that has failed the save fails (log 80). -/
def execMigrateByReplay (core target : Fin 384) (s : State) : Out :=
  match s.imageOf core.val with
  | none => .next s
  | some img =>
    match (s.core img).frozen with
    | none => .next s
    | some f =>
      if !s.restorable img target.val then .next s
      else
        let s := s.loadImage img target.val
        if !s.coreUsed target.val || (s.core target.val).frozen.isSome then .next s
        else
          let s := s.freezeTile target.val none
          let cores := s.tileCores target.val
          let s := cores.foldl (fun s c => s.modFrozen c (fun g => { g with wakes := f.wakes, due := true, portable := true })) s
          match s.imagesBad cores with
          | some (.hold _) => .next s
          | some _ => .next (s.freezeFailed (cores.headD 0))
          | none => .next (s.completeImages cores true)

/-- TILE_MIGRATE (R384): Isacor reserves a target and freezes one tile of a running context. -/
def execTileMigrate (core target : Fin 384) (s : State) : Out :=
  let cores := s.tileCores core.val
  let new := cores.zipIdx.map (fun (_, i) => target.val + i)
  let ctx := ((s.teamsOn core.val).head?.map (fun (_, t, _) => t.ctx)).getD 0
  let ok := s.coreUsed core.val && cores.headD 0 == core.val && !(s.core core.val).frozen.isSome && s.placeable ctx &&
    (cores.length == 1 || target.val % 2 == 0) && !s.reservedRegion (regionOfCore target.val) &&
    cores.zipIdx.all (fun (c, i) =>
      let t := target.val + i
      decide (t < 384) && s.enabled t && !s.coreUsed t && !(s.core t).frozen.isSome &&
      Config.tileRev c == Config.tileRev t && Config.scanHash c == Config.scanHash t)
  if ok then
    let s := { s with reserves := s.reserves ++ [(⟨none, new⟩ : Reserve)] }
    .next (s.freezeTile core.val (some target.val))
  else .next s

/-! ### Contexts (R144, R201) -/

/-- The teams of a context. -/
def State.teamsOfCtx (s : State) (ctx : Nat) : List Team := (s.teams.filter (fun (_, t) => t.ctx == ctx)).map (·.2)

/-- PREEMPT (R201): soft pre-emption; no gang of the context is placed any more. -/
def execPreempt (s : State) : Out :=
  .next (s.modCtx s.sel (fun c => if c.stage = .running then { c with stage := .soft, preAt := s.timer } else c))

/-- The gang and grid streams of a context. -/
def State.upperSeqs (s : State) (ctx : Nat) : List SeqId :=
  s.seqs.keysWhere (fun q x => q.level == .gang && x.ctx == ctx) ++ s.seqs.keysWhere (fun q x => q.level == .grid && x.ctx == ctx)

/-- PREEMPT_DEADLINE (R201): the deadline passes before every team has ended; every tile of the context is frozen, with
its gang and grid sequencers. -/
def execPreemptDeadline (s : State) : Out :=
  match s.ctx? s.sel with
  | none => .next s
  | some c =>
    if c.stage ≠ .soft ∨ s.timer < c.preAt + 1000 * s.pdeadline.toNat ∨ (s.teamsOfCtx s.sel).isEmpty then .next s
    else
      let homes := ((s.teamsOfCtx s.sel).map (·.core)).eraseDups
      let s := homes.foldl (fun s k => if (s.core k).frozen.isSome then s else s.freezeTile k none) s
      let s := homes.foldl (fun s k =>
        if ((s.core k).frozen.map (fun f => f.stage == .complete)).getD false && decide (k < 384) then
          s.moveTile (s.tileCores k) s.shelf else s) s
      let s := (s.upperSeqs s.sel).foldl (State.rewindSeq · true) s
      .next (s.modCtx s.sel (fun c => { c with stage := .frozen }))

/-- Can a copy make no progress until a frozen tile is restored: its next write, or the read for it, is answered "absent,
retry" there, or its granule is full (R201)? -/
def State.copyStuck (s : State) (c : Context) (cp : Copy) : Bool :=
  ((cp.group.map (·.teamKey)).toList ++ cp.keys).any (fun k =>
    ((s.team? k).map (fun t => t.cores.any (fun x => (s.core x).frozen.isSome))).getD false) &&
  decide (cp.parts < cp.total) && (if cp.fe = 2#2 then moveGranule s c cp else moveRows s c cp 1).isNone

/-- The copies of a context, by engine and channel. -/
def State.copiesOf (s : State) (ctx : Nat) : List (Nat × Nat × Copy) :=
  s.channels.flatMap (fun (k, l) => (l.filter (fun cp => cp.ctx == ctx)).map (fun cp => (k.1, k.2, cp)))

/-- The entries of a context, with their dies and slots. -/
def State.toPark (s : State) (ctx : Nat) : List (Nat × Nat × SEntry) :=
  s.dies.flatMap (fun (n, d) => (d.entries.filter (fun (_, e) => e.valid && e.ctx.toNat == ctx)).map (fun (k, e) => (n, k, e)))

/-- Park the entries of a context on every die (R144): what does not stay in the slot goes into the context's image, in the
layout of R128. -/
def State.park (s : State) (ctx : Nat) : State :=
  let saved := s.toPark ctx
  let s := { s with dies := s.dies.mapVals (fun _ d => { d with entries := d.entries.mapVals (fun _ e =>
    if e.valid && e.ctx.toNat == ctx then { SEntry.reset with key := e.key, ctx := e.ctx, gen := e.gen, parked := true } else e) }) }
  (s.modCtx ctx (fun c => { c with parkedE := saved })).writeParked ctx saved

/-- Save the placement state of a context's queues; a reservation of a head ends (R201). -/
def State.saveQueues (s : State) (ctx : Nat) (c : Context) : State :=
  let mine := s.queues.filter (fun (_, q) => q.pasid == c.pasid)
  let s := { s with
    queues := s.queues.mapVals (fun _ q => if q.pasid = c.pasid then { q.newHead s.timer with grids := [] } else q)
    reserves := s.reserves.filter (fun r => !(r.queue.elim false (fun n => mine.any (fun x => x.1 == n)))) }
  s.modCtx ctx (fun c => { c with savedQ := mine })

/-- Suspend the copies of a context that can make no progress: each leaves its channel for the image (R201). -/
def State.suspend (s : State) (ctx : Nat) (c : Context) : State :=
  let gone := (s.copiesOf ctx).filter (fun x => s.copyStuck c x.2.2)
  let s := { s with
    channels := (s.channels.mapVals (fun _ l => l.filter (fun cp => !(cp.ctx == ctx && s.copyStuck c cp)))).filter
      (fun e => !e.2.isEmpty) }
  s.modCtx ctx (fun c => { c with susp := c.susp ++ gone })

/-- CONTEXT_SWITCH_COMPLETE (R201): every team has ended, or every tile's image is complete; the copies that can make no
progress are suspended, and once the others have signalled the entries are parked and the queue state is saved. Their image waits for a stack
that is not ready; on one that has failed the context is reset, as when a scan fails (R16, R206, DEDUCED, log 80). -/
def execContextSwitchComplete (s : State) : Out :=
  let ctx := s.sel
  match s.ctx? ctx with
  | none => .next s
  | some c =>
    let ended := (s.teamsOfCtx ctx).isEmpty
    let imaged := c.stage == .frozen && (s.teamsOfCtx ctx).all (fun t => t.cores.all (fun k => decide (384 ≤ k)))
    if (c.stage = .soft ∨ c.stage = .frozen) ∧ (ended ∨ imaged) then
      let s := s.suspend ctx c
      if !(s.copiesOf ctx).isEmpty then .next s
      else
        match s.parkedBad ctx (s.toPark ctx) with
        | some (.hold _) => .next s
        | some _ => .next (s.resetCtx ctx)
        | none => .next (((s.modCtx ctx (fun c => { c with stage := .out })).park ctx).saveQueues ctx c)
    else .next s

/-- CONTEXT_RESTORE (R144, R201): the parked entries are written back to their dies and slots, suspended copies go ahead of
later starts on their channels, and the queue state returns; the tiles follow, one RESTORE each. -/
def execContextRestore (s : State) : Out :=
  let ctx := s.sel
  match s.ctx? ctx with
  | none => .next s
  | some c =>
    if c.stage ≠ .out then .next s
    else
      let s := c.parkedE.foldl (fun s (d, k, e) => s.setEntry d k e) s
      let s := c.susp.reverse.foldl (fun s (e, ch, cp) => s.setChannel (e, ch) (cp :: s.channel (e, ch))) s
      let s := c.savedQ.foldl (fun s (n, q) => s.modQueue n (fun x =>
        { x with grids := q.grids ++ x.grids, elev := q.elev, bfc := q.bfc, blk := q.blk, since := q.since, became := s.timer })) s
      let s := (s.upperSeqs ctx).foldl (fun s q => s.modSeq q (fun x => { x with stopped := false })) s
      .next (s.modCtx ctx (fun c => { c with stage := .running, parkedE := [], susp := [], savedQ := [] }))

/-- CONTEXT_DESTROY (R78, R144): the grids of the context are killed, its entries are freed and their GEN advances, its
continuation records and images go, and so do the copies that nothing can signal any more. Overflow records of other
contexts move into the space that frees (R77). -/
def execContextDestroy (s : State) : Out :=
  let ctx := s.sel
  match s.ctx? ctx with
  | none => .next s
  | some c =>
    let s := (s.killGrids ctx).clearShelf
    let mine := s.queues.keysWhere (fun _ q => q.pasid == c.pasid)
    let s := mine.foldl (fun s n => (s.modQueue n (fun q => { q with inflight := [], grids := [] })).settleDisable n) s
    let s := { s with
      dies := s.dies.mapVals (fun _ d => { d with
        entries := d.entries.mapVals (fun _ e => if (e.valid || e.parked) && e.ctx.toNat == ctx then e.freed else e)
        tasks := d.tasks.filter (fun t => t.ctx != ctx) })
      channels := (s.channels.mapVals (fun _ l => l.filter (fun cp => cp.ctx != ctx))).filter (fun e => !e.2.isEmpty) }
    .next ((List.range 4).foldl State.refillAll { s with contexts := s.contexts.drop ctx })

end Sys2Proof.Machine
end

