-- ==== Sys2Proof/Machine/Isacor.lean ====
section
/-! DEFINITION. Isacor (03_code_loading): images (R48, R263), system calls (R49, R50), the linked-image cache (R52), the
code heap and its stubs (R53 to R55, R379). Where Isacor puts things is its own choice, and so the model's (log 28). -/

namespace Sys2Proof.Machine

/-! ### Results -/

/-- −1 to −5 of R49. -/
def errBad : Word := 0xFFFFFFFFFFFFFFFF
def errNone : Word := 0xFFFFFFFFFFFFFFFE
def errRight : Word := 0xFFFFFFFFFFFFFFFD
def errCall : Word := 0xFFFFFFFFFFFFFFFC
def errHeap : Word := 0xFFFFFFFFFFFFFFFB

/-- A system call returns: its result stands in a0. -/
def State.answer (s : State) (ctx : Nat) (x : Word) : State := s.modCtx ctx (fun c => { c with a0 := x })

/-- A step of the control program of a context that runs. -/
def program (ctx : Nat) (s : State) (f : Context → State) : Out :=
  match s.ctx? ctx with
  | none => .next s
  | some c => if c.ended then .next s else .next (f c)

/-- The call numbers that Isacor knows (R49). -/
def knownCalls : Nat := 8

/-- A system call of the control program. The unit that the step names is the value of a7 where Isacor does not know it, and
the call then returns −4 (R51, log 111); below 8 it is the number of the call that the step stands for. -/
def syscall (ctx : Nat) (s : State) (f : Context → State) : Out :=
  program ctx s (fun c => if knownCalls ≤ s.sel then s.answer ctx errCall else f c)

/-! ### Frames and page tables (R153) -/

/-- Does the first of some accesses that cannot be made now wait for a stack that is not ready (R16)? Isacor's call then
waits too: its step changes nothing, and a later step of its name makes it again (DESIGN CHOICE, log 122). -/
def State.heldAt (s : State) (c : Context) (need : Leaf → Option Bad) : List Nat → Bool
  | [] => false
  | x :: l =>
    match translate s c x need with
    | .ok _ => s.heldAt c need l
    | .error (.hold _) => true
    | .error _ => false

/-- Does a walk of some page wait for a stack that is not ready? -/
def State.heldWalk (s : State) (c : Context) : (n : Nat) → (va : Nat) → Bool
  | 0, _ => false
  | n + 1, va =>
    (match walk s va 5 c.root.toNat with
      | .error (.hold _) => true
      | _ => false) || s.heldWalk c n (va + 4096)

/-- No memory could be given: the call waits for a stack that may become ready, or −2 is its result. -/
def State.noRoom (s : State) (ctx : Nat) : State := if s.roomHeld then s else s.answer ctx errNone

/-- Write a page-table entry at a level, with the tables above it: none when a table cannot be reached. -/
def State.mapEntry (s : State) (ctx va target : Nat) (e : Word) : (fuel : Nat) → (table : Nat) → Option State
  | 0, _ => none
  | fuel + 1, table =>
    let level := 5 - fuel
    let a := table + 8 * (va / 2 ^ levelShift level % 512)
    if (localBad s a).isSome then none
    else if level = target then some (s.poke a (leBytes 8 e.toNat))
    else
      let old := leNat (memRead s.mem a 8)
      if old % 2 = 1 then (if old / 2 % 2 = 1 then none else s.mapEntry ctx va target e fuel (old / 4096 * 4096 % 2 ^ 43))
      else
        match s.giveFrames ctx 4096 4096 with
        | none => none
        | some (f, s) =>
          ((s.poke f (List.replicate 4096 0)).poke a (leBytes 8 (f + 1))).mapEntry ctx va target e fuel f

/-- The leaf of a page (R153): FRAME, DEV of the device, size code, W and X. -/
def leafWord (s : State) (pa size : Nat) (w x : Bool) : Word :=
  BitVec.ofNat 64 (3 + w.toNat * 4 + x.toNat * 8 + size * 16 + pa + s.ownDev * 2 ^ 43)

/-- Map consecutive pages of a size code, each with its replicas: `unit` is the natural size of the level. -/
def State.mapPages (s : State) (ctx root level size unit : Nat) (w x : Bool) : (n : Nat) → (va pa : Nat) → Option State
  | 0, _, _ => some s
  | n + 1, va, pa =>
    match s.mapEntry ctx va level (leafWord s (pa / pageSize size * pageSize size) size w x) 5 root with
    | none => none
    | some s => s.mapPages ctx root level size unit w x n (va + unit) (pa + unit)

/-- Is any page of a range mapped? -/
def State.anyMapped (s : State) (c : Context) : (n : Nat) → (va : Nat) → Bool
  | 0, _ => false
  | n + 1, va =>
    (match walk s va 5 c.root.toNat with
      | .error .page => false
      | _ => true) || s.anyMapped c n (va + 4096)

/-- Is every page of a range mapped? -/
def State.allMapped (s : State) (c : Context) : (n : Nat) → (va : Nat) → Bool
  | 0, _ => true
  | n + 1, va =>
    (match walk s va 5 c.root.toNat with
      | .ok _ => true
      | .error _ => false) && s.allMapped c n (va + 4096)

/-! ### Images (R48, R263) -/

/-- A context's heap, ring, template, trace, private and doorbell addresses. -/
def heapAt : PC := 0x8000000000
def ringAt : Nat := 0x9000000000
def templatesAt : Nat := 0xA000000000
def traceAt : Nat := 0xB000000000
def privateAt : Nat := 0xC000000000
def bellsAt : Nat := 0xD000000000

/-- The heap size that a load asks for by the unit its step names (R53): 4 MiB times it, from 1 to 256, or for 0 the
default of 64 MiB (log 111). -/
def heapBytes (n : Nat) : Nat := if n = 0 then 64 * 2 ^ 20 else 4 * 2 ^ 20 * n

/-- A kernel record with its code. A record, code or data beyond the end of the image is not refused: missing code bytes are 0,
and the data is what there is of it (DESIGN CHOICE, log 108). -/
def kernelAt (img : List Byte) (koff k : Nat) : Kernel :=
  let r := (img.drop (koff + 64 * k)).take 64
  let code := (img.drop (koff + field r 0 4)).take (4 * field r 4 4)
  { code := (List.range (field r 4 4)).map (fun i => BitVec.ofNat 32 (field code (4 * i) 4))
    data := (img.drop (koff + field r 8 4)).take (field r 12 4)
    shape := BitVec.ofNat 32 (field r 16 4), alloc := BitVec.ofNat 32 (field r 20 4), counts := BitVec.ofNat 32 (field r 24 4)
    entry := field r 28 4, ecopy := field r 32 4, emat := field r 36 4, evec := field r 40 4 }

/-- Is an image refused (R48)? -/
def imageBad (img : List Byte) : Bool :=
  decide (img.length < 64) || field img 0 4 != 0x53574150 || decide (Config.abi < field img 4 2) || field img 6 2 != 0 ||
  field img 28 4 != 0 || (img.drop 32).take 32 != sha256 (img.drop 64)

/-- The entries of a kernel, in words (R379): one, or one for each role that has groups. -/
def Kernel.entries (k : Kernel) : List Nat :=
  if k.counts = 0#32 then [k.entry]
  else
    (if k.counts.extractLsb' 0 6 = 0#6 then [] else [k.ecopy]) ++ (if k.counts.extractLsb' 6 6 = 0#6 then [] else [k.emat]) ++
    (if k.counts.extractLsb' 12 6 = 0#6 then [] else [k.evec])

/-- The stubs of the kernels, 16 bytes each from the base of the heap (R53, R379). -/
def stubsFrom (base : PC) : Nat → List Kernel → List HeapFn
  | _, [] => []
  | n, k :: ks =>
    let i := base.toNat
    { kernel := n, stubs := k.entries.zipIdx.map (fun (e, j) => (BitVec.ofNat 57 (i + 16 * j), e)), body := none
      bytes := 4 * k.code.length, published := false, loaded := false } :: stubsFrom (BitVec.ofNat 57 (i + 16 * k.entries.length)) (n + 1) ks

/-- The bytes of the stub area. -/
def stubArea (fns : List HeapFn) : Nat := max 0x10000 (ceilDiv (16 * (fns.map (·.stubs.length)).sum) 0x10000 * 0x10000)

/-- A new context: its tables, its heap, its template pages and its private blocks are mapped (R53, R157, R161). -/
def State.newContext (s : State) (ctx size : Nat) : Option State :=
  let c : Context :=
    { pasid := BitVec.ofNat 20 ctx, fn := 0, root := 0, pvbase := BitVec.ofNat 64 privateAt
      tmbase := BitVec.ofNat 64 templatesAt, mcbase := BitVec.ofNat 64 (templatesAt + 0x4000)
      trbase := BitVec.ofNat 64 traceAt, trctl := 0, digest := [], kernels := [], heapBase := heapAt, heapSize := size
      heapNext := 0, fns := [], frames := 0, a0 := 0, logged := [], ended := false, cwait := none, stage := .running
      preAt := 0, save := none, parkedE := [], susp := [], savedQ := [], ovf := 0, ovfn := 0, ovfUsed := [], bells := [], bptSet := [], wptSet := [] }
  match (s.setCtx ctx c).giveFrames ctx 4096 4096 with
  | none => none
  | some (root, s) =>
    let s := (s.poke root (List.replicate 4096 0)).modCtx ctx (fun c => { c with root := BitVec.ofNat 43 root })
    let heap : Option State := (s.giveFrames ctx size (4 * 2 ^ 20)).bind (fun (f, s) =>
      s.mapPages ctx root 4 5 (2 * 2 ^ 20) false true (size / (2 * 2 ^ 20)) heapAt.toNat f)
    let tm : Option State := heap.bind (fun s => (s.giveFrames ctx 0x5000 4096).bind (fun (f, s) =>
      s.mapPages ctx root 5 0 4096 true false 5 templatesAt f))
    tm.bind (fun s => (s.giveFrames ctx (9 * 2 ^ 30) (2 ^ 30)).bind (fun (f, s) =>
      s.mapPages ctx root 3 9 (2 ^ 30) true false 9 privateAt f))

/-- A load returns to its caller: in a0 of the context that it is for, or, where there is none yet, to the host program. -/
def State.loadReply (s : State) (ctx : Nat) (x : Word) : State :=
  if (s.ctx? ctx).isSome then s.answer ctx x else { s with callReply := x }

/-- IMAGE_LOAD (R48, R53): a refused image gives −1, and so does a heap size outside the limits of R53. Which kernel
sections count as refused (log 108), and the values 0 and −2 of a load (log 109), are DESIGN CHOICES. -/
def execImageLoad (ctx : Nat) (image : List Byte) (s : State) : Out :=
  let koff := field image 16 8
  let n := field image 24 4
  if 2 ^ 20 ≤ ctx then .next s
  else if imageBad image || koff % 4 != 0 || n == 0 || decide (65535 < n) || decide (256 < s.sel) then
    .next (s.loadReply ctx errBad)
  else
    match (if (s.ctx? ctx).isSome then some s else ({ s with callReply := 0 }).newContext ctx (heapBytes s.sel)) with
    | none => .next (if s.roomHeld then s else s.loadReply ctx errNone)
    | some s =>
      let ks := (List.range n).map (kernelAt image koff)
      .next (s.modCtx ctx (fun c =>
        let fns := stubsFrom c.heapBase 0 ks
        { c with digest := (image.drop 32).take 32, kernels := ks, fns := fns, heapNext := stubArea fns, a0 := 0, ended := false }))

/-! ### System calls (R49, R50) -/

/-- EXIT (R49): it does not return. -/
def execExit (ctx : Nat) (status : Word) (s : State) : Out :=
  syscall ctx s (fun _ => s.modCtx ctx (fun c => { c with ended := true, a0 := status, cwait := none }))

/-- The bytes of a virtual range, if all of it can be read. -/
def State.readRange (s : State) (c : Context) (a n : Nat) : Option (List Byte) :=
  (placesOf s c none needRead a n).bind (fun l =>
    if l.any (fun x => x.1.isNone) then none
    else some (l.flatMap (fun (p, n) => p.elim [] (fun p => readPlace s p n))))

/-- The pieces of a range, each by its first byte. -/
def pieceStarts (a n : Nat) : List Nat := (rowPieces a n).map (·.1)

/-- LOG (R49): the number of bytes written. -/
def execLog (ctx : Nat) (addr len : Word) (s : State) : Out :=
  syscall ctx s (fun c =>
    if s.heldAt c needRead (pieceStarts addr.toNat len.toNat) then s
    else match s.readRange c addr.toNat len.toNat with
    | some bs => (s.modCtx ctx (fun c => { c with logged := c.logged ++ bs })).answer ctx len
    | none => s.answer ctx errBad)

/-- A page of a queue at an address, its ring or its doorbell, unless one is mapped there. -/
def State.mapRing (s : State) (ctx va : Nat) : Option State :=
  match s.ctx? ctx with
  | none => none
  | some c =>
    if s.allMapped c 1 va then some s
    else (s.giveFrames ctx 4096 4096).bind (fun (f, s) => s.mapPages ctx c.root.toNat 5 0 4096 true false 1 va f)

/-- QUEUE_OPEN (R49): the lowest unassigned queue, with a ring of 64 packets and its doorbell page (R30), at the lowest
free index of the function; it is enabled at once (DESIGN CHOICES, log 28). -/
def execQueueOpen (ctx : Nat) (prio : Word) (s : State) : Out :=
  syscall ctx s (fun c =>
    if 4 ≤ prio.toNat then s.answer ctx errBad
    else
      let taken (l : Nat) : Bool := (s.queueAt c.fn l).isSome
      let free (n : Nat) : Bool := !((s.qown.find n).map (·.val)).getD false && (s.queue n).state == 0#2
      match (List.range 1024).find? free, (List.range 1024).find? (fun l => !taken l) with
      | some n, some l =>
        let va := ringAt + 4096 * l
        if s.heldWalk c 1 va || s.heldWalk c 1 (bellsAt + 4096 * l) then s
        else match (s.mapRing ctx va).bind (fun s => s.mapRing ctx (bellsAt + 4096 * l)) with
        | none => s.noRoom ctx
        | some s =>
          let s := s.modCtx ctx (fun c => { c with bells := c.bells.put ((bellsAt + 4096 * l) / 4096) n })
          let s := { s with qown := s.qown.put n ⟨BitVec.ofNat 6 c.fn, true, BitVec.ofNat 10 l⟩ }
          let s := s.modQueue n (fun q => { q with
            base := BitVec.ofNat 57 va, size := 0, prio := prio.setWidth 2, elev := prio.setWidth 2, pasid := c.pasid })
          (((s.queueControl n true false).versioned n)).answer ctx (BitVec.ofNat 64 l)
      | _, _ => s.answer ctx errNone)

/-- A range that `mem_map` and `mem_unmap` accept: whole pages below the reserved range. -/
def rangeOk (va bytes : Nat) : Bool :=
  va % 4096 == 0 && bytes % 4096 == 0 && bytes != 0 && decide (va + bytes ≤ windowBase)

/-- MEM_MAP (R49): pages of 4 KiB; bit 0 of flags allows writes, bit 1 fetches, and any other bit set answers −1 (DESIGN
CHOICES, log 28). -/
def execMemMap (ctx : Nat) (va bytes flags : Word) (s : State) : Out :=
  syscall ctx s (fun c =>
    let n := bytes.toNat / 4096
    if !rangeOk va.toNat bytes.toNat || decide (4 ≤ flags.toNat) then s.answer ctx errBad
    else if s.heldWalk c n va.toNat then s
    else if s.anyMapped c n va.toNat then s.answer ctx errBad
    else
      match (s.giveFrames ctx bytes.toNat 4096).bind (fun (f, s) =>
          s.mapPages ctx c.root.toNat 5 0 4096 (flags.getLsbD 0) (flags.getLsbD 1) n va.toNat f) with
      | some s => s.answer ctx 0
      | none => s.noRoom ctx)

/-- MEM_UNMAP (R49). A range of which some page is not mapped answers −1 and nothing of it is unmapped (DESIGN CHOICE, log 28). -/
def execMemUnmap (ctx : Nat) (va bytes : Word) (s : State) : Out :=
  syscall ctx s (fun c =>
    let n := bytes.toNat / 4096
    if !rangeOk va.toNat bytes.toNat then s.answer ctx errBad
    else if s.heldWalk c n va.toNat then s
    else if !s.allMapped c n va.toNat then s.answer ctx errBad
    else
      let t := (List.range n).foldl (fun (s : Option State) k =>
        s.bind (fun s => s.mapEntry ctx (va.toNat + 4096 * k) 5 0 5 c.root.toNat)) (some s)
      (t.getD s).answer ctx (if t.isSome then 0 else errBad))

/-- The stubs that fn_load has returned to a context: the first one of each function that it has loaded (R50, R379). -/
def Context.stubKnown (c : Context) (a : Word) : Bool :=
  c.fns.any (fun f => f.loaded && f.stubs.head?.any (fun e => zx e.1 == a))

/-- The virtual address of a slot of a ring. -/
def Queue.slotAt (q : Queue) (idx : BitVec 32) : Nat := q.base.toNat + 64 * (idx.toNat % q.size64)

/-- Write packets into adjacent slots of a ring; none when a slot cannot be written. -/
def State.putSlots (s : State) (n : Nat) (c : Context) (idx : BitVec 32) : List (List Byte) → Option State
  | [] => some s
  | bs :: rest =>
    let q := s.queue n
    match translate s c (q.slotAt idx) needWrite with
    | .error _ => none
    | .ok pa => (s.put (.phys pa) bs).putSlots n c (idx + 1) rest

/-- LAUNCH_CALL (R50): both packets are written before WRX moves; a LAUNCH whose ENTRY names no entry stub gives −1 and
writes nothing. That a full ring gives −2, a queue of another address space −3, and each other failure −1, is a DESIGN
CHOICE (log 110). -/
def execLaunchCall (ctx : Nat) (queue packet : Word) (s : State) : Out :=
  syscall ctx s (fun c =>
    if s.heldAt c needRead [packet.toNat, packet.toNat + 63] then s
    else match (if queue.toNat < 1024 then s.queueAt c.fn queue.toNat else none), s.readRange c packet.toNat 64 with
    | some n, some bs =>
      let p := Packet.ofBytes bs
      let q := s.queue n
      let all : Option (List (List Byte)) :=
        if p.roles then (s.readRange c (packet.toNat + 64) 64).map (fun r => [bs, r]) else some [bs]
      if p.roles && s.heldAt c needRead [packet.toNat + 64, packet.toNat + 127] then s
      else if q.pasid ≠ c.pasid then s.answer ctx errRight
      else if p.typ ≠ 0x14#8 ∨ !q.en ∨ (p[1] ≠ 0#64 ∧ !c.stubKnown p[1]) then s.answer ctx errBad
      else
        match all with
        | none => s.answer ctx errBad
        | some l =>
          if q.size64 < (q.wrx - q.rdx).toNat + l.length then s.answer ctx errNone
          else if s.heldAt c needWrite ((List.range l.length).map (fun i => q.slotAt (q.wrx + BitVec.ofNat 32 i))) then s
          else
            match s.putSlots n c q.wrx l with
            | none => s.answer ctx errBad
            | some s => ((s.doorbell n (q.wrx + BitVec.ofNat 32 l.length)).versioned n).answer ctx (zx q.wrx)
    | _, _ => s.answer ctx errBad)

/-- The value of a counter of a context, if it can be read. -/
def counterValue (s : State) (c : Context) (a : Word) : Option Nat :=
  match translate s c a.toNat needRead with
  | .ok pa => some (leNat (physRead s pa 8))
  | .error _ => none

/-- COUNTER_WAIT (R49): 0 once the counter has reached the target; a call that waits is tested again by the next step of
this name, with the deadline it began with. -/
def execCounterWait (ctx : Nat) (addr target timeout : Word) (s : State) : Out :=
  syscall ctx s (fun c =>
    if addr.toNat % 8 ≠ 0 then s.answer ctx errBad
    else if s.heldAt c needRead [addr.toNat] then s
    else
      match counterValue s c addr with
      | none => s.answer ctx errBad
      | some v =>
        if target.toNat ≤ v then s.modCtx ctx (fun c => { c with a0 := 0, cwait := none })
        else
          match c.cwait with
          | some w => if w.addr = addr ∧ w.target = target then s
            else s.modCtx ctx (fun c => { c with cwait := some ⟨addr, target, s.timer + timeout.toNat⟩ })
          | none => s.modCtx ctx (fun c => { c with cwait := some ⟨addr, target, s.timer + timeout.toNat⟩ }))

/-- COUNTER_WAIT_TIMEOUT (R49): −2 unless the counter has reached its target. -/
def execCounterWaitTimeout (s : State) : Out :=
  program s.sel s (fun c =>
    match c.cwait with
    | none => s
    | some w =>
      if s.timer < w.deadline then s
      else
        let hit := ((counterValue s c w.addr).map (fun v => decide (w.target.toNat ≤ v))).getD false
        s.modCtx s.sel (fun c => { c with cwait := none, a0 := if hit then 0 else errNone }))

/-! ### The code heap (R52 to R55) -/

/-- Write bytes at virtual addresses of a context, as Isacor does, whatever the page allows; what cannot be reached stays. -/
def State.pokeRange (s : State) (c : Context) (a : Nat) (bs : List Byte) : State :=
  let rec go (s : State) : List (Nat × Nat) → List Byte → State
    | [], _ => s
    | (x, n) :: l, bs =>
      let s := match walk s x 5 c.root.toNat with
        | .ok f => if (physBad s f.pa).isSome then s else s.put (.phys f.pa) (bs.take n)
        | .error _ => s
      go s l (bs.drop n)
  go s (rowPieces a bs.length) bs

/-- How far an address inside a moved body falls (R55). -/
def rebase (moved : List (Nat × Nat × Nat)) (pc : PC) : PC :=
  match moved.find? (fun (old, n, _) => decide (old ≤ pc.toNat ∧ pc.toNat < old + n)) with
  | some (old, _, new) => pc - BitVec.ofNat 57 (old - new)
  | none => pc

/-- Every saved program counter of a stack entry (R55). -/
def Entry.rebase (f : PC → PC) : Entry → Entry
  | .div pc fm bm sl run sv outer => .div (f pc) fm bm sl run sv outer
  | .call pc m sl => .call (f pc) m sl
  | .trap pc m opc sp om sl st r outer other =>
    .trap (f pc) m (f opc) sp om sl st r outer (other.map (fun t => { t with pc := f t.pc }))
  | .bad k bs => .bad k bs

/-- A baton with its address rebased. -/
def Baton.rebase (f : PC → PC) (b : Baton) : Baton := { b with pc := f b.pc }

/-- A sequencer's own state rebased. -/
def Owner.rebase (f : PC → PC) (o : Owner) : Owner := { o with pc := f o.pc, stack := o.stack.map f }

/-- A place of a stream rebased. -/
def Standing.rebase (f : PC → PC) (p : Standing) : Standing :=
  { p with own := p.own.rebase f, view := p.view.map (·.rebase f), viewEnd := p.viewEnd.map f }

/-- A baton in a relay queue rebased, with its undo record. -/
def Queued.rebase (f : PC → PC) (b : Queued) : Queued :=
  { b with
    baton := b.baton.rebase f, after := b.after.rebase f, prevEnd := b.prevEnd.map f, view := b.view.map (·.rebase f)
    viewEnd := b.viewEnd.map f }

/-- Every saved program counter of a stream (R55). -/
def Seq.rebase (f : PC → PC) (x : Seq) : Seq :=
  { x with
    own := x.own.rebase f, view := x.view.map (·.rebase f), viewEnd := x.viewEnd.map f, lastEnd := x.lastEnd.map f
    queue := x.queue.map (·.rebase f), trail := x.trail.map (·.rebase f), entry := x.entry.rebase f }

/-- A stop that is held, with its program counter rebased. -/
def Wait.rebase (f : PC → PC) : Wait → Wait
  | .stop k sl r pc => .stop k sl r (f pc)
  | w => w

/-- Every saved program counter of a group (R55). -/
def Group.rebase (f : PC → PC) (g : Group) : Group :=
  { g with
    a := { g.a with pc := f g.a.pc }, b := g.b.map (fun t => { t with pc := f t.pc }), haltPc := f g.haltPc, stopPc := f g.stopPc
    skip := g.skip.map f, wait := g.wait.map (·.rebase f)
    hw := g.hw.map (·.rebase f), view := g.view.rebase f, viewEnd := g.viewEnd.map f
    spilled := g.spilled.map (fun h => { h with other := h.other.map (fun t => { t with pc := f t.pc }) })
    post := g.post.map (fun p => { p with pc := f p.pc }) }

/-- The addresses in a group's spilled entries (R55): word 0, and OPC of a trap entry. -/
def State.rebaseSpilled (s : State) (f : PC → PC) (g : Group) : State :=
  match s.ctx? g.ctx with
  | none => s
  | some c =>
    g.spilled.reverse.zipIdx.foldl (fun s (h, i) =>
      let at_ := privateBase s g + 320 * i
      (if h.kind = 2 then [at_, at_ + 16] else [at_]).foldl (fun s a =>
        match s.readRange c a 8 with
        | none => s
        | some bs =>
          let w := BitVec.ofNat 64 (leNat bs)
          let new := (w &&& ~~~ 0x1FFFFFFFFFFFFFF#64) ||| zx (f (w.setWidth 57))
          s.pokeRange c a (leBytes 8 new.toNat)) s) s

/-- Insert a linked function in the order of its body. -/
def insertBody (l : List HeapFn) (f : HeapFn) : List HeapFn :=
  match l with
  | [] => [f]
  | g :: gs => if (f.body.getD 0).toNat < (g.body.getD 0).toNat then f :: g :: gs else g :: insertBody gs f

/-- Bodies start at multiples of 64 bytes. -/
def bodyAlign (n : Nat) : Nat := ceilDiv n 64 * 64

/-- Where each linked body goes under compaction: its old start, its bytes and its new start. -/
def compactPlan : Nat → List HeapFn → List (Nat × Nat × Nat)
  | _, [] => []
  | next, f :: fs => ((f.body.getD 0).toNat, f.bytes, next) :: compactPlan (next + bodyAlign f.bytes) fs

/-- Isacor writes an entry stub with one store; its bytes are open (R51). -/
def State.patchStubs (s : State) (c : Context) (h : HeapFn) : State :=
  h.stubs.foldl (fun s (a, _) =>
    let bs := (List.range 16).map (fun i => Config.freeByte (s.free + i))
    { s.pokeRange c a.toNat bs with free := s.free + 16 }) s

/-- The tiles of a context that run, each by its home core. -/
def State.tilesRunning (s : State) (ctx : Nat) : List Nat :=
  (((s.teamsOfCtx ctx).map (fun t => (s.tileCores t.core).headD t.core)).eraseDups).filter (fun k => !(s.core k).frozen.isSome)

/-- A context stops at an instruction boundary, and its tiles are saved as portable images (R55 step 2, R205). -/
def State.stopContext (s : State) (tiles : List Nat) : State :=
  tiles.foldl (fun s k =>
    let s := s.freezeTile k none
    s.completeImages (s.tileCores k) true) s

/-- The images of a stopped context are restored where they stand (R55 step 6). -/
def State.resumeContext (s : State) (tiles : List Nat) : State := tiles.foldl (fun s k => s.restoreTile k k) s

/-- Compaction of a code heap (R55, steps 3 to 5): bodies move towards the stub area, every saved address inside one falls
with it, and the stubs of moved functions are written again. -/
def State.compact (s : State) (ctx : Nat) (c : Context) : State :=
  let linked := (c.fns.filter (·.body.isSome)).foldl insertBody []
  let first := c.heapBase.toNat + stubArea c.fns
  let plan := compactPlan first linked
  let f := rebase plan
  let s := plan.foldl (fun s (old, n, new) =>
    match s.readRange c old n with
    | some bs => s.pokeRange c new bs
    | none => s) s
  let s := s.groups.foldl (fun s (k, g) => if !k.isDebug && g.ctx == ctx then s.rebaseSpilled f g else s) s
  let s := (linked.filter (fun h => h.published && h.body != h.body.map f)).foldl (fun s h => s.patchStubs c h) s
  { s with
    groups := s.groups.mapVals (fun k g => if !k.isDebug && g.ctx == ctx then g.rebase f else g)
    seqs := s.seqs.mapVals (fun _ x => if x.ctx = ctx then x.rebase f else x)
    contexts := s.contexts.mapVals (fun k x => if k = ctx then { x with
        fns := x.fns.map (fun h => { h with body := h.body.map f })
        heapNext := stubArea c.fns + (linked.map (fun h => bodyAlign h.bytes)).sum } else x) }

/-- The digest over an entry's contents (R52). -/
def Linked.digestOf (l : Linked) : List Byte :=
  sha256 (l.digest ++ leBytes 4 l.kernel ++ l.code.flatMap (fun w => leBytes 4 w.toNat) ++ l.meas.flatten)

/-- A new entry. -/
def Linked.mk' (digest : List Byte) (kernel : Nat) (code : List (BitVec 32)) (meas : List (List Byte)) : Linked :=
  let e : Linked := ⟨digest, kernel, code, meas, []⟩
  { e with sum := e.digestOf }

/-- Entries that the linked-image cache holds (R52): at least one; the specification gives no number. -/
def cacheMax : Nat := Config.cacheSpare + 1

/-- The linked code of a kernel (R52): from its cache entry, unless the device reports a read error or the entry fails its own
digest; otherwise linked again, where the words of the kernel record need no change. The entry is then the most recently
used, and the least recently used ones beyond the capacity go. -/
def State.cacheLink (s : State) (c : Context) (k : Nat) (code : List (BitVec 32)) : List (BitVec 32) × State :=
  let same (l : Linked) : Bool := l.digest == c.digest && l.kernel == k
  let hit := (s.linked.find? same).filter (fun l => !Config.nvmeError s.free && l.sum == l.digestOf)
  let e := hit.getD (.mk' c.digest k code s.measures)
  (e.code, { s with linked := (e :: s.linked.filter (!same ·)).take cacheMax, free := s.free + 1 })

/-- The pages of a heap. -/
def Context.heapPages (c : Context) : List Nat := (List.range (c.heapSize / (2 * 2 ^ 20))).map (fun i => c.heapBase.toNat + i * (2 * 2 ^ 20))

/-- Where spilled entries of the groups of a context lie. -/
def State.spilledAt (s : State) (ctx : Nat) : List Nat :=
  s.groups.flatMap (fun (k, g) => if k.isDebug || g.ctx != ctx then [] else (List.range g.spilled.length).map (fun i => privateBase s g + 320 * i))

/-- Does Isacor's work on a heap wait for a stack that is not ready (R16)? -/
def State.heapHeld (s : State) (ctx : Nat) (c : Context) : Bool :=
  (c.heapPages ++ s.spilledAt ctx).any (fun a => s.heldAt c needRead [a])

/-- Does a heap lie on a stack that has failed (R16)? -/
def State.heapFailed (s : State) (c : Context) : Bool :=
  c.heapPages.any (fun a => match translate s c a needRead with
    | .error (.viol 8) => true
    | _ => false)

/-- Link a function into the heap (R53, R54 step 1), if it fits. -/
def State.link (s : State) (ctx : Nat) (k : Kernel) (f : HeapFn) : Option State :=
  match s.ctx? ctx with
  | none => none
  | some c =>
    let at_ := bodyAlign c.heapNext
    if c.heapSize < at_ + f.bytes then none
    else
      let body := c.heapBase + BitVec.ofNat 57 at_
      let (code, s) := s.cacheLink c f.kernel k.code
      let s := s.pokeRange c body.toNat (code.flatMap (fun w => leBytes 4 w.toNat))
      some (s.modCtx ctx (fun c => { c with
        heapNext := at_ + f.bytes
        fns := c.fns.map (fun x => if x.kernel = f.kernel then { x with body := some body } else x) }))

/-- Groups that wait in the loader for a kernel of a context, with the slot that waits. -/
def State.inLoader (s : State) (ctx kernel : Nat) : List GroupId :=
  s.groups.keysWhere (fun k g => !k.isDebug && g.ctx == ctx && g.wait == some (.loader kernel))

/-- The slot of a group that stands at an entry stub of a kernel. -/
def stubSlot (s : State) (g : Group) (kernel : Nat) : SlotId :=
  match stubAt s g.ctx g.a.pc with
  | some (.loader k) => if k = kernel then .a else .b
  | _ => .b

/-- The stub of a kernel that keeps the first stream of a list: it stands there itself, or it has come to the end of what the
next stream, which the stub keeps, has issued. -/
def State.stubOf (s : State) (kernel : Nat) : List SeqId → Option PC
  | [] => none
  | q :: up =>
    match s.seq? q with
    | none => none
    | some x =>
      let all := (up.head?.map (fun p => (s.nextBaton p x.read).isNone)).getD false
      if (q.level == .grid || x.view.isSome) && stubAt s x.ctx x.own.pc == some (.loader kernel) then some x.own.pc
      else if all && (x.view.isNone || x.viewEnd.isNone || x.viewEnd == some x.own.pc) then s.stubOf kernel up
      else none

/-- The stub at which a launch group waits that has come to the end of its batons (R53, R101). -/
def State.stubAhead (s : State) (kernel : Nat) (gid : GroupId) (g : Group) : Option PC :=
  let q := streamOf gid g
  if gid.isDebug || g.spawned || g.halted || !(g.fresh || g.wait == some .baton) || (s.nextBaton q g.read).isSome then none
  else s.stubOf kernel (chainUp q .grid)

/-- A link has failed: every group that waits in the loader, at a stub itself or for a baton of a stream that stands there (log
120), takes an access violation at the stub address, with detail 6 when the second link has run out of heap (R55), and with
detail 8 when the heap's stack has failed (R16). -/
def State.loaderFault (s : State) (ctx kernel : Nat) (detail : BitVec 8) : State :=
  let stop (s : State) (k : GroupId) (sl : SlotId) (g : Group) (a : PC) : State :=
    s.takeStop k sl { (Cause.record ⟨0x05, detail⟩) with addr := zx a } (g.slot sl).pc
  let ahead := s.groups.filterMap (fun (k, g) => if g.ctx = ctx then (s.stubAhead kernel k g).map (fun a => (k, a)) else none)
  let t := (s.inLoader ctx kernel).foldl (fun s k =>
    match s.group? k with
    | none => s
    | some g => stop s k (stubSlot s g kernel) g (g.slot (stubSlot s g kernel)).pc) s
  ahead.foldl (fun s (k, a) =>
    match s.group? k with
    | none => s
    | some g => stop s k .a g a) t

/-- Link a function; when the heap runs out, the context stops, the heap is compacted, the context goes on and the link is
tried again (R55, log 120). The result says whether the function is linked. -/
def State.linkFn (s : State) (ctx : Nat) (c : Context) (k : Kernel) (f : HeapFn) : State × Bool :=
  if f.body.isSome then (s, true)
  else if s.heapFailed c then (s.loaderFault ctx f.kernel 8, false)
  else
    match s.link ctx k f with
    | some s => (s, true)
    | none =>
      let tiles := s.tilesRunning ctx
      let s := (((s.stopContext tiles).compact ctx c).resumeContext tiles)
      match s.link ctx k f with
      | some s => (s, true)
      | none => (s.loaderFault ctx f.kernel 6, false)

/-- FN_LOAD (R49, R379): the address of the first entry stub, or −5. -/
def execFnLoad (ctx : Nat) (kernel : Word) (s : State) : Out :=
  syscall ctx s (fun c =>
    match c.fns.find? (fun f => f.kernel == kernel.toNat), c.kernels[kernel.toNat]? with
    | some f, some k =>
      if s.heapHeld ctx c then s
      else
      let failed := s.heapFailed c
      let (s, ok) := s.linkFn ctx c k f
      let s := if ok then s.modCtx ctx (fun c => { c with
          fns := c.fns.map (fun x => if x.kernel = f.kernel then { x with loaded := true } else x) }) else s
      s.answer ctx (if ok then zx ((f.stubs.head?.map (·.1)).getD 0) else if failed then errBad else errHeap)
    | _, _ => s.answer ctx errBad)

/-- FUNCTION_PUBLISH (R54): the function is linked, its range is invalidated, and its stub is patched with one store,
whose bytes the manual leaves open (R51); the groups that wait in the loader go on. -/
def execFunctionPublish (ctx : Nat) (kernel : Nat) (s : State) : Out :=
  match s.ctx? ctx with
  | none => .next s
  | some c =>
    match c.fns.find? (fun f => f.kernel == kernel), c.kernels[kernel]? with
    | some f, some k =>
      if s.heapHeld ctx c then .next s
      else
      let (s, ok) := s.linkFn ctx c k f
      if !ok then .next s
      else
        let s := s.modCtx ctx (fun c => { c with
          fns := c.fns.map (fun x => if x.kernel = kernel then { x with published := true } else x) })
        let s := s.patchStubs c f
        .next ((s.inLoader ctx kernel).foldl (fun s g => s.modGroup g (fun x => { x with wait := none })) s)
    | _, _ => .next s

end Sys2Proof.Machine
end

