-- ==== Sys2Proof/Machine/Matrix.lean ====
section
/-! DEFINITION. Matrix and tensor-slot words (R347 to R363): slots, the addresses of elements, the checks of R352, depth
steps (R238 to R240), squads (R117, R356), loads and drains of tiles (R241, R358, R359), and the restart of R362. -/

namespace Sys2Proof.Machine

/-! ### Reading memory by the matrix path -/

/-- Why a matrix word does not go on: a fault, of which a page fault or access violation leaves a restart point (R362),
or an answer that has to be waited for. -/
inductive MStop where
  | fault (r : Record) (restart : Bool)
  | hold (w : Wait)
  deriving DecidableEq, Repr

/-- Results of the matrix path. -/
abbrev MOut (α : Type) := Except MStop α

/-- A failed access at an address. -/
def Bad.matrix (b : Bad) (a : Word) : MStop :=
  match b with
  | .hold w => .hold w
  | .page | .viol _ => .fault (b.record matrixClass 0 a) true
  | .misaligned | .bound => .fault (b.record matrixClass 0 a) false

/-- A fault that reads and writes nothing and has no address. -/
def mFault (c : Cause) : MStop := .fault c.record false

/-- The place of `n` bytes at an address (R350): the alignment has been checked. -/
def matPlace (s : State) (gid : GroupId) (k : Access) (n : Nat) (a : Word) : MOut Place :=
  if 2 ^ 57 ≤ a.toNat then .error (Bad.matrix (.viol 5) a)
  else
    match placeOf s gid k false n a.toNat with
    | .ok p => .ok p
    | .error b => .error (b.matrix a)

/-- The bytes that a read has found, where it could be made. -/
def foundAt (p : MOut Place) (n : Nat) : List (Place × Nat) :=
  match p with
  | .ok p => [(p, n)]
  | .error _ => []

/-- Read `n` bytes at an address. -/
def matRead (s : State) (gid : GroupId) (n : Nat) (a : Word) : MOut Nat :=
  match matPlace s gid .read n a with
  | .ok p => .ok (leNat (readPlace s p n))
  | .error e => .error e

/-- Run a list of checks in order, up to the first failure. -/
def eachOk {α : Type} (f : α → MOut Unit) : List α → MOut Unit
  | [] => .ok ()
  | x :: xs =>
    match f x with
    | .ok _ => eachOk f xs
    | .error e => .error e

/-- Map a function over a list in order, up to the first failure. -/
def collect {α β : Type} (f : α → MOut β) : List α → MOut (List β)
  | [] => .ok []
  | x :: xs =>
    match f x with
    | .error e => .error e
    | .ok y =>
      match collect f xs with
      | .error e => .error e
      | .ok ys => .ok (y :: ys)

/-! ### Slots and the addresses of elements -/

/-- FMT of a slot. -/
def TSlot.format (z : TSlot) : Nat := (z.fmt.extractLsb' 0 4).toNat

/-- Is the slot's format a floating one (R352)? -/
def TSlot.floating (z : TSlot) : Bool := z.format == 0 || z.format == 1 || z.format == 5

/-- SCL of a slot. -/
def TSlot.scaled (z : TSlot) : Bool := z.fmt.getLsbD 22

/-- Bits of an operand element (R350). -/
def TSlot.wbits (z : TSlot) : Nat :=
  if z.format = 0 ∨ z.format = 1 then 16
  else if z.format = 4 ∨ (z.format = 5 ∧ z.fmt.extractLsb' 4 3 = 0#3) then 4 else 8

/-- Row(z, r) of R350. -/
def rowOf (s : State) (gid : GroupId) (z : TSlot) (r : Nat) : MOut Nat :=
  if z.ind = 0#57 then .ok r
  else
    match matRead s gid 4 (zx z.ind + BitVec.ofNat 64 (4 * (r / 16))) with
    | .ok e => .ok (e * 16 + r % 16)
    | .error e => .error e

/-- The bytes that Row(z, r) reads. -/
def rowTouch (s : State) (gid : GroupId) (z : TSlot) (r : Nat) : List (Place × Nat) :=
  if z.ind = 0#57 then [] else foundAt (matPlace s gid .read 4 (zx z.ind + BitVec.ofNat 64 (4 * (r / 16)))) 4

/-- ElemAddr of R350: the byte address, and the bit in it. -/
def elemAddr (s : State) (gid : GroupId) (z : TSlot) (r c wb : Nat) : MOut (Word × Nat) :=
  match rowOf s gid z r with
  | .error e => .error e
  | .ok row =>
    let bitpos := (row * z.rstride.toNat * 8 + c * z.cstride.toNat * wb) % 2 ^ 64
    .ok (zx z.base + BitVec.ofNat 64 (bitpos / 8), bitpos % 8)

/-- The bytes that an operand of `wb` bits is read from. -/
def unitBytes (wb : Nat) : Nat := if wb = 16 then 2 else 1

/-- The code of an operand element (R236, R350). -/
def elemCode (s : State) (gid : GroupId) (z : TSlot) (r c : Nat) : MOut Nat :=
  match elemAddr s gid z r c z.wbits with
  | .error e => .error e
  | .ok (a, sh) =>
    match matRead s gid (unitBytes z.wbits) a with
    | .error e => .error e
    | .ok x => .ok (if z.wbits = 4 then x / 2 ^ sh % 16 else x)

/-- The exact value of an operand code (R224, R227, R235). -/
def TSlot.decode (z : TSlot) (x : Nat) : Num :=
  match z.format with
  | 0 => fmtF16.decode x
  | 1 => fmtBf16.decode x
  | 2 => .ofInt (intOf 4 x)
  | 3 => .ofInt (intOf 5 x)
  | 4 => .ofInt (if 8 ≤ x then (x : Int) - 16 else x)
  | _ => (Narrow.ofWord z.fmt).decode (x % 2 ^ (Narrow.ofWord z.fmt).b)

/-- The address of a block-scale byte (R237). -/
def TSlot.scaleAddr (z : TSlot) (aSide : Bool) (r c : Nat) : Word :=
  let blk := if z.fmt.getLsbD 21 then 32 else 16
  zx z.scbase + BitVec.ofNat 64
    (if aSide then r * ceilDiv z.cols.toNat blk + c / blk else c * ceilDiv z.rows.toNat blk + r / blk)

/-- The value of an E8M0 byte (R237). -/
def scaleNum (x : Nat) : Num := if x = 255 then .nan false else .fin false 1 ((x : Int) - 127)

/-- The widened values of elements of one slot (R238), all elements first and then their scale bytes (R353). -/
def fetchElems (s : State) (gid : GroupId) (z : TSlot) (aSide : Bool) (l : List (Nat × Nat)) : MOut (List Num) :=
  match collect (fun (r, c) => elemCode s gid z r c) l with
  | .error e => .error e
  | .ok codes =>
    if z.floating && z.scaled then
      match collect (fun (r, c) => matRead s gid 1 (z.scaleAddr aSide r c)) l with
      | .error e => .error e
      | .ok sc => .ok ((codes.zip sc).map (fun (x, y) => (z.decode x).mul (scaleNum y)))
    else .ok (codes.map z.decode)

/-- The bytes that the reads of an element find, its index entry among them. -/
def elemTouch (s : State) (gid : GroupId) (z : TSlot) (wb n : Nat) (x : Nat × Nat) : List (Place × Nat) :=
  rowTouch s gid z x.1 ++
    (match elemAddr s gid z x.1 x.2 wb with
      | .ok (a, _) => foundAt (matPlace s gid .read n a) n
      | .error _ => [])

/-- The bytes that the reads of the operand elements of a slot find. -/
def fetchTouch (s : State) (gid : GroupId) (z : TSlot) (aSide : Bool) (l : List (Nat × Nat)) : List (Place × Nat) :=
  l.flatMap (elemTouch s gid z z.wbits (unitBytes z.wbits)) ++
    (if z.floating && z.scaled then l.flatMap (fun (r, c) => foundAt (matPlace s gid .read 1 (z.scaleAddr aSide r c)) 1) else [])

/-! ### Coordinates (R351) -/

/-- The pair of scalars that places a window. -/
structure Coords where
  row0 : Nat
  col0 : Nat
  k0   : Nat
  rsv  : Nat
  rm   : BitVec 16
  cm   : BitVec 16
  dm   : BitVec 16
  fl   : BitVec 16
  deriving DecidableEq, Repr

/-- The fields of the pair. -/
def Coords.of (x y : Word) : Coords :=
  { row0 := (x.extractLsb' 0 16).toNat, col0 := (x.extractLsb' 16 16).toNat, k0 := (x.extractLsb' 32 16).toNat
    rsv := (x.extractLsb' 48 16).toNat, rm := y.extractLsb' 0 16, cm := y.extractLsb' 16 16
    dm := y.extractLsb' 32 16, fl := y.extractLsb' 48 16 }

/-- The indices of a mask, ascending. -/
def onBits (m : BitVec 16) : List Nat := (List.range 16).filter (fun k => m.getLsbD k)

/-- The coordinates that X.s names. -/
def Group.coords (g : Group) (sl : SlotId) (c : BitVec 5) : Coords :=
  .of (g.readS sl (c.zeroExtend 6)) (g.readS sl (c.zeroExtend 6 + 1))

/-- The tile of a word that writes these elements, where it keeps any of what the tile held: rows from `start` on are written, of
which those of a step add to it unless they start from zero. -/
def Coords.kept (t : Coords) (m start : Nat) (adds : Bool) : List Nat :=
  if !adds && t.rm == 0xFFFF#16 && t.cm == 0xFFFF#16 && start == 0 then [] else [m]

/-- The elements of B that take part, by depth and column (R352). -/
def Coords.bElems (t : Coords) : List (Nat × Nat) :=
  (onBits t.dm).flatMap (fun k => (onBits t.cm).map (fun j => (t.k0 + k, t.col0 + j)))

/-- The elements of a row of A that take part. -/
def Coords.aElems (t : Coords) (i : Nat) : List (Nat × Nat) := (onBits t.dm).map (fun k => (t.row0 + i, t.k0 + k))

/-- The elements of a tile window that take part. -/
def Coords.window (t : Coords) : List (Nat × Nat) :=
  (onBits t.rm).flatMap (fun i => (onBits t.cm).map (fun j => (t.row0 + i, t.col0 + j)))

/-! ### Tiles (R347) -/

/-- A tile of the group's half. -/
def Team.tile (t : Team) (g : Group) (m : Nat) : Tile := (t.tileT.find (g.half, m)).getD .zero

/-- Write a tile of the group's half. -/
def Team.setTile (t : Team) (g : Group) (m : Nat) (x : Tile) : Team :=
  { t with tileT := if x = .zero then t.tileT.drop (g.half, m) else t.tileT.put (g.half, m) x }

/-- Is the tile accepted by an operation of a kind? -/
def Tile.accepts (t : Tile) (floating : Bool) : Bool :=
  match t with
  | .zero => true
  | .floating _ => floating
  | .integer _ => !floating

/-- The elements as ACC48 patterns; of a tile that changes its kind nothing constrains the rows that are not written
(R358). -/
def Tile.floats (t : Tile) (free : Nat) : List (BitVec 48) :=
  match t with
  | .floating l => l
  | .zero => List.replicate 256 0
  | .integer _ => (List.range 256).map (fun k => (Config.freeWord (free + k)).setWidth 48)

/-- The elements as i32 patterns. -/
def Tile.ints (t : Tile) (free : Nat) : List (BitVec 32) :=
  match t with
  | .integer l => l
  | .zero => List.replicate 256 0
  | .floating _ => (List.range 256).map (fun k => (Config.freeWord (free + k)).setWidth 32)

/-- Write elements of a tile, which takes the kind of the write when any element is written. -/
def Tile.write (t : Tile) (floating : Bool) (free : Nat) (l : List (Nat × Nat)) : Tile :=
  if l.isEmpty then t
  else if floating then .floating (l.foldl (fun v (k, x) => v.set k (BitVec.ofNat 48 x)) (t.floats free))
  else .integer (l.foldl (fun v (k, x) => v.set k (BitVec.ofNat 32 x)) (t.ints free))

/-- The bits of an element. -/
def Tile.bits (t : Tile) (k : Nat) : Nat :=
  match t with
  | .zero => 0
  | .floating l => (l[k]?.getD 0).toNat
  | .integer l => (l[k]?.getD 0).toNat

/-- The exact value of an element; a NaN that it carries raises nothing (R241). -/
def Tile.value (t : Tile) (k : Nat) : Num :=
  match t with
  | .zero => fmtAcc48.decode 0
  | .floating l =>
    match fmtAcc48.decode (l[k]?.getD 0).toNat with
    | .nan _ => .nan false
    | x => x
  | .integer l => .ofInt (l[k]?.getD 0).toInt

/-! ### Checks of R352 -/

/-- A loaded slot, or detail 8. -/
def loaded (t : Team) (g : Group) (z : BitVec 5) : MOut TSlot :=
  match t.slotOf g z.toNat with
  | some x => .ok x
  | none => .error (mFault (illegal 8))

/-- Do all elements lie within ROWS and COLS? -/
def inBounds (z : TSlot) (l : List (Nat × Nat)) : MOut Unit :=
  if l.all (fun (r, c) => decide (r < z.rows.toNat) && decide (c < z.cols.toNat)) then .ok () else .error (mFault (illegal 8))

/-- Is a condition met, or detail 2 raised? -/
def orDetail2 (b : Bool) : MOut Unit := if b then .ok () else .error (mFault (illegal 2))

/-- Alignment of elements of `n` bytes at their gathered addresses. -/
def elemsAligned (s : State) (gid : GroupId) (z : TSlot) (wb n : Nat) (l : List (Nat × Nat)) : MOut Unit :=
  eachOk (fun (r, c) =>
    match elemAddr s gid z r c wb with
    | .error e => .error e
    | .ok (a, _) => if a.toNat % n = 0 then .ok () else .error (Bad.matrix .misaligned a)) l

/-- Does an address in the scratchpad window pass R148? Faults of another kind wait for the access itself (R362). -/
def boundOk (p : MOut α) : MOut Unit :=
  match p with
  | .error (.fault r false) => .error (.fault r false)
  | .error (.hold w) => .error (.hold w)
  | _ => .ok ()

/-- The scratchpad checks of elements at an access. -/
def elemsBound (s : State) (gid : GroupId) (z : TSlot) (wb : Nat) (acc : Word → MOut α) (l : List (Nat × Nat)) : MOut Unit :=
  eachOk (fun (r, c) =>
    match elemAddr s gid z r c wb with
    | .error e => .error e
    | .ok (a, _) => boundOk (acc a)) l

/-- The scratchpad checks of operand elements and of their scale bytes. -/
def operandBound (s : State) (gid : GroupId) (z : TSlot) (aSide : Bool) (l : List (Nat × Nat)) : MOut Unit :=
  match elemsBound s gid z z.wbits (matPlace s gid .read (unitBytes z.wbits)) l with
  | .error e => .error e
  | .ok _ =>
    if z.floating && z.scaled then
      eachOk (fun (r, c) => boundOk (matPlace s gid .read 1 (z.scaleAddr aSide r c))) l
    else .ok ()

/-- Run checks in order. -/
def checks (l : List (Unit → MOut Unit)) : MOut Unit := eachOk (fun f => f ()) l

/-- The checks of R352 for `mma` and `mma.j`. Elements of A take part by RM and DM, elements of B by DM and CM. -/
def mmaCheck (s : State) (gid : GroupId) (t : Coords) (za zb : TSlot) (tile : Tile) : MOut Unit :=
  let rows := (onBits t.rm).map t.aElems
  let a := rows.flatten
  let b := t.bElems
  checks [
    fun _ => inBounds za a,
    fun _ => inBounds zb b,
    fun _ => orDetail2 (za.floating == zb.floating && tile.accepts za.floating),
    fun _ => eachOk (fun (r, _) => (rowOf s gid zb r).map (fun _ => ())) b,
    fun _ => eachOk (fun (r, _) => (rowOf s gid za r).map (fun _ => ())) a,
    fun _ => elemsAligned s gid zb zb.wbits (unitBytes zb.wbits) b,
    fun _ => elemsAligned s gid za za.wbits (unitBytes za.wbits) a,
    fun _ => operandBound s gid zb false b,
    fun _ => eachOk (fun row => operandBound s gid za true row) rows]

/-! ### Depth steps (R238 to R240, R353) -/

/-- The masked element. -/
def plusZero : Num := .fin false 0 0

/-- Spread the fetched values of the indices of a mask over 16 places. -/
def spread (m : BitVec 16) (l : List Num) : List Num :=
  (List.range 16).map (fun k => if m.getLsbD k then (l[((onBits m).filter (· < k)).length]?).getD plusZero else plusZero)

/-- The exact integer of an integer operand. -/
def Num.asInt : Num → Int
  | .fin neg m _ => if neg then -(m : Int) else m
  | _ => 0

/-- The exact sum of the 16 products and, unless it is left out, of the accumulator (R239, R353). -/
def floatStep (acc : Option Num) (a b : List Num) : Nat :=
  let ps := (a.zip b).map (fun (x, y) => x.mul y)
  let sum := match acc, ps with
    | some x, l => l.foldl (Num.add 0) x
    | none, [] => plusZero
    | none, x :: l => l.foldl (Num.add 0) x
  (fmtAcc48.round 0 false sum).1

/-- The integer step modulo 2^32 (R240). -/
def intStep (acc : Int) (a b : List Num) : Nat :=
  ((acc + ((a.zip b).map (fun (x, y) => x.asInt * y.asInt)).sum) % (2 ^ 32 : Nat)).toNat

/-- Column `j` of fetched B values, listed by depth and column. -/
def columnOf (t : Coords) (b : List Num) (j : Nat) : List Num :=
  let n := (onBits t.cm).length
  let at_ := ((onBits t.cm).filter (· < j)).length
  spread t.dm ((List.range (onBits t.dm).length).map (fun k => (b[k * n + at_]?).getD plusZero))

/-- One row of a depth step: with no depth in play it changes nothing (R353, log 72). -/
def stepRow (tile : Tile) (t : Coords) (floating : Bool) (b : List Num) (i : Nat) (a : List Num) : Tile :=
  let zero := t.fl.getLsbD 0
  let ar := spread t.dm a
  if t.dm = 0#16 then tile
  else tile.write floating 0 ((onBits t.cm).map (fun j =>
    let k := 16 * i + j
    (k, if floating then floatStep (if zero then none else some (tile.value k)) ar (columnOf t b j)
      else intStep (if zero then 0 else tile.value k |>.asInt) ar (columnOf t b j))))

/-! ### Restart (R361, R362) -/

/-- The row at which an instruction begins. -/
def Group.startRow (g : Group) : Nat := if g.mrp.getLsbD 4 then (g.mrp.extractLsb' 0 4).toNat else 0

/-- The restart register of a row. -/
def restartAt (i : Nat) : BitVec 5 := BitVec.ofNat 5 (16 + i % 16)

/-- A matrix word that stops before or at row `i`: what stands in `s` is finished, and a page fault or access violation
leaves the restart point. -/
def matrixStop (s0 s : State) (gid : GroupId) (sl : SlotId) (pc : PC) (i : Nat) (e : MStop) : Eff :=
  match e with
  | .hold w => .wait s0 w
  | .fault r false => .fault r
  | .fault r true =>
    .done ((s.modGroup gid (fun g => { g with mrp := restartAt i })).takeStop gid sl { r with mrp := true } pc)

/-- Run rows in order over the state, up to the first that stops. -/
def runRows {α : Type} (f : α → Nat → MOut α) : List Nat → α → α × Option (Nat × MStop)
  | [], s => (s, none)
  | i :: is, s =>
    match f s i with
    | .ok s => runRows f is s
    | .error e => (s, some (i, e))

/-- The end of a matrix word that runs rows. -/
def rowsEff (s0 : State) (gid : GroupId) (sl : SlotId) (pc : PC) (r : State × Option (Nat × MStop)) : Eff :=
  match r with
  | (s, none) => .next (s.modGroup gid (fun g => { g with mrp := 0 }))
  | (s, some (i, e)) => matrixStop s0 s gid sl pc i e

/-- The rows that take part from a restart row on. -/
def Coords.rowsFrom (t : Coords) (start : Nat) : List Nat := (onBits t.rm).filter (fun i => decide (start ≤ i))

/-- Has a group not issued the word that it tried: does it wait to issue it? -/
def State.unissued (s : State) (gid : GroupId) : Bool := (s.group? gid).any (fun g => g.wait.any Wait.retries)

/-- A matrix word has been tried: where it has issued, whatever became of it, the quadrant leaves near-threshold mode (R82). -/
def Out.leaves (o : Out) (gid : GroupId) (g : Group) : Out :=
  match o with
  | .next t => .next (if gid.isDebug || t.unissued gid then t else t.modCore g.core (·.leaveNear g.quad))
  | o => o

/-- A matrix word: its issue makes the quadrant leave near-threshold mode (R82). -/
def matrixWord (i : Instr) (s : State) (body : GroupId → SlotId → Group → Eff) : Out :=
  match s.cur with
  | .group gid _ =>
    match s.group? gid with
    | some g => (groupWord i s body).leaves gid g
    | none => groupWord i s body
  | _ => groupWord i s body

/-! ### Leave (R86, R363) -/

/-- Has the unit stepped within the last 1 µs? -/
def Core.stepping (c : Core) (timer : Nat) : Bool := (c.stepped.map (fun t => decide (timer - t < 1000))).getD false

/-- May a depth step issue now? -/
def Core.mayStep (c : Core) (timer : Nat) : Bool :=
  match c.leave with
  | .granted _ => true
  | .half | .full => c.stepping timer
  | .idle | .asked _ => false

/-- Quarter clocks for which the operations of one group take the matrix unit at full rate (R79, R354): on slots `a` and `b`
of a team, four operations of 4-bit formats or two of 8 bits go in the time of one. -/
def State.depthQuarters (s : State) (t : Team) (g : Group) (a b : Nat) : Nat :=
  let rate (z : Nat) : Nat :=
    match t.slotOf g z with
    | some z => if z.wbits = 4 then 4 else if z.wbits = 8 then 2 else 1
    | none => 1
  4 * 2 ^ s.passCode (regionOfCore g.core) / min (rate a) (rate b)

/-- A depth step uses a grant and is the last step. It takes the core's one unit for some quarter clocks, twice as long
while the unit steps at half rate after a grant (R86). The unit's time stands in `passing` under 4. -/
def Core.step (c : Core) (timer quarters : Nat) : Core :=
  let leave := match c.leave with
    | .granted _ => .half
    | l => l
  let q := if leave = .half then 2 * quarters else quarters
  { c with stepped := some timer, leave := leave, passing := c.passing.put 4 ((c.passing.find 4).getD 0 + q) }

/-- Ask the die's arbiter for leave, once. -/
def State.askLeave (s : State) (core : Nat) (ahead : Bool) : State :=
  let s := s.modCore core (fun c => { c with leave := .asked ahead })
  s.modDie (dieOfCore core) (fun d => { d with leaveQ := if d.leaveQ.contains core then d.leaveQ else d.leaveQ ++ [core] })

/-- `leave` (R363). -/
def execLeave (s : State) : Out :=
  matrixWord .leave s (fun _ _ g =>
    let c := s.core g.core
    match c.leave with
    | .granted _ | .asked _ => .next s
    | _ => if c.stepping s.timer then .next s else .next (s.askLeave g.core true))

/-- LEAVE_GRANT (R86): the oldest request of a die is granted. -/
def execLeaveGrant (s : State) : Out :=
  let d := s.sel % 4
  match (s.die d).leaveQ with
  | [] => .next s
  | core :: rest =>
    .next ((s.modDie d (fun x => { x with leaveQ := rest })).modCore core (fun c => { c with
      leave := match c.leave with
        | .asked a => .granted a
        | l => l }))

/-- LEAVE_LAPSE (R86): a grant that `leave` obtained lapses. -/
def execLeaveLapse (s : State) : Out :=
  .next (s.modCore (s.sel % 384) (fun c => { c with leave := if c.leave = .granted true then .idle else c.leave }))

/-- HALF_RATE_END (R86). -/
def execHalfRateEnd (s : State) : Out :=
  .next (s.modCore (s.sel % 384) (fun c => { c with leave := if c.leave = .half then .full else c.leave }))

/-! ### Depth-step words -/

/-- The two slots and the tile of a depth step, with the first two checks of R352. -/
def mmaOperands (t : Team) (g : Group) (m : BitVec 6) (a b : BitVec 5) (c : Coords) : MOut (TSlot × TSlot × Tile) :=
  if c.rsv ≠ 0 ∨ c.fl.extractLsb' 1 15 ≠ 0#15 then .error (mFault (illegal 2))
  else
    match loaded t g a, loaded t g b with
    | .ok x, .ok y => .ok (x, y, t.tile g m.toNat)
    | .error e, _ => .error e
    | _, .error e => .error e

/-- The operands of a depth step that has passed R352. -/
def mmaReady (s : State) (gid : GroupId) (g : Group) (t : Team) (m : BitVec 6) (a b : BitVec 5) (c : Coords) :
    MOut (TSlot × TSlot × Tile) :=
  match mmaOperands t g m a b c with
  | .error e => .error e
  | .ok (x, y, tile) => (mmaCheck s gid c x y tile).map (fun _ => (x, y, tile))

/-- B values of a depth step: none is read when no element is in play (R353). -/
def fetchB (s : State) (gid : GroupId) (zb : TSlot) (c : Coords) : MOut (List Num) :=
  if c.rm = 0#16 ∨ c.cm = 0#16 then .ok [] else fetchElems s gid zb false c.bElems

/-- The bytes that the reads of B values find. -/
def touchB (s : State) (gid : GroupId) (zb : TSlot) (c : Coords) : List (Place × Nat) :=
  if c.rm = 0#16 ∨ c.cm = 0#16 then [] else fetchTouch s gid zb false c.bElems

/-- One row of a depth step over the state, by reads of an event; `v` is the memory that they see. -/
def mmaRow (e : Event) (v : View) (gid : GroupId) (g : Group) (za : TSlot) (m : Nat) (c : Coords) (b : List Num) (s : State) (i : Nat) :
    MOut State :=
  if c.cm = 0#16 then .ok s
  else
    match fetchElems v.mem gid za true (c.aElems i) with
    | .error e => .error e
    | .ok a =>
      .ok ((s.viewed e v.gone (fetchTouch v.mem gid za true (c.aElems i))).modTeam gid.teamKey (fun t =>
        t.setTile g m (stepRow (t.tile g m) c za.floating b i a)))

/-- A depth-step word: leave first (R86), then the checks of R352 on the memory that its reads see (R171). -/
def depthWord (i : Instr) (m : BitVec 6) (a b c : BitVec 5) (s : State)
    (body : View → State → GroupId → SlotId → Group → Team → Coords → TSlot → TSlot → Eff) : Out :=
  matrixWord i s (fun gid sl g =>
    match s.team? gid.teamKey with
    | none => .fault (illegal 8).record
    | some t =>
      let k := s.core g.core
      if !k.mayStep s.timer then
        .wait (match k.leave with
          | .asked _ => s
          | _ => s.askLeave g.core false) .leave
      else
        let w := g.coords sl c
        let (v, s') := s.viewFor gid sl matrixClass
        match mmaReady v.mem gid g t m a b w with
        | .error e => matrixStop s s' gid sl (g.slot sl).pc g.startRow e
        | .ok (x, y, _) => body v s' gid sl g t w x y)

/-- `mma` (R353). -/
def execMma (m : BitVec 6) (a b c : BitVec 5) (s : State) : Out :=
  depthWord (.mma m a b c) m a b c s (fun v s' gid sl g t w za zb =>
    let pc := (g.slot sl).pc
    let e := s.eventOf gid sl matrixClass
    match fetchB v.mem gid zb w with
    | .error e => matrixStop s s' gid sl pc g.startRow e
    | .ok bv =>
      let s1 := (s'.viewed e v.gone (touchB v.mem gid zb w)).tileEvent [(gid, sl)] g.half
        (w.kept m.toNat g.startRow (!w.fl.getLsbD 0 || w.dm == 0#16) ++ [slotAt a.toNat, slotAt b.toNat]) [m.toNat]
      let s1 := s1.modCore g.core (fun k => k.step s.timer (s.depthQuarters t g a.toNat b.toNat))
      rowsEff s gid sl pc (runRows (mmaRow e v gid g za m.toNat w bv) (w.rowsFrom g.startRow) s1))

/-! ### Squads (R117, R355, R356) -/

/-- `sqset` (R355). -/
def execSqset (a : BitVec 6) (s : State) : Out :=
  matrixWord (.sqset a) s (fun gid sl g => onGroup s gid { g with squad := (g.readS sl a).setWidth 32 })

/-- `sqget` (R355). -/
def execSqget (d : BitVec 6) (s : State) : Out :=
  matrixWord (.sqget d) s (fun gid sl g => onGroup s gid (g.writeS sl d (zx g.squad)))

/-- The group identifiers that MEMB names. -/
def membIds (m : BitVec 32) : List Nat := (List.range 32).filter (fun k => m.getLsbD k)

/-- The checks of R117 that a member makes alone: at most 6 groups, itself among them, each a matrix-role group that has
not ended. -/
def squadOk (s : State) (gid : GroupId) (g : Group) : Bool :=
  let ids := membIds g.squad
  decide (ids.length ≤ 6) && ids.contains gid.grp &&
  ids.all (fun k => ((s.group? ⟨gid.grid, gid.gang, gid.team, k⟩).map (fun x => x.role == .none || x.role == .matrix)).getD false)

/-- Do two latched members agree on what a squad shares (R356)? -/
def Latched.agrees (x y : Latched) (cx cy : Nat) : Bool :=
  let a := Coords.of x.cs x.ct
  let b := Coords.of y.cs y.ct
  x.memb == y.memb && x.za == y.za && a.row0 == b.row0 && a.k0 == b.k0 && a.rm == b.rm && a.dm == b.dm && cx == cy

/-- The members of the first squad of a team that has wholly entered, in ascending group order. A split group may have a word
of each slot in the latch: each is a word of a squad of its own. -/
def readySquad (l : List Latched) (team : Nat × Nat × Nat) : Option (List Latched) :=
  let mine := l.filter (fun x => x.group.teamKey == team)
  (mine.filterMap (fun x =>
    let ms := (membIds x.memb).filterMap (fun k => if x.group.grp = k then some x else mine.find? (fun y => y.group.grp == k))
    if ms.length = (membIds x.memb).length then some ms else none)).head?

/-- The word of a latched member is given up: its slot waits no more, and the slot that was charged for it, unless it is the
one of this turn, was discarded or replayed (R222). -/
def State.unlatch (s : State) (l : Latched) (g : Group) (leaf : Nat) : State :=
  let s := s.modGroup l.group (fun g => g.modSlot l.slot (fun x => { x with hold := none, sent := false }))
  if s.cur = .group l.group l.slot then s else s.recharge g.core leaf 1

/-- Every member of a squad takes a fault at its joint word. -/
def squadFault (s : State) (ms : List Latched) (f : Group → State → Latched → State) (r : Record) : State :=
  ms.foldl (fun s l =>
    match s.group? l.group with
    | some g => ((f g s l).unlatch l g 16).takeStop l.group l.slot r (g.slot l.slot).pc
    | none => s) s

/-- Every member takes the page fault of a joint word at a row, with one common restart point (R356, R362). -/
def squadPage (s : State) (ms : List Latched) (row : Option Nat) (r : Record) : State :=
  squadFault s ms (fun g s l => s.setGroup l.group { g with
    mrp := restartAt (match row with
      | some i => max g.startRow i
      | none => g.startRow) }) { r with mrp := true }

/-- B values of every member, in order, from the memory that the joint fetch sees. -/
def squadB (t : Team) (v : State) : List (Latched × Group) → MOut (List (Latched × Group × List Num))
  | [] => .ok []
  | (l, g) :: rest =>
    match t.slotOf g l.zb with
    | none => .error (mFault (illegal 8))
    | some z =>
      match fetchB v l.group z (Coords.of l.cs l.ct) with
      | .error e => .error e
      | .ok b => (squadB t v rest).map ((l, g, b) :: ·)

/-- The bytes that the reads of the B values of every member find. -/
def squadTouch (t : Team) (v : State) (gs : List (Latched × Group)) : List (Place × Nat) :=
  gs.flatMap (fun (l, g) =>
    match t.slotOf g l.zb with
    | none => []
    | some z => touchB v l.group z (Coords.of l.cs l.ct))

/-- One row of a joint step: A is fetched once, by reads of the joint event from the memory `v` that they see, and every member
that has not finished the row steps. -/
def squadRow (e : Event) (v : View) (first : GroupId) (za : TSlot) (c : Coords) (ms : List (Latched × Group × List Num)) (s : State)
    (i : Nat) : MOut State :=
  if ms.all (fun (l, _, _) => (Coords.of l.cs l.ct).cm = 0#16) then .ok s
  else
    match fetchElems v.mem first za true (c.aElems i) with
    | .error e => .error e
    | .ok a =>
      .ok (ms.foldl (fun s (l, g, b) =>
        if i < g.startRow then s
        else s.modTeam l.group.teamKey (fun t => t.setTile g l.m
          (stepRow (t.tile g l.m) (Coords.of l.cs l.ct) za.floating b i a)))
        (s.viewed e v.gone (fetchTouch v.mem first za true (c.aElems i))))

/-- The members' words issue again once memory answers. -/
def squadWait (s : State) (ms : List Latched) (w : Wait) : State :=
  ms.foldl (fun s l =>
    match s.group? l.group with
    | some g => (s.unlatch l g 15).modGroup l.group (fun g => { g with wait := g.wait.or (some w) })
    | none => s) s

/-- The fetches of a squad are events of every member (R356, R378): they see what any member must see, and count as each one's. -/
def State.jointEvent (s : State) (ms : List Latched) : Event :=
  ⟨ms.map (·.group), ms.flatMap (fun l => s.lines l.group l.slot matrixClass), [], 0, true⟩

/-- The latch fires for a squad that has wholly entered (R356). The members leave the latch, and each retires, takes the
fault, or tries again when memory does not answer. -/
def fireSquad (s0 : State) (team : Nat × Nat × Nat) (home : Nat) : State :=
  match s0.team? team, readySquad (s0.core home).latch team with
  | some t, some ms =>
    let s := s0.modCore home (fun k => { k with latch := k.latch.filter (fun l => !ms.contains l) })
    let gs := ms.filterMap (fun l => (s.group? l.group).map (fun g => (l, g)))
    match gs with
    | [] => s
    | (l0, g0) :: _ =>
      if !gs.all (fun (l, g) => l.agrees l0 g.core g0.core) then squadFault s ms (fun _ s _ => s) (illegal 5).record
      else
        let c := Coords.of l0.cs l0.ct
        let stop (s' : State) (row : Option Nat) (e : MStop) : State :=
          match e with
          | .hold w => squadWait s ms w
          | .fault r false => squadFault s ms (fun _ s _ => s) r
          | .fault r true => squadPage s' ms row r
        match t.slotOf g0 l0.za with
        | none => squadFault s ms (fun _ s _ => s) (illegal 8).record
        | some za =>
          let e := s.jointEvent ms
          let (v, sv) := s.viewBy e
          match squadB t v.mem gs with
          | .error e => stop sv none e
          | .ok bs =>
            let sv := (sv.viewed e v.gone (squadTouch t v.mem gs)).tileEvent (ms.map (fun l => (l.group, l.slot))) g0.half
              (gs.flatMap (fun (l, g) =>
                let w := Coords.of l.cs l.ct
                w.kept l.m g.startRow (!w.fl.getLsbD 0 || w.dm == 0#16) ++ [slotAt l.za, slotAt l.zb])) (gs.map (·.1.m))
            let start := (gs.map (fun (_, g) => g.startRow)).foldl min 16
            let work := (gs.map (fun (l, g) => s.depthQuarters t g l.za l.zb)).sum
            let s1 := sv.modCore g0.core (fun k => k.step s.timer work)
            match runRows (squadRow e v l0.group za c bs) (c.rowsFrom start) s1 with
            | (s2, some (i, e)) => stop s2 (some i) e
            | (s2, none) =>
              gs.foldl (fun s (l, _) =>
                (s.modGroup l.group (fun g => { g with mrp := 0 })).retireLate l.group l.slot) s2
  | _, _ => s0

/-- `mma.j` (R356): the member's own checks, then the starting-block latch. -/
def execMmaJ (m : BitVec 6) (a b c : BitVec 5) (s : State) : Out :=
  depthWord (.mmaJ m a b c) m a b c s (fun _ s gid sl g t _ _ _ =>
    if !squadOk s gid g then .fault (illegal 5).record
    else
      let l : Latched :=
        { group := gid, slot := sl, m := m.toNat, za := a.toNat, zb := b.toNat, cs := g.readS sl (c.zeroExtend 6)
          ct := g.readS sl (c.zeroExtend 6 + 1), memb := g.squad }
      let s := s.setGroup gid (g.waitIn sl .latch)
      let s := s.modCore t.core (fun k => { k with latch := k.latch.filter (fun x => !(x.group == gid && x.slot == sl)) ++ [l] })
      .done (fireSquad s gid.teamKey t.core))

/-! ### Slots and tiles -/

/-- A tensor slot from a descriptor (R348). -/
def TSlot.ofBytes (bs : List Byte) : TSlot :=
  let f (o n : Nat) : Nat := leNat ((bs.drop o).take n)
  { base := BitVec.ofNat 57 (f 0 8), rstride := BitVec.ofNat 32 (f 8 4), cstride := BitVec.ofNat 16 (f 12 2)
    mcg := BitVec.ofNat 8 (f 14 1), mce := (f 15 1).testBit 0, rows := BitVec.ofNat 24 (f 16 3)
    cols := BitVec.ofNat 24 (f 20 3), fmt := BitVec.ofNat 32 (f 24 4), scbase := BitVec.ofNat 57 (f 32 8)
    rsbase := BitVec.ofNat 57 (f 40 8), csbase := BitVec.ofNat 57 (f 48 8), ind := BitVec.ofNat 57 (f 56 8) }

/-- Does a format word break R234? -/
def fmtBad (w : BitVec 32) : Bool :=
  let fmt := (w.extractLsb' 0 4).toNat
  let wid := (w.extractLsb' 4 3).toNat
  let e := (w.extractLsb' 7 3).toNat
  let sgn := w.getLsbD 10
  let spec := (w.extractLsb' 11 2).toNat
  decide (5 < fmt) || w.extractLsb' 23 9 != 0#9 ||
  (if fmt = 5 then
      decide (4 < wid) || e == 0 || spec == 3 || decide (wid + 4 < e + sgn.toNat) || (spec == 2 && decide (e < 2))
    else w.extractLsb' 4 17 != 0#17) ||
  (w.getLsbD 22 && decide (2 ≤ fmt) && decide (fmt ≤ 4))

/-- Is a descriptor refused (R349)? -/
def descriptorBad (bs : List Byte) : Bool :=
  let f (o n : Nat) : Nat := leNat ((bs.drop o).take n)
  let z := TSlot.ofBytes bs
  decide (2 ^ 57 ≤ f 0 8) || decide (2 ≤ f 15 1) || f 19 1 != 0 || f 23 1 != 0 || f 28 4 != 0 || decide (2 ^ 57 ≤ f 32 8) ||
  decide (2 ^ 57 ≤ f 40 8) || decide (2 ^ 57 ≤ f 48 8) || decide (2 ^ 57 ≤ f 56 8) ||
  z.cstride == 0#16 || z.rows == 0#24 || z.cols == 0#24 ||
  z.rsbase.toNat % 4 != 0 || z.csbase.toNat % 4 != 0 || z.ind.toNat % 4 != 0 || fmtBad z.fmt

/-- `zld` (R349): a read of matrix class (R170). -/
def execZld (t : BitVec 6) (b : BitVec 5) (i : BitVec 7) (s : State) : Out :=
  matrixWord (.zld t b i) s (fun gid sl g =>
    let a := g.readS sl (b.zeroExtend 6) + BitVec.ofNat 64 (i.toNat * 64)
    match checkAddr s gid .read false 64 a with
    | .error (.hold w) => .wait s w
    | .error x => .fault (x.record matrixClass 0 a)
    | .ok p =>
      let (bs, s) := s.readAs gid sl matrixClass p 64
      if descriptorBad bs then .fault (illegal 2).record
      else .next ((s.tileEvent [(gid, sl)] g.half [] [slotAt t.toNat]).modTeam gid.teamKey (fun x => { x with slotT := x.slotT.put (g.half, t.toNat) (TSlot.ofBytes bs) })))

/-- `mzero` (R357). -/
def execMzero (m : BitVec 6) (s : State) : Out :=
  matrixWord (.mzero m) s (fun gid sl g =>
    .next ((s.tileEvent [(gid, sl)] g.half [] [m.toNat]).modTeam gid.teamKey (fun t => t.setTile g m.toNat .zero)))

/-- A word on a tile window of one slot: the checks of R352 up to the tile's kind come before `body`. -/
def windowWord (i : Instr) (a c : BitVec 5) (s : State) (flagsOk : BitVec 16 → Bool)
    (body : GroupId → SlotId → Group → Team → Coords → TSlot → Eff) : Out :=
  matrixWord i s (fun gid sl g =>
    match s.team? gid.teamKey with
    | none => .fault (illegal 8).record
    | some t =>
      let w := g.coords sl c
      if w.rsv ≠ 0 ∨ w.k0 ≠ 0 ∨ w.dm ≠ 0#16 ∨ !flagsOk w.fl then .fault (illegal 2).record
      else
        match t.slotOf g a.toNat with
        | none => .fault (illegal 8).record
        | some z => body gid sl g t w z)

/-- `mld` (R358). -/
def execMld (m : BitVec 6) (a c : BitVec 5) (s : State) : Out :=
  windowWord (.mld m a c) a c s (fun fl => fl.extractLsb' 1 15 == 0#15) (fun gid sl g t w z =>
    let pc := (g.slot sl).pc
    let floating := !w.fl.getLsbD 0
    let n := if floating then 8 else 4
    let tile := t.tile g m.toNat
    let whole := w.rm = 0xFFFF#16 ∧ w.cm = 0xFFFF#16
    let e := s.eventOf gid sl matrixClass
    let (v, s') := s.viewFor gid sl matrixClass
    match checks [
        fun _ => inBounds z w.window,
        fun _ => orDetail2 (tile.accepts floating || whole),
        fun _ => eachOk (fun (r, _) => (rowOf v.mem gid z r).map (fun _ => ())) w.window,
        fun _ => elemsAligned v.mem gid z (8 * n) n w.window,
        fun _ => elemsBound v.mem gid z (8 * n) (matPlace v.mem gid .read n) w.window] with
    | .error e => matrixStop s s' gid sl pc g.startRow e
    | .ok _ =>
      let row (s : State) (i : Nat) : MOut State :=
        (collect (fun j =>
          match elemAddr v.mem gid z (w.row0 + i) (w.col0 + j) (8 * n) with
          | .error e => .error e
          | .ok (x, _) => (matRead v.mem gid n x).map (fun y => (16 * i + j, y))) (onBits w.cm)).map (fun l =>
            (s.viewed e v.gone ((onBits w.cm).flatMap (fun j => elemTouch v.mem gid z (8 * n) n (w.row0 + i, w.col0 + j)))).modTeam
              gid.teamKey (fun t => t.setTile g m.toNat ((t.tile g m.toNat).write floating s.free l)))
      let r := runRows row (w.rowsFrom g.startRow) (s'.tileEvent [(gid, sl)] g.half (w.kept m.toNat g.startRow false ++ [slotAt a.toNat]) [m.toNat])
      rowsEff s gid sl pc ({ r.1 with free := if tile.accepts floating then r.1.free else r.1.free + 256 }, r.2))

/-! ### Drains (R241, R359) -/

/-- Bytes and format of an output (R351): f32, f16, bf16, acc48, i32. -/
def outBytes (out : Nat) : Nat := if out = 1 ∨ out = 2 then 2 else if out = 3 then 8 else 4
def outFmt (out : Nat) : Fmt := if out = 1 then fmtF16 else if out = 2 then fmtBf16 else fmtF32

/-- Out of R359: the code and the flags. -/
def drainElem (tile : Tile) (k out rnd : Nat) (sat : Bool) (r c : Num) : Nat × Flags :=
  if out = 3 ∨ out = 4 then (tile.bits k, 0) else (outFmt out).round rnd sat (((tile.value k).mul r).mul c)

/-- An entry of a scale vector, 1.0 where there is none. -/
def scaleEntry (s : State) (gid : GroupId) (base : PC) (k : Nat) : MOut Num :=
  if base = 0#57 then .ok (.fin false 1 0) else (matRead s gid 4 (zx base + BitVec.ofNat 64 (4 * k))).map fmtF32.decode

/-- The bytes that the read of an entry of a scale vector finds. -/
def scaleTouch (s : State) (gid : GroupId) (base : PC) (k : Nat) : List (Place × Nat) :=
  if base = 0#57 then [] else foundAt (matPlace s gid .read 4 (zx base + BitVec.ofNat 64 (4 * k))) 4

/-- The address of the multicast entry of a drain. -/
def TSlot.entryAt (z : TSlot) (s : State) (g : Group) : Word :=
  (((s.ctx? g.ctx).map (·.mcbase)).getD 0) + BitVec.ofNat 64 (8 * z.mcg.toNat)

/-- The teams that a drain writes: none for the group's own address (R167, R359). -/
def drainTeams (s : State) (gid : GroupId) (g : Group) (z : TSlot) : MOut (Option (List Nat)) :=
  if !z.mce then .ok none
  else
    let refuse : MOut (Option (List Nat)) := .error (.fault (Bad.record (.viol 4) matrixClass 0 (zx z.base)) false)
    if !inSpad z.base.toNat || z.base.toNat / 2 ^ 27 % 2 = 1 then refuse
    else
      match matRead s gid 8 (z.entryAt s g) with
      | .error e => .error e
      | .ok x =>
        let e := BitVec.ofNat 64 x
        if !e.getLsbD 8 || e.getLsbD 9 then refuse else .ok (some ((List.range 8).filter (fun k => e.getLsbD k)))

/-- The places of an element that a drain writes: one, or the same offset in every member team. -/
def drainPlaces (s : State) (gid : GroupId) (teams : Option (List Nat)) (n : Nat) (a : Word) : MOut (List Place) :=
  match teams with
  | none => (matPlace s gid .write n a).map (fun p => [p])
  | some ts =>
    if !inSpad a.toNat then .error (Bad.matrix (.viol 4) a)
    else collect (fun k =>
      match spadPlace s gid.teamKey n (2 ^ 27 + k * 2 ^ 24 + (a.toNat - windowBase) % 2 ^ 24) with
      | .ok p => .ok p
      | .error b => .error (b.matrix a)) ts

/-- `mst` (R359): its reads see a memory that its own writes reach. -/
def execMst (m : BitVec 6) (a b c : BitVec 5) (r : BitVec 3) (s : State) : Out :=
  windowWord (.mst m a b c r) a c s
    (fun fl => decide ((fl.extractLsb' 0 3).toNat < 5) && fl.extractLsb' 4 12 == 0#12) (fun gid sl g t w z =>
    let pc := (g.slot sl).pc
    let out := (w.fl.extractLsb' 0 3).toNat
    let sat := w.fl.getLsbD 3
    let n := outBytes out
    let tile := t.tile g m.toNat
    match t.slotOf g b.toNat with
    | none => .fault (illegal 8).record
    | some zs =>
      let e := s.eventOf gid sl matrixClass
      let (v, s') := s.viewFor gid sl matrixClass
      let stop (e : MStop) : Eff := matrixStop s s' gid sl pc g.startRow e
      match checks [
          fun _ => inBounds z w.window,
          fun _ => orDetail2 ((out != 3 || tile.accepts true) && (out != 4 || tile.accepts false))] with
      | .error e => stop e
      | .ok _ =>
        match drainTeams v.mem gid g z with
        | .error e => stop e
        | .ok teams =>
          let place (x : Word) : MOut (List Place) := drainPlaces v.mem gid teams n x
          let scaled := out < 3
          let scale (v : State) (base : PC) (k : Nat) : MOut Num :=
            if scaled then scaleEntry v gid base k else .ok (.fin false 1 0)
          let vecBound (base : PC) (ks : List Nat) : MOut Unit :=
            if scaled && base != 0#57 then
              eachOk (fun k => boundOk (matPlace v.mem gid .read 4 (zx base + BitVec.ofNat 64 (4 * k)))) ks
            else .ok ()
          match checks [
              fun _ => eachOk (fun (x, _) => (rowOf v.mem gid z x).map (fun _ => ())) w.window,
              fun _ => elemsAligned v.mem gid z (8 * n) n w.window,
              fun _ => vecBound zs.csbase ((onBits w.cm).map (w.col0 + ·)),
              fun _ => vecBound zs.rsbase ((onBits w.rm).map (w.row0 + ·)),
              fun _ => elemsBound v.mem gid z (8 * n) place w.window] with
          | .error e => stop e
          | .ok _ =>
            match collect (fun j => scale v.mem zs.csbase (w.col0 + j)) (onBits w.cm) with
            | .error e => stop e
            | .ok cs =>
              let row (x : State × State) (i : Nat) : MOut (State × State) :=
                match scale x.1 zs.rsbase (w.row0 + i) with
                | .error e => .error e
                | .ok rv =>
                  match collect (fun (j, cv) =>
                      match elemAddr x.1 gid z (w.row0 + i) (w.col0 + j) (8 * n) with
                      | .error e => .error e
                      | .ok (y, _) => (place y).map (fun ps => (ps, drainElem tile (16 * i + j) out r.toNat sat rv cv)))
                      ((onBits w.cm).zip cs) with
                  | .error e => .error e
                  | .ok l =>
                    let puts := (List.range 8).flatMap (fun k => l.filterMap (fun (ps, y, _) => ps[k]?.map (·, leBytes n y)))
                    let seen := (if scaled then scaleTouch x.1 gid zs.rsbase (w.row0 + i) else []) ++ rowTouch x.1 gid z (w.row0 + i)
                    let s := (x.2.viewed e v.gone seen).drainAs gid sl puts
                    .ok (puts.foldl (fun s (p, bs) => writePlace s p bs) x.1,
                      s.modGroup gid (fun g => g.raise (l.foldl (fun f (_, _, y) => f ||| y) 0)))
              let seen := (if z.mce then foundAt (matPlace v.mem gid .read 8 (z.entryAt v.mem g)) 8 else []) ++
                (if scaled then (onBits w.cm).flatMap (fun j => scaleTouch v.mem gid zs.csbase (w.col0 + j)) else [])
              let s1 := (s'.viewed e v.gone seen).tileEvent [(gid, sl)] g.half [m.toNat, slotAt a.toNat, slotAt b.toNat] []
              let r := runRows row (w.rowsFrom g.startRow) (v.mem, s1)
              rowsEff s gid sl pc (r.1.2, r.2))

/-! ### Moves (R360) -/

/-- The element of a lane. -/
def moveElem (q l : Nat) : Nat := 16 * ((q + l / 16) % 16) + l % 16

/-- `mrd` (R360): a long-latency producer. -/
def execMrd (m v : BitVec 6) (c : BitVec 5) (s : State) : Out :=
  matrixWord (.mrd m v c) s (fun gid sl g =>
    let ty := g.ty sl
    let q := (g.readS sl (c.zeroExtend 6)).toNat % 16
    past s (g.checkDsts (occupies ty v.toNat))
      (match s.team? gid.teamKey with
        | none => .fault (illegal 8).record
        | some t =>
          let tile := t.tile g m.toNat
          if !tile.accepts (ty == 12) then .fault (illegal 2).record
          else if g.active sl = 0#64 then .next s
          else onGroup (s.tileEvent [(gid, sl)] g.half [m.toNat] []) gid (g.produce ty v.toNat (g.active sl) (fun l => tile.bits (moveElem q l)))))

/-- `mwr` (R360). -/
def execMwr (m v : BitVec 6) (c : BitVec 5) (s : State) : Out :=
  matrixWord (.mwr m v c) s (fun gid sl g =>
    let ty := g.ty sl
    let q := (g.readS sl (c.zeroExtend 6)).toNat % 16
    past s (g.checkSrcs (src ty v false))
      (match s.team? gid.teamKey with
        | none => .fault (illegal 8).record
        | some t =>
          let tile := t.tile g m.toNat
          if !tile.accepts (ty == 12) then .fault (illegal 2).record
          else
            let l := (lanesOf (g.active sl)).map (fun l => (moveElem q l, g.rawV ty v.toNat l))
            .next ((s.tileEvent [(gid, sl)] g.half [m.toNat] [m.toNat]).setTeam gid.teamKey (t.setTile g m.toNat (tile.write (ty == 12) 0 l)))))

end Sys2Proof.Machine
end

