-- ==== Sys2Proof/Machine/Power.lean ====
section
/-! DEFINITION. Power (05_power): the power controller (R79 to R81), voltage islands (R82), gating and wake (R83, R84),
and sprint permits (R87 to R91). Measurements of power, temperature, stalls and idle time are inputs of these steps. -/

namespace Sys2Proof.Machine

/-- Vector datapath passes of an instruction of a group of width `w` (R79). -/
def passes (code w : Nat) : Nat := max 1 (w * 2 ^ code / 32)

/-- Change every region of the dies for which `f` holds. -/
def State.modRegions (s : State) (f : Nat → Bool) (g : Region → Region) : State :=
  ((List.range 48).filter f).foldl (fun s r => s.modRegion r g) s

/-- The die that draws the most power, the lower one on a tie (R81). -/
def hottest (w0 w1 w2 w3 : Nat) : Nat :=
  if w1 ≤ w0 ∧ w2 ≤ w0 ∧ w3 ≤ w0 then 0 else if w2 ≤ w1 ∧ w3 ≤ w1 then 1 else if w3 ≤ w2 then 2 else 3

/-- POWER_CTL_RAISE (R81): at most once every 10 µs. The power of the package is the sum of what its dies draw (DESIGN CHOICE, log
49). -/
def execPowerCtlRaise (w0 w1 w2 w3 : Nat) (s : State) : Out :=
  let soon := match s.ctlRaised with
    | some t => decide (s.timer < t + 10000)
    | none => false
  if w0 + w1 + w2 + w3 ≤ 2150 || soon then .next s
  else
    .next { s.modRegions (fun r => r / 12 == hottest w0 w1 w2 w3) (fun r => { r with
        ctl := if r.ctl.toNat < 2 then r.ctl + 1 else 2 }) with ctlRaised := some s.timer }

/-- POWER_CTL_LOWER (R81): the package power has stayed below 2,050 W for 100 µs. -/
def execPowerCtlLower (s : State) : Out :=
  .next (s.modRegions (fun _ => true) (fun r => { r with ctl := if r.ctl = 0 then 0 else r.ctl - 1 }))

/-- NEAR_THRESHOLD_ENTER (R82): the fraction exceeds NTT/16 in 20 consecutive windows; a last window at or below it makes
the quadrant leave. -/
def execNearThresholdEnter (core : Fin 384) (quad : Fin 4) (windows : List Nat) (s : State) : Out :=
  let ntt := (s.region (regionOfCore core.val)).ntt.toNat
  if decide (20 ≤ windows.length) && (windows.drop (windows.length - 20)).all (fun x => decide (ntt < x)) then
    .next (s.modCore core.val (fun c => { c with
      near := if c.near.contains quad.val then c.near else quad.val :: c.near
      slow := if c.slow.contains quad.val then c.slow else quad.val :: c.slow }))
  else if windows.getLast?.any (fun x => decide (x ≤ ntt)) then .next (s.modCore core.val (·.leaveNear quad.val))
  else .next s

/-- NEAR_THRESHOLD_LEAVE (R82): a window at or below the threshold; the quadrant stays at half clock until full clock returns. -/
def execNearThresholdLeave (core : Fin 384) (quad : Fin 4) (s : State) : Out :=
  .next (s.modCore core.val (·.leaveNear quad.val))

/-- FULL_CLOCK_RETURN (R82). -/
def execFullClockReturn (core : Fin 384) (quad : Fin 4) (s : State) : Out :=
  if (s.core core.val).near.contains quad.val then .next s
  else .next (s.modCore core.val (fun c => { c with slow := c.slow.filter (· != quad.val) }))

/-! ### Gating (R83, R84) -/

/-- The region that an event names. -/
def State.selRegion (s : State) : Nat := s.sel % 48

/-- May a region be gated (R83): no resident unit, no reservation, no frozen tile, and NOGATE 0? A gang that holds a sequencer of
the region, and whose tiles have all moved away, is no resident unit of it (DESIGN CHOICE, log 129). -/
def State.idleRegion (s : State) (r : Nat) : Bool :=
  !(s.region r).nogate && !s.reservedRegion r &&
  (List.range 8).all (fun k => !s.coreUsed (8 * r + k) && !(s.core (8 * r + k)).frozen.isSome)

/-- REGION_HOLD (R83): the region has been idle for 10 µs. -/
def execRegionHold (s : State) : Out :=
  if (s.region s.selRegion).gate == .running && s.idleRegion s.selRegion then
    .next (s.modRegion s.selRegion (fun r => { r with gate := .hold }))
  else .next s

/-- REGION_RAIL_OFF (R83): a further 10 µs in the hold. What the rail loses is owned by no unit. -/
def execRegionRailOff (s : State) : Out :=
  if (s.region s.selRegion).gate == .hold && s.idleRegion s.selRegion then
    .next (s.modRegion s.selRegion (fun r => { r with gate := .off }))
  else .next s

/-- RAMP_START (R84): the oldest wake request of a die begins its ramp; at most four ramp at a time. -/
def execRampStart (s : State) : Out :=
  let die := s.sel % 4
  let d := s.die die
  match d.rampQueue with
  | [] => .next s
  | r :: rest =>
    if 4 ≤ d.ramping.length then .next s else .next (s.setDie die { d with rampQueue := rest, ramping := d.ramping ++ [r] })

/-- RAMP_DONE (R84): a ramp ends and the region's clocks start. -/
def execRampDone (s : State) : Out :=
  let r := s.selRegion
  let die := r / 12
  if (s.die die).ramping.contains r then
    .next ((s.modDie die (fun d => { d with ramping := d.ramping.filter (· != r) })).modRegion r (fun x => { x with
      gate := .running }))
  else .next s

/-! ### Sprint permits (R87 to R90) -/

/-- The bin that a region's resident groups ask for (R87). -/
def State.requested (s : State) (region : Nat) : Nat :=
  (s.groups.filter (fun (k, g) => !k.isDebug && regionOfCore g.core == region)).foldl (fun m (_, g) => max m g.sprint.toNat) 0

/-- The refill at the end of an interval (R88, R89). One that began at a boost bin and that the action of R10 has dropped to bin 0
counts as an interval at 2.0 GHz (DESIGN CHOICE, log 42). -/
def Region.refill (r : Region) : Region :=
  if r.bin ≠ 0 then { r with pairing := false }
  else if r.pairing then
    let b := min 64 (r.bal + 1)
    { r with bal := b, pairing := false, ovd := r.ovd && decide (b < 4) }
  else { r with pairing := true }

/-- The bin and the charge of a region for an interval (R87, R88). -/
def Region.charge (r : Region) (req : Nat) (granted cold : Bool) : Region :=
  if !cold || r.bal == -1 || r.ovd || req == 0 then { r with bin := 0 }
  else if req == 2 && granted && decide (2 ≤ r.bal) then { r with bin := 2, bal := r.bal - 2 }
  else if 1 ≤ r.bal then { r with bin := 1, bal := r.bal - 1 }
  else { r with bin := 1, bal := r.bal - 1, ovd := true }

/-- Is a region granted its rail segment for interval `n` (R90)? -/
def State.granted (s : State) (n region : Nat) : Bool :=
  let peer := if region % 2 = 0 then region + 1 else region - 1
  let asks (r : Nat) : Bool := s.requested r == 2 && decide (2 ≤ (s.region r).bal)
  if asks region && asks peer then
    let a := (s.region region).bal
    let b := (s.region peer).bal
    decide (b < a) || (a == b && n % 2 == region % 2)
  else true

/-- SPRINT_INTERVAL (R87 to R90): the next 10 µs interval begins. -/
def execSprintInterval (s : State) : Out :=
  let n := s.interval
  if s.timer < 10000 * n then .next s
  else
    let s := s.modRegions (fun _ => true) Region.refill
    let s' := (List.range 48).foldl (fun t r =>
      t.modRegion r (fun x => x.charge (s.requested r) (s.granted n r) (!s.t95))) s
    .next { s' with interval := n + 1 }

end Sys2Proof.Machine
end

