-- ==== Sys2Proof/Machine/Scalar.lean ====
section
/-! DEFINITION. Group-scalar arithmetic (R288 to R292): 64 bits, executed once by the issuing slot, no mode and no
FLAGS. -/

namespace Sys2Proof.Machine

/-- A scalar T word with a scalar destination (R289). -/
def scalarWord (i : Instr) (d a b : BitVec 6) (f : Word → Word → Word) (s : State) : Out :=
  groupWord i s (fun gid sl g => scalarOp s gid sl g d a b f)

/-- A scalar compare, which writes a group flag of the slot's fork (R291). -/
def scalarCmp (i : Instr) (d a b : BitVec 6) (f : Word → Word → Bool) (s : State) : Out :=
  groupWord i s (fun gid sl g => onGroup s gid (g.writeC sl d.toNat (f (g.readS sl a) (g.readS sl b))))

/-- `sadd` (R289): add. -/
def execSadd (d a b : BitVec 6) (s : State) : Out :=
  scalarWord (.sadd d a b) d a b (fun x y => x + y) s

/-- `ssub` (R289): subtract. -/
def execSsub (d a b : BitVec 6) (s : State) : Out :=
  scalarWord (.ssub d a b) d a b (fun x y => x - y) s

/-- `smul` (R289): multiply, the low 64 bits. -/
def execSmul (d a b : BitVec 6) (s : State) : Out :=
  scalarWord (.smul d a b) d a b (fun x y => x * y) s

/-- `sand` (R289): AND. -/
def execSand (d a b : BitVec 6) (s : State) : Out :=
  scalarWord (.sand d a b) d a b (fun x y => x &&& y) s

/-- `sor` (R289): OR. -/
def execSor (d a b : BitVec 6) (s : State) : Out :=
  scalarWord (.sor d a b) d a b (fun x y => x ||| y) s

/-- `sxor` (R289): exclusive OR. -/
def execSxor (d a b : BitVec 6) (s : State) : Out :=
  scalarWord (.sxor d a b) d a b (fun x y => x ^^^ y) s

/-- `sandn` (R289): AND NOT. -/
def execSandn (d a b : BitVec 6) (s : State) : Out :=
  scalarWord (.sandn d a b) d a b (fun x y => x &&& ~~~ y) s

/-- `sshl` (R289): shift left by B[5:0]. -/
def execSshl (d a b : BitVec 6) (s : State) : Out :=
  scalarWord (.sshl d a b) d a b (fun x y => x <<< amount y) s

/-- `sshr` (R289): logical shift right. -/
def execSshr (d a b : BitVec 6) (s : State) : Out :=
  scalarWord (.sshr d a b) d a b (fun x y => x >>> amount y) s

/-- `ssar` (R289): arithmetic shift right. -/
def execSsar (d a b : BitVec 6) (s : State) : Out :=
  scalarWord (.ssar d a b) d a b (fun x y => x.sshiftRight (amount y)) s

/-- `srol` (R289): rotate left. -/
def execSrol (d a b : BitVec 6) (s : State) : Out :=
  scalarWord (.srol d a b) d a b (fun x y => x.rotateLeft (amount y)) s

/-- `sdiv` (R289): signed division (R290). -/
def execSdiv (d a b : BitVec 6) (s : State) : Out :=
  scalarWord (.sdiv d a b) d a b sdivWord s

/-- `sdivu` (R289): unsigned division (R290). -/
def execSdivu (d a b : BitVec 6) (s : State) : Out :=
  scalarWord (.sdivu d a b) d a b udivWord s

/-- `srem` (R289): signed remainder (R290). -/
def execSrem (d a b : BitVec 6) (s : State) : Out :=
  scalarWord (.srem d a b) d a b sremWord s

/-- `sremu` (R289): unsigned remainder (R290). -/
def execSremu (d a b : BitVec 6) (s : State) : Out :=
  scalarWord (.sremu d a b) d a b uremWord s

/-- `sseq` (R291): equal. -/
def execSseq (d a b : BitVec 6) (s : State) : Out :=
  scalarCmp (.sseq d a b) d a b wordEq s

/-- `sslt` (R291): signed less than. -/
def execSslt (d a b : BitVec 6) (s : State) : Out :=
  scalarCmp (.sslt d a b) d a b wordLt s

/-- `ssltu` (R291): unsigned less than. -/
def execSsltu (d a b : BitVec 6) (s : State) : Out :=
  scalarCmp (.ssltu d a b) d a b wordLtu s

/-- `ssle` (R291): signed less than or equal. -/
def execSsle (d a b : BitVec 6) (s : State) : Out :=
  scalarCmp (.ssle d a b) d a b wordLe s

/-- `saddi` (R292): S[d] := A + SignExt64(imm11). -/
def execSaddi (d a : BitVec 6) (i : BitVec 11) (s : State) : Out :=
  groupWord (.saddi d a i) s (fun gid sl g => onGroup s gid (g.writeS sl d (g.readS sl a + sx i)))

/-- `lcat` (R292): S[d] := (S[d] << 18) OR imm18. -/
def execLcat (d : BitVec 6) (i : BitVec 18) (s : State) : Out :=
  groupWord (.lcat d i) s (fun gid sl g => onGroup s gid (g.writeS sl d (g.readS sl d <<< 18 ||| zx i)))

/-- `li` (R292): S[d] := SignExt64(imm18). -/
def execLi (d : BitVec 6) (i : BitVec 18) (s : State) : Out :=
  groupWord (.li d i) s (fun gid sl g => onGroup s gid (g.writeS sl d (sx i)))

end Sys2Proof.Machine
end

