-- ==== Sys2Proof/Machine/Scratch.lean ====
section
/-! DEFINITION. Scratchpad forms (R333), consuming loads (R334), the tag table (R335), fences (R336, R337) and
RETRY_RESEND (R209). -/

namespace Sys2Proof.Machine

/-- The address of a lane of a scratchpad form (R333): R254's, as an offset into the scratchpad window. -/
def spadAddr (g : Group) (sl : SlotId) (b : BitVec 5) (i : BitVec 6) (n off : Nat) (l : Nat) : Word :=
  BitVec.ofNat 64 windowBase + laneAddr g sl b i n off l

/-- A plain scratchpad load (R333). -/
def ldsWord (w : Instr) (t : BitVec 6) (b : BitVec 5) (i : BitVec 6) (off n : Nat) (s : State) : Out :=
  groupWord w s (fun gid sl g => plainLoad s gid sl g t i n (checkSpad s gid n) (spadAddr g sl b i n off))

/-- A plain scratchpad store (R333). -/
def stsWord (w : Instr) (t : BitVec 6) (b : BitVec 5) (i : BitVec 6) (off n : Nat)
    (post : State → List (Nat × Place) → State) (s : State) : Out :=
  groupWord w s (fun gid sl g => vectorStore s gid sl g t i n (checkSpad s gid n) (spadAddr g sl b i n off) none post)

/-- `lds.w` (R333). -/
def execLdsW (t : BitVec 6) (b : BitVec 5) (i : BitVec 6) (m : BitVec 7) (s : State) : Out :=
  ldsWord (.ldsW t b i m) t b i m.toNat 4 s

/-- `lds.q` (R333). -/
def execLdsQ (t : BitVec 6) (b : BitVec 5) (i : BitVec 6) (m : BitVec 7) (s : State) : Out :=
  ldsWord (.ldsQ t b i m) t b i m.toNat 16 s

/-- `sts.w` (R333). -/
def execStsW (t : BitVec 6) (b : BitVec 5) (i : BitVec 6) (m : BitVec 7) (s : State) : Out :=
  stsWord (.stsW t b i m) t b i m.toNat 4 noPost s

/-- `sts.q` (R333). -/
def execStsQ (t : BitVec 6) (b : BitVec 5) (i : BitVec 6) (m : BitVec 7) (s : State) : Out :=
  stsWord (.stsQ t b i m) t b i m.toNat 16 noPost s

/-- Granules that lanes have named go full (R150). -/
def fillPlaces (s : State) (ps : List (Nat × Place)) : State :=
  ps.foldl (fun s (_, p) =>
    match p with
    | .spad k off => s.fillGranules k [off / 16]
    | _ => s) s

/-- `sts.f` (R333): each granule goes full after its bytes are written. -/
def execStsF (t : BitVec 6) (b : BitVec 5) (i : BitVec 6) (m : BitVec 7) (s : State) : Out :=
  stsWord (.stsF t b i m) t b i m.toNat 16 fillPlaces s

/-- Is the granule of a place full? -/
def granuleFull (s : State) (p : Place) : Bool :=
  match p with
  | .spad k off => ((s.team? k).map (fun t => t.full.contains (off / 16))).getD false
  | _ => false

/-- The granules that lanes have named are emptied (R150). -/
def emptyPlaces (s : State) (ps : List (Nat × Place)) : State :=
  ps.foldl (fun s (_, p) =>
    match p with
    | .spad k off => s.modTeam k (fun t => { t with full := t.full.filter (· != off / 16) })
    | _ => s) s

/-- The bytes that stand at the places of lanes. -/
def State.laneBytes (s : State) (n : Nat) (ps : List (Nat × Place)) : Vector (List Byte) 64 :=
  ps.foldl (fun v (l, p) => v.setIfInBounds l (readPlace s p n)) (.replicate 64 [])

/-- The event of a consuming load. One that empties its granules comes before what fills them again: the bank takes the
operations on a granule one at a time (R150, R174). -/
def State.consumeEvent (s : State) (gid : GroupId) (sl : SlotId) (empties : Bool) : Event :=
  let e := s.eventOf gid sl 0
  if empties then { e with lines := e.lines ++ [.refill] } else e

/-- A consuming load (R334): one step, taken only when every granule is full; it reads no older bytes than those of the fill
it consumes (R172). -/
def ldfWord (w : Instr) (empties faults : Bool) (t : BitVec 6) (b : BitVec 5) (i : BitVec 6) (off : Nat) (s : State) : Out :=
  groupWord w s (fun gid sl g =>
    let addr := spadAddr g sl b i 16 off
    past s (g.hurdle (indexSrc i) (dataRegs t 16))
      (withPlaces s 0 (checkLanes (checkSpad s gid 16) addr (lanesOf (g.active sl))) (fun ps =>
        match ps.find? (fun (_, p) => !granuleFull s p) with
        | some (l, _) =>
          if faults then .fault { emptyReg.record with lane := BitVec.ofNat 6 l } else .wait s .granule
        | none =>
          vectorLoad s gid sl g t i 16 (checkSpad s gid 16) addr (fun s ps =>
              (s.laneBytes 16 ps, ps.foldl (fun s (_, p) => s.newest (s.consumeEvent gid sl empties) p 16) s))
            (if empties then emptyPlaces else noPost))))

/-- `ldf.k` (R334). -/
def execLdfK (t : BitVec 6) (b : BitVec 5) (i : BitVec 6) (m : BitVec 7) (s : State) : Out :=
  ldfWord (.ldfK t b i m) false false t b i m.toNat s

/-- `ldf.c` (R334). -/
def execLdfC (t : BitVec 6) (b : BitVec 5) (i : BitVec 6) (m : BitVec 7) (s : State) : Out :=
  ldfWord (.ldfC t b i m) true false t b i m.toNat s

/-- `ldf.k.t` (R334). -/
def execLdfKT (t : BitVec 6) (b : BitVec 5) (i : BitVec 6) (m : BitVec 7) (s : State) : Out :=
  ldfWord (.ldfKT t b i m) false true t b i m.toNat s

/-- `ldf.c.t` (R334). -/
def execLdfCT (t : BitVec 6) (b : BitVec 5) (i : BitVec 6) (m : BitVec 7) (s : State) : Out :=
  ldfWord (.ldfCT t b i m) true true t b i m.toNat s

/-! ### The tag table (R151, R335) -/

/-- Entries that a team sees: 64, or 128 on a pair. -/
def Team.tagCount (t : Team) : Nat := if t.pair then 128 else 64

/-- An entry of the tag table; one that is not listed is 0. -/
def Team.tag (t : Team) (k : Nat) : Word := (t.tags.find k).getD 0

/-- The lowest entry whose VALID is 1 and whose KEY is given (R151). -/
def Team.lookup (t : Team) (key : Word) : Option Nat :=
  (List.range t.tagCount).find? (fun k =>
    (t.tag k).getLsbD 48 && (t.tag k).extractLsb' 0 48 == key.extractLsb' 0 48)

/-- A word that names an entry by an index below the team's count. -/
def tagWord (w : Instr) (a : BitVec 6) (f : State → GroupId → SlotId → Group → Team → Nat → Eff) (s : State) : Out :=
  groupWord w s (fun gid sl g =>
    match s.team? gid.teamKey with
    | none => .fault (illegal 8).record
    | some t =>
      let k := (g.readS sl a).toNat
      if t.tagCount ≤ k then .fault (illegal 8).record else f s gid sl g t k)

/-- `tlook` (R335). -/
def execTlook (d a : BitVec 6) (s : State) : Out :=
  groupWord (.tlook d a) s (fun gid sl g =>
    match (s.team? gid.teamKey).bind (fun t => t.lookup (g.readS sl a)) with
    | some k => onGroup s gid ((g.writeS sl d (BitVec.ofNat 64 k)).writeC sl 0 false)
    | none => onGroup s gid ((g.writeS sl d (BitVec.allOnes 64)).writeC sl 0 true))

/-- `tset` (R335). -/
def execTset (a b : BitVec 6) (s : State) : Out :=
  tagWord (.tset a b) a (fun s gid sl g t k =>
    .next (s.setTeam gid.teamKey { t with tags := t.tags.put k (g.readS sl b) })) s

/-- `tget` (R335). -/
def execTget (d a : BitVec 6) (s : State) : Out :=
  tagWord (.tget d a) a (fun s gid sl g t k => onGroup s gid (g.writeS sl d (t.tag k))) s

/-- `tinv` (R335): VALID goes to 0; KEY and DATA are kept. -/
def execTinv (a : BitVec 6) (s : State) : Out :=
  tagWord (.tinv a) a (fun s gid _ _ t k =>
    .next (s.setTeam gid.teamKey { t with tags := t.tags.put k (setBit (t.tag k) 48 false) })) s

/-! ### Fences and retries -/

/-- `fence` (R336): an acquire and a release of the slot over core and atomic events (R172). -/
def execFence (sc : BitVec 3) (s : State) : Out :=
  groupWord (.fence sc) s (fun gid sl _ => .next (s.fence gid sl [0, atomicClass] (s.scopeFor gid sc) [0, atomicClass]))

/-- Has a slot of a group started copies that are not complete, here or suspended with its context (R201)? -/
def State.copiesPending (s : State) (gid : GroupId) (sl : SlotId) : Bool :=
  let mine (c : Copy) : Bool := c.group == some gid && c.slots.contains sl
  s.channels.any (fun (_, l) => l.any mine) || s.contexts.any (fun (_, c) => c.susp.any (fun x => mine x.2.2))

/-- `xfence` P → Q (R171, R337): the slot's P events before it come before its Q events after it. From copy it waits until the
copies that the slot has started have been performed. -/
def execXfence (q p sc : BitVec 3) (s : State) : Out :=
  groupWord (.xfence q p sc) s (fun gid sl _ =>
    if p = 1#3 && s.copiesPending gid sl then .wait s .copies
    else .next (s.fence gid sl [p.toNat] (s.scopeFor gid sc) [q.toNat]))

/-- A wait for a tile that no longer answers "absent, retry" ends (R209). -/
def State.resent (s : State) : Option Wait → Option Wait
  | some (.absent c) => if s.absentCore c then some (.absent c) else none
  | w => w

/-- RETRY_RESEND (R209): the notice of a wake or restore arrives, and a held access is sent again at its slot's next
issue. -/
def execRetryResend (gid : GroupId) (s : State) : Out :=
  let again (x : Slot) : Slot := { x with hold := s.resent x.hold }
  .next (s.modGroup gid (fun g => { g with wait := s.resent g.wait, a := again g.a, b := g.b.map again }))

end Sys2Proof.Machine
end

