-- ==== Sys2Proof/Machine/Seqs.lean ====
section
/-! DEFINITION. The steps of the sequencer tree that no word names: issuing and reading batons (R96, R101), decisions
(R103, R297), words that no opcode is assigned to (R245, R265 to R269) and words that cannot be fetched (R271). -/

namespace Sys2Proof.Machine

/-- BATON_ISSUE (R96). -/
def execBatonIssue (q : SeqId) (s : State) : Out := .next (s.issueBaton q)

/-- BATON_TAKE (R101). -/
def execBatonTake (m : Member) (s : State) : Out := .next (s.takeBaton m)

/-- The decision that the word of an owner asks for (R103, R297). -/
def State.decideWord (s : State) (q : SeqId) (x : Seq) (i : Instr) : State :=
  match i with
  | .br _ e c o => s.decideBr q x i e c.toNat (relTarget x.own.pc o)
  | .wred d _ p y _ _ | .gred d _ p y _ _ | .dred d _ p y _ _ => s.decideRed q x d.toNat p.toNat (.ofScope y)
  | _ => s

/-- OWNER_DECIDE (R103): the owner of the word at which every member has posted decides. -/
def execOwnerDecide (q : SeqId) (s : State) : Out :=
  match s.seq? q with
  | none => .next s
  | some x =>
    match fetchIn s x.ctx x.own.pc with
    | .error _ => .next s
    | .ok w =>
      let i := decodeWord w
      if x.runs q && !s.seqHeld q && (stubAt s x.ctx x.own.pc).isNone && upperScope i == some q.level && needsPosts i && (ownerStop x i).isNone then
        .next (s.decideWord q x i)
      else .next s

/-- UNASSIGNED_OPCODE (R245, R265, R268, R269): a group takes the fault of the word. A word whose scope field names an
upper scope (R267) is brought to its members as every word of that scope is (R95, R96). -/
def execUnassignedOpcode (w : BitVec 32) (s : State) : Out :=
  let i := Instr.unassignedOpcode w
  match s.cur, wordScope w with
  | .group gid sl, none =>
    match s.group? gid with
    | none => .refused .noIssuer
    | some g => .next (s.takeStop gid sl ((wordCause gid.isDebug w).atScope i) (g.slot sl).pc)
  | .seq q, none => if (s.seq? q).isSome then .next (s.issueBaton q) else .refused .noIssuer
  | _, some l => upperWord i l s (fun _ _ => s) (fun _ _ _ => .wait .baton)
  | .none, none => .refused .noIssuer

/-- INSTRUCTION_FETCH_FAULT (R271, R153): the word at the PC of the issuing slot cannot be fetched. A stream brings its
members to the word; a group takes the fault there, with CLASS 0 and the fetch as the faulting access, unless its next
baton has been issued. -/
def execInstructionFetchFault (s : State) : Out :=
  match s.cur with
  | .none => .refused .noIssuer
  | .seq q => if (s.seq? q).isSome then .next (s.issueBaton q) else .refused .noIssuer
  | .group gid sl =>
    match s.group? gid with
    | none => .refused .noIssuer
    | some g =>
      let pc := (g.slot sl).pc
      match fetchWord s gid pc with
      | .ok _ => .next s
      | .error (.hold w) => .next (s.setGroup gid { g with wait := some w })
      | .error b =>
        if g.viewEnd == some pc && !g.spawned && (s.nextBaton (streamOf gid g) g.read).isSome then
          .next (s.setGroup gid { g with wait := some .baton })
        else .next (s.takeStop gid sl (b.record 0 0 (zx pc)) pc)

end Sys2Proof.Machine
end

