-- ==== Sys2Proof/Machine/Special.lean ====
section
/-! DEFINITION. The special functions of R312. Reciprocal and reciprocal square root are computed exactly with a sticky
bit. The other four are enclosed in an interval of fixed point; where both ends round to one code that code is the
result, because no such value is representable or a tie, and elsewhere the code is the free `Config.specialTie`
(log 14). -/

namespace Sys2Proof.Machine

/-- π × 2^520, rounded down. -/
def piFixed : Nat :=
  0x3243f6a8885a308d313198a2e03707344a4093822299f31d0082efa98ec4e6c89452821e638d01377be5466cf34e90c6cc0ac29b7c97c50dd3f84d5b5b547091792

/-- ln 2 × 2^256, rounded down. -/
def ln2Fixed : Nat :=
  0xb17217f7d1cf79abc9e3b39803f2f6af40f343267298b62d8a0d175b8baafa2b

/-- Fraction bits of the fixed point. -/
def fixBits : Nat := 256

/-- The flags of R312 for a rounded result: underflow when it is inexact, not zero and below the smallest normal. -/
def Fmt.specialFlags (f : Fmt) (r : Nat × Flags) : Nat × Flags :=
  let mag := r.1 % f.signBit
  let fl := r.2 &&& ~~~ flagUnderflow
  (r.1, if fl &&& flagInexact != 0#5 && mag != 0 && decide (mag < 2 ^ f.fb) then fl ||| flagUnderflow else fl)

/-- Round a value strictly between lo × 2^e and hi × 2^e to nearest; `free` is the code where they disagree. -/
def Fmt.nearest (f : Fmt) (sat neg : Bool) (lo hi : Nat) (e : Int) (free : Nat) : Nat × Flags :=
  let a := f.roundFin 0 sat neg lo e true
  let b := f.roundFin 0 sat neg hi e true
  let r := if a.1 = b.1 then b else (free % 2 ^ (1 + f.eb + f.fb), flagInexact)
  f.specialFlags (r.1, r.2 ||| flagInexact)

/-- Sum of the terms t^k / k! for k up to `fuel`, by Horner's order from the last term; fixed point. -/
def expSeries (t : Nat) : (fuel : Nat) → (k : Nat) → (term : Nat) → Nat
  | 0, _, term => term
  | n + 1, k, term => term + expSeries t n (k + 1) (term * t / (k * 2 ^ fixBits))

/-- 2^x for a finite x that is no integer. -/
def Fmt.exp2Frac (f : Fmt) (sat neg : Bool) (m : Nat) (e : Int) (free : Nat) : Nat × Flags :=
  let sh := (-e).toNat
  let v : Int := if neg then -(m : Int) else m
  let n := v / (2 ^ sh : Nat)
  let fr := (v % (2 ^ sh : Nat)).toNat
  if 5000 < n then f.specialFlags (f.roundFin 0 sat false 1 5000 false)
  else if n < -5000 then f.specialFlags (f.roundFin 0 sat false 3 (-5000) true)
  else
    let t := fr * ln2Fixed / 2 ^ sh
    let s := expSeries t 70 1 (2 ^ fixBits)
    f.nearest sat false (s - 4096) (s + 4096) (n - fixBits) free

/-- The binary digits of log2 y for y in [1, 2), in fixed point of 320 bits: `fuel` of them after `acc`. -/
def log2Digits : (fuel : Nat) → (y acc : Nat) → Nat
  | 0, _, acc => acc
  | n + 1, y, acc =>
    let z := y * y / 2 ^ 320
    if 2 ^ 321 ≤ z then log2Digits n (z / 2) (2 * acc + 1) else log2Digits n z (2 * acc)

/-- log2 of a positive value that is no power of two. -/
def Fmt.log2Pos (f : Fmt) (sat : Bool) (m : Nat) (e : Int) (free : Nat) : Nat × Flags :=
  let top := m.log2
  let d : Int := log2Digits 160 (m * 2 ^ (320 - top)) 0
  let v := (e + top) * (2 ^ 160 : Nat) + d
  if 0 ≤ v then f.nearest sat false (v.toNat - 2) (v.toNat + 4) (-160) free
  else f.nearest sat true ((-v).toNat - 4) ((-v).toNat + 2) (-160) free

/-- Terms of the Taylor series with ratio −r² / ((k+1)(k+2)), in fixed point. -/
def trigSeries (r2 : Int) : (fuel : Nat) → (k : Nat) → (term : Int) → Int
  | 0, _, term => term
  | n + 1, k, term => term + trigSeries r2 n (k + 2) (-(term * r2) / ((k + 1) * (k + 2) * 2 ^ fixBits : Nat))

/-- sin (or cos) of a finite value that is not zero: exact reduction by multiples of π/2. -/
def Fmt.trig (f : Fmt) (cos : Bool) (sat neg : Bool) (m : Nat) (e : Int) (free : Nat) : Nat × Flags :=
  let half := piFixed / 2
  let x := if 0 ≤ e + 520 then m * 2 ^ (e + 520).toNat else m / 2 ^ (-(e + 520)).toNat
  let q := (x + half / 2) / half
  let r : Int := ((x : Int) - (q * half : Nat)) / (2 ^ 264 : Nat)
  let r2 := r * r / (2 ^ fixBits : Nat)
  let sinR := trigSeries r2 40 1 r
  let cosR := trigSeries r2 40 0 (2 ^ fixBits : Nat)
  let k := (q + if cos then 1 else 0) % 4
  let v := if k = 0 then sinR else if k = 1 then cosR else if k = 2 then -sinR else -cosR
  let s := if neg && !cos then -v else v
  f.nearest sat (decide (s < 0)) (s.natAbs - 4096) (s.natAbs + 4096) (-(fixBits : Int)) free

/-- frcp (R312). -/
def Fmt.rcp (f : Fmt) (sat : Bool) (x : Num) : Nat × Flags := f.specialFlags (f.div 0 sat (.fin false 1 0) x)

/-- frsq (R312). -/
def Fmt.rsq (f : Fmt) (sat : Bool) : Num → Nat × Flags
  | .nan a => f.round 0 sat (.nan a)
  | .inf a => if a then f.round 0 sat (.nan true) else (0, 0#5)
  | .fin a m e =>
    if m = 0 then (f.signed a f.infMag, flagDivZero)
    else if a then f.round 0 sat (.nan true)
    else
      let m' := if e % 2 = 0 then m else 2 * m
      let e' := if e % 2 = 0 then e else e - 1
      let k := 64 + m'.log2
      let q := 2 ^ (2 * k) / m'
      let r := isqrt q
      f.specialFlags (f.roundFin 0 sat false r (-(k : Int) - e' / 2) (!(2 ^ (2 * k) % m' == 0 && r * r == q)))

/-- fexp2 (R312). -/
def Fmt.exp2 (f : Fmt) (sat : Bool) (free : Nat) : Num → Nat × Flags
  | .nan a => f.round 0 sat (.nan a)
  | .inf a => if a then (0, 0#5) else (f.infMag, 0#5)
  | .fin a m e =>
    if m = 0 then f.round 0 sat (.fin false 1 0)
    else if 0 ≤ e ∨ m % 2 ^ (-e).toNat = 0 then
      let n : Nat := if 0 ≤ e then (if 13 < e then 5000 else min 5000 (m * 2 ^ e.toNat)) else min 5000 (m / 2 ^ (-e).toNat)
      f.specialFlags (f.roundFin 0 sat false 1 (if a then -(n : Int) else n) false)
    else f.exp2Frac sat a m e free

/-- flog2 (R312). -/
def Fmt.flog2 (f : Fmt) (sat : Bool) (free : Nat) : Num → Nat × Flags
  | .nan a => f.round 0 sat (.nan a)
  | .inf a => if a then f.round 0 sat (.nan true) else (f.infMag, 0#5)
  | .fin a m e =>
    if m = 0 then (f.signed true f.infMag, flagDivZero)
    else if a then f.round 0 sat (.nan true)
    else if m = 2 ^ m.log2 then f.specialFlags (f.round 0 sat (.ofInt (e + m.log2)))
    else f.log2Pos sat m e free

/-- fsin (R312). -/
def Fmt.fsin (f : Fmt) (sat : Bool) (free : Nat) : Num → Nat × Flags
  | .nan a => f.round 0 sat (.nan a)
  | .inf _ => f.round 0 sat (.nan true)
  | .fin a m e => if m = 0 then (f.signed a 0, 0#5) else f.trig false sat a m e free

/-- fcos (R312). -/
def Fmt.fcos (f : Fmt) (sat : Bool) (free : Nat) : Num → Nat × Flags
  | .nan a => f.round 0 sat (.nan a)
  | .inf _ => f.round 0 sat (.nan true)
  | .fin a m e => if m = 0 then f.round 0 sat (.fin false 1 0) else f.trig true sat a m e free

end Sys2Proof.Machine
end

