-- ==== Sys2Proof/Machine/VectorFloat.lean ====
section
/-! DEFINITION. Vector floating point (R310 to R312): one rounding under the mode, and the special functions, which are
correctly rounded to nearest. The words of 0x43 to 0x45 are long-latency producers (R305). -/

namespace Sys2Proof.Machine

/-- `fadd` (R310): x + y. -/
def execFadd (d a b : BitVec 6) (x y : Bool) (h : BitVec 2) (s : State) : Out :=
  vecWord2 (.fadd d a b x y h) d a b x y h false (fun ty m p q _ => fltOp ty m (fun u v => u.add (modeRnd m) v) p q) s

/-- `fsub` (R310): x − y. -/
def execFsub (d a b : BitVec 6) (x y : Bool) (h : BitVec 2) (s : State) : Out :=
  vecWord2 (.fsub d a b x y h) d a b x y h false (fun ty m p q _ => fltOp ty m (fun u v => u.add (modeRnd m) v.neg) p q) s

/-- `fmul` (R310): x × y. -/
def execFmul (d a b : BitVec 6) (x y : Bool) (h : BitVec 2) (s : State) : Out :=
  vecWord2 (.fmul d a b x y h) d a b x y h false (fun ty m p q _ => fltOp ty m Num.mul p q) s

/-- `ffma` (R310): x × y + z. -/
def execFfma (d a b : BitVec 6) (x y : Bool) (h : BitVec 2) (s : State) : Out :=
  vecWord2 (.ffma d a b x y h) d a b x y h true (fun ty m p q r => fused ty m false false p q r) s

/-- `ffms` (R310): x × y − z. -/
def execFfms (d a b : BitVec 6) (x y : Bool) (h : BitVec 2) (s : State) : Out :=
  vecWord2 (.ffms d a b x y h) d a b x y h true (fun ty m p q r => fused ty m false true p q r) s

/-- `fnma` (R310): −(x × y) + z. -/
def execFnma (d a b : BitVec 6) (x y : Bool) (h : BitVec 2) (s : State) : Out :=
  vecWord2 (.fnma d a b x y h) d a b x y h true (fun ty m p q r => fused ty m true false p q r) s

/-- `fmin` (R310): IEEE 754-2019 minimum (R311). -/
def execFmin (d a b : BitVec 6) (x y : Bool) (h : BitVec 2) (s : State) : Out :=
  vecWord2 (.fmin d a b x y h) d a b x y h false (fun ty _ p q _ => fltPick ty Num.min p q) s

/-- `fmax` (R310): IEEE 754-2019 maximum (R311). -/
def execFmax (d a b : BitVec 6) (x y : Bool) (h : BitVec 2) (s : State) : Out :=
  vecWord2 (.fmax d a b x y h) d a b x y h false (fun ty _ p q _ => fltPick ty Num.max p q) s

/-- `fabs` (R311): the sign bit cleared. -/
def execFabs (d a : BitVec 6) (x : Bool) (h : BitVec 2) (s : State) : Out :=
  vecWord1 (.fabs d a x h) d a x (fun ty _ p => fltSign ty false p) s

/-- `fneg` (R311): the sign bit flipped. -/
def execFneg (d a : BitVec 6) (x : Bool) (h : BitVec 2) (s : State) : Out :=
  vecWord1 (.fneg d a x h) d a x (fun ty _ p => fltSign ty true p) s

/-- `fdiv` (R310): x ÷ y, a long-latency producer. -/
def execFdiv (d a b : BitVec 6) (x y : Bool) (h : BitVec 2) (s : State) : Out :=
  groupWord (.fdiv d a b x y h) s (fun gid sl g =>
    let ty := g.ty sl
    let m := g.mode sl
    past s (g.hurdle (src ty a x ++ src ty b y) (occupies ty d.toNat))
      (onGroup s gid ((g.produceAll sl ty d (fun l =>
        (fmtOf ty).div (modeRnd m) (modeSat m) (numOf ty (g.rawV ty a.toNat l)) (numOf ty (g.rawV ty b.toNat l)))).lastRead h
          (occupies ty b.toNat) (occupies ty d.toNat))))

/-- A long-latency producer of one source (R305). -/
def slowWord1 (i : Instr) (d a : BitVec 6) (x : Bool) (f : (ty : Nat) → (m : BitVec 32) → Nat → Nat × Flags)
    (s : State) : Out :=
  groupWord i s (fun gid sl g =>
    let ty := g.ty sl
    past s (g.hurdle (src ty a x) (occupies ty d.toNat))
      (onGroup s gid (g.produceAll sl ty d (fun l => f ty (g.mode sl) (g.rawV ty a.toNat l)))))

/-- `fsqrt` (R310): √x. -/
def execFsqrt (d a : BitVec 6) (x : Bool) (h : BitVec 2) (s : State) : Out :=
  slowWord1 (.fsqrt d a x h) d a x (fun ty m p => (fmtOf ty).sqrt (modeRnd m) (modeSat m) (numOf ty p)) s

/-- `frcp` (R312): 1/x, the nearest representable value. -/
def execFrcp (d a : BitVec 6) (x : Bool) (h : BitVec 2) (s : State) : Out :=
  slowWord1 (.frcp d a x h) d a x (fun ty m p => (fmtOf ty).rcp (modeSat m) (numOf ty p)) s

/-- `frsq` (R312): 1/√x, the nearest representable value. -/
def execFrsq (d a : BitVec 6) (x : Bool) (h : BitVec 2) (s : State) : Out :=
  slowWord1 (.frsq d a x h) d a x (fun ty m p => (fmtOf ty).rsq (modeSat m) (numOf ty p)) s

/-- `fexp2` (R312): 2^x, the nearest representable value. -/
def execFexp2 (d a : BitVec 6) (x : Bool) (h : BitVec 2) (s : State) : Out :=
  slowWord1 (.fexp2 d a x h) d a x (fun ty m p => (fmtOf ty).exp2 (modeSat m) (Config.specialTie 2 ty p) (numOf ty p)) s

/-- `flog2` (R312): log₂ x, the nearest representable value. -/
def execFlog2 (d a : BitVec 6) (x : Bool) (h : BitVec 2) (s : State) : Out :=
  slowWord1 (.flog2 d a x h) d a x (fun ty m p => (fmtOf ty).flog2 (modeSat m) (Config.specialTie 3 ty p) (numOf ty p)) s

/-- `fsin` (R312): sine of x radians, the nearest representable value. -/
def execFsin (d a : BitVec 6) (x : Bool) (h : BitVec 2) (s : State) : Out :=
  slowWord1 (.fsin d a x h) d a x (fun ty m p => (fmtOf ty).fsin (modeSat m) (Config.specialTie 4 ty p) (numOf ty p)) s

/-- `fcos` (R312): cosine of x radians, the nearest representable value. -/
def execFcos (d a : BitVec 6) (x : Bool) (h : BitVec 2) (s : State) : Out :=
  slowWord1 (.fcos d a x h) d a x (fun ty m p => (fmtOf ty).fcos (modeSat m) (Config.specialTie 5 ty p) (numOf ty p)) s

end Sys2Proof.Machine
end

