-- ==== Sys2Proof/Machine/Dispatch.lean ====
section
/-! DEFINITION. One arm for each constructor of `Instr`: a direct call of its meaning. -/

namespace Sys2Proof.Machine

def exec (i : Instr) (s : State) : Host.Outcome State Fault Refusal :=
  match i with
  | .selfTestDone die core copy port slices => Sys2Proof.Machine.execSelfTestDone die core copy port slices s
  | .functionReady f => Sys2Proof.Machine.execFunctionReady f s
  | .functionFail f => Sys2Proof.Machine.execFunctionFail f s
  | .deviceNumberSet n => Sys2Proof.Machine.execDeviceNumberSet n s
  | .flitReceive p header payload crcOk => Sys2Proof.Machine.execFlitReceive p header payload crcOk s
  | .remoteRequest src op addr => Sys2Proof.Machine.execRemoteRequest src op addr s
  | .hostAccess fn off n wr => Sys2Proof.Machine.execHostAccess fn off n wr s
  | .attestationReport die nonce => Sys2Proof.Machine.execAttestationReport die nonce s
  | .thermalAction t => Sys2Proof.Machine.execThermalAction t s
  | .thermalWithdraw t => Sys2Proof.Machine.execThermalWithdraw t s
  | .registerWrite fn off size v => Sys2Proof.Machine.execRegisterWrite fn off size v s
  | .qownWrite n v => Sys2Proof.Machine.execQownWrite n v s
  | .queueEnable n stop => Sys2Proof.Machine.execQueueEnable n stop s
  | .queueDoorbell n wrx => Sys2Proof.Machine.execQueueDoorbell n wrx s
  | .serviceRound die k => Sys2Proof.Machine.execServiceRound die k s
  | .invalidateRangeComplete n idx => Sys2Proof.Machine.execInvalidateRangeComplete n idx s
  | .imageLoad ctx image => Sys2Proof.Machine.execImageLoad ctx image s
  | .exit ctx status => Sys2Proof.Machine.execExit ctx status s
  | .log ctx addr len => Sys2Proof.Machine.execLog ctx addr len s
  | .queueOpen ctx prio => Sys2Proof.Machine.execQueueOpen ctx prio s
  | .memMap ctx va bytes flags => Sys2Proof.Machine.execMemMap ctx va bytes flags s
  | .memUnmap ctx va bytes => Sys2Proof.Machine.execMemUnmap ctx va bytes s
  | .launchCall ctx queue packet => Sys2Proof.Machine.execLaunchCall ctx queue packet s
  | .counterWait ctx addr target timeout => Sys2Proof.Machine.execCounterWait ctx addr target timeout s
  | .fnLoad ctx kernel => Sys2Proof.Machine.execFnLoad ctx kernel s
  | .functionPublish ctx kernel => Sys2Proof.Machine.execFunctionPublish ctx kernel s
  | .powerCtlRaise w0 w1 w2 w3 => Sys2Proof.Machine.execPowerCtlRaise w0 w1 w2 w3 s
  | .nearThresholdEnter core quad windows => Sys2Proof.Machine.execNearThresholdEnter core quad windows s
  | .nearThresholdLeave core quad => Sys2Proof.Machine.execNearThresholdLeave core quad s
  | .fullClockReturn core quad => Sys2Proof.Machine.execFullClockReturn core quad s
  | .batonIssue q => Sys2Proof.Machine.execBatonIssue q s
  | .batonTake m => Sys2Proof.Machine.execBatonTake m s
  | .ownerDecide q => Sys2Proof.Machine.execOwnerDecide q s
  | .writeback g => Sys2Proof.Machine.execWriteback g s
  | .registerBlockGrant core quad => Sys2Proof.Machine.execRegisterBlockGrant core quad s
  | .restore core target => Sys2Proof.Machine.execRestore core target s
  | .migrateByReplay core target => Sys2Proof.Machine.execMigrateByReplay core target s
  | .tileMigrate core target => Sys2Proof.Machine.execTileMigrate core target s
  | .copyGranuleWrite engine channel => Sys2Proof.Machine.execCopyGranuleWrite engine channel s
  | .copyComplete engine channel => Sys2Proof.Machine.execCopyComplete engine channel s
  | .retryResend g => Sys2Proof.Machine.execRetryResend g s
  | .syncArrival g => Sys2Proof.Machine.execSyncArrival g s
  | .syncJoin g die slot => Sys2Proof.Machine.execSyncJoin g die slot s
  | .syncLeave g die slot kill => Sys2Proof.Machine.execSyncLeave g die slot kill s
  | .phaseCompletion g => Sys2Proof.Machine.execPhaseCompletion g s
  | .breakpointHit g slot => Sys2Proof.Machine.execBreakpointHit g slot s
  | .traceSample core quad last => Sys2Proof.Machine.execTraceSample core quad last s
  | .mailboxInWrite die w v => Sys2Proof.Machine.execMailboxInWrite die w v s
  | .br s_ e c o => Sys2Proof.Machine.execBr s_ e c o s
  | .call s_ o => Sys2Proof.Machine.execCall s_ o s
  | .ret s_ => Sys2Proof.Machine.execRet s_ s
  | .elect d => Sys2Proof.Machine.execElect d s
  | .loop s_ c o => Sys2Proof.Machine.execLoop s_ c o s
  | .trap c => Sys2Proof.Machine.execTrap c s
  | .kadd s_ d a f b => Sys2Proof.Machine.execKadd s_ d a f b s
  | .ksub s_ d a f b => Sys2Proof.Machine.execKsub s_ d a f b s
  | .kmul s_ d a f b => Sys2Proof.Machine.execKmul s_ d a f b s
  | .kand s_ d a f b => Sys2Proof.Machine.execKand s_ d a f b s
  | .kor s_ d a f b => Sys2Proof.Machine.execKor s_ d a f b s
  | .kxor s_ d a f b => Sys2Proof.Machine.execKxor s_ d a f b s
  | .kshl s_ d a f b => Sys2Proof.Machine.execKshl s_ d a f b s
  | .kshr s_ d a f b => Sys2Proof.Machine.execKshr s_ d a f b s
  | .kmov s_ d f b => Sys2Proof.Machine.execKmov s_ d f b s
  | .kseq s_ d a f b => Sys2Proof.Machine.execKseq s_ d a f b s
  | .kslt s_ d a f b => Sys2Proof.Machine.execKslt s_ d a f b s
  | .ksltu s_ d a f b => Sys2Proof.Machine.execKsltu s_ d a f b s
  | .wred d a p y t h => Sys2Proof.Machine.execWred d a p y t h s
  | .gred d a p y t h => Sys2Proof.Machine.execGred d a p y t h s
  | .dred d a p y t h => Sys2Proof.Machine.execDred d a p y t h s
  | .sadd d a b => Sys2Proof.Machine.execSadd d a b s
  | .ssub d a b => Sys2Proof.Machine.execSsub d a b s
  | .smul d a b => Sys2Proof.Machine.execSmul d a b s
  | .sand d a b => Sys2Proof.Machine.execSand d a b s
  | .sor d a b => Sys2Proof.Machine.execSor d a b s
  | .sxor d a b => Sys2Proof.Machine.execSxor d a b s
  | .sandn d a b => Sys2Proof.Machine.execSandn d a b s
  | .sshl d a b => Sys2Proof.Machine.execSshl d a b s
  | .sshr d a b => Sys2Proof.Machine.execSshr d a b s
  | .ssar d a b => Sys2Proof.Machine.execSsar d a b s
  | .srol d a b => Sys2Proof.Machine.execSrol d a b s
  | .sseq d a b => Sys2Proof.Machine.execSseq d a b s
  | .sslt d a b => Sys2Proof.Machine.execSslt d a b s
  | .ssltu d a b => Sys2Proof.Machine.execSsltu d a b s
  | .ssle d a b => Sys2Proof.Machine.execSsle d a b s
  | .sdiv d a b => Sys2Proof.Machine.execSdiv d a b s
  | .sdivu d a b => Sys2Proof.Machine.execSdivu d a b s
  | .srem d a b => Sys2Proof.Machine.execSrem d a b s
  | .sremu d a b => Sys2Proof.Machine.execSremu d a b s
  | .saddi d a i_ => Sys2Proof.Machine.execSaddi d a i_ s
  | .lcat d i_ => Sys2Proof.Machine.execLcat d i_ s
  | .li d i_ => Sys2Proof.Machine.execLi d i_ s
  | .getc d n => Sys2Proof.Machine.execGetc d n s
  | .setc d n => Sys2Proof.Machine.execSetc d n s
  | .add d a b x y h => Sys2Proof.Machine.execAdd d a b x y h s
  | .sub d a b x y h => Sys2Proof.Machine.execSub d a b x y h s
  | .mul d a b x y h => Sys2Proof.Machine.execMul d a b x y h s
  | .mulh d a b x y h => Sys2Proof.Machine.execMulh d a b x y h s
  | .addi d a t i_ => Sys2Proof.Machine.execAddi d a t i_ s
  | .and d a b x y h => Sys2Proof.Machine.execAnd d a b x y h s
  | .or d a b x y h => Sys2Proof.Machine.execOr d a b x y h s
  | .xor d a b x y h => Sys2Proof.Machine.execXor d a b x y h s
  | .andn d a b x y h => Sys2Proof.Machine.execAndn d a b x y h s
  | .shl d a b x y h => Sys2Proof.Machine.execShl d a b x y h s
  | .shr d a b x y h => Sys2Proof.Machine.execShr d a b x y h s
  | .sar d a b x y h => Sys2Proof.Machine.execSar d a b x y h s
  | .rol d a b x y h => Sys2Proof.Machine.execRol d a b x y h s
  | .imin d a b x y h => Sys2Proof.Machine.execImin d a b x y h s
  | .imax d a b x y h => Sys2Proof.Machine.execImax d a b x y h s
  | .iabsd d a b x y h => Sys2Proof.Machine.execIabsd d a b x y h s
  | .imad d a b x y h => Sys2Proof.Machine.execImad d a b x y h s
  | .idiv d a b x y h => Sys2Proof.Machine.execIdiv d a b x y h s
  | .irem d a b x y h => Sys2Proof.Machine.execIrem d a b x y h s
  | .popc d a x h => Sys2Proof.Machine.execPopc d a x h s
  | .clz d a x h => Sys2Proof.Machine.execClz d a x h s
  | .brev d a x h => Sys2Proof.Machine.execBrev d a x h s
  | .vli d i_ => Sys2Proof.Machine.execVli d i_ s
  | .andi d a t i_ => Sys2Proof.Machine.execAndi d a t i_ s
  | .shli d a t i_ => Sys2Proof.Machine.execShli d a t i_ s
  | .fadd d a b x y h => Sys2Proof.Machine.execFadd d a b x y h s
  | .fsub d a b x y h => Sys2Proof.Machine.execFsub d a b x y h s
  | .fmul d a b x y h => Sys2Proof.Machine.execFmul d a b x y h s
  | .ffma d a b x y h => Sys2Proof.Machine.execFfma d a b x y h s
  | .ffms d a b x y h => Sys2Proof.Machine.execFfms d a b x y h s
  | .fnma d a b x y h => Sys2Proof.Machine.execFnma d a b x y h s
  | .fmin d a b x y h => Sys2Proof.Machine.execFmin d a b x y h s
  | .fmax d a b x y h => Sys2Proof.Machine.execFmax d a b x y h s
  | .fabs d a x h => Sys2Proof.Machine.execFabs d a x h s
  | .fneg d a x h => Sys2Proof.Machine.execFneg d a x h s
  | .fdiv d a b x y h => Sys2Proof.Machine.execFdiv d a b x y h s
  | .fsqrt d a x h => Sys2Proof.Machine.execFsqrt d a x h s
  | .frcp d a x h => Sys2Proof.Machine.execFrcp d a x h s
  | .frsq d a x h => Sys2Proof.Machine.execFrsq d a x h s
  | .fexp2 d a x h => Sys2Proof.Machine.execFexp2 d a x h s
  | .flog2 d a x h => Sys2Proof.Machine.execFlog2 d a x h s
  | .fsin d a x h => Sys2Proof.Machine.execFsin d a x h s
  | .fcos d a x h => Sys2Proof.Machine.execFcos d a x h s
  | .cvt d a k x h => Sys2Proof.Machine.execCvt d a k x h s
  | .npack d a z x h => Sys2Proof.Machine.execNpack d a z x h s
  | .nunpk d a z x h => Sys2Proof.Machine.execNunpk d a z x h s
  | .mov d a x h => Sys2Proof.Machine.execMov d a x h s
  | .ceq d a b x y h => Sys2Proof.Machine.execCeq d a b x y h s
  | .clt d a b x y h => Sys2Proof.Machine.execClt d a b x y h s
  | .cle d a b x y h => Sys2Proof.Machine.execCle d a b x y h s
  | .cne d a b x y h => Sys2Proof.Machine.execCne d a b x y h s
  | .pand d a b => Sys2Proof.Machine.execPand d a b s
  | .por d a b => Sys2Proof.Machine.execPor d a b s
  | .pxor d a b => Sys2Proof.Machine.execPxor d a b s
  | .pandn d a b => Sys2Proof.Machine.execPandn d a b s
  | .pset d a => Sys2Proof.Machine.execPset d a s
  | .pget d a => Sys2Proof.Machine.execPget d a s
  | .pcnt d a => Sys2Proof.Machine.execPcnt d a s
  | .shfl d a b x y h => Sys2Proof.Machine.execShfl d a b x y h s
  | .shxor d a b x h => Sys2Proof.Machine.execShxor d a b x h s
  | .bcast d a b x h => Sys2Proof.Machine.execBcast d a b x h s
  | .vrd d a b x h => Sys2Proof.Machine.execVrd d a b x h s
  | .vwr d a b => Sys2Proof.Machine.execVwr d a b s
  | .ldB t b i_ m => Sys2Proof.Machine.execLdB t b i_ m s
  | .ldH t b i_ m => Sys2Proof.Machine.execLdH t b i_ m s
  | .ldWV t b i_ m => Sys2Proof.Machine.execLdWV t b i_ m s
  | .ldDV t b i_ m => Sys2Proof.Machine.execLdDV t b i_ m s
  | .ldQ t b i_ m => Sys2Proof.Machine.execLdQ t b i_ m s
  | .ldWS t b m => Sys2Proof.Machine.execLdWS t b m s
  | .ldDS t b m => Sys2Proof.Machine.execLdDS t b m s
  | .ldAcqV t b i_ s_ o => Sys2Proof.Machine.execLdAcqV t b i_ s_ o s
  | .ldAcqS t b s_ o => Sys2Proof.Machine.execLdAcqS t b s_ o s
  | .stB t b i_ m => Sys2Proof.Machine.execStB t b i_ m s
  | .stH t b i_ m => Sys2Proof.Machine.execStH t b i_ m s
  | .stWV t b i_ m => Sys2Proof.Machine.execStWV t b i_ m s
  | .stDV t b i_ m => Sys2Proof.Machine.execStDV t b i_ m s
  | .stQ t b i_ m => Sys2Proof.Machine.execStQ t b i_ m s
  | .stWS t b m => Sys2Proof.Machine.execStWS t b m s
  | .stDS t b m => Sys2Proof.Machine.execStDS t b m s
  | .stRelV t b i_ s_ o => Sys2Proof.Machine.execStRelV t b i_ s_ o s
  | .stRelS t b s_ o => Sys2Proof.Machine.execStRelS t b s_ o s
  | .aadd t b i_ o s_ r => Sys2Proof.Machine.execAadd t b i_ o s_ r s
  | .amin t b i_ o s_ r => Sys2Proof.Machine.execAmin t b i_ o s_ r s
  | .amax t b i_ o s_ r => Sys2Proof.Machine.execAmax t b i_ o s_ r s
  | .aand t b i_ o s_ r => Sys2Proof.Machine.execAand t b i_ o s_ r s
  | .aor t b i_ o s_ r => Sys2Proof.Machine.execAor t b i_ o s_ r s
  | .axor t b i_ o s_ r => Sys2Proof.Machine.execAxor t b i_ o s_ r s
  | .axchg t b i_ o s_ r => Sys2Proof.Machine.execAxchg t b i_ o s_ r s
  | .acas t b i_ o s_ r => Sys2Proof.Machine.execAcas t b i_ o s_ r s
  | .axchgQ t b i_ o s_ r => Sys2Proof.Machine.execAxchgQ t b i_ o s_ r s
  | .acasQ t b i_ o s_ r => Sys2Proof.Machine.execAcasQ t b i_ o s_ r s
  | .ldsW t b i_ m => Sys2Proof.Machine.execLdsW t b i_ m s
  | .ldsQ t b i_ m => Sys2Proof.Machine.execLdsQ t b i_ m s
  | .stsW t b i_ m => Sys2Proof.Machine.execStsW t b i_ m s
  | .stsQ t b i_ m => Sys2Proof.Machine.execStsQ t b i_ m s
  | .stsF t b i_ m => Sys2Proof.Machine.execStsF t b i_ m s
  | .ldfK t b i_ m => Sys2Proof.Machine.execLdfK t b i_ m s
  | .ldfC t b i_ m => Sys2Proof.Machine.execLdfC t b i_ m s
  | .ldfKT t b i_ m => Sys2Proof.Machine.execLdfKT t b i_ m s
  | .ldfCT t b i_ m => Sys2Proof.Machine.execLdfCT t b i_ m s
  | .tlook d a => Sys2Proof.Machine.execTlook d a s
  | .tset a b => Sys2Proof.Machine.execTset a b s
  | .tget d a => Sys2Proof.Machine.execTget d a s
  | .tinv a => Sys2Proof.Machine.execTinv a s
  | .hnew h k y p => Sys2Proof.Machine.execHnew h k y p s
  | .hnewT h k y p => Sys2Proof.Machine.execHnewT h k y p s
  | .hjoin h k => Sys2Proof.Machine.execHjoin h k s
  | .hjoinH h k => Sys2Proof.Machine.execHjoinH h k s
  | .hleave h => Sys2Proof.Machine.execHleave h s
  | .harv h d => Sys2Proof.Machine.execHarv h d s
  | .hbar h => Sys2Proof.Machine.execHbar h s
  | .hwait h a => Sys2Proof.Machine.execHwait h a s
  | .hvote h a d => Sys2Proof.Machine.execHvote h a d s
  | .hred h a d y p => Sys2Proof.Machine.execHred h a d y p s
  | .hinfo h d n => Sys2Proof.Machine.execHinfo h d n s
  | .qfill q k => Sys2Proof.Machine.execQfill q k s
  | .qdrain q k => Sys2Proof.Machine.execQdrain q k s
  | .qwait q k f => Sys2Proof.Machine.execQwait q k f s
  | .mma m a b s_ => Sys2Proof.Machine.execMma m a b s_ s
  | .mmaJ m a b s_ => Sys2Proof.Machine.execMmaJ m a b s_ s
  | .zld t b i_ => Sys2Proof.Machine.execZld t b i_ s
  | .mzero m => Sys2Proof.Machine.execMzero m s
  | .mld m a s_ => Sys2Proof.Machine.execMld m a s_ s
  | .mst m a b s_ r => Sys2Proof.Machine.execMst m a b s_ r s
  | .mrd m v s_ => Sys2Proof.Machine.execMrd m v s_ s
  | .mwr m v s_ => Sys2Proof.Machine.execMwr m v s_ s
  | .sqset a => Sys2Proof.Machine.execSqset a s
  | .sqget d => Sys2Proof.Machine.execSqget d s
  | .cwait s_ a b => Sys2Proof.Machine.execCwait s_ a b s
  | .ctest s_ a b => Sys2Proof.Machine.execCtest s_ a b s
  | .fence s_ => Sys2Proof.Machine.execFence s_ s
  | .xfence q p s_ => Sys2Proof.Machine.execXfence q p s_ s
  | .ivr w a b => Sys2Proof.Machine.execIvr w a b s
  | .mode e n p t r s_ => Sys2Proof.Machine.execMode e n p t r s_ s
  | .sprint b => Sys2Proof.Machine.execSprint b s
  | .spawn d i_ => Sys2Proof.Machine.execSpawn d i_ s
  | .cpost a => Sys2Proof.Machine.execCpost a s
  | .ctake d => Sys2Proof.Machine.execCtake d s
  | .trace a => Sys2Proof.Machine.execTrace a s
  | .dhalt d a => Sys2Proof.Machine.execDhalt d a s
  | .dstep d a b => Sys2Proof.Machine.execDstep d a b s
  | .dres d a => Sys2Proof.Machine.execDres d a s
  | .dbpt d a => Sys2Proof.Machine.execDbpt d a s
  | .dwpt d a => Sys2Proof.Machine.execDwpt d a s
  | .mbrd d a => Sys2Proof.Machine.execMbrd d a s
  | .mbwr a b => Sys2Proof.Machine.execMbwr a b s
  | .mbtake d a => Sys2Proof.Machine.execMbtake d a s
  | .unassignedOpcode w => Sys2Proof.Machine.execUnassignedOpcode w s
  | .reset => Sys2Proof.Machine.execReset s
  | .stackHoldRelease => Sys2Proof.Machine.execStackHoldRelease s
  | .portTrained => Sys2Proof.Machine.execPortTrained s
  | .portFailure => Sys2Proof.Machine.execPortFailure s
  | .portRetrain => Sys2Proof.Machine.execPortRetrain s
  | .laneNarrow => Sys2Proof.Machine.execLaneNarrow s
  | .laneWiden => Sys2Proof.Machine.execLaneWiden s
  | .thermalTrip => Sys2Proof.Machine.execThermalTrip s
  | .queueStop => Sys2Proof.Machine.execQueueStop s
  | .queueResume => Sys2Proof.Machine.execQueueResume s
  | .queueDisable => Sys2Proof.Machine.execQueueDisable s
  | .queueDisableDone => Sys2Proof.Machine.execQueueDisableDone s
  | .queueEclr => Sys2Proof.Machine.execQueueEclr s
  | .gridComplete => Sys2Proof.Machine.execGridComplete s
  | .gridKill => Sys2Proof.Machine.execGridKill s
  | .counterWaitTimeout => Sys2Proof.Machine.execCounterWaitTimeout s
  | .placementPass => Sys2Proof.Machine.execPlacementPass s
  | .placementClaim => Sys2Proof.Machine.execPlacementClaim s
  | .reservationTimeout => Sys2Proof.Machine.execReservationTimeout s
  | .quantumPromotion => Sys2Proof.Machine.execQuantumPromotion s
  | .autoRestore => Sys2Proof.Machine.execAutoRestore s
  | .powerCtlLower => Sys2Proof.Machine.execPowerCtlLower s
  | .regionHold => Sys2Proof.Machine.execRegionHold s
  | .regionRailOff => Sys2Proof.Machine.execRegionRailOff s
  | .rampStart => Sys2Proof.Machine.execRampStart s
  | .rampDone => Sys2Proof.Machine.execRampDone s
  | .leaveGrant => Sys2Proof.Machine.execLeaveGrant s
  | .leaveLapse => Sys2Proof.Machine.execLeaveLapse s
  | .halfRateEnd => Sys2Proof.Machine.execHalfRateEnd s
  | .sprintInterval => Sys2Proof.Machine.execSprintInterval s
  | .freeze => Sys2Proof.Machine.execFreeze s
  | .landingClose => Sys2Proof.Machine.execLandingClose s
  | .imageComplete => Sys2Proof.Machine.execImageComplete s
  | .freezeFail => Sys2Proof.Machine.execFreezeFail s
  | .preempt => Sys2Proof.Machine.execPreempt s
  | .preemptDeadline => Sys2Proof.Machine.execPreemptDeadline s
  | .contextSwitchComplete => Sys2Proof.Machine.execContextSwitchComplete s
  | .contextRestore => Sys2Proof.Machine.execContextRestore s
  | .contextDestroy => Sys2Proof.Machine.execContextDestroy s
  | .predicateRun => Sys2Proof.Machine.execPredicateRun s
  | .mailboxInPost => Sys2Proof.Machine.execMailboxInPost s
  | .mailboxOutvClear => Sys2Proof.Machine.execMailboxOutvClear s
  | .join => Sys2Proof.Machine.execJoin s
  | .brk => Sys2Proof.Machine.execBrk s
  | .tret => Sys2Proof.Machine.execTret s
  | .nop => Sys2Proof.Machine.execNop s
  | .vacq => Sys2Proof.Machine.execVacq s
  | .vrel => Sys2Proof.Machine.execVrel s
  | .leave => Sys2Proof.Machine.execLeave s
  | .mbpost => Sys2Proof.Machine.execMbpost s
  | .instructionFetchFault => Sys2Proof.Machine.execInstructionFetchFault s

end Sys2Proof.Machine
end

