-- ==== Sys2Proof/Machine/Issue.lean ====
section
/-! DEFINITION. Turns: the issue of a word by a group or a stream (R94, R109, R197, R215, R271), the issue slots of a
quadrant (R73, R221, R222), and what may move next when the agenda names nothing (log 2). -/

namespace Sys2Proof.Machine

/-! ### Top-down counters (R221, R222) -/

/-- The leaf of R221 for a slot that a waiting group holds (log 29). -/
def Wait.leaf : Wait → Nat
  | .loader _ => 1
  | .baton | .post => 2
  | .debug | .watch => 3
  | .granule => 5
  | .empty _ | .counter | .vrel | .aperture | .copies | .stack _ | .stop .. | .absent _ => 6
  | .vacq => 8
  | .leave => 9
  | .phase _ _ .bar _ | .result _ .bar _ _ _ _ _ _ | .held _ _ (some .bar) _ => 11
  | .latch => 12
  | .phase _ _ _ _ | .result _ _ _ _ _ _ _ _ | .held _ _ _ _ => 13
  | .ring => 14

/-- Charge one slot of a core to a leaf. -/
def State.charge (s : State) (core leaf : Nat) : State :=
  s.modCore core (fun c =>
    let up (t : Tbl Nat Word) (k : Nat) : Tbl Nat Word := t.put k ((t.find k).getD 0 + 1)
    { c with tdc := up (up c.tdc leaf) 18 })

/-- The leaf of an issue of a slot of a group, none when nothing has issued (R222): an instruction that has issued will
retire, one that a stop discards is a fault squash, a `brk` at which the debugger stops the group (R215) with it, and one that is
answered "absent, retry" is sent again (log 29). A word that waits is charged as one that will retire, and `State.recharge`
moves the charge when it is given up. -/
def issueLeaf (s t : State) (gid : GroupId) (g : Group) (sl : SlotId) : Option Nat :=
  match t.group? gid with
  | none => some (if (s.grid? gid.grid).isSome && (t.grid? gid.grid).isNone then 16 else 0)
  | some x =>
    if x.issued = g.issued && (decide (g.tdepth < x.tdepth) || (x.dhalt && !g.dhalt && x.kind == .brk)) then some 16
    else
      match x.wait, (x.slot sl).hold with
      | some (.stop ..), _ => some 16
      | some (.absent _), _ => some 15
      | some w, _ => if w.retries then none else some 0
      | none, some (.absent _) => some 15
      | none, _ => some 0

/-! ### Lane passes (R79) and depth steps (R354) -/

/-- The unit that the word at which a slot stands uses: the vector datapath for a number of clocks, or the matrix unit. The
clocks are counted in slots of a quadrant (log 47). -/
inductive Occupies where
  | vector (clocks : Nat)
  | matrix
  deriving DecidableEq, Repr

/-- The unit of the word of a slot, under the pass count that stands. -/
def State.occupies (s : State) (gid : GroupId) (g : Group) (sl : SlotId) : Option Occupies :=
  match fetchWord s gid (g.slot sl).pc with
  | .error _ => none
  | .ok w =>
    if classOfOp (fld w 24 8).toNat = .vector then some (.vector (passes (s.passCode (regionOfCore g.core)) g.width))
    else
      match decodeWord w with
      | .mma .. | .mmaJ .. => some .matrix
      | _ => none

/-- The leaf under which a slot waits for the vector datapath of its quadrant, or for the core's one matrix unit while that
is full (R354), if it does. -/
def State.occupied (s : State) (gid : GroupId) (g : Group) (sl : SlotId) : Option Nat :=
  let busy := (s.core g.core).passing
  if busy.isEmpty || (stubAt s g.ctx (g.slot sl).pc).isSome then none
  else
    match s.occupies gid g sl with
    | some (.vector _) => if (busy.find g.quad).isSome then some 10 else none
    | some .matrix => if (busy.find 4).any (fun n => decide (4 ≤ n)) then some 9 else none
    | none => none

/-- The quadrant whose slots count the clocks of a core's matrix unit: the lowest one that has groups (log 47). -/
def State.clockQuad (s : State) (core : Nat) : Nat :=
  (s.groups.filter (fun (k, g) => !k.isDebug && g.core == core)).foldl (fun m (_, g) => min m g.quad) 3

/-- A slot of a quadrant passes: what its datapath is occupied for falls, and an instruction that has issued occupies it from
this slot on; with `clock`, one clock of the matrix unit passes. -/
def Core.pass (c : Core) (quad : Nat) (clock : Bool) (o : Option Occupies) : Core :=
  let left : Tbl Nat Nat := (c.passing.mapVals (fun k n => if k = quad then n - 1 else if k = 4 ∧ clock then n - 4 else n)).filter
    (fun e => e.2 != 0)
  { c with
    passing := match o with
      | some (.vector n) => if 1 < n then left.put quad (n - 1) else left
      | _ => left }

/-! ### Sampling periods (R220, R301) -/

/-- The sampling period of a context of which this is a slot: the one that runs, or one that begins under the trctl that
stands (log 114). -/
def State.periodOf (s : State) (core quad ctx : Nat) : Option Period :=
  ((s.core core).periods.find (quad, ctx)).or
    (match s.ctx? ctx with
      | some c =>
        let n := (c.trctl.extractLsb' 6 26).toNat
        if c.trctl.getLsbD 0 && n != 0 then some ⟨c.trctl, n⟩ else none
      | none => none)

/-- A slot of a quadrant counts in the period of a context; in the last slot of a period the quadrant samples the group of
the context that issued. `s` is the state before the issue. -/
def State.countPeriod (s : State) (core quad : Nat) (who : Option (GroupId × Group × SlotId)) (t : State) (ctx : Nat) :
    State :=
  match s.periodOf core quad ctx with
  | none => t
  | some p =>
    if 1 < p.left then t.modCore core (fun c => { c with periods := c.periods.put (quad, ctx) ⟨p.ctl, p.left - 1⟩ })
    else
      let new : List Sample := (who.toList.filter (fun x => x.2.1.ctx == ctx)).map (fun (k, g, sl) =>
        ⟨quad, k, sl, g.ctx, p.ctl, stopRecord s k g sl 1 (g.slot sl).pc 0 0 0⟩)
      t.modCore core (fun c => { c with periods := c.periods.drop (quad, ctx), sampled := c.sampled ++ new })

/-! ### The order of groups (R73) -/

/-- Is the first of two lists of equal length the smaller one, in lexical order? -/
def lexLt : List Nat → List Nat → Bool
  | x :: xs, y :: ys => decide (x < y) || (x == y && lexLt xs ys)
  | _, _ => false

/-- Does a matrix-role group stand at a ring word whose stage is full (R73)? -/
def State.stageAwaited (s : State) (gid : GroupId) (g : Group) : Bool :=
  g.role == .matrix &&
  (match fetchWord s gid g.a.pc, s.team? gid.teamKey with
    | .ok w, some t =>
      (match decodeWord w with
        | .qdrain q k | .qwait q k _ => t.stageFull q.toNat (g.readS .a k).toNat
        | _ => false)
    | _, _ => false)

/-- The rank of a group under R73: lower goes first. -/
def State.rank (s : State) (gid : GroupId) (g : Group) : List Nat :=
  [g.urgent.isEmpty.toNat, (!s.stageAwaited gid g).toNat, g.issued.toNat, g.order, gid.grp, g.slotNo]

/-- The group that ranks first. -/
def State.firstOf (s : State) (l : List (GroupId × Group)) : Option (GroupId × Group) :=
  l.foldl (fun best x =>
    match best with
    | none => some x
    | some y => if lexLt (s.rank x.1 x.2) (s.rank y.1 y.2) then some x else best) none

/-- The slot that a step leaves to a group (R214), or else the one that has issued less recently (R109). -/
def State.firstSlot (s : State) (gid : GroupId) (g : Group) : Option SlotId :=
  match s.stepper gid with
  | some (_, sl) => if g.mayStep sl then some sl else none
  | none => g.pick

/-! ### One slot of a quadrant (R221, R222) -/

/-- Are copies that a restored group started before its freeze not complete yet, here or suspended with its context (R178,
R201)? -/
def State.awaitsCopies (s : State) (gid : GroupId) (g : Group) : Bool :=
  let old (c : Copy) : Bool := c.group == some gid && c.fenced
  g.fenced && (s.channels.any (fun (_, l) => l.any old) || s.contexts.any (fun (_, c) => c.susp.any (fun x => old x.2.2)))

/-- Does a word go ahead of such copies: it makes no event of R170, or it empties granules, for which one of them may wait (R150,
R164, log 99)? -/
def passesCopies : Instr → Bool
  | .fence .. | .xfence .. | .spawn .. | .cpost .. | .ctake .. | .trace .. | .ivr .. | .cwait .. | .ctest .. => false
  | .ldfC .. | .ldfCT .. => true
  | i => [Class.control, .scope, .scalar, .vector].contains (classOfOp (opOf i))

/-- Does a slot of a restored group wait for such copies (R178)? -/
def State.heldByCopies (s : State) (gid : GroupId) (g : Group) (sl : SlotId) : Bool :=
  s.awaitsCopies gid g &&
  (match fetchWord s gid (g.slot sl).pc with
    | .ok w => !passesCopies (decodeWord w)
    | .error _ => false)

/-- The groups of a quadrant that are neither halted nor parked. -/
def State.awakeIn (s : State) (core quad : Nat) : List (GroupId × Group) :=
  (s.groupsIn core quad).filter (fun (_, g) => !g.halted && !g.dhalt)

/-- What blocks a group: its first reason in index order (R222). `tried` has the leaf of a group that has just tried. -/
def State.reason (s : State) (gid : GroupId) (g : Group) (tried : Option (GroupId × Nat)) : Nat :=
  let waits := (g.wait.toList ++ g.a.hold.toList ++ (g.b.bind (·.hold)).toList).map Wait.leaf
  let l := waits ++ (if g.fresh then [2] else []) ++ (((s.firstSlot gid g).filter (s.heldByCopies gid g)).toList.map (fun _ => 6)) ++
    ((s.firstSlot gid g).bind (s.occupied gid g)).toList ++ (tried.toList.filter (·.1 == gid)).map (·.2)
  l.min?.getD 3

/-- The leaf of a slot in which nothing has issued (R222). -/
def State.idleLeaf (s : State) (core quad : Nat) (tried : Option (GroupId × Nat)) : Nat :=
  match s.firstOf (s.awakeIn core quad) with
  | none => 17
  | some (k, g) => s.reason k g tried

/-- A slot of a quadrant ends in state `t`, having begun in `s`: it is charged to one leaf (R221, R222), the units of the
quadrant move on (R79), and it counts in the sampling periods (R220). `who` is the slot of a group that tried. -/
def State.slotEnd (s t : State) (core quad : Nat) (who : Option (GroupId × Group × SlotId)) (tried : Option (GroupId × Nat)) :
    State :=
  let leaf := who.bind (fun (k, g, sl) => issueLeaf s t k g sl)
  let issued := if leaf.isSome then who else none
  let u := t.charge core (leaf.getD (t.idleLeaf core quad tried))
  let u := u.modCore core (fun c => c.pass quad (s.clockQuad core == quad) (issued.bind (fun (k, g, sl) => s.occupies k g sl)))
  ((s.groupsIn core quad).map (fun (_, g) => g.ctx)).eraseDups.foldl (s.countPeriod core quad issued) u

/-- The end of a slot as an outcome. -/
def Out.slotEnd (o : Out) (s : State) (core quad : Nat) (who : Option (GroupId × Group × SlotId)) : Out :=
  match o with
  | .next t => .next (s.slotEnd t core quad who none)
  | o => o

/-! ### Issue by a group -/

/-- May a slot of a group issue now? A stepped group issues in the slot of its step (R214), a debug core while DERR is
0 (R210), and any other group while it runs and has a baton (R101), no hit of its own is pending (R217), and what its
restore put before it is done (R178). -/
def State.mayIssue (s : State) (gid : GroupId) (g : Group) (sl : SlotId) : Bool :=
  (if gid.isDebug then !(s.mailbox gid.gang).derr
    else s.runnable g && !g.fresh && !s.hitPending gid g && !s.heldByCopies gid g sl) &&
  g.mayStep sl && (g.slot sl).hold.isNone &&
  (match g.wait with
    | none => true
    | some w => w.retries || w == .debug) &&
  (match s.stepper gid with
    | some (_, t) => t == sl
    | none => true)

/-- Does a launch group stand at the end of its baton (R101)? -/
def Group.atEnd (g : Group) (sl : SlotId) : Bool := !g.spawned && g.viewEnd == some (g.slot sl).pc

/-- The word at a group's PC, decoded and executed, after the scalar loads that it may depend on (R326); a word that cannot be
fetched faults (R271). At the end address of a baton only a word that ends a run is executed. -/
def State.issueWord (s : State) (gid : GroupId) (g : Group) (sl : SlotId) : Out :=
  let pc := (g.slot sl).pc
  match fetchWord s gid pc with
  | .error (.hold w) => .next (s.setGroup gid { g with wait := some w })
  | .error _ => exec .instructionFetchFault s
  | .ok w =>
    if g.atEnd sl && (wordScope w).isNone then .next (s.setGroup gid { g with wait := some .baton })
    else exec (decodeWord w) (s.settleScalars gid sl w)

/-- A group issues in a slot of its quadrant: a word that must wait for a unit holds the slot (R79), a breakpoint stops it
(R215), an entry stub leads on (R53, R54), or the word is executed. -/
def State.issueGroup (s : State) (gid : GroupId) (sl : SlotId) : Out :=
  match s.group? gid with
  | none => .next s
  | some g =>
    let go := State.issueWord { s with cur := .group gid sl } gid g sl
    if !s.mayIssue gid g sl then .next s
    else if gid.isDebug then go
    else if (s.occupied gid g sl).isSome then .next (s.slotEnd s g.core g.quad none none)
    else if s.bptHit g sl then Out.slotEnd (exec (.breakpointHit gid sl) s) s g.core g.quad none
    else
      match stubAt s g.ctx (g.slot sl).pc with
      | some (.body b) =>
        .next (s.slotEnd (s.setGroup gid { g.setPc sl b with wait := none }) g.core g.quad none (some (gid, 3)))
      | some (.loader k) =>
        .next (s.slotEnd (s.setGroup gid { g with wait := some (.loader k) }) g.core g.quad none none)
      | none => Out.slotEnd go s g.core g.quad (some (gid, g, sl))

/-! ### Issue by a stream -/

/-- A stream moves (R94, R96, R101): it reads the next baton where it is due, executes a word of its own scope, or issues
the run it stands at. -/
def State.issueSeq (s : State) (q : SeqId) : Out :=
  match s.seq? q with
  | none => .next s
  | some x =>
    let s := { s with cur := .seq q }
    let next := (ownerOf (.seq q)).bind (fun p => s.nextBaton p x.read)
    if next.isSome && (x.view.isNone || x.viewEnd.isNone || x.viewEnd == some x.own.pc) then .next (s.takeBaton (.seq q))
    else if (stubAt s x.ctx x.own.pc).isSome then .next (s.issueBaton q)
    else
      match fetchIn s x.ctx x.own.pc with
      | .error (.hold _) => .next s
      | .error _ => exec .instructionFetchFault s
      | .ok w => exec (decodeWord w) s

/-! ### The issue slots of a quadrant (R73) -/

/-- Groups of a quadrant try their instructions again in later slots. -/
def State.retryAll (s : State) (core quad : Nat) (but : Option GroupId) : State :=
  { s with groups := s.groups.mapVals (fun k g =>
      if !k.isDebug && g.core == core && g.quad == quad && some k != but && (g.wait.map Wait.retries).getD false then
        { g with wait := none }
      else g) }

/-- Would a slot of a group issue now: its word does not wait to be tried again? -/
def State.goes (s : State) (gid : GroupId) (g : Group) (sl : SlotId) : Bool :=
  s.mayIssue gid g sl && (s.occupied gid g sl).isNone &&
  (match s.issueGroup gid sl with
    | .next t => !t.unissued gid
    | _ => true)

/-- The slot in which a group issues next (R109, R214): of two that would issue, the one that has issued less recently. -/
def State.nextSlot (s : State) (gid : GroupId) (g : Group) : Option SlotId :=
  if g.split && (s.stepper gid).isNone then (g.slotOrder.find? (s.goes gid g)).or (s.firstSlot gid g) else s.firstSlot gid g

/-- May a group issue in the next slot of its quadrant? -/
def State.readyGroup (s : State) (gid : GroupId) (g : Group) : Bool :=
  g.wait.isNone && (s.nextSlot gid g).any (fun sl => s.mayIssue gid g sl && (s.occupied gid g sl).isNone)

/-- The group that R73 chooses in a quadrant, with its slot. -/
def State.chosen (s : State) (core quad : Nat) : Option (GroupId × SlotId) :=
  (s.firstOf ((s.awakeIn core quad).filter (fun (k, g) => s.readyGroup k g))).map (fun (k, g) =>
    (k, (s.nextSlot k g).getD .a))

/-- One issue slot of a quadrant (R73, R222). A frozen tile counts none. -/
def State.slotTurn (s : State) (core quad : Nat) : Out :=
  if s.absentCore core then .next s
  else
    match s.chosen core quad with
    | some (k, sl) =>
      (match s.issueGroup k sl with
        | .next s => .next (s.retryAll core quad (some k))
        | o => o)
    | none => .next ((s.slotEnd s core quad none none).retryAll core quad none)

/-! ### What may move next -/

/-- Take a turn. -/
def State.takeTurn (s : State) (t : Turn) : Out :=
  match t with
  | .event e n => exec e { s with cur := .none, sel := n }
  | .issue (.group gid sl) => s.issueGroup gid sl
  | .issue (.seq q) => s.issueSeq q
  | .issue .none => .next s
  | .slot core quad => s.slotTurn core quad

/-- Is this the wait after "absent, retry" (R209)? -/
def Wait.isAbsent : Wait → Bool
  | .absent _ => true
  | _ => false

/-- Turns of groups, debug cores and streams. -/
def State.unitTurns (s : State) : List Turn :=
  let gs := s.groups.filter (fun (k, _) => !k.isDebug)
  let slots := ((gs.filter (fun (_, g) => !s.absentCore g.core)).map (fun (_, g) => (g.core, g.quad))).eraseDups
  slots.map (fun (c, q) => .slot c q) ++
  ((List.range 4).filter (fun d => ((s.group? (debugId d)).map (fun g => s.mayIssue (debugId d) g .a)).getD false)).map
    (fun d => .issue (.group (debugId d) .a)) ++
  (s.seqs.keysWhere (fun q x => !x.stopped && !s.seqHeld q)).map (fun q => .issue (.seq q)) ++
  s.seqs.flatMap (fun (_, x) =>
    match stubAt s x.ctx x.own.pc with
    | some (.loader n) => [.event (.functionPublish x.ctx n) 0]
    | _ => []) ++
  gs.flatMap (fun (k, g) =>
    (if !g.spawned && (s.nextBaton (streamOf k g) g.read).isSome then [Turn.event (.batonTake (.group k)) 0] else []) ++
    (if g.wb.isEmpty then [] else [.event (.writeback k) 0]) ++
    (match g.wait with
      | some (.result ..) => [.event (.phaseCompletion k) 0]
      | some (.held ..) => [.event (.syncArrival k) 0]
      | some (.loader n) => [.event (.functionPublish g.ctx n) 0]
      | _ => []) ++
    (if (g.wait.toList ++ g.a.hold.toList ++ (g.b.bind (·.hold)).toList).any Wait.isAbsent then
      [.event (.retryResend k) 0] else [])) ++
  s.cores.flatMap (fun (n, c) =>
    (if h : n < 384 then
      c.vacq.map (fun w => Turn.event (.registerBlockGrant ⟨n, h⟩ (Fin.ofNat 4 w.1)) 0) ++
      c.sampled.map (fun x => .event (.traceSample ⟨n, h⟩ (Fin.ofNat 4 x.quad) (some (x.group, x.slot))) 0) ++
      (if c.leave = .half then [.event .halfRateEnd n] else [])
    else []) ++
    (match c.frozen with
      | some f =>
        if f.stage = .landing then [.event .landingClose n]
        else if f.stage = .closed then [.event .imageComplete n]
        else match f.target with
          | some t => [.event (.restore (Fin.ofNat 384 f.home) (Fin.ofNat 384 t)) 0]
          | none => if !f.wakes.isEmpty || f.due then [.event .autoRestore f.home] else []
      | none => []))

/-- Turns of the firmware, the copy engines and the power logic. -/
def State.dieTurns (s : State) : List Turn :=
  s.channels.flatMap (fun (k, l) =>
    match l with
    | [] => []
    | cp :: _ =>
      (if cp.parts < cp.total then [.event (.copyGranuleWrite (Fin.ofNat 16 k.1) k.2) 0] else []) ++
        [.event (.copyComplete (Fin.ofNat 16 k.1) k.2) 0]) ++
  ((s.queues.keysWhere (fun n _ => s.laneActive n)).map (fun n => (n / 256, n % 256 / 32))).eraseDups.map (fun (d, k) =>
    .event (.serviceRound (Fin.ofNat 4 d) (Fin.ofNat 8 k)) 0) ++
  ((s.queues.keysWhere (fun _ q => !q.grids.isEmpty)).map dieOfQueue).eraseDups.map (fun d => .event .placementPass d) ++
  (s.queues.keysWhere (fun n _ => s.due n)).map (fun n => .event .reservationTimeout n) ++
  (s.queues.keysWhere (fun _ q => !s.nopromo && !q.grids.isEmpty && q.elev != 3#2 &&
    decide (q.became + 8000 * s.quantum.toNat ≤ s.timer))).map (fun n => .event .quantumPromotion n) ++
  s.queues.flatMap (fun (n, q) => q.inflight.filterMap (fun f =>
    match f.work with
    | .inval .. => some (.event (.invalidateRangeComplete (Fin.ofNat 1024 n) f.idx) 0)
    | _ => none)) ++
  (s.grids.keysWhere (fun _ g => decide (g.gangs ≤ g.ended))).map (fun k => .event .gridComplete k) ++
  s.dies.flatMap (fun (d, x) =>
    (if x.claims.isEmpty then [] else [Turn.event .placementClaim d]) ++
    (if x.leaveQ.isEmpty then [] else [.event .leaveGrant d]) ++
    (if x.rampQueue.isEmpty then [] else [.event .rampStart d]) ++ x.ramping.map (fun r => .event .rampDone r)) ++
  (s.debugs.keysWhere (fun _ d => !d.hits.isEmpty)).map (fun d => .event .predicateRun d) ++
  s.contexts.filterMap (fun (k, c) => c.cwait.map (fun w =>
    if w.deadline ≤ s.timer then .event .counterWaitTimeout k else .event (.counterWait k w.addr w.target 0) 0)) ++
  (if 10000 * s.interval ≤ s.timer then [.event .sprintInterval 0] else [])

/-- The turn of a step whose agenda names none: each of those that may move comes round in turn. -/
def State.nextTurn (s : State) : Option Turn :=
  let l := s.unitTurns ++ s.dieTurns
  l[s.steps % l.length]?

/-- The bytes that other devices write into their own memories in a step (R146, R189). -/
def State.farWrites (s : State) : List (Nat × Byte) := (Config.otherWrites s.steps).filter (fun x => x.1 / 2 ^ 43 != s.ownDev)

/-- Time passes (R42), and other devices write their own memories (log 4); an older write that one of those meets is behind it.
Scalar loads that have returned later writes hold their bytes (R326). -/
def State.tick (s : State) : State :=
  { s.landScalars with
    steps := s.steps + 1, timer := s.timer + Config.elapsed s.steps
    far := s.farWrites.foldl (fun m x => memSet m x.1 x.2) s.far
    ledger := s.farWrites.foldl (fun l x => l.under (.phys x.1) 1) s.ledger }

end Sys2Proof.Machine
end

