-- ==== Sys2Proof/Machine/Step.lean ====
section
/-! DEFINITION. One step of the package, and the placing of one instruction where the next step fetches it. -/

namespace Sys2Proof.Machine

/-- One step: the next turn of the agenda, or else one of those that may move. In thermal trip every clock has stopped
and only a reset acts (R10). -/
def step (s : State) : Host.Outcome State Fault Refusal :=
  if s.tripped then
    match s.agenda with
    | .event .reset _ :: rest => exec .reset { s with agenda := rest }
    | _ => .fault .thermalTrip
  else
    match s.agenda with
    | t :: rest => State.takeTurn { s.tick with agenda := rest } t
    | [] =>
      match s.tick.nextTurn with
      | some t => s.tick.takeTurn t
      | none => .next s.tick

/-! ### Placing an instruction -/

/-- The address at which a placed instruction stands. -/
def placeAt : Nat := 0x10000

/-- The context of a placed instruction: a page of 1 GiB from address 0, at local address 1 GiB. -/
def placedContext : Context :=
  { pasid := 1, fn := 0, root := 0x1000, pvbase := 0, tmbase := 0, mcbase := 0, trbase := 0, trctl := 0, digest := []
    kernels := [], heapBase := 0, heapSize := 0, heapNext := 0, fns := [], frames := 0x80000000, a0 := 0, logged := []
    ended := false, cwait := none, stage := .running, preAt := 0, save := none, parkedE := [], susp := [], savedQ := [], ovf := 0
    ovfn := 0, ovfUsed := [], bells := [], bptSet := [], wptSet := [] }

/-- The context, its three page-table entries (R153), and the word, in memory that is ready (R16). -/
def State.withCode (s : State) (bs : List Byte) : State :=
  let m := memWrite s.mem 0x1000 (leBytes 8 0x2001)
  let m := memWrite m 0x2000 (leBytes 8 0x3001)
  let m := memWrite m 0x3000 (leBytes 8 (0x4000009F + s.ownDev * 2 ^ 43))
  let m := memWrite m (0x40000000 + placeAt) bs
  { s with
    mem := m, contexts := s.contexts.put 1 placedContext, devrdy := setBit s.devrdy 5 true
    devfail := setBit s.devfail 5 false }

/-- The baton under which a placed group runs. -/
def placedBaton : Baton := { Baton.blank (BitVec.ofNat 57 placeAt) .team with empty := false, len := 4096, cont := true }

/-- A team of one group that issues the placed instruction. -/
def State.withGroup (s : State) (grid : Nat) : State :=
  let g := Group.new 1 0 0 0 0 0 .none 32 48 0
  let g := { g with a := { g.a with pc := BitVec.ofNat 57 placeAt }, view := placedBaton, read := 1 }
  let t : Team :=
    { ctx := 1, core := 0, pair := false, vcores := [0], seqs := [0], handle := 0, width := 32, groups := 1, spad := 768, spadAt := [0]
      tiles := 64, slots := 32, rings := 4, stages := 8, tvec := BitVec.ofNat 64 placeAt, nextId := 32, bytes := [], full := []
      tags := [], ringF := .replicate 4 0, ringP := .replicate 4 0, tileT := [], slotT := [], marks := [], live := 1 }
  { s with
    groups := s.groups.put ⟨grid, 0, 0, 0⟩ g, teams := s.teams.put (grid, 0, 0) t
    cores := s.cores.put 0 { s.core 0 with frozen := none, passing := [], bpt := .replicate 8 0 }, regions := s.regions.put 0 { s.region 0 with gate := .running } }

/-- A stream of a level that stands at the placed instruction. -/
def State.withSeq (s : State) (q : SeqId) : State :=
  let own : Owner := ⟨BitVec.ofNat 57 placeAt, .replicate 16 0, 0, []⟩
  let view := if q.level = .grid then none else some (Baton.blank (BitVec.ofNat 57 placeAt) .grid)
  s.setSeq q
    { own := own, ctx := 1, queue := [], nextSeq := 0, stopped := false, ended := false, view := view, viewEnd := none, read := 1
      inChain := false, lastEnd := none, trail := [], entry := ⟨own, view, none, 1⟩ }

/-- The instruction whose word is `w`, placed where the next step issues it: by a stream when its scope is an upper one
(R267), by the debug core of die 0 when only that may issue it (R210), and by a group otherwise. -/
def State.withFetchWord (s : State) (_nbits w : Nat) : State :=
  let bs := leBytes 4 (w % 2 ^ 32)
  let x := BitVec.ofNat 32 w
  let s := { s with tripped := false }
  match wordScope x with
  | some l =>
    let q : SeqId := ⟨l, s.nextGrid, 0, 0, .none⟩
    { (s.withCode bs).withSeq q with agenda := .issue (.seq q) :: s.agenda }
  | none =>
    if classOfOp (fld x 24 8).toNat = .debug then
      let d := s.dbg 0
      { ((s.setDbg 0 { d with store := memWrite d.store placeAt bs, started := true, step := none }).modMailbox 0 (fun m => { m with
          derr := false })).setGroup (debugId 0) (debugGroup 0 (BitVec.ofNat 57 placeAt)) with
        agenda := .issue (.group (debugId 0) .a) :: s.agenda }
    else
      { (s.withCode bs).withGroup s.nextGrid with agenda := .issue (.group ⟨s.nextGrid, 0, 0, 0⟩ .a) :: s.agenda }

end Sys2Proof.Machine
end

