-- ==== Sys2Proof/Machine/Registers.lean ====
section
/-! DEFINITION. What the host reads at an offset of a function's register window (R12 to R14, R24, R26 to R28, R67, R68,
R80, R91, R130, R201, R211, R370). A read changes no state and has no step (log 88). -/

namespace Sys2Proof.Machine

/-- The 32-bit words of a queue record (R28). -/
def Queue.readWord (q : Queue) (k : Nat) : BitVec 32 :=
  match k with
  | 0 | 1 | 2 | 5 | 8 => q.part k
  | 3 => BitVec.ofNat 32 (q.state.toNat + q.drained.toNat * 4 + q.waiting.toNat * 8)
  | 4 => q.rdx
  | 6 => BitVec.ofNat 32 (q.ecode.toNat + q.etype.toNat * 2 ^ 8 + q.etag.toNat * 2 ^ 16)
  | 7 => q.eidx
  | 9 => q.ver
  | _ => 0

/-- QSTAT of a queue (R68): BLK is whether its head is blocked now (R62). -/
def State.qstat (s : State) (n : Nat) : BitVec 32 :=
  let q := s.queue n
  BitVec.ofNat 32 (q.elev.toNat + (s.blocked n).toNat * 4 + q.rsv.toNat * 8 + q.bfc.toNat * 16)

/-- UMAP of a die (R12). -/
def UMap.word (u : UMap) : BitVec 128 :=
  BitVec.ofNat 128 (u.core.toNat + u.copy.toNat * 2 ^ 96 + u.port.toNat * 2 ^ 100 + u.done.toNat * 2 ^ 109)

/-- PORTUP of a die (R24). -/
def State.portUp (s : State) (die : Nat) : BitVec 32 :=
  BitVec.ofNat 32 ((List.range 9).map (fun p =>
    (s.port (9 * die + p)).up.toNat * 2 ^ p + (s.port (9 * die + p)).fail.toNat * 2 ^ (9 + p))).sum

/-- PWRCTL of a region (R80). -/
def State.pwrctl (s : State) (r : Nat) : BitVec 32 :=
  let x := s.region r
  BitVec.ofNat 32 (s.passCode r + x.floor.toNat * 4 + x.ctl.toNat * 16 + x.ntt.toNat * 64 + x.nogate.toNat * 1024)

/-- PERMIT of a region (R91). -/
def State.permit (s : State) (r : Nat) : BitVec 32 :=
  let x := s.region r
  BitVec.ofNat 32 ((BitVec.ofInt 8 x.bal).toNat + x.bin.toNat * 2 ^ 8 + s.requested r * 2 ^ 10 + x.ovd.toNat * 2 ^ 12)

/-- QOWN of a queue (R26). -/
def QOwn.word (o : QOwn) : BitVec 32 := BitVec.ofNat 32 (o.fn.toNat + o.val.toNat * 2 ^ 6 + o.lidx.toNat * 2 ^ 7)

/-- A 32-bit word of the mailbox of a die (R211). -/
def Mailbox.readWord (m : Mailbox) (off : Nat) : BitVec 32 :=
  if off < 128 then (m.word (off / 8)).extractLsb' (off % 8 * 8) 32 else if off = 128 then m.ctl else 0

/-- The aligned 32-bit word at an offset of the physical function's window, queue records apart: 0 where nothing lies. -/
def State.readReg32 (s : State) (off : Nat) : BitVec 32 :=
  if off = 0x40 then s.devrdy
  else if off = 0x44 then s.devfail
  else if 0x1000 ≤ off ∧ off < 0x1040 then (s.umap ((off - 0x1000) / 16)).word.extractLsb' (off % 16 * 8) 32
  else if 0x1100 ≤ off ∧ off < 0x1110 then s.portUp ((off - 0x1100) / 4)
  else if off = 0x2000 then BitVec.ofNat 32 (s.quantum.toNat + s.nopromo.toNat * 2 ^ 16)
  else if 0x3000 ≤ off ∧ off < 0x30C0 then s.pwrctl ((off - 0x3000) / 4)
  else if 0x3100 ≤ off ∧ off < 0x31C0 then s.permit ((off - 0x3100) / 4)
  else if 0x4000 ≤ off ∧ off < 0x4100 then s.quotaWord ((off - 0x4000) / 4)
  else if off = 0x5000 then s.pdeadline.zeroExtend 32
  else if 0x6000 ≤ off ∧ off < 0x6400 then (s.mailbox ((off - 0x6000) / 0x100)).readWord (off % 0x100)
  else if 0x20000 ≤ off ∧ off < 0x21000 then ((s.qown.find ((off - 0x20000) / 4)).map QOwn.word).getD 0
  else if 0x21000 ≤ off ∧ off < 0x22000 then s.qstat ((off - 0x21000) / 4)
  else if 0x30000 ≤ off ∧ off < 0x34000 ∧ off % 0x100 < 0x80 ∧ off % 16 < 8 then
    (((s.fwin.find ((off - 0x30000) / 0x100, off % 0x100 / 16)).getD 0).extractLsb' (off % 8 * 8) 32)
  else if 0x200000 ≤ off ∧ off < 0x300000 then
    BitVec.ofNat 32 (leNat (memRead (s.dbg ((off - 0x200000) / 0x40000)).store (off % 0x40000) 4))
  else 0

/-- The identity register block of a die (R17): its 48-byte public key, zeros until the boot ROM has derived it (DESIGN
CHOICE, log 8). -/
def State.identityKey (s : State) (die : Nat) : List Byte := ((s.ident.find die).map (·.1)).getD (List.replicate 48 0)

/-- What a read of `n` bytes at an offset of a die's identity register block gives (R17). No file gives the block a place in
a window, so it is read by its own name (log 8). -/
def State.identityRead (s : State) (die off n : Nat) : List Byte := ((s.identityKey die).drop off).take n

/-- The aligned 32-bit word at an offset of a function's window (R25, R28). -/
def State.hostRead (s : State) (fn off : Nat) : BitVec 32 :=
  if 0x100000 ≤ off ∧ off < 0x110000 then
    ((s.queueAt fn ((off - 0x100000) / 64)).map (fun n => (s.queue n).readWord (off % 64 / 4))).getD 0
  else if fn ≠ 0 then 0
  else if 0x140000 ≤ off ∧ off < 0x150000 then (s.queue ((off - 0x140000) / 64)).readWord (off % 64 / 4)
  else s.readReg32 off

end Sys2Proof.Machine
end

