-- ==== Sys2Proof/WellFormed.lean ====
section
/-! DEFINITION. Well-formed instructions: every field of a word lies within its coding (R244 to R258, steps 2 and 3 of
R269), and a word that is named as unassigned is one. The machine's own steps are well-formed as they stand. -/

namespace Sys2Proof

/-- Is the instruction well-formed? -/
def Instr.wellFormed (i : Instr) : Bool :=
  (Machine.firstBad (Machine.varChecks i ++ Machine.codingChecks i)).isNone &&
  (match i with
    | .unassignedOpcode w => decodeWord w == .unassignedOpcode w
    | _ => true)

end Sys2Proof
end

