-- ==== Sys2Proof/Safety.lean ====
section
/-! DEFINITION. The vocabulary of the statements: a sound memory, a unit that issues a word, how a word of a group
completes, and what a word leaves unchanged. -/

namespace Sys2Proof.Machine

/-! ### Memory -/

/-- Every memory of the package keeps its canonical form: HBM, the devices behind the links, the scratchpads of the
teams and the local stores of the debug cores. -/
def State.memOk (s : State) : Prop :=
  Memory.wf s.mem = true ∧ Memory.wf s.far = true ∧ (∀ e ∈ s.teams, Memory.wf e.2.bytes = true) ∧
  (∀ e ∈ s.debugs, Memory.wf e.2.store = true)

/-- Is a byte among the `n` bytes from a place on? -/
def Place.covers (p : Place) (n : Nat) (q : Place) : Prop := ∃ k < n, q = p.add k

/-- Every byte of every memory reads the same in two states. -/
def State.SameMemory (s t : State) : Prop := ∀ q, readPlace t q 1 = readPlace s q 1

/-- Every byte outside the `n` bytes at each of these places reads the same in two states. -/
def State.SameOutside (s t : State) (n : Nat) (ps : List (Nat × Place)) : Prop :=
  ∀ q, (∀ e ∈ ps, ¬ e.2.covers n q) → readPlace t q 1 = readPlace s q 1

/-! ### Who issues -/

/-- A slot of a group issues a word that passes the checks of R269. -/
structure Issues (i : Instr) (s : State) (gid : GroupId) (sl : SlotId) (g : Group) : Prop where
  cur   : s.cur = .group gid sl
  group : s.group? gid = some g
  slot  : sl = .b → g.b.isSome = true
  ok    : groupCheck s gid sl g i = none

/-- The same, for a word that the checks of R269 stop with a cause. -/
structure Stopped (i : Instr) (s : State) (gid : GroupId) (sl : SlotId) (g : Group) (c : Cause) : Prop where
  cur   : s.cur = .group gid sl
  group : s.group? gid = some g
  bad   : groupCheck s gid sl g i = some c

/-- A stream issues a word of its own scope: it runs, its team is not halted, and no check of the owner stops the word. -/
structure Owns (i : Instr) (s : State) (q : SeqId) (x : Seq) : Prop where
  cur  : s.cur = .seq q
  seq  : s.seq? q = some x
  runs : x.runs q = true
  free : s.seqHeld q = false
  ok   : ownerStop x i = none

/-! ### Who issues first (R73) -/

/-- A matrix-role group stands at `qdrain` or `qwait` of a stage that is full: a stage that waits for it. -/
def State.Awaited (s : State) (gid : GroupId) (g : Group) : Prop :=
  g.role = .matrix ∧ ∃ w q k t, fetchWord s gid g.a.pc = .ok w ∧
    (decodeWord w = .qdrain q k ∨ ∃ h, decodeWord w = .qwait q k h) ∧
    s.team? gid.teamKey = some t ∧ t.stageFull q.toNat (g.readS .a k).toNat = true

/-- A group goes before another under R73: an urgent one before one that is not; then one whose stage is awaited; then the
one that has issued fewest instructions, the oldest, the lower group number and the lower slot. -/
def State.Before (s : State) (k : GroupId) (g : Group) (k' : GroupId) (g' : Group) : Prop :=
  (g.urgent ≠ [] ∧ g'.urgent = []) ∨
  ((g.urgent = [] ↔ g'.urgent = []) ∧
    ((s.Awaited k g ∧ ¬ s.Awaited k' g') ∨
     ((s.Awaited k g ↔ s.Awaited k' g') ∧
      (g.issued.toNat < g'.issued.toNat ∨
       (g.issued = g'.issued ∧
        (g.order < g'.order ∨
         (g.order = g'.order ∧
          (k.grp < k'.grp ∨ (k.grp = k'.grp ∧ g.slotNo < g'.slotNo)))))))))

/-! ### How a word of a group completes -/

/-- The word completes: the group takes the registers `G`, the instruction retires at the next word, and no byte of any
memory changes. -/
def Completes (i : Instr) (s : State) (gid : GroupId) (sl : SlotId) (g G : Group) : Prop :=
  ∃ t, exec i s = .next t ∧ t = (s.setGroup gid G).retire gid sl (g.slot sl).pc.next ∧ s.SameMemory t

/-- The word completes at another word of the program: a jump. -/
def Jumps (i : Instr) (s : State) (gid : GroupId) (sl : SlotId) (G : Group) (dest : PC) : Prop :=
  ∃ t, exec i s = .next t ∧ t = (s.setGroup gid G).retire gid sl dest ∧ s.SameMemory t

/-- The word stops with a fault that is precise at it (R190). -/
def Faults (i : Instr) (s : State) (gid : GroupId) (sl : SlotId) (g : Group) (r : Record) : Prop :=
  exec i s = .next (s.takeStop gid sl r (g.slot sl).pc)

/-- The word waits, and will issue again or be completed by an event. -/
def Waits (i : Instr) (s : State) (gid : GroupId) (sl : SlotId) (w : Wait) : Prop :=
  exec i s = .next (s.modGroup gid (·.waitIn sl w))

/-- A memory word completes from the state `s1` that holds its effect: it retires, and a watchpoint that it hits is
queued (R217). -/
def Accesses (i : Instr) (s : State) (gid : GroupId) (sl : SlotId) (g : Group) (s1 : State) (write : Bool) (n : Nat)
    (accs : List (Nat × Nat)) : Prop :=
  exec i s = .next ((accessDone s1 gid sl (g.slot sl).pc write n accs).finish s gid sl (g.slot sl).pc)

/-- A matrix word completes: the group takes the registers `G`, the instruction retires, its quadrant leaves near-threshold
mode (R82), and no byte of any memory changes. -/
def MatrixCompletes (i : Instr) (s : State) (gid : GroupId) (sl : SlotId) (g G : Group) : Prop :=
  ∃ t, exec i s = .next t ∧
    t = ((s.setGroup gid G).retire gid sl (g.slot sl).pc.next).modCore g.core (·.leaveNear g.quad) ∧ s.SameMemory t

/-- A matrix word retires from the state `s1` that holds its effect, and its quadrant leaves near-threshold mode (R82). -/
def MatrixRetires (i : Instr) (s : State) (gid : GroupId) (sl : SlotId) (g : Group) (s1 : State) : Prop :=
  exec i s = .next ((s1.retire gid sl (g.slot sl).pc.next).modCore g.core (·.leaveNear g.quad))

/-- The words of the matrix unit, whose issue makes their quadrant leave near-threshold mode (R82). -/
def matrixOp : Instr → Bool
  | .mma .. | .mmaJ .. | .sqset .. | .sqget .. | .zld .. | .mzero .. | .mld .. | .mst .. | .mrd .. | .mwr .. | .leave => true
  | _ => false

/-- A matrix word stops with a fault that is precise at it: it has issued, and its quadrant leaves near-threshold mode unless
the group then stands in a wait in which it tries again (R82, R190). -/
def MatrixFaults (i : Instr) (s : State) (gid : GroupId) (sl : SlotId) (g : Group) (r : Record) : Prop :=
  exec i s = Out.leaves (.next (s.takeStop gid sl r (g.slot sl).pc)) gid g

/-- A matrix word waits; in a wait for an answer to what it has issued, its quadrant has left near-threshold mode (R82). -/
def MatrixWaits (i : Instr) (s : State) (gid : GroupId) (sl : SlotId) (g : Group) (w : Wait) : Prop :=
  exec i s = Out.leaves (.next (s.modGroup gid (·.waitIn sl w))) gid g

/-- The word retires at the next word, from the state `s1` that holds its effect. -/
def Retires (i : Instr) (s : State) (gid : GroupId) (sl : SlotId) (g : Group) (s1 : State) : Prop :=
  exec i s = .next (s1.retire gid sl (g.slot sl).pc.next)

/-! ### What a word leaves unchanged -/

/-- The registers that a word writes: s, c and mode of the issuing slot's fork, p, h and v registers, FLAGS, and the
write-backs of a long-latency producer. -/
structure Writes where
  s     : List Nat := []
  c     : List Nat := []
  p     : List Nat := []
  h     : List Nat := []
  v     : List Nat := []
  mode  : Bool := false
  flags : Bool := false
  wb    : Bool := false
  deriving DecidableEq, Repr

/-- `G` differs from `g` in nothing but the registers listed: every other s, c, p, h and v register, the mode and FLAGS
keep their values, and so do the PC, the lanes and every other field of the slot, the other slot, and every other field
of the group. -/
structure Group.Kept (g G : Group) (sl : SlotId) (w : Writes) : Prop where
  s     : ∀ n < 32, n ∉ w.s → (G.slot sl).fork.s[n]? = (g.slot sl).fork.s[n]?
  c     : ∀ n < 4, n ∉ w.c → G.readC sl n = g.readC sl n
  p     : ∀ n < 8, n ∉ w.p → G.readP n = g.readP n ∧ G.elected.getLsbD n = g.elected.getLsbD n
  h     : ∀ n < 8, n ∉ w.h → G.readH n = g.readH n
  v     : ∀ n < 64, n ∉ w.v → G.vreg n = g.vreg n
  mode  : w.mode = false → G.mode sl = g.mode sl
  flags : w.flags = false → G.flags = g.flags
  wb    : w.wb = false → G.wb = g.wb
  slot  : { G.slot sl with fork := (g.slot sl).fork } = g.slot sl
  other : G.otherSlot sl = g.otherSlot sl
  rest  : { G with a := g.a, b := g.b, p := g.p, elected := g.elected, h := g.h, v := g.v, flags := g.flags, wb := g.wb } = g

/-! ### Results in lanes -/

/-- The active lanes of a register, or of a pair, hold these codes under a type (R225), the other lanes keep their
bits, and the registers are full. -/
structure Group.Result (g G : Group) (sl : SlotId) (ty d : Nat) (f : Nat → Nat) : Prop where
  lo   : ∀ l < 64, G.readV d l = if (g.active sl).getLsbD l then loLane ty (f l) else g.readV d l
  hi   : isPair ty = true → ∀ l < 64, G.readV (d + 1) l = if (g.active sl).getLsbD l then hiLane ty (f l) else g.readV (d + 1) l
  full : ∀ n ∈ occupies ty d, ∃ r, G.vreg n = some r ∧ r.full = true

/-- FLAGS gain exactly the exceptions that some active lane raises (R230). -/
def Group.Raised (g G : Group) (sl : SlotId) (f : Nat → Flags) : Prop :=
  ∀ k < 5, G.flags.getLsbD k = true ↔ g.flags.getLsbD k = true ∨ ∃ l < 64, (g.active sl).getLsbD l = true ∧ (f l).getLsbD k = true

/-- The last read of b (R122): with a hold of 3 its registers become vacant, but for those that d names. -/
def Group.LastRead (G : Group) (h : BitVec 2) (b d : List Nat) : Prop := h = 3#2 → ∀ n ∈ b, n ∉ d → G.vreg n = none

/-- The registers that a word of a source b and a destination d changes (R122). -/
def touched (h : BitVec 2) (b d : List Nat) : List Nat := if h = 3#2 then d ++ b else d

/-- The results of a producer on its way (R119): the registers are empty and keep their bits, and a write-back is
pending that holds these lane words for the active lanes. -/
structure Group.Pending (g G : Group) (sl : SlotId) (regs : List (Nat × (Nat → BitVec 32))) : Prop where
  wb    : ∃ w, G.wb = g.wb ++ [w] ∧ w.mask = g.active sl ∧ w.regs.map (·.1) = regs.map (·.1) ∧
            ∀ k < regs.length, ∀ n f x, regs[k]? = some (n, f) → w.regs[k]? = some (n, x) →
              ∀ l < 64, (g.active sl).getLsbD l = true → x[l]? = some (f l)
  empty : ∀ e ∈ regs, ∃ r, G.vreg e.1 = some r ∧ r.full = false ∧ ∀ l < 64, r.lanes[l]? = some (g.readV e.1 l)

/-- The lane words of a result of a type in its register or pair (R225). -/
def laneWords (ty d : Nat) (f : Nat → Nat) : List (Nat × (Nat → BitVec 32)) :=
  if isPair ty then [(d, fun l => loLane ty (f l)), (d + 1, fun l => hiLane ty (f l))] else [(d, fun l => loLane ty (f l))]

/-- Source registers that can be read (R250): full. -/
def Group.Ready (g : Group) (ns : List Nat) : Prop := ∀ n ∈ ns, ∃ r, g.vreg n = some r ∧ r.full = true

/-- Destination registers that can be written (R118, R120): the group's own, and not waiting for a producer. -/
def Group.Writable (g : Group) (ns : List Nat) : Prop := ∀ n ∈ ns, n < g.vLimit ∧ ∀ r, g.v.find n = some r → r.full = true

/-! ### What the scalar words compute (R289 to R292) -/

/-- The operands of a scalar word of two sources, and its result as a function of the numbers the sources hold (R289). -/
def scalarForm : Instr → Option (BitVec 6 × BitVec 6 × BitVec 6 × (Word → Word → Word))
  | .sadd d a b => some (d, a, b, fun x y => BitVec.ofNat 64 (x.toNat + y.toNat))
  | .ssub d a b => some (d, a, b, fun x y => BitVec.ofInt 64 (x.toInt - y.toInt))
  | .smul d a b => some (d, a, b, fun x y => BitVec.ofNat 64 (x.toNat * y.toNat))
  | .sand d a b => some (d, a, b, fun x y => BitVec.ofNat 64 (x.toNat &&& y.toNat))
  | .sor d a b => some (d, a, b, fun x y => BitVec.ofNat 64 (x.toNat ||| y.toNat))
  | .sxor d a b => some (d, a, b, fun x y => BitVec.ofNat 64 (x.toNat ^^^ y.toNat))
  | .sandn d a b => some (d, a, b, fun x y => BitVec.ofNat 64 (x.toNat &&& (2 ^ 64 - 1 - y.toNat)))
  | .sshl d a b => some (d, a, b, fun x y => BitVec.ofNat 64 (x.toNat * 2 ^ (y.toNat % 64)))
  | .sshr d a b => some (d, a, b, fun x y => BitVec.ofNat 64 (x.toNat / 2 ^ (y.toNat % 64)))
  | .ssar d a b => some (d, a, b, fun x y => BitVec.ofInt 64 (x.toInt / 2 ^ (y.toNat % 64)))
  | .srol d a b => some (d, a, b, fun x y =>
      BitVec.ofNat 64 (x.toNat * 2 ^ (y.toNat % 64) + x.toNat / 2 ^ (64 - y.toNat % 64)))
  | _ => none

/-- The operands of a scalar division and its result where the quotient is an ordinary one (R289, R290): truncated toward
zero, the remainder with the sign of the dividend. -/
def divisionForm : Instr → Option (BitVec 6 × BitVec 6 × BitVec 6 × Bool × (Word → Word → Word))
  | .sdiv d a b => some (d, a, b, true, fun x y => BitVec.ofInt 64 (x.toInt.tdiv y.toInt))
  | .sdivu d a b => some (d, a, b, true, fun x y => BitVec.ofNat 64 (x.toNat / y.toNat))
  | .srem d a b => some (d, a, b, false, fun x y => BitVec.ofInt 64 (x.toInt.tmod y.toInt))
  | .sremu d a b => some (d, a, b, false, fun x y => BitVec.ofNat 64 (x.toNat % y.toNat))
  | _ => none

/-- The operands of a scalar compare and its test (R291). -/
def compareForm : Instr → Option (BitVec 6 × BitVec 6 × BitVec 6 × (Word → Word → Bool))
  | .sseq d a b => some (d, a, b, fun x y => decide (x.toNat = y.toNat))
  | .sslt d a b => some (d, a, b, fun x y => decide (x.toInt < y.toInt))
  | .ssltu d a b => some (d, a, b, fun x y => decide (x.toNat < y.toNat))
  | .ssle d a b => some (d, a, b, fun x y => decide (x.toInt ≤ y.toInt))
  | _ => none

/-! ### What the scope words compute (R294) -/

/-- The operands of a K word whose d is a register, and its result (R294). -/
def scopeForm : Instr → Option (BitVec 2 × BitVec 4 × BitVec 4 × Bool × BitVec 13 × (Word → Word → Word))
  | .kadd s d a f b => some (s, d, a, f, b, fun x y => BitVec.ofNat 64 (x.toNat + y.toNat))
  | .ksub s d a f b => some (s, d, a, f, b, fun x y => BitVec.ofInt 64 (x.toInt - y.toInt))
  | .kmul s d a f b => some (s, d, a, f, b, fun x y => BitVec.ofNat 64 (x.toNat * y.toNat))
  | .kand s d a f b => some (s, d, a, f, b, fun x y => BitVec.ofNat 64 (x.toNat &&& y.toNat))
  | .kor s d a f b => some (s, d, a, f, b, fun x y => BitVec.ofNat 64 (x.toNat ||| y.toNat))
  | .kxor s d a f b => some (s, d, a, f, b, fun x y => BitVec.ofNat 64 (x.toNat ^^^ y.toNat))
  | .kshl s d a f b => some (s, d, a, f, b, fun x y => BitVec.ofNat 64 (x.toNat * 2 ^ (y.toNat % 64)))
  | .kshr s d a f b => some (s, d, a, f, b, fun x y => BitVec.ofNat 64 (x.toNat / 2 ^ (y.toNat % 64)))
  | .kmov s d f b => some (s, d, 0, f, b, fun _ y => y)
  | _ => none

/-- The operands of a K compare and its test (R294). -/
def scopeTest : Instr → Option (BitVec 2 × BitVec 4 × BitVec 4 × Bool × BitVec 13 × (Word → Word → Bool))
  | .kseq s d a f b => some (s, d, a, f, b, fun x y => decide (x.toNat = y.toNat))
  | .kslt s d a f b => some (s, d, a, f, b, fun x y => decide (x.toInt < y.toInt))
  | .ksltu s d a f b => some (s, d, a, f, b, fun x y => decide (x.toNat < y.toNat))
  | _ => none

/-! ### What the vector words compute (R306 to R317) -/

/-- The operands of a vector word of two sources: d, a, b, the t bits of a and b, and the hold mark of b. -/
structure Vec2 where
  d : BitVec 6
  a : BitVec 6
  b : BitVec 6
  x : Bool
  y : Bool
  h : BitVec 2
  deriving DecidableEq, Repr

/-- An integer word of two sources (R306), and its result from the codes of a lane in a, b and d: under a type and SAT. -/
def intForm (ty : Nat) (sat : Bool) : Instr → Option (Vec2 × (Nat → Nat → Nat → Nat)) :=
  let w := tyBits ty
  let bits (n : Nat) : BitVec w := BitVec.ofNat w n
  fun
  | .add d a b x y h => some (⟨d, a, b, x, y, h⟩, fun p q _ => intRes ty sat (intOf ty p + intOf ty q))
  | .sub d a b x y h => some (⟨d, a, b, x, y, h⟩, fun p q _ => intRes ty sat (intOf ty p - intOf ty q))
  | .mul d a b x y h => some (⟨d, a, b, x, y, h⟩, fun p q _ => intRes ty sat (intOf ty p * intOf ty q))
  | .mulh d a b x y h => some (⟨d, a, b, x, y, h⟩, fun p q _ =>
      ((BitVec.ofInt (2 * w) (intOf ty p * intOf ty q)).extractLsb' w w).toNat)
  | .and d a b x y h => some (⟨d, a, b, x, y, h⟩, fun p q _ => (bits p &&& bits q).toNat)
  | .or d a b x y h => some (⟨d, a, b, x, y, h⟩, fun p q _ => (bits p ||| bits q).toNat)
  | .xor d a b x y h => some (⟨d, a, b, x, y, h⟩, fun p q _ => (bits p ^^^ bits q).toNat)
  | .andn d a b x y h => some (⟨d, a, b, x, y, h⟩, fun p q _ => (bits p &&& ~~~ bits q).toNat)
  | .shl d a b x y h => some (⟨d, a, b, x, y, h⟩, fun p q _ => (bits p <<< (q % w)).toNat)
  | .shr d a b x y h => some (⟨d, a, b, x, y, h⟩, fun p q _ => (bits p >>> (q % w)).toNat)
  | .sar d a b x y h => some (⟨d, a, b, x, y, h⟩, fun p q _ => ((bits p).sshiftRight (q % w)).toNat)
  | .rol d a b x y h => some (⟨d, a, b, x, y, h⟩, fun p q _ => ((bits p).rotateLeft (q % w)).toNat)
  | .imin d a b x y h => some (⟨d, a, b, x, y, h⟩, fun p q _ => intCode ty (min (intOf ty p) (intOf ty q)))
  | .imax d a b x y h => some (⟨d, a, b, x, y, h⟩, fun p q _ => intCode ty (max (intOf ty p) (intOf ty q)))
  | .iabsd d a b x y h => some (⟨d, a, b, x, y, h⟩, fun p q _ => intRes ty sat (intOf ty p - intOf ty q).natAbs)
  | .imad d a b x y h => some (⟨d, a, b, x, y, h⟩, fun p q r => intRes ty sat (intOf ty p * intOf ty q + intOf ty r))
  | _ => none

/-- An integer division (R307), whether it is `idiv`, and its result where the divisor is not 0. -/
def intDivForm (ty : Nat) (sat : Bool) : Instr → Option (Vec2 × Bool × (Nat → Nat → Nat))
  | .idiv d a b x y h => some (⟨d, a, b, x, y, h⟩, true, fun p q => intRes ty sat ((intOf ty p).tdiv (intOf ty q)))
  | .irem d a b x y h => some (⟨d, a, b, x, y, h⟩, false, fun p q => intCode ty ((intOf ty p).tmod (intOf ty q)))
  | _ => none

/-- A float word of two sources (R310, R311), and its result and flags from the codes of a lane in a, b and d: RoundTo of
the exact value under a type and a mode. -/
def floatForm (ty : Nat) (m : BitVec 32) : Instr → Option (Vec2 × (Nat → Nat → Nat → Nat × Flags)) :=
  let n := numOf ty
  let rnd := modeRnd m
  fun
  | .fadd d a b x y h => some (⟨d, a, b, x, y, h⟩, fun p q _ => roundTo ty m ((n p).add rnd (n q)))
  | .fsub d a b x y h => some (⟨d, a, b, x, y, h⟩, fun p q _ => roundTo ty m ((n p).add rnd (n q).neg))
  | .fmul d a b x y h => some (⟨d, a, b, x, y, h⟩, fun p q _ => roundTo ty m ((n p).mul (n q)))
  | .ffma d a b x y h => some (⟨d, a, b, x, y, h⟩, fun p q r => roundTo ty m (((n p).mul (n q)).add rnd (n r)))
  | .ffms d a b x y h => some (⟨d, a, b, x, y, h⟩, fun p q r => roundTo ty m (((n p).mul (n q)).add rnd (n r).neg))
  | .fnma d a b x y h => some (⟨d, a, b, x, y, h⟩, fun p q r => roundTo ty m (((n p).mul (n q)).neg.add rnd (n r)))
  | .fmin d a b x y h => some (⟨d, a, b, x, y, h⟩, fun p q _ => (fmtOf ty).round 0 false ((n p).min (n q)))
  | .fmax d a b x y h => some (⟨d, a, b, x, y, h⟩, fun p q _ => (fmtOf ty).round 0 false ((n p).max (n q)))
  | _ => none

/-- Does a word of two sources read d as a third one (R304)? -/
def readsD : Instr → Bool
  | .imad .. | .ffma .. | .ffms .. | .fnma .. => true
  | _ => false

/-- A vector word of one source or one source and an immediate (R306, R308, R311): d, a, its t bit, and its result and
flags from the code of a lane. -/
def vecForm1 (ty : Nat) (sat : Bool) : Instr → Option (BitVec 6 × BitVec 6 × Bool × (Nat → Nat × Flags)) :=
  let w := tyBits ty
  let bits (n : Nat) : BitVec w := BitVec.ofNat w n
  let f := fmtOf ty
  fun
  | .popc d a x _ => some (d, a, x, fun p => (((List.range w).map (fun k => (p.testBit k).toNat)).sum, 0))
  | .clz d a x _ => some (d, a, x, fun p => ((bits p).clz.toNat, 0))
  | .brev d a x _ => some (d, a, x, fun p => ((bits p).reverse.toNat, 0))
  | .addi d a x i => some (d, a, x, fun p => (intRes ty sat (intOf ty p + i.toInt), 0))
  | .andi d a x i => some (d, a, x, fun p => ((bits p &&& (sx i).setWidth w).toNat, 0))
  | .shli d a x i => some (d, a, x, fun p => ((bits p <<< i.toNat).toNat, 0))
  | .fabs d a x _ => some (d, a, x, fun p =>
      if (numOf ty p).isNan then (f.nanCode, if (numOf ty p).isSig then flagInvalid else 0) else (p % f.signBit, 0))
  | .fneg d a x _ => some (d, a, x, fun p =>
      if (numOf ty p).isNan then (f.nanCode, if (numOf ty p).isSig then flagInvalid else 0)
      else ((p + f.signBit) % (2 * f.signBit), 0))
  | _ => none

/-- A long-latency word of one source (R310, R312): d, a, its t bit, and its result and flags from the code of a lane. -/
def slowForm1 (ty : Nat) (m : BitVec 32) : Instr → Option (BitVec 6 × BitVec 6 × Bool × (Nat → Nat × Flags)) :=
  let f := fmtOf ty
  let sat := modeSat m
  fun
  | .fsqrt d a x _ => some (d, a, x, fun p => f.sqrt (modeRnd m) sat (numOf ty p))
  | .frcp d a x _ => some (d, a, x, fun p => f.rcp sat (numOf ty p))
  | .frsq d a x _ => some (d, a, x, fun p => f.rsq sat (numOf ty p))
  | .fexp2 d a x _ => some (d, a, x, fun p => f.exp2 sat (Config.specialTie 2 ty p) (numOf ty p))
  | .flog2 d a x _ => some (d, a, x, fun p => f.flog2 sat (Config.specialTie 3 ty p) (numOf ty p))
  | .fsin d a x _ => some (d, a, x, fun p => f.fsin sat (Config.specialTie 4 ty p) (numOf ty p))
  | .fcos d a x _ => some (d, a, x, fun p => f.fcos sat (Config.specialTie 5 ty p) (numOf ty p))
  | _ => none

/-- A compare of lanes (R317), and its answer and flags from the codes of a lane in a and b. -/
def laneTest (ty : Nat) : Instr → Option (Vec2 × (Nat → Nat → Bool × Flags)) :=
  let order (p q : Nat) : Option Ordering :=
    if ty < 8 then some (compare (intOf ty p) (intOf ty q))
    else if (numOf ty p).isNan || (numOf ty q).isNan then none
    else some ((numOf ty p).cmp (numOf ty q))
  let sig (p q : Nat) : Flags := if 8 ≤ ty && ((numOf ty p).isSig || (numOf ty q).isSig) then flagInvalid else 0
  let any (p q : Nat) : Flags := if 8 ≤ ty && ((numOf ty p).isNan || (numOf ty q).isNan) then flagInvalid else 0
  fun
  | .ceq d a b x y h => some (⟨d, a, b, x, y, h⟩, fun p q => (order p q == some .eq, sig p q))
  | .clt d a b x y h => some (⟨d, a, b, x, y, h⟩, fun p q => (order p q == some .lt, any p q))
  | .cle d a b x y h => some (⟨d, a, b, x, y, h⟩, fun p q => (order p q == some .lt || order p q == some .eq, any p q))
  | .cne d a b x y h => some (⟨d, a, b, x, y, h⟩, fun p q => (order p q != some .eq, sig p q))
  | _ => none

/-- A predicate word, and its bit from the bits of a and b (R318). -/
def predForm : Instr → Option (BitVec 6 × BitVec 6 × BitVec 6 × (Bool → Bool → Bool))
  | .pand d a b => some (d, a, b, fun p q => p && q)
  | .por d a b => some (d, a, b, fun p q => p || q)
  | .pxor d a b => some (d, a, b, fun p q => p != q)
  | .pandn d a b => some (d, a, b, fun p q => p && !q)
  | _ => none

/-! ### What the memory words access (R254, R325 to R334) -/

/-- The operands of a vector memory word: data register, base, index, bytes a lane, the offset field, and whether its
addresses are offsets into the scratchpad window (R333). -/
structure MemWord where
  t    : BitVec 6
  b    : BitVec 5
  i    : BitVec 6
  n    : Nat
  off  : Nat
  spad : Bool
  deriving DecidableEq, Repr

/-- The address of a lane (R254, R333). -/
def MemWord.addr (f : MemWord) (g : Group) (sl : SlotId) (l : Nat) : Word :=
  if f.spad then spadAddr g sl f.b f.i f.n f.off l else laneAddr g sl f.b f.i f.n f.off l

/-- The checks of R325 on an address of the word. -/
def MemWord.check (f : MemWord) (s : State) (gid : GroupId) (k : Access) : Word → Except Bad Place :=
  if f.spad then checkSpad s gid f.n else checkAddr s gid k false f.n

/-- The places that the active lanes access, or the lowest lane that fails. -/
def MemWord.places (f : MemWord) (s : State) (gid : GroupId) (sl : SlotId) (g : Group) (k : Access) :
    Except (Bad × Nat × Word) (List (Nat × Place)) :=
  checkLanes (f.check s gid k) (f.addr g sl) (lanesOf (g.active sl))

/-- The accesses that a watchpoint sees: lanes and addresses. -/
def MemWord.accs (f : MemWord) (g : Group) (sl : SlotId) (ps : List (Nat × Place)) : List (Nat × Nat) :=
  ps.map (fun e => (e.1, (f.addr g sl e.1).toNat))

/-- The index register as a source; index 63 is none (R254). -/
def MemWord.index (f : MemWord) : List Nat := if f.i = 63#6 then [] else [f.i.toNat]

/-- The data registers: t, and those above it that the size implies (R327). -/
def MemWord.regs (f : MemWord) : List Nat := (List.range ((f.n + 3) / 4)).map (f.t.toNat + ·)

/-- A vector load (R327, R329, R333). -/
def loadForm : Instr → Option MemWord
  | .ldB t b i m => some ⟨t, b, i, 1, m.toNat, false⟩
  | .ldH t b i m => some ⟨t, b, i, 2, m.toNat, false⟩
  | .ldWV t b i m => some ⟨t, b, i, 4, m.toNat, false⟩
  | .ldDV t b i m => some ⟨t, b, i, 8, m.toNat, false⟩
  | .ldQ t b i m => some ⟨t, b, i, 16, m.toNat, false⟩
  | .ldAcqV t b i _ o => some ⟨t, b, i, 4, o.toNat, false⟩
  | .ldsW t b i m => some ⟨t, b, i, 4, m.toNat, true⟩
  | .ldsQ t b i m => some ⟨t, b, i, 16, m.toNat, true⟩
  | _ => none

/-- A vector store (R327, R329, R333), and whether it sets its granules full. -/
def storeForm : Instr → Option (MemWord × Bool)
  | .stB t b i m => some (⟨t, b, i, 1, m.toNat, false⟩, false)
  | .stH t b i m => some (⟨t, b, i, 2, m.toNat, false⟩, false)
  | .stWV t b i m => some (⟨t, b, i, 4, m.toNat, false⟩, false)
  | .stDV t b i m => some (⟨t, b, i, 8, m.toNat, false⟩, false)
  | .stQ t b i m => some (⟨t, b, i, 16, m.toNat, false⟩, false)
  | .stRelV t b i _ o => some (⟨t, b, i, 4, o.toNat, false⟩, false)
  | .stsW t b i m => some (⟨t, b, i, 4, m.toNat, true⟩, false)
  | .stsQ t b i m => some (⟨t, b, i, 16, m.toNat, true⟩, false)
  | .stsF t b i m => some (⟨t, b, i, 16, m.toNat, true⟩, true)
  | _ => none

/-- A consuming load (R334): its operands, whether it empties the granules, and whether it faults on an empty one. -/
def consumeForm : Instr → Option (MemWord × Bool × Bool)
  | .ldfK t b i m => some (⟨t, b, i, 16, m.toNat, true⟩, false, false)
  | .ldfC t b i m => some (⟨t, b, i, 16, m.toNat, true⟩, true, false)
  | .ldfKT t b i m => some (⟨t, b, i, 16, m.toNat, true⟩, false, true)
  | .ldfCT t b i m => some (⟨t, b, i, 16, m.toNat, true⟩, true, true)
  | _ => none

/-- Does some register of a word fail the checks of R250, sources first? -/
def MemWord.ready (f : MemWord) (g : Group) : Prop := g.Ready f.index ∧ g.Writable f.regs

/-- The results of a load on their way, from the bytes of its lanes: 32 bits a register, low ones first, zero above
(R327). -/
def MemWord.loaded (f : MemWord) (data : Vector (List Byte) 64) : List (Nat × (Nat → BitVec 32)) :=
  f.regs.zipIdx.map (fun e => (e.1, fun l => BitVec.ofNat 32 (leNat ((((data[l]?).getD []).drop (4 * e.2)).take 4))))

/-- The bytes that stand at the places of lanes. -/
def State.laneData (s : State) (n : Nat) (ps : List (Nat × Place)) : Vector (List Byte) 64 :=
  Vector.ofFn (fun l => ((ps.find? (fun e => e.1 == l.val)).map (fun e => readPlace s e.2 n)).getD [])

/-- The byte `k` that a lane of a store holds: of its number, little-endian over t and the registers above (R327). -/
def MemWord.byte (f : MemWord) (g : Group) (l k : Nat) : Byte :=
  BitVec.ofNat 8 ((g.readV (f.t.toNat + k / 4) l).toNat / 2 ^ (8 * (k % 4)))

/-- A word that does not reach its memory: it waits where an answer is awaited, and faults in the lowest failing lane
otherwise (R155, R193, R325). -/
def Unreached (i : Instr) (s : State) (gid : GroupId) (sl : SlotId) (g : Group) (cls : Nat) (e : Bad × Nat × Word) : Prop :=
  (∀ w, e.1 = .hold w → Waits i s gid sl w) ∧
  ((∀ w, e.1 ≠ .hold w) → Faults i s gid sl g (e.1.record cls e.2.1 e.2.2))

/-- The same of a matrix word (R82). -/
def MatrixUnreached (i : Instr) (s : State) (gid : GroupId) (sl : SlotId) (g : Group) (cls : Nat) (e : Bad × Nat × Word) : Prop :=
  (∀ w, e.1 = .hold w → MatrixWaits i s gid sl g w) ∧
  ((∀ w, e.1 ≠ .hold w) → MatrixFaults i s gid sl g (e.1.record cls e.2.1 e.2.2))

/-- Nothing but memory differs: the bytes of the memories and the full granules of the teams, the ledger of the order of
events (R171), and the count of free values drawn. -/
def State.OnlyMemory (s t : State) : Prop :=
  { t with mem := s.mem, far := s.far, teams := s.teams, debugs := s.debugs, ledger := s.ledger, free := s.free } = s ∧
  (∀ k, (t.team? k).map (fun x => { x with bytes := [], full := [] }) = (s.team? k).map (fun x => { x with bytes := [], full := [] })) ∧
  ∀ d, { t.dbg d with store := [] } = { s.dbg d with store := [] }

/-! ### What a read returns (R171, R174) -/

/-- Nothing but what reads leave behind differs: what the ledger holds of which events have followed which writes, and the
count of free values drawn. -/
def State.ReadsOnly (s t : State) : Prop := { t with ledger := s.ledger, free := s.free } = s

/-- No scalar load of a group has returned a later write since its register was written (R326). -/
def State.Landed (s : State) (gid : GroupId) : Prop := ∀ l ∈ s.ledger.loads, l.scalarOf gid = true → l.value = none

/-- A byte that a read of a slot of a group in a class may return: the one that stands in memory, or one that a write of the
group replaced which nothing has ordered before such a read of it (R171, R174). -/
def State.Seen (s : State) (gid : GroupId) (sl : SlotId) (cls : Nat) (p : Place) (b : Byte) : Prop :=
  readPlace s p 1 = [b] ∨
  ∃ r ∈ s.ledger.writes, r.group = some gid ∧ r.knownTo (s.eventOf gid sl cls) p 1 = false ∧
    ∃ k, r.place.add k = p ∧ r.old[k]? = some b

/-- The bytes that a read of `n` bytes returns. -/
def State.SeenAll (s : State) (gid : GroupId) (sl : SlotId) (cls : Nat) (p : Place) (n : Nat) (bs : List Byte) : Prop :=
  bs.length = n ∧ ∀ k < n, ∀ b, bs[k]? = some b → s.Seen gid sl cls (p.add k) b

/-- Every write by a group of the `n` bytes at a place is ordered before a read of them by a slot in a class. -/
def State.Settled (s : State) (gid : GroupId) (sl : SlotId) (cls : Nat) (p : Place) (n : Nat) : Prop :=
  ∀ r ∈ s.ledger.writes, r.group = some gid → ∀ k < n, r.place.covers r.old.length (p.add k) →
    r.knownTo (s.eventOf gid sl cls) (p.add k) 1 = true

/-- A byte that a copy may read: the one that stands in memory, or one that a write of its group replaced which nothing has
put before the copy (R171). -/
def State.CopySeen (s : State) (cp : Copy) (p : Place) (b : Byte) : Prop :=
  readPlace s p 1 = [b] ∨
  ∃ r ∈ s.ledger.writes, r.ownedBy cp.event = true ∧ r.knownTo cp.event p 1 = false ∧ ∃ k, r.place.add k = p ∧ r.old[k]? = some b

/-- Every write by the group of a copy of the `n` bytes at a place has been put before the copy. -/
def State.CopySettled (s : State) (cp : Copy) (p : Place) (n : Nat) : Prop :=
  ∀ r ∈ s.ledger.writes, r.ownedBy cp.event = true → ∀ k < n, r.place.covers r.old.length (p.add k) →
    r.knownTo cp.event (p.add k) 1 = true

/-! ### What an ordering operation does (R171, R172) -/

/-- Lines name a line as widely as a scope, or more widely. -/
def Lines.At (l : Lines) (x : Line) (k : Nat) : Prop := ∃ j, (x, j) ∈ l ∧ k ≤ j

/-- Nothing follows. -/
def Follows.none : Follows := ⟨[], [], []⟩

/-- Of the ledger nothing but what follows the writes and the pending loads differs, and this as a relation says. -/
def State.Follow (s t : State) (P : Follows → Follows → Prop) : Prop :=
  { t with ledger := s.ledger } = s ∧ t.ledger.next = s.ledger.next ∧
  t.ledger.writes.map (fun r => { r with after := .none }) = s.ledger.writes.map (fun r => { r with after := .none }) ∧
  t.ledger.loads.map (fun l => { l with after := .none }) = s.ledger.loads.map (fun l => { l with after := .none }) ∧
  (∀ (n : Nat) (r r' : Written), s.ledger.writes[n]? = some r → t.ledger.writes[n]? = some r' → P r.after r'.after) ∧
  ∀ (n : Nat) (l l' : Loading), s.ledger.loads[n]? = some l → t.ledger.loads[n]? = some l' → P l.after l'.after

/-- A fence (R171): what an event of the lines `src` has followed is before every later event of the lines `dst`, within the
scope of the fence and of what ordered it before. Nothing else changes. -/
def State.Orders (s t : State) (src dst : List Line) (sc : Nat) : Prop :=
  s.Follow t (fun f f' => f'.foot = f.foot ∧ f'.past = f.past ∧
    ∀ x k, f'.knows.At x k ↔ f.knows.At x k ∨ (x ∈ dst ∧ k ≤ sc ∧ ∃ y ∈ src, f.past.At y k))

/-- What a synchronisation event of a slot of a group follows by itself, as widely as a scope: what its earlier ones have been
put after. -/
def State.synced (s : State) (gid : GroupId) (sl : SlotId) (f : Follows) (k : Nat) : Prop :=
  ∃ y ∈ s.lines gid sl syncClass, f.knows.At y k

/-- A release of a slot of a group (R172): a synchronisation event of it follows, within the scope, what its events of the
classes `reach` have followed, and the lines `dst` hold what that event follows. Nothing else changes. -/
def State.Releases (s t : State) (gid : GroupId) (sl : SlotId) (reach : List Nat) (sc : Nat) (dst : List Line) : Prop :=
  s.Follow t (fun f f' => f'.foot = f.foot ∧ f'.knows = f.knows ∧
    let now (k : Nat) : Prop := s.synced gid sl f k ∨ (k ≤ sc ∧ ∃ y ∈ s.paths gid sl reach, f.past.At y k)
    ∀ x k, (∀ m, x ≠ .mark m) →
      (f'.past.At x k ↔ f.past.At x k ∨ (x ∈ s.lines gid sl syncClass ∧ now k) ∨ (x ∈ dst ∧ k ≤ scopeAll ∧ now k)))

/-- An acquire of a slot of a group (R172): a synchronisation event of it follows what the lines `src` hold, and its later
events of the classes `reach` follow, within the scope, what that event follows; the lines `dst` hold it too. Nothing else
changes. -/
def State.Acquires (s t : State) (gid : GroupId) (sl : SlotId) (src : List Line) (reach : List Nat) (sc : Nat) (dst : List Line) :
    Prop :=
  s.Follow t (fun f f' => f'.foot = f.foot ∧
    let now (k : Nat) : Prop := s.synced gid sl f k ∨ (k ≤ scopeAll ∧ ∃ y ∈ src, f.past.At y k)
    (∀ x k, f'.knows.At x k ↔ f.knows.At x k ∨ (x ∈ s.paths gid sl reach ∧ k ≤ sc ∧ now k)) ∧
    ∀ x k, (∀ m, x ≠ .mark m) →
      (f'.past.At x k ↔ f.past.At x k ∨ (x ∈ s.lines gid sl syncClass ∧ now k) ∨ (x ∈ dst ∧ k ≤ scopeAll ∧ now k)))

/-- An operation of slots of groups on tiles and tensor slots of a half (R364, R378): an event of the matrix class of each follows
what its earlier ones have been put after, what came before their earlier operations on each, and what has written one that it reads;
these, and those that it writes, hold what it follows. Nothing else changes. -/
def State.TileOrders (s t : State) (ms : List (GroupId × SlotId)) (half : Nat) (reads writes : List Nat) : Prop :=
  let own : List Line := ms.flatMap (fun x => s.lines x.1 x.2 2)
  let by_ : List Line := ms.flatMap (fun x => s.tileLines x half (reads ++ writes))
  let at_ (ks : List Nat) : List Line := ms.flatMap (fun x => ks.map (.tile x.1.teamKey half))
  s.Follow t (fun f f' => f'.foot = f.foot ∧ f'.knows = f.knows ∧
    let now (k : Nat) : Prop := (∃ y ∈ own, f.knows.At y k) ∨ (k ≤ scopeAll ∧ ∃ y ∈ by_ ++ at_ reads, f.past.At y k)
    ∀ x k, (∀ m, x ≠ .mark m) →
      (f'.past.At x k ↔ f.past.At x k ∨ (x ∈ own ∧ now k) ∨ (x ∈ by_ ++ at_ writes ∧ k ≤ scopeAll ∧ now k)))

/-- Every write that is still in the ledger was in it before, and what follows it has grown as a relation says, or is new. -/
def State.FollowOn (s t : State) (P : Follows → Follows → Prop) : Prop :=
  ∀ r' ∈ t.ledger.writes, s.ledger.next ≤ r'.id ∨ ∃ r ∈ s.ledger.writes, r.id = r'.id ∧ P r.after r'.after

/-- The writes of an instruction are releases (R172): each of them follows, within the scope, what events of the lines `src`
have followed. -/
def State.StoresAfter (s t : State) (src : List Line) (sc : Nat) : Prop :=
  s.FollowOn t (fun f f' => ∀ y ∈ src, ∀ k ≤ sc, f.past.At y k →
    ∀ id, s.ledger.next ≤ id → id < t.ledger.next → f'.past.At (.write id) k)

/-- Is a write the newest of some bytes at a place? -/
def State.Newest (s : State) (w : Written) (p : Place) (n : Nat) : Prop :=
  (∃ i < n, w.holds p i = true) ∧
  ∃ l m, s.ledger.writes = l ++ w :: m ∧ (∀ r ∈ l ++ m, r.id ≠ w.id) ∧ ∀ r ∈ m, r.meets p n = false

/-- An event that reads `w` acquires (R172): the later events of the lines `dst` follow, within the scope, what comes before
`w`. -/
def State.AcquiresFrom (s t : State) (w : Written) (dst : List Line) (sc : Nat) : Prop :=
  s.FollowOn t (fun f f' => ∀ x ∈ dst, ∀ k ≤ sc, k ≤ scopeAll → f.past.At (.write w.id) k → f'.knows.At x k)

/-- A write of another agent: of the ledger it takes writes of common bytes out, and settles pending loads of these. -/
def State.Aside (s u : State) : Prop :=
  { u.ledger with writes := s.ledger.writes, loads := s.ledger.loads } = s.ledger ∧ u.ledger.writes.Sublist s.ledger.writes ∧
  u.ledger.loads.map (fun l => { l with done := false }) = s.ledger.loads.map (fun l => { l with done := false })

/-- No group holds a stop that an answer or a restore is still to make (R16, R200). -/
def State.NoStops (s : State) : Prop := ∀ e ∈ s.groups, ∀ n sl r pc, e.2.wait ≠ some (.stop n sl r pc)

/-- Is a granule of a team full? -/
def State.isFull (s : State) (k : Nat × Nat × Nat) (x : Nat) : Prop := ∃ t, s.team? k = some t ∧ x ∈ t.full

/-- A scalar load or store (R327, R329): t, base, bytes, offset, whether it stores, and whether it may name the
aperture (R160). -/
def scalarMem : Instr → Option (BitVec 6 × BitVec 5 × Nat × Nat × Bool × Bool)
  | .ldWS t b m => some (t, b, 4, m.toNat, false, false)
  | .ldDS t b m => some (t, b, 8, m.toNat, false, false)
  | .ldAcqS t b _ o => some (t, b, 8, o.toNat, false, false)
  | .stWS t b m => some (t, b, 4, m.toNat, true, false)
  | .stDS t b m => some (t, b, 8, m.toNat, true, true)
  | .stRelS t b _ o => some (t, b, 8, o.toNat, true, false)
  | _ => none

/-- An atomic (R331): its operands, bytes a lane (none: the TYPE's), whether it returns, its data registers, and the new
value from the old one, the operand and the comparand. -/
structure AtomWord where
  t   : BitVec 6
  b   : BitVec 5
  i   : BitVec 6
  n   : Nat
  ret : Bool
  two : Bool                             -- does a comparand stand below the operand?
  new : Nat → Nat → Nat → Nat

/-- The atomic words under a TYPE. -/
def atomForm (ty : Nat) : Instr → Option AtomWord :=
  let n := tyBits ty / 8
  let flt (f : Num → Num → Num) (x y : Nat) : Nat := ((fmtOf ty).round 0 false (f (numOf ty x) (numOf ty y))).1
  fun
  | .aadd t b i _ _ r => some ⟨t, b, i, n, r, false, fun old x _ =>
      if ty < 8 then (old + x) % 2 ^ tyBits ty else flt (Num.add 0) old x⟩
  | .amin t b i _ _ r => some ⟨t, b, i, n, r, false, fun old x _ =>
      if ty < 8 then intCode ty (min (intOf ty old) (intOf ty x)) else flt Num.min old x⟩
  | .amax t b i _ _ r => some ⟨t, b, i, n, r, false, fun old x _ =>
      if ty < 8 then intCode ty (max (intOf ty old) (intOf ty x)) else flt Num.max old x⟩
  | .aand t b i _ _ r => some ⟨t, b, i, n, r, false, fun old x _ => old &&& x⟩
  | .aor t b i _ _ r => some ⟨t, b, i, n, r, false, fun old x _ => old ||| x⟩
  | .axor t b i _ _ r => some ⟨t, b, i, n, r, false, fun old x _ => old ^^^ x⟩
  | .axchg t b i _ _ r => some ⟨t, b, i, n, r, false, fun _ x _ => x⟩
  | .acas t b i _ _ r => some ⟨t, b, i, n, r, true, fun old x c => if old = c then x else old⟩
  | .axchgQ t b i _ _ r => some ⟨t, b, i, 16, r, false, fun _ x _ => x⟩
  | .acasQ t b i _ _ r => some ⟨t, b, i, 16, r, true, fun old x c => if old = c then x else old⟩
  | _ => none

/-- The ORD and the scope of an atomic (R332). -/
def orderForm : Instr → Option (BitVec 2 × BitVec 3)
  | .aadd _ _ _ o sc _ | .amin _ _ _ o sc _ | .amax _ _ _ o sc _ | .aand _ _ _ o sc _ | .aor _ _ _ o sc _
  | .axor _ _ _ o sc _ | .axchg _ _ _ o sc _ | .acas _ _ _ o sc _ | .axchgQ _ _ _ o sc _ | .acasQ _ _ _ o sc _ => some (o, sc)
  | _ => none

/-- The `n` bytes at register `r` of a lane as a number, with the registers above it low bytes first. -/
def lanePack (g : Group) (r n l : Nat) : Nat :=
  ((List.range (n / 4)).map (fun k => (g.readV (r + k) l).toNat * 2 ^ (32 * k))).sum

end Sys2Proof.Machine
end

