-- ==== Sys2Proof/Certificates/Slice0/Obligations.lean ====
section
/-! DEFINITION. The statements about the machine. Each docstring names the rules that its statement formalises; a clause
that rests on a choice of the model names the log entry. -/

open Sys2Proof Sys2Proof.Machine

/-! ### Reset -/

/-- What reset leaves, where the specification gives the value: the memory bits DEVRDY and DEVFAIL (R13, R14), no
device number (R21), ports down (R24), ownership and queue records (R26, R28), QUANTUM and NOPROMO (R67), regions
(R80, R91), quotas (R130), PDEADLINE (R201), mailbox control (R211), the tile registers of the debugger (R215, R216),
the top-down counters (R221), the counts of the ports (R387), the debug cores (R300, R370), and no unit placed. Reset
leaves every memory in canonical form (the form is the model's own; what an unlisted byte of HBM reads as is log 13).
The group that placement starts from, before its PC, h6 and h7 are set (R118; those three are in `ServiceTiles`): one slot
that holds its lanes, s, c, mode, p, h and FLAGS 0, no mark of an elected predicate, v vacant, an empty stack and no halt. -/
def Obligations.ResetValues : Prop :=
  (let s := State.reset
   s.devrdy = 0 ∧ s.devfail = 0 ∧ s.devnum = none ∧ s.timer = 0 ∧ s.tripped = false ∧ s.quantum = 500 ∧
     s.nopromo = false ∧
   s.pdeadline = 500 ∧ s.qown = [] ∧ s.fwin = [] ∧ s.hquota = [] ∧ s.irqs = [] ∧ s.contexts = [] ∧ s.grids = [] ∧
   s.gangs = [] ∧ s.teams = [] ∧ s.groups = [] ∧ s.seqs = [] ∧ s.builtins = [] ∧ s.channels = [] ∧
   (∀ d, (s.umap d).done = false) ∧
   (∀ p, (s.port p).up = false ∧ (s.port p).fail = false) ∧
   (∀ n, (s.queue n).state = 0 ∧ (s.queue n).en = false ∧ (s.queue n).stop = false ∧ (s.queue n).inflight = [] ∧
     (s.queue n).rdx = 0 ∧ (s.queue n).wrx = 0 ∧ (s.queue n).ecode = 0 ∧ (s.queue n).elev = 0) ∧
   (∀ n, (s.region n).floor = 0 ∧ (s.region n).ctl = 0 ∧ (s.region n).ntt = 12 ∧ (s.region n).nogate = false ∧
     (s.region n).bal = 64 ∧ (s.region n).bin = 0) ∧
   (∀ d, (s.mailbox d).inv = false ∧ (s.mailbox d).outv = false ∧ (s.mailbox d).ien = false ∧ (s.mailbox d).vec = 0 ∧
     (s.mailbox d).derr = false) ∧
   (∀ c, (s.core c).bpt = .replicate 8 0 ∧ (s.core c).wpt = .replicate 16 0 ∧ (s.core c).tdc = [] ∧
     (s.core c).tds = [] ∧
     (s.core c).counts.scred = .replicate 3 8 ∧ (s.core c).counts.owed = .replicate 3 0 ∧ (s.core c).counts.outrd = 0 ∧
     (s.core c).counts.outwr = 0) ∧
   (∀ d, (s.dbg d).dctx = 0 ∧ (s.dbg d).dgrid = 0 ∧ (s.dbg d).bpt = .replicate 8 0 ∧ (s.dbg d).wpt = .replicate 16 0 ∧
     (s.dbg d).inbox = [] ∧ (s.dbg d).started = false ∧ ∀ a, memGet (s.dbg d).store a = 0) ∧
   (∀ d k, (s.entry d k).valid = false ∧ (s.entry d k).phase = 0 ∧ (s.entry d k).vall = true)) ∧
  (State.reset.memOk) ∧
  (∀ ctx core quad slotNo vcore half role width base order,
     let g := Group.new ctx core quad slotNo vcore half role width base order
     g.split = false ∧ (width ≤ 64 → ∀ l < 64, (g.lanes .a).getLsbD l = decide (l < width)) ∧
     (∀ n : BitVec 6, n.toNat < 32 → g.readS .a n = 0) ∧ (∀ k < 4, g.readC .a k = false) ∧ g.mode .a = 0 ∧
     (∀ k < 8, g.readP k = 0 ∧ g.elected.getLsbD k = false ∧ g.readH k = 0) ∧ (∀ n, g.vreg n = none) ∧ g.flags = 0 ∧
     g.depth = 0 ∧ g.tdepth = 0 ∧ g.status = 0 ∧ g.mrp = 0 ∧ g.squad = 0 ∧ g.halted = false ∧ g.dhalt = false)

/-! ### Memory -/

/-- Every step keeps every memory in canonical form, from every state that has it: HBM, the memory of the devices
behind the links, the scratchpads of the teams and the local stores of the debug cores. Equal memories are then equal
data (the model's own invariant). -/
def Obligations.StepKeepsMemory : Prop := ∀ (s : State) t, s.memOk → step s = .next t → t.memOk

/-! ### Words -/

/-- Encoding and decoding agree on every well-formed word: no bit of an encoding is dropped (R243 to R258, R265). -/
def Obligations.DecodeEncode : Prop :=
  ∀ (i : Instr) w, i.wellFormed = true → encodeWord i = some w → decodeWord w = i

/-- Every word decodes to an instruction that encodes to that word: each word has one meaning (R243, R265). -/
def Obligations.EncodeDecode : Prop := ∀ w, encodeWord (decodeWord w) = some w

/-- Words of the specification's own tables decode to the instructions that stand beside them (R269, R292, R295, R297,
R301, R316, and the encodings of 22_isa_system). -/
def Obligations.DecodedWords : Prop :=
  decodeWord 0x2010_1900#32 = .sadd 4 1 36 ∧
  decodeWord 0x2308_31C2#32 = .ssltu 2 3 7 ∧
  decodeWord 0x2424_A2C2#32 = .srem 9 10 11 ∧
  decodeWord 0x250C_37F8#32 = .saddi 3 3 0x7F8 ∧
  decodeWord 0x260B_0000#32 = .lcat 2 0x30000 ∧
  decodeWord 0x2808_0007#32 = .li 2 7 ∧
  decodeWord 0x2914_0010#32 = .getc 5 0x10 ∧
  decodeWord 0x1944_E000#32 = .kseq 1 1 3 true 0 ∧
  decodeWord 0x18C8_2064#32 = .kmov 3 2 true 100 ∧
  decodeWord 0x1180_0005#32 = .ksub 2 0 0 false 5 ∧
  decodeWord 0x1C10_7000#32 = .wred 4 7 0 0 false 0 ∧
  decodeWord 0x420C_1002#32 = .fabs 3 1 false 0 ∧
  decodeWord 0x5118_5040#32 = .npack 6 5 1 false 0 ∧
  decodeWord 0x860C_5F80#32 = .stDS 3 2 0 ∧
  decodeWord 0x830C_5F80#32 = .stDV 3 2 63 0 ∧
  decodeWord 0xD200_0043#32 = .xfence 1 0 3 ∧
  decodeWord 0xE614_61C1#32 = .dstep 5 6 7 ∧
  decodeWord 0xFF12_3456#32 = .unassignedOpcode 0xFF12_3456

/-! ### The step -/

/-- A step runs the decoded instruction: when a group or a debug core is to issue in a slot, may issue, is not stopped
there and the bytes at its PC decode to `i`, the step is `exec i` at that state with the group as the issuer, and then the
end of the issue slot. Before it, the pending scalar loads of the slot into registers that the word reads or writes leave the ledger, and
nothing else changes (R326); a step at whose beginning no scalar load has returned a later write
changes no group before it. At the end address of its baton a group executes only a word of an upper scope (R101). The end of
a slot changes nothing but its core: one leaf and the counter of all slots go up by one (R221), and the occupation of the
units and the sampling go on; that every issue ends a slot, that the agenda names what moves, and which registers a word
reads or writes, are the model's choice (log 47, log 1, log 99). -/
def Obligations.StepRunsWord : Prop :=
  (∀ (s : State) (gid : GroupId) (sl : SlotId) rest (g : Group) w (i : Instr), s.tripped = false →
    s.agenda = .issue (.group gid sl) :: rest →
    let s1 : State := { s.tick with agenda := rest }
    let s2 : State := { s1 with cur := .group gid sl }
    s1.group? gid = some g → s1.mayIssue gid g sl = true →
    (gid.isDebug = true ∨
      (s1.occupied gid g sl = none ∧ s1.bptHit g sl = false ∧ stubAt s1 g.ctx (g.slot sl).pc = none)) →
    fetchWord s2 gid (g.slot sl).pc = .ok w → decodeWord w = i → (g.atEnd sl = false ∨ (upperScope i).isSome = true) →
    step s =
      if gid.isDebug then exec i (s2.settleScalars gid sl w)
      else Out.slotEnd (exec i (s2.settleScalars gid sl w)) s1 g.core g.quad (some (gid, g, sl))) ∧
  (∀ (s : State) (gid : GroupId) (sl : SlotId) w, let t := s.settleScalars gid sl w
    { t with ledger := s.ledger } = s ∧ t.ledger.writes = s.ledger.writes ∧
    ∀ k y x, (∃ l ∈ t.ledger.loads, l.dest = some (k, y, x)) ↔
      (∃ l ∈ s.ledger.loads, l.dest = some (k, y, x)) ∧ ¬ (k = gid ∧ y = sl ∧ usesScalar w x = true)) ∧
  (∀ (s : State), (∀ l ∈ s.ledger.loads, l.dest = none ∨ l.value = none) → s.tick.groups = s.groups) ∧
  (∀ (s t : State) core quad who,
    let u := s.slotEnd t core quad who none
    { u with cores := t.cores } = t ∧ (∀ c, c ≠ core → u.core c = t.core c) ∧
    { u.core core with
      tdc := (t.core core).tdc, passing := (t.core core).passing, periods := (t.core core).periods
      sampled := (t.core core).sampled } = t.core core ∧
    ∃ leaf < 18, ∀ n, ((u.core core).tdc.find n).getD 0 =
      ((t.core core).tdc.find n).getD 0 + if n = leaf ∨ n = 18 then 1 else 0)

/-- A stream's step runs the decoded instruction: when it is to move, has no baton to read, stands at no entry stub
and the bytes at its PC decode to `i`, the step is `exec i` with the stream as the issuer (R94, R96). A step takes the
event that the agenda names, with the number of the unit it names; that an agenda names what moves is the model's choice
(log 1). -/
def Obligations.StepRunsOthers : Prop :=
  (∀ (s : State) (q : SeqId) rest x w (i : Instr), s.tripped = false → s.agenda = .issue (.seq q) :: rest →
     let s2 : State := { s.tick with agenda := rest, cur := .seq q }
     s2.seq? q = some x → ((ownerOf (.seq q)).bind (fun p => s2.nextBaton p x.read)) = none →
     stubAt s2 x.ctx x.own.pc = none → fetchIn s2 x.ctx x.own.pc = .ok w → decodeWord w = i → step s = exec i s2) ∧
  (∀ (s : State) e n rest, s.tripped = false → s.agenda = .event e n :: rest →
     step s = exec e { s.tick with agenda := rest, cur := .none, sel := n })

/-- In thermal trip nothing moves but a reset, which recovers the part (R10). -/
def Obligations.ThermalTripStops : Prop :=
  ∀ (s : State), s.tripped = true →
    ((∀ n rest, s.agenda ≠ .event .reset n :: rest) → step s = .fault .thermalTrip) ∧
    (∀ n rest, s.agenda = .event .reset n :: rest → ∃ t, step s = .next t ∧ t.tripped = false)

/-- The order of R73: ranks compare as R73 lists its keys (urgent, stage awaited, fewest issued, oldest, group number,
slot number). The group that a quadrant chooses is one of its groups that may issue, and no other one that may goes before
it; with none that may, none is chosen. Of two slots of a group that would issue, the one that has issued less recently goes
(R109); that a slot whose word would wait again gives way is the model's reading (log 136). An issue slot of a quadrant issues the group chosen; with none, the slot passes.
That an agenda names the quadrant is the model's choice (log 1). -/
def Obligations.IssueOrder : Prop :=
  (∀ (s : State) k g k' g', lexLt (s.rank k g) (s.rank k' g') = true ↔ s.Before k g k' g') ∧
  (∀ (s : State) core quad,
    let may (e : GroupId × Group) : Prop :=
      e ∈ s.groupsIn core quad ∧ e.2.halted = false ∧ e.2.dhalt = false ∧ s.readyGroup e.1 e.2 = true
    (∀ k sl, s.chosen core quad = some (k, sl) →
      ∃ g, may (k, g) ∧ s.nextSlot k g = some sl ∧ ∀ e, may e → ¬ s.Before e.1 e.2 k g) ∧
    (s.chosen core quad = none → ∀ e, ¬ may e)) ∧
  (∀ (s : State) k (g : Group), g.split = true → s.stepper k = none →
    let old : SlotId := if g.lastB then .a else .b
    let new : SlotId := if g.lastB then .b else .a
    (s.goes k g old = true → s.nextSlot k g = some old) ∧
    (s.goes k g old = false → s.goes k g new = true → s.nextSlot k g = some new)) ∧
  (∀ (s : State) core quad rest, s.tripped = false → s.agenda = .slot core quad :: rest →
    let s1 : State := { s.tick with agenda := rest }
    s1.absentCore core = false →
    (∀ k sl t, s1.chosen core quad = some (k, sl) → s1.issueGroup k sl = .next t →
      step s = .next (t.retryAll core quad (some k))) ∧
    (s1.chosen core quad = none → step s = .next ((s1.slotEnd s1 core quad none none).retryAll core quad none)))

/-- A word that fails a check of R269 changes nothing but what the fault itself does: its group takes the fault,
precise at the word. A word outside the opcode map or with a nonzero reserved field raises the illegal-instruction
fault, or the illegal-scope fault of its field, at the group that issues it, and changes nothing else (R245, R265,
R268, R269); a word of the matrix unit has issued all the same (R82). -/
def Obligations.ChecksStop : Prop :=
  (∀ (i : Instr) (s : State) (gid : GroupId) (sl : SlotId) (g : Group) c, (encodeWord i).isSome = true → (∀ w,
    i ≠ .unassignedOpcode w) → upperScope i = none →
     Stopped i s gid sl g c →
     (matrixOp i = false → Faults i s gid sl g (c.atScope i)) ∧ (matrixOp i = true → MatrixFaults i s gid sl g (c.atScope i))) ∧
  (∀ w (s : State) (gid : GroupId) (sl : SlotId) (g : Group), decodeWord w = .unassignedOpcode w →
    wordScope w = none → s.cur = .group gid sl →
     s.group? gid = some g →
     ∃ r, Faults (.unassignedOpcode w) s gid sl g r ∧ (r.code = 1 ∨ r.code = 2) ∧ r.dmask = 0 ∧ r.addr = 0 ∧
       r.mrp = false)

/-! ### Faults, traps and returns -/

/-- Taking a fault or trap (R191, R197): a group of a team, with room on its stack in hardware, fewer than 3 trap
entries and a handler, pushes a trap entry with the stopped word's PC and lanes, the other slot's, the slot, the
status and the record, whose MRP says whether mrp holds a restart point (R193) and is not raised for a non-uniform branch
(R381), and goes on unsplit in slot A at tvec with the lanes of the stopped slot; every other group of the team will stop within 8 of its own words (R197). Its s, c, mode, p, h and v registers, FLAGS and stack below the
entry stay. -/
def Obligations.TakeFault : Prop :=
  ∀ (s : State) (gid : GroupId) (sl : SlotId) r (pc : PC) (g : Group) (t : Team), gid.isDebug = false →
    s.group? gid = some g → s.team? gid.teamKey = some t → s.stepper gid = none →
    (sl = .b → g.b.isSome = true) → g.hw.length < 8 → g.spilled = [] → g.tdepth < 3 → t.tvec ≠ 0 → t.marks = [] →
    (s.core g.core).frozen = none → s.Landed gid →
    ∃ (G : Group), (s.takeStop gid sl r pc).group? gid = some G ∧
      (∃ e, G.hw = e :: g.hw ∧ e = .trap pc (g.lanes sl) (((g.otherSlot sl).map (·.pc)).getD 0) (g.otherSlot sl).isSome
        (((g.otherSlot sl).map (·.mask)).getD 0) sl g.status { r with mrp := r.mrp || (r.code != 0x03#8 && g.mrp.getLsbD 4) } g.outer
        ((g.otherSlot sl).map (fun o => { o with hold := none, sent := false }))) ∧
      G.split = false ∧ (G.slot .a).pc = toPC t.tvec ∧ G.lanes .a = g.lanes sl ∧ (G.slot .a).fork = (g.slot sl).fork ∧
      G.p = g.p ∧ G.elected = g.elected ∧ G.h = g.h ∧ G.v = g.v ∧ G.flags = g.flags ∧ G.spilled = g.spilled ∧
        G.wb = g.wb ∧
      G.halted = false ∧ G.wait = none ∧
      (∀ k x, k ≠ gid → k.teamKey = gid.teamKey → s.group? k = some x →
        ∃ y n, (s.takeStop gid sl r pc).group? k = some y ∧ y.skidLeft = some n ∧ n ≤ 8 ∧ y.skid = 0 ∧
          (y.halted = true ↔ x.halted = true ∨ n = 0) ∧
          y.haltPc = (x.slot (if x.lastB && x.split then .b else .a)).pc ∧
          { y with skidLeft := x.skidLeft, skid := x.skid, halted := x.halted, haltPc := x.haltPc } = x) ∧
      (∀ k, k.teamKey ≠ gid.teamKey → (s.takeStop gid sl r pc).group? k = s.group? k) ∧
      s.SameMemory (s.takeStop gid sl r pc)

/-- When the stack holds 256 entries, three trap entries, or the team has no handler, the fault kills the group's grid
(R111, R194, R199). A group of a frozen tile takes its fault after the restore (R200): until then it holds it, as the model
has it (log 80). A fault of a debug core stops it: DERR is set, and its group and every byte stay as they are
(R210). -/
def Obligations.FaultEnds : Prop :=
  (∀ (s : State) (gid : GroupId) (sl : SlotId) r (pc : PC) (g : Group) (t : Team), gid.isDebug = false →
    s.group? gid = some g → s.team? gid.teamKey = some t →
     (256 ≤ g.depth ∨ 3 ≤ g.tdepth ∨ t.tvec = 0) → (s.core g.core).frozen = none →
     s.takeStop gid sl r pc = s.killGrid gid.grid ∧
     ∀ n x, s.grid? gid.grid = some x → (s.killGrid gid.grid).grid? gid.grid = none ∧
       (n ∈ ((s.killGrid gid.grid).queue x.queue).grids → n ≠ gid.grid)) ∧
  (∀ (s : State) (gid : GroupId) (sl : SlotId) r (pc : PC) (g : Group) (t : Team), gid.isDebug = false →
    s.group? gid = some g → s.team? gid.teamKey = some t →
     ((s.core g.core).frozen ≠ none → s.takeStop gid sl r pc = s.setGroup gid { g with wait := some (.stop none sl r pc) }) ∧
     (g.wait = some (.stop none sl r pc) →
       s.retakeStop none gid = (s.setGroup gid { g with wait := none }).takeStop gid sl r pc)) ∧
  (∀ (s : State) (gid : GroupId) (sl : SlotId) r (pc : PC), gid.isDebug = true →
     ((s.takeStop gid sl r pc).mailbox gid.gang).derr = true ∧ (s.takeStop gid sl r pc).groups = s.groups ∧
     s.SameMemory (s.takeStop gid sl r pc))

/-- `tret` pops the top trap entry and gives the group its PC, its lanes, its other slot and the slot that the entry
names back, with FLAGS, PARK and DHALT of the entry's status; s, c and mode keep the issuing slot's fork, and p, h and v
registers stay (R195). A status with a reserved bit set faults, and so does any other top entry. -/
def Obligations.TrapReturn : Prop :=
  ∀ (s : State) (gid : GroupId) (sl : SlotId) (g : Group), Issues .tret s gid sl g →
    (gid.isDebug = false ∨ (s.dbg gid.gang).prog = none) →
    (∀ (pc : PC) m opc split om slot st r outer other rest,
      g.hw = .trap pc m opc split om slot st r outer other :: rest →
      (st &&& 0xFFFFFE00#32 = 0#32 → g.spilled = [] → s.stepper gid = none → s.Landed gid →
        let back : SlotId := if split && slot == .b then .b else .a
        ∃ (u : State) (G : Group), exec .tret s = .next u ∧ u.group? gid = some G ∧ G.hw = rest ∧
          (G.slot back).pc = pc ∧ G.lanes back = m ∧
          G.split = split ∧
          (split = true → (G.otherSlot back).map (fun o => (o.pc, o.mask, o.parked)) = some (opc, om, st.getLsbD 5)) ∧
          G.flags = st.extractLsb' 0 5 ∧ G.dhalt = st.getLsbD 8 ∧ (G.slot back).fork.s = (g.slot sl).fork.s ∧
          (G.slot back).fork.c = (g.slot sl).fork.c ∧ G.mode back = g.mode sl ∧ G.p = g.p ∧ G.h = g.h ∧ G.v = g.v ∧
          s.SameMemory u) ∧
      (st &&& 0xFFFFFE00#32 ≠ 0#32 → Faults .tret s gid sl g (illegal 7).record)) ∧
    ((g.hw = [] ∨ ∃ e rest, g.hw = e :: rest ∧ (e.kind = 0 ∨ e.kind = 1)) →
      (∀ k b rest, g.hw ≠ .bad k b :: rest) → Faults .tret s gid sl g (illegal 6).record)

/-- A group that takes a fault and returns at once by `tret` stands where it stood: the same PC, lanes, other slot,
FLAGS and stack, and the same s, c, mode, p, h and v registers (R190, R191, R195). -/
def Obligations.FaultThenReturn : Prop :=
  ∀ (s : State) (gid : GroupId) (sl : SlotId) r (g : Group) (t : Team) (G : Group) (u : State),
    gid.isDebug = false → s.group? gid = some g → s.team? gid.teamKey = some t → s.stepper gid = none →
    (sl = .b → g.b.isSome = true) → g.hw.length < 8 → g.spilled = [] → g.tdepth < 3 → t.tvec ≠ 0 → t.marks = [] →
    (s.core g.core).frozen = none → s.Landed gid →
    let s1 : State := { s.takeStop gid sl r (g.slot sl).pc with cur := .group gid .a }
    s1.group? gid = some G → groupCheck s1 gid .a G .tret = none → exec .tret s1 = .next u →
    ∃ (H : Group), u.group? gid = some H ∧ H.lanes .a = g.lanes .a ∧ (H.slot .a).pc = (g.slot .a).pc ∧
      H.b.map (fun o => (o.pc, o.mask)) = g.b.map (fun o => (o.pc, o.mask)) ∧ H.flags = g.flags ∧ H.hw = g.hw ∧
      (H.slot sl).fork.s = (g.slot sl).fork.s ∧ (H.slot sl).fork.c = (g.slot sl).fork.c ∧ H.mode sl = g.mode sl ∧
      H.p = g.p ∧ H.h = g.h ∧ H.v = g.v

/-- `trap` takes the trap of code 0x10 whose detail is its low 8 bits, after the word: the entry's PC is the next word
(R280, R190); in a handler a `trap` of 0xFF kills the grid (R199, R280). `brk` takes the trap of code 0x11 while no
debugger attaches the group's context, and otherwise halts the group at the word, with a TYPE 2 record in the inbox
(R215, R280); a step that meets it ends without a record of its own (R390). The debug core attached is the one that steps
the group, or else that of the group's die: the model's choice (log 62). -/
def Obligations.TrapWords : Prop :=
  ∀ (s : State) (gid : GroupId) (sl : SlotId) (g : Group),
    (∀ c, Issues (.trap c) s gid sl g → (g.tdepth = 0 ∨ c ≠ 0xFF#24) →
      exec (.trap c) s = .next ((s.setGroup gid (g.retire sl (g.slot sl).pc)).takeStop gid sl
        (Cause.record ⟨0x10, c.extractLsb' 0 8⟩) (g.slot sl).pc.next)) ∧
    (Issues (.trap 0xFF#24) s gid sl g → 0 < g.tdepth → exec (.trap 0xFF#24) s = .next (s.killGrid gid.grid)) ∧
    (Issues .brk s gid sl g →
      (g.ctx = 0 ∨ ((s.dbg (dieOfCore g.core)).dctx.toNat ≠ g.ctx ∧
        ∀ d sl', s.stepper gid = some (d, sl') → (s.dbg d).dctx.toNat ≠ g.ctx)) →
      exec .brk s = .next ((s.setGroup gid (g.retire sl (g.slot sl).pc)).takeStop gid sl
        (Cause.record ⟨0x11, 0⟩) (g.slot sl).pc.next)) ∧
    (Issues .brk s gid sl g → g.ctx ≠ 0 → (s.dbg (dieOfCore g.core)).dctx.toNat = g.ctx → s.stepper gid = none →
      ∃ t, exec .brk s = .next t ∧ s.SameMemory t ∧
        t = (s.setGroup gid { g with dhalt := true, kind := .brk, haltPc := (g.slot sl).pc, stopPc := (g.slot sl).pc }).inboxPut (dieOfCore g.core)
          g.ctx (stopRecord s gid g sl 2 (g.slot sl).pc 0x11 0 0)) ∧
    (∀ d sl', Issues .brk s gid sl g → g.ctx ≠ 0 → s.stepper gid = some (d, sl') → (s.dbg d).dctx.toNat = g.ctx →
      ∃ t, exec .brk s = .next t ∧ s.SameMemory t ∧
        t.group? gid = some { g with dhalt := true, kind := .brk, haltPc := (g.slot sl).pc, stopPc := (g.slot sl).pc } ∧ (∀ x ∈ (t.dbg d).steps, x.1 ≠ gid) ∧
        (stopsIn (s.dbg d).inbox < 32 → (t.dbg d).inbox =
          (s.dbg d).inbox ++ [.stop (stopRecord s gid g sl 2 (g.slot sl).pc 0x11 0 0)]))

/-- What retiring a word does (R73, R109, R215): the slot's PC moves, the issue count rises and saturates, the slot is
the last that issued and the skip bit clears; every register stays. A word that has issued before it retires does none of this a
second time (R73, R127). A group that its team's broadcast has struck counts
the word in its skid, and halts when no word is left to it, with the PC at which it stands (R197). A word that waits to be tried
again has not issued; one that waits for its answer has, once, however often it is sent (R73, R109). -/
def Obligations.RetireEffect : Prop :=
  ∀ (s : State) (gid : GroupId) (sl : SlotId) (g : Group) (dest : PC), s.group? gid = some g → (sl = .b →
    g.b.isSome = true) → s.stepper gid = none →
    (gid.isDebug = false ∨ (s.dbg gid.gang).prog = none) →
    (∃ (G : Group), s.retire gid sl dest = s.setGroup gid G ∧ (G.slot sl).pc = dest ∧
      { G.slot sl with pc := (g.slot sl).pc, hold := (g.slot sl).hold, sent := (g.slot sl).sent } = g.slot sl ∧
      (G.slot sl).hold = none ∧ (G.slot sl).sent = false ∧ G.otherSlot sl = g.otherSlot sl ∧ G.wait = none ∧
      ((g.slot sl).sent = false →
        G.issued.toNat = min (g.issued.toNat + 1) (2 ^ 32 - 1) ∧ G.lastB = (sl == .b) ∧ G.skip = none ∧
        (g.skidLeft = none ∨ g.skidLeft = some 0 →
          G.skidLeft = g.skidLeft ∧ G.skid = g.skid ∧ G.haltPc = g.haltPc ∧ G.halted = g.halted) ∧
        (∀ n, g.skidLeft = some (n + 1) → G.skidLeft = some n ∧ G.skid = g.skid + 1 ∧ G.haltPc = dest ∧
          G.halted = (g.halted || n == 0))) ∧
      ((g.slot sl).sent = true →
        { G with a := g.a, b := g.b, wait := g.wait, haltPc := g.haltPc } = g ∧
        G.haltPc = if g.skidLeft.isSome && !g.halted then dest else g.haltPc) ∧
      { G with a := g.a, b := g.b, issued := g.issued, lastB := g.lastB, skip := g.skip, wait := g.wait, skid := g.skid
               skidLeft := g.skidLeft, haltPc := g.haltPc, halted := g.halted } = g) ∧
    (∀ w, w.retries = true → g.waitIn sl w = { g with wait := some w }) ∧
    (∀ w, w.retries = false → let G := g.waitIn sl w
      (G.slot sl).sent = true ∧ (G.slot sl).pc = (g.slot sl).pc ∧
      ((g.slot sl).sent = true → G.issued = g.issued ∧ G.lastB = g.lastB ∧ G.skip = g.skip ∧ G.skid = g.skid) ∧
      ((g.slot sl).sent = false → G.issued.toNat = min (g.issued.toNat + 1) (2 ^ 32 - 1) ∧ G.lastB = (sl == .b) ∧ G.skip = none ∧
        ∀ n, g.skidLeft = some (n + 1) → G.skid = g.skid + 1 ∧ G.skidLeft = some n))

/-! ### Scalar words -/

/-- A scalar source names s0 to s31 of the issuing slot's fork, or a w, g or d register of the baton snapshot (R246,
R247). The scalar words of two sources write the result of R289 into S[d] of the issuing slot's fork, modulo 2^64, and
change nothing else: no mode is read, no FLAGS are set (R288, R289). The scalar words with an immediate (R292):
`saddi`, `li` and `lcat`. -/
def Obligations.ScalarArithmetic : Prop :=
  (∀ (g : Group) (sl : SlotId) (n : BitVec 6),
     (n.toNat < 32 → g.readS sl n = (g.slot sl).fork.s[n.toNat]?.getD 0) ∧
     (32 ≤ n.toNat → n.toNat < 48 → g.readS sl n = g.view.w[n.toNat - 32]?.getD 0) ∧
     (48 ≤ n.toNat → n.toNat < 56 → g.readS sl n = g.view.g[n.toNat - 48]?.getD 0) ∧
     (56 ≤ n.toNat → g.readS sl n = g.view.d[n.toNat - 56]?.getD 0)) ∧
  (∀ (i : Instr) d a b f (s : State) (gid : GroupId) (sl : SlotId) (g : Group), scalarForm i = some (d, a, b, f) →
    Issues i s gid sl g →
     ∃ (G : Group), Completes i s gid sl g G ∧ G.readS sl d = f (g.readS sl a) (g.readS sl b) ∧
       g.Kept G sl { s := [d.toNat] }) ∧
  (∀ (s : State) (gid : GroupId) (sl : SlotId) (g : Group),
     (∀ d a (n : BitVec 11), Issues (.saddi d a n) s gid sl g → ∃ (G : Group), Completes (.saddi d a n) s gid sl g G ∧
       G.readS sl d = BitVec.ofInt 64 ((g.readS sl a).toInt + n.toInt) ∧ g.Kept G sl { s := [d.toNat] }) ∧
     (∀ d (n : BitVec 18), Issues (.li d n) s gid sl g → ∃ (G : Group), Completes (.li d n) s gid sl g G ∧
       G.readS sl d = BitVec.ofInt 64 n.toInt ∧ g.Kept G sl { s := [d.toNat] }) ∧
     (∀ d (n : BitVec 18), Issues (.lcat d n) s gid sl g → ∃ (G : Group), Completes (.lcat d n) s gid sl g G ∧
       G.readS sl d = BitVec.ofNat 64 ((g.readS sl d).toNat * 2 ^ 18 + n.toNat) ∧ g.Kept G sl { s := [d.toNat] }))

/-- Division truncates toward zero and a signed remainder takes the sign of the dividend. By 0 the quotient is all
ones and the remainder is A; −2^63 by −1 gives −2^63 and 0. Neither case faults or sets a flag (R290). -/
def Obligations.ScalarDivision : Prop :=
  ∀ (i : Instr) d a b quo f (s : State) (gid : GroupId) (sl : SlotId) (g : Group), divisionForm i = some (d, a, b,
    quo, f) → Issues i s gid sl g →
    ∃ (G : Group), Completes i s gid sl g G ∧ g.Kept G sl { s := [d.toNat] } ∧ G.flags = g.flags ∧
      (g.readS sl b = 0 → G.readS sl d = if quo then 0xFFFF_FFFF_FFFF_FFFF#64 else g.readS sl a) ∧
      (g.readS sl b ≠ 0 → G.readS sl d = f (g.readS sl a) (g.readS sl b)) ∧
      (((∃ x y z, i = .sdiv x y z) ∨ ∃ x y z, i = .srem x y z) → (g.readS sl a).toInt = -2 ^ 63 →
        (g.readS sl b).toInt = -1 →
        (G.readS sl d).toInt = if quo then -2 ^ 63 else 0)

/-- The scalar compares write 1 or 0 into the group flag that d names, of the issuing slot's fork; any d of 4 to 63
raises the illegal-instruction fault with detail 2 (R291). -/
def Obligations.ScalarCompares : Prop :=
  ∀ (i : Instr) d a b f (s : State) (gid : GroupId) (sl : SlotId) (g : Group), compareForm i = some (d, a, b, f) →
    (Issues i s gid sl g →
      ∃ (G : Group), Completes i s gid sl g G ∧ G.readC sl d.toNat = f (g.readS sl a) (g.readS sl b) ∧
        g.Kept G sl { c := [d.toNat] }) ∧
    (4 ≤ d.toNat → s.cur = .group gid sl → s.group? gid = some g →
      Faults i s gid sl g (Cause.record ⟨0x01, 2⟩))

/-! ### Words of the upper scopes -/

/-- The owner of a scope executes a K word once: it writes D of its file from X and Y, where Y is a register or the
sign-extended immediate, and goes on at the next word; its other registers, its flags and its call stack stay, and so
does every group and every byte (R293, R294). The K compares write the scope's flag that d names, and nothing else of
the owner's (R294). An owner whose relay queue is full waits (R100). -/
def Obligations.ScopeArithmetic : Prop :=
  (∀ (i : Instr) sc d a imf b f l (s : State) (q : SeqId) (x : Seq), scopeForm i = some (sc, d, a, imf, b, f) →
    kLevel sc = some l → q.level = l →
     Owns i s q x →
     (8 ≤ x.queue.length → exec i s = .next s) ∧
     (x.queue.length < 8 →
     ∃ o : Owner, exec i s = .next (s.setSeq q { x with own := o }) ∧ s.SameMemory (s.setSeq q { x with own := o }) ∧
       o.reg d.toNat = f (x.own.reg a.toNat) (if imf then BitVec.ofInt 64 b.toInt else x.own.reg (b.toNat % 16)) ∧
       (∀ n, n ≠ d.toNat → o.reg n = x.own.reg n) ∧ o.pc = x.own.pc.next ∧ o.c = x.own.c ∧ o.stack = x.own.stack)) ∧
  (∀ (i : Instr) sc d a imf b f l (s : State) (q : SeqId) (x : Seq), scopeTest i = some (sc, d, a, imf, b, f) →
    kLevel sc = some l → q.level = l →
     Owns i s q x →
     (8 ≤ x.queue.length → exec i s = .next s) ∧
     (x.queue.length < 8 →
     ∃ o : Owner, exec i s = .next (s.setSeq q { x with own := o }) ∧ s.SameMemory (s.setSeq q { x with own := o }) ∧
       o.c.getLsbD d.toNat = f (x.own.reg a.toNat) (if imf then BitVec.ofInt 64 b.toInt else x.own.reg (b.toNat % 16)) ∧
       (∀ n < 4, n ≠ d.toNat → o.c.getLsbD n = x.own.c.getLsbD n) ∧ o.pc = x.own.pc.next ∧ o.regs = x.own.regs ∧
       o.stack = x.own.stack))

/-- The owner's own control words (R102, R272, R273, R276 to R278): a branch that is always taken or that tests a flag
of the scope, `call`, `ret` and `loop`. An owner whose relay queue is full waits (R100). A word of its scope that it cannot execute,
`call` on a full stack and `ret` on an empty one among them (R95), it does not execute, and it issues no baton beyond it: it brings
its members to the word, once (R295). -/
def Obligations.ScopeControl : Prop :=
  ∀ sc l (s : State) (q : SeqId) (x : Seq), bLevel sc = some l → q.level = l →
    (∀ i : Instr, ((∃ e c off, i = .br sc e c off ∧ 8 ≤ c.toNat) ∨ (∃ off, i = .call sc off) ∨ i = .ret sc ∨
      ∃ c off, i = .loop sc c off) → Owns i s q x → 8 ≤ x.queue.length → exec i s = .next s) ∧
    (x.queue.length < 8 →
    (∀ e c (off : BitVec 16), 8 ≤ c.toNat → Owns (.br sc e c off) s q x →
      exec (.br sc e c off) s = .next (s.setSeq q { x with own := { x.own with
        pc := if c.toNat = 15 ∨ x.own.c.getLsbD (c.toNat - 8) ≠ e then x.own.pc + BitVec.ofInt 57 (4 * off.toInt)
              else x.own.pc.next } })) ∧
    (∀ off : BitVec 16, Owns (.call sc off) s q x → x.own.stack.length < 32 ∧
      exec (.call sc off) s = .next (s.setSeq q { x with own := { x.own with
        stack := x.own.pc.next :: x.own.stack, pc := x.own.pc + BitVec.ofInt 57 (4 * off.toInt) } })) ∧
    (Owns (.ret sc) s q x → ∃ dest rest, x.own.stack = dest :: rest ∧
      exec (.ret sc) s = .next (s.setSeq q { x with own := { x.own with stack := rest, pc := dest } })) ∧
    (∀ (c : BitVec 5) (off : BitVec 16), Owns (.loop sc c off) s q x →
      ∃ o : Owner, exec (.loop sc c off) s = .next (s.setSeq q { x with own := o }) ∧
        o.reg c.toNat = x.own.reg c.toNat - 1 ∧ (∀ n, n ≠ c.toNat → o.reg n = x.own.reg n) ∧ o.c = x.own.c ∧
        o.stack = x.own.stack ∧
        o.pc = if x.own.reg c.toNat = 1 then x.own.pc.next else x.own.pc + BitVec.ofInt 57 (4 * off.toInt))) ∧
    (∀ off, 32 ≤ x.own.stack.length → ownerStop x (.call sc off) = some (badScope 2)) ∧
    (x.own.stack = [] → ownerStop x (.ret sc) = some (badScope 3)) ∧
    (∀ i w, upperScope i = some l → s.cur = .seq q → s.seq? q = some x → x.runs q = true → s.seqHeld q = false →
      (ownerStop x i).isSome = true → stubAt s x.ctx x.own.pc = none → fetchIn s x.ctx x.own.pc = .ok w → decodeWord w = i →
      ∃ (t : State) (y : Seq), exec i s = .next t ∧ t.seq? q = some y ∧ s.SameMemory t ∧ y.own = x.own ∧
        y.queue.length ≤ x.queue.length + 1 ∧ (∀ b ∈ y.queue, b ∈ x.queue ∨ (b.baton.empty = true ∧ b.baton.pc = x.own.pc)) ∧
        (x.lastEnd = some x.own.pc → y = x))

/-- The decision of a branch on a predicate, once every member has posted (R103, R273): when the lanes that posted
agree it is taken exactly when the agreed value XOR sense is true, and not taken when no lane posted; every member
then waits for the next baton. When they do not, every member takes the non-uniform-branch fault at the branch, and
the owner stays where it is. -/
def Obligations.ScopeBranch : Prop :=
  ∀ sc l e c (off : BitVec 16) (s : State) (q : SeqId) (x : Seq) ps, bLevel sc = some l → q.level = l → c.toNat < 8 →
    Owns (.br sc e c off) s q x → s.posted q x.own.pc = some ps →
    let act : Nat := (ps.map (fun p => p.2.2.active)).sum
    let tru : Nat := (ps.map (fun p => p.2.2.true_)).sum
    ∃ t, exec (.br sc e c off) s = .next t ∧
      ((tru = 0 ∨ tru = act) →
        (t.seq? q).map (·.own) = some { x.own with
          pc := if 0 < act ∧ (decide (tru = act)) ≠ e then x.own.pc + BitVec.ofInt 57 (4 * off.toInt) else x.own.pc.next } ∧
        (∀ p ∈ ps, s.stepper p.1 = none → (t.group? p.1).map (fun g => (g.post, g.wait)) = some (none, some .baton)) ∧
        s.SameMemory t) ∧
      (tru ≠ 0 → tru ≠ act → ∃ ref : Bool,
        (tru * 2 ≠ act → ref = decide (act < tru * 2)) ∧
        (tru * 2 = act → ∀ p, ps.find? (fun p => decide (0 < p.2.2.active)) = some p → ref = p.2.2.first) ∧
        t = ps.foldl (fun (s : State) p => s.takeStop p.1 .a
            { (Cause.record ⟨0x03, 0⟩) with
              scope := sc, lane := BitVec.ofNat 6 (lowest (dissent p.2.1 c.toNat ref)),
                dmask := dissent p.2.1 c.toNat ref
              dcount := (ps.map (fun e => countOf (dissent e.2.1 c.toNat ref))).sum } x.own.pc)
          (ps.foldl (fun s p => s.modGroup p.1 (fun g => { g with post := none, wait := none })) s))

/-- A scope reduction, once every member has posted: D takes the extension of the members' values, combined in
ascending order from the identity, and the owner goes on at the next word; the members' posts are used (R296 to R298).
-/
def Obligations.ScopeReductions : Prop :=
  ∀ (s : State) (q : SeqId) (x : Seq) ps d a p y t h,
    s.posted q x.own.pc = some ps →
    (∀ (i : Instr), (i = .wred d a p y t h ∧ q.level = .team) ∨ (i = .gred d a p y t h ∧ q.level = .gang) ∨
        (i = .dred d a p y t h ∧ q.level = .grid) → Owns i s q x →
      ∃ (u : State) (o : _), exec i s = .next u ∧ (u.seq? q).map (·.own) = some o ∧
        o.reg d.toNat = extendRed (RedTy.ofScope y) (nested p.toNat (RedTy.ofScope y) q.level ps) ∧
        (q.level = .team → o.reg d.toNat = extendRed (RedTy.ofScope y)
          ((ps.map (fun e => e.2.2.value)).foldl (combine p.toNat (RedTy.ofScope y)) (identity p.toNat (RedTy.ofScope y)))) ∧
        (∀ n, n ≠ d.toNat → o.reg n = x.own.reg n) ∧ o.pc = x.own.pc.next ∧ o.c = x.own.c ∧ o.stack = x.own.stack ∧
        (∀ e ∈ ps, (u.group? e.1).map (fun g => (g.post, g.wait)) = some (none, some .baton) ∨ s.stepper e.1 ≠ none) ∧
        s.SameMemory u)

/-- A group at a word of an upper scope (R101, R106, R210, R267, R283, R392): the debug core takes the
illegal-instruction fault, a spawned group the illegal-scope fault with detail 8, a launch group that is not at the
end address of its baton detail 9, and one that is split there, or has a divergence entry of that baton, detail 5; in
each case the word has no other effect. A launch group at the end of its baton, at the word where its owner stands
with all its batons ended, posts its contribution to a branch on a predicate: the count of its lanes and of those
whose predicate is set, without the guard; it then waits for the decision (R102), while in a handler it posts nothing and waits
(R382). At a word that its owner cannot execute every member takes the word's fault, precisely at it: the call stack's (R95), that
of a scope flag above 3 (R295), and every other. The order of these checks, and the SCOPE of the record, are the model's reading
(log 52, log 19). -/
def Obligations.GroupAtUpperWord : Prop :=
  (∀ (i : Instr) l (s : State) (gid : GroupId) (sl : SlotId) (g : Group), (encodeWord i).isSome = true →
    upperScope i = some l → s.cur = .group gid sl → s.group? gid = some g →
     (gid.isDebug = true → Faults i s gid sl g ((illegal 1).atScope i)) ∧
     (gid.isDebug = false → g.spawned = true → Faults i s gid sl g ((badScope 8).atScope i)) ∧
     (gid.isDebug = false → g.spawned = false → ∀ e, g.viewEnd = some e →
       (e ≠ (g.slot sl).pc → Faults i s gid sl g ((badScope 9).atScope i)) ∧
       (e = (g.slot sl).pc → (g.split = true ∨ g.batDiv < g.divDepth) →
         Faults i s gid sl g ((badScope 5).atScope i)))) ∧
  (∀ sc l e c (off : BitVec 16) (s : State) (gid : GroupId) (sl : SlotId) (g : Group) x, bLevel sc = some l →
    c.toNat < 8 → gid.isDebug = false → g.spawned = false →
     s.cur = .group gid sl → s.group? gid = some g → g.viewEnd = some (g.slot sl).pc → g.split = false →
     g.divDepth ≤ g.batDiv → g.post = none → (s.nextBaton (streamOf gid g) g.read).isSome = false →
     reach s (g.slot sl).pc l (chainUp (streamOf gid g) l) = .here ((streamOf gid g).atLevel l) x →
     (0 < g.tdepth → ownerStop x (.br sc e c off) = none →
       exec (.br sc e c off) s = .next (s.setGroup gid { g with wait := some .baton })) ∧
     (g.tdepth = 0 → allEnd s (g.slot sl).pc (chainUp (streamOf gid g) l) = true → ownerStop x (.br sc e c off) = none →
     ∃ p, exec (.br sc e c off) s = .next (s.setGroup gid { g with post := some p, wait := some .post }) ∧
       p.pc = (g.slot sl).pc ∧ p.active = countOf (g.lanes sl) ∧ p.true_ = countOf (g.lanes sl &&& g.readP c.toNat) ∧
       p.first = (g.readP c.toNat).getLsbD (lowest (g.lanes sl)) ∧
       s.SameMemory (s.setGroup gid { g with post := some p, wait := some .post }))) ∧
  (∀ (i : Instr) l (s : State) (gid : GroupId) (sl : SlotId) (g : Group) q x, upperScope i = some l → gid.isDebug = false →
     g.spawned = false → s.cur = .group gid sl → s.group? gid = some g → g.viewEnd = some (g.slot sl).pc → g.split = false →
     g.divDepth ≤ g.batDiv → g.post = none → (s.nextBaton (streamOf gid g) g.read).isSome = false →
     reach s (g.slot sl).pc l (chainUp (streamOf gid g) l) = .here q x →
     (∀ sc off, i = .call sc off → 32 ≤ x.own.stack.length → Faults i s gid sl g ((badScope 2).atScope i)) ∧
     (∀ sc, i = .ret sc → x.own.stack = [] → Faults i s gid sl g ((badScope 3).atScope i)) ∧
     (∀ sc d a imf b f, scopeTest i = some (sc, d, a, imf, b, f) → 4 ≤ d.toNat → Faults i s gid sl g ((illegal 2).atScope i)) ∧
     (∀ c, ownerStop x i = some c → Faults i s gid sl g (c.atScope i)))

/-! ### Control words of a group -/

/-- A lane-scope branch on a predicate (R108, R110, R112, R273): no lane taken falls through, all lanes taken jump.
Otherwise an unsplit group splits: slot A goes on at the target with the taken lanes, slot B stands at the next word
with the others, parked when the predicate is elected, and both have the s, c and mode registers. A slot of a split
group keeps its taken lanes and pushes a divergence entry for the others. -/
def Obligations.LaneBranch : Prop :=
  ∀ e c (off : BitVec 16) (s : State) (gid : GroupId) (sl : SlotId) (g : Group), c.toNat < 8 →
    Issues (.br 0 e c off) s gid sl g →
    let i : Instr := .br 0 e c off
    let dest : PC := (g.slot sl).pc + BitVec.ofInt 57 (4 * off.toInt)
    let taken (l : Nat) : Bool := (g.lanes sl).getLsbD l && ((g.readP c.toNat).getLsbD l != e)
    let other (l : Nat) : Bool := (g.lanes sl).getLsbD l && ((g.readP c.toNat).getLsbD l == e)
    ((∀ l < 64, taken l = false) → Completes i s gid sl g g) ∧
    ((∃ l < 64, taken l = true) → (∀ l < 64, other l = false) → Jumps i s gid sl g dest) ∧
    ((∃ l < 64, taken l = true) → (∃ l < 64, other l = true) → g.split = false →
      ∃ (G : Group) (b : _), Jumps i s gid sl G dest ∧ G.b = some b ∧ (∀ l < 64, (G.lanes .a).getLsbD l = taken l) ∧
        (∀ l < 64, b.mask.getLsbD l = other l) ∧ b.pc = (g.slot sl).pc.next ∧ b.parked = g.elected.getLsbD c.toNat ∧
        b.fork.s = g.a.fork.s ∧ b.fork.c = g.a.fork.c ∧ b.fork.mode = g.a.fork.mode ∧ (G.slot .a).fork.s = g.a.fork.s ∧
        (G.slot .a).fork.c = g.a.fork.c ∧ G.mode .a = g.mode .a ∧ { G with a := g.a, b := g.b, outer := g.outer } = g) ∧
    ((∃ l < 64, taken l = true) → (∃ l < 64, other l = true) → g.split = true → g.hw.length < 8 → g.spilled = [] →
      ∃ (G : Group) (n : _), Jumps i s gid sl G dest ∧ (∀ l < 64, (G.lanes sl).getLsbD l = taken l) ∧ (∀ l < 64,
        n.getLsbD l = other l) ∧
        G.hw = .div (g.slot sl).pc.next n (g.lanes sl) sl false (g.slot sl).fork (g.slot sl).fork.marks :: g.hw ∧
        (G.slot sl).fork.s = (g.slot sl).fork.s ∧ (G.slot sl).fork.c = (g.slot sl).fork.c ∧ G.mode sl = g.mode sl ∧
        G.otherSlot sl = g.otherSlot sl ∧ { G with a := g.a, b := g.b, hw := g.hw } = g)

/-- A group-scope branch (R105, R272, R273): always, on a flag of the slot's fork, or on a predicate in which the
slot's lanes agree; lanes that do not agree raise the non-uniform-branch fault in this group alone, with the lanes
that differ from the greater number, or from the lowest lane on equal numbers. -/
def Obligations.GroupBranch : Prop :=
  ∀ e c (off : BitVec 16) (s : State) (gid : GroupId) (sl : SlotId) (g : Group), Issues (.br 1 e c off) s gid sl g →
    let i : Instr := .br 1 e c off
    let dest : PC := (g.slot sl).pc + BitVec.ofInt 57 (4 * off.toInt)
    let m := g.lanes sl
    let t := g.lanes sl &&& g.readP c.toNat
    (c.toNat = 15 → Jumps i s gid sl g dest) ∧
    (8 ≤ c.toNat → c.toNat < 12 → g.readC sl (c.toNat - 8) ≠ e → Jumps i s gid sl g dest) ∧
    (8 ≤ c.toNat → c.toNat < 12 → g.readC sl (c.toNat - 8) = e → Completes i s gid sl g g) ∧
    (c.toNat < 8 → m = 0 → Completes i s gid sl g g) ∧
    (c.toNat < 8 → m ≠ 0 → (t = m ∨ t = 0) → decide (t = m) ≠ e → Jumps i s gid sl g dest) ∧
    (c.toNat < 8 → m ≠ 0 → (t = m ∨ t = 0) → decide (t = m) = e → Completes i s gid sl g g) ∧
    (c.toNat < 8 → t ≠ m → t ≠ 0 →
      let ref : Bool := if countOf t * 2 = countOf m then t.getLsbD (lowest m) else decide (countOf m < countOf t * 2)
      let d : Mask := if ref then m &&& ~~~ t else t
      Faults i s gid sl g { (Cause.record ⟨0x03, 0⟩) with
        scope := 1, lane := BitVec.ofNat 6 (lowest d), dcount := countOf d, dmask := d })

/-- `call`, `ret` and `loop` at group scope (R111, R276 to R278): `call` pushes the next word and the slot's lanes;
`ret` pops a call entry of its slot and goes there, ends a group whose stack is empty and that is not split, and
otherwise faults; `loop` counts S[c] of the slot's fork down and jumps while it is not 0. -/
def Obligations.GroupCalls : Prop :=
  ∀ (s : State) (gid : GroupId) (sl : SlotId) (g : Group),
    (∀ off : BitVec 16, Issues (.call 1 off) s gid sl g → g.hw.length < 8 → g.spilled = [] →
      Jumps (.call 1 off) s gid sl { g with hw := .call (g.slot sl).pc.next (g.lanes sl) sl :: g.hw }
        ((g.slot sl).pc + BitVec.ofInt 57 (4 * off.toInt))) ∧
    (∀ dest m rest, Issues (.ret 1) s gid sl g → g.hw = .call dest m sl :: rest → g.spilled = [] →
      Jumps (.ret 1) s gid sl { g with hw := rest } dest) ∧
    (Issues (.ret 1) s gid sl g → g.hw = [] → g.split = false → gid.isDebug = false →
      ∃ t, exec (.ret 1) s = .next t ∧ t = s.finishGroup gid ∧ t.group? gid = none) ∧
    (∀ e rest, Issues (.ret 1) s gid sl g → ((g.hw = [] ∧ g.split = true) ∨ (g.hw = e :: rest ∧ e.kind ≠ 1) ∨
        (∃ dest m o, g.hw = .call dest m o :: rest ∧ o ≠ sl)) → (∀ k b rest, g.hw ≠ .bad k b :: rest) →
      Faults (.ret 1) s gid sl g { (Cause.record ⟨0x02, 3⟩) with scope := 1 }) ∧
    (∀ (c : BitVec 5) (off : BitVec 16), Issues (.loop 1 c off) s gid sl g →
      ∃ G : Group, g.Kept G sl { s := [c.toNat] } ∧
        G.readS sl (c.zeroExtend 6) = g.readS sl (c.zeroExtend 6) - 1 ∧
        (g.readS sl (c.zeroExtend 6) ≠ 1 →
          Jumps (.loop 1 c off) s gid sl G ((g.slot sl).pc + BitVec.ofInt 57 (4 * off.toInt))) ∧
        (g.readS sl (c.zeroExtend 6) = 1 → Completes (.loop 1 c off) s gid sl g G))

/-- `join` (R109, R110): with no divergence entry of the slot on top, an unsplit group goes on; a slot that comes
first waits at its `join` and the other slot, parked or not, may go on; the second to come to the same word merges the
lanes, and each register takes slot A's value when A wrote it or neither did, and B's when only B wrote it; at another
word it is the illegal-scope fault with detail 6. With such an entry the slot first runs the false half, and then goes
on with both halves' lanes, each register with the true half's value where that half wrote it. A waiting `join` has issued, and
counts (R73, R197). That a step onto a `join` that waits ends there is the model's choice (log 30), and so is that memory events of
both slots are from the merge on those of one (log 99). -/
def Obligations.JoinMerges : Prop :=
  ∀ (s : State) (gid : GroupId) (sl : SlotId) (g : Group), Issues .join s gid sl g →
    ((∀ (pc : PC) fm bm fr sv o rest, g.hw ≠ .div pc fm bm sl fr sv o :: rest) →
      (g.split = false → Completes .join s gid sl g g) ∧
      (∀ o, g.otherSlot sl = some o → o.atJoin = false →
        ∃ (G : Group), exec .join s = .next ((s.setGroup gid G).endStepOf gid sl) ∧
          G.slot sl = { g.slot sl with atJoin := true } ∧ G.otherSlot sl = some { o with parked := false } ∧
          G.wait = none ∧ G.issued.toNat = min (g.issued.toNat + 1) (2 ^ 32 - 1) ∧ G.lastB = (sl == .b) ∧
          (∀ n, g.skidLeft = some (n + 1) → G.skidLeft = some n ∧ G.skid = g.skid + 1 ∧ G.halted = (g.halted || n == 0)) ∧
          { G with a := g.a, b := g.b, issued := g.issued, lastB := g.lastB, skip := g.skip, wait := g.wait, skid := g.skid
                   skidLeft := g.skidLeft, haltPc := g.haltPc, halted := g.halted } = g) ∧
      (∀ o, g.otherSlot sl = some o → o.atJoin = true → o.pc ≠ (g.slot sl).pc →
        Faults .join s gid sl g (badScope 6).record) ∧
      (∀ o, g.otherSlot sl = some o → o.atJoin = true → o.pc = (g.slot sl).pc →
        let one : State := (s.perform (Loading.scalarOf gid)).joinLines gid
        ∃ (G : Group), exec .join s = .next (((one.setGroup gid G).stepIn gid .a).retire gid .a (g.slot sl).pc.next) ∧
          s.SameMemory one ∧ G.split = false ∧
          (∀ l < 64, (G.lanes .a).getLsbD l = ((g.lanes sl).getLsbD l || o.mask.getLsbD l)) ∧
          (∀ x y, g.b = some y → x = g.a →
            (∀ n < 32, (G.slot .a).fork.s[n]? =
              if y.fork.marks.s.getLsbD n && !x.fork.marks.s.getLsbD n then y.fork.s[n]? else x.fork.s[n]?) ∧
            (∀ n < 4, G.readC .a n =
              if y.fork.marks.c.getLsbD n && !x.fork.marks.c.getLsbD n then y.fork.c.getLsbD n else x.fork.c.getLsbD n) ∧
            G.mode .a = if y.fork.marks.m && !x.fork.marks.m then y.fork.mode else x.fork.mode) ∧
          { G with a := g.a, b := g.b, outer := g.outer } = g)) ∧
    (∀ (pc : PC) fm bm sv o rest, g.hw = .div pc fm bm sl false sv o :: rest →
      ∃ (G : Group), Jumps .join s gid sl G pc ∧ G.hw = .div pc fm bm sl true (g.slot sl).fork o :: rest ∧
        G.lanes sl = fm ∧
        (G.slot sl).fork.s = sv.s ∧ (G.slot sl).fork.c = sv.c ∧ G.mode sl = sv.mode ∧ G.otherSlot sl = g.otherSlot sl ∧
        { G with a := g.a, b := g.b, hw := g.hw } = g) ∧
    (∀ (pc : PC) fm bm sv o rest, g.hw = .div pc fm bm sl true sv o :: rest → g.spilled = [] →
      ∃ (G : Group), Completes .join s gid sl g G ∧ G.hw = rest ∧ G.lanes sl = bm ∧
        (∀ n < 32, (G.slot sl).fork.s[n]? = if sv.marks.s.getLsbD n then sv.s[n]? else (g.slot sl).fork.s[n]?) ∧
        (∀ n < 4, G.readC sl n = if sv.marks.c.getLsbD n then sv.c.getLsbD n else g.readC sl n) ∧
        G.mode sl = (if sv.marks.m then sv.mode else g.mode sl) ∧ G.otherSlot sl = g.otherSlot sl ∧
        { G with a := g.a, b := g.b, hw := g.hw } = g)

/-! ### Vector words -/

/-- The integer words of two sources, and `imad`, write the result of R306 under the mode TYPE and SAT in each active
lane, extended as R225 says; the other lanes keep every bit, the registers are full, FLAGS and all else stay, and a
source b that is read for the last time is vacant (R122, R302, R306). -/
def Obligations.VectorIntegers : Prop :=
  ∀ (i : Instr) (v : Vec2) f (s : State) (gid : GroupId) (sl : SlotId) (g : Group),
    intForm (g.ty sl) (modeSat (g.mode sl)) i = some (v, f) → Issues i s gid sl g →
    let ty := g.ty sl
    let occ (n : BitVec 6) : List Nat := occupies ty n.toNat
    g.Ready (occ v.a ++ occ v.b ++ if readsD i then occ v.d else []) → g.Writable (occ v.d) →
    ∃ (G : Group), Completes i s gid sl g G ∧
      g.Result G sl ty v.d.toNat (fun l => f (g.rawV ty v.a.toNat l) (g.rawV ty v.b.toNat l) (g.rawV ty v.d.toNat l)) ∧
      G.LastRead v.h (occ v.b) (occ v.d) ∧ g.Kept G sl { v := touched v.h (occ v.b) (occ v.d) }

/-- `idiv` and `irem` truncate toward zero, and the remainder takes the sign of the dividend; by 0 the quotient has
all w bits set and the remainder is x; −2^(w−1) by −1 gives −2^(w−1), or 2^(w−1) − 1 when SAT is 1, and 0. Neither
case faults or sets a flag (R307). -/
def Obligations.VectorDivision : Prop :=
  ∀ (i : Instr) (v : Vec2) quo f (s : State) (gid : GroupId) (sl : SlotId) (g : Group),
    intDivForm (g.ty sl) (modeSat (g.mode sl)) i = some (v, quo, f) → Issues i s gid sl g →
    let ty := g.ty sl
    let occ (n : BitVec 6) : List Nat := occupies ty n.toNat
    let x := g.rawV ty v.a.toNat
    let y := g.rawV ty v.b.toNat
    g.Ready (occ v.a ++ occ v.b) → g.Writable (occ v.d) →
    ∃ (G : Group), Completes i s gid sl g G ∧
      g.Result G sl ty v.d.toNat (fun l => if y l = 0 then (if quo then 2 ^ tyBits ty - 1 else x l) else f (x l) (y l)) ∧
      (∀ l < 64, (g.active sl).getLsbD l = true → tySigned ty = true → intOf ty (x l) = -(2 ^ (tyBits ty - 1) : Int) →
        intOf ty (y l) = -1 → intOf ty (G.rawV ty v.d.toNat l) =
          if quo then (if modeSat (g.mode sl) then (2 ^ (tyBits ty - 1) : Int) - 1 else -(2 ^ (tyBits ty - 1) : Int)) else 0) ∧
      G.LastRead v.h (occ v.b) (occ v.d) ∧ g.Kept G sl { v := touched v.h (occ v.b) (occ v.d) }

/-- The float words of two sources write RoundTo of the exact result of R310, or the minimum or maximum of R311, in
each active lane, and FLAGS gain what the active lanes raise (R230, R302, R310, R311). -/
def Obligations.VectorFloats : Prop :=
  ∀ (i : Instr) (v : Vec2) f (s : State) (gid : GroupId) (sl : SlotId) (g : Group),
    floatForm (g.ty sl) (g.mode sl) i = some (v, f) → Issues i s gid sl g →
    let ty := g.ty sl
    let occ (n : BitVec 6) : List Nat := occupies ty n.toNat
    let res (l : Nat) : Nat × Flags := f (g.rawV ty v.a.toNat l) (g.rawV ty v.b.toNat l) (g.rawV ty v.d.toNat l)
    g.Ready (occ v.a ++ occ v.b ++ if readsD i then occ v.d else []) → g.Writable (occ v.d) →
    ∃ (G : Group), Completes i s gid sl g G ∧ g.Result G sl ty v.d.toNat (fun l => (res l).1) ∧
      g.Raised G sl (fun l => (res l).2) ∧
      G.LastRead v.h (occ v.b) (occ v.d) ∧ g.Kept G sl { v := touched v.h (occ v.b) (occ v.d), flags := true }

/-- The vector words of one source, with or without an immediate: bit counts, immediate arithmetic, and the signs of
floats (R306, R308, R311). `vli` writes its immediate, read by the mode TYPE, into each active lane (R309); `mov`
copies the 32-bit lanes of a register, or of a pair, bit for bit (R316), under acc48 without the unused bits (R225).
Neither sets a flag. -/
def Obligations.VectorUnary : Prop :=
  (∀ (i : Instr) d a x f (s : State) (gid : GroupId) (sl : SlotId) (g : Group),
    vecForm1 (g.ty sl) (modeSat (g.mode sl)) i = some (d, a, x, f) → Issues i s gid sl g →
     let ty := g.ty sl
     g.Ready (occupies ty a.toNat) → g.Writable (occupies ty d.toNat) →
     ∃ (G : Group), Completes i s gid sl g G ∧ g.Result G sl ty d.toNat (fun l => (f (g.rawV ty a.toNat l)).1) ∧
       g.Raised G sl (fun l => (f (g.rawV ty a.toNat l)).2) ∧ g.Kept G sl { v := occupies ty d.toNat, flags := true }) ∧
  (∀ (s : State) (gid : GroupId) (sl : SlotId) (g : Group),
     let ty := g.ty sl
     (∀ d (n : BitVec 18), Issues (.vli d n) s gid sl g → g.Writable (occupies ty d.toNat) →
       ∃ (G : Group), Completes (.vli d n) s gid sl g G ∧
         g.Result G sl ty d.toNat (fun _ => if ty < 8 then intRes ty (modeSat (g.mode sl)) n.toInt
           else if ty = 8 then n.toNat * 2 ^ 14 else if ty = 11 then n.toNat * 2 ^ 46 else n.toNat) ∧
         g.Kept G sl { v := occupies ty d.toNat }) ∧
     (∀ d a x h, Issues (.mov d a x h) s gid sl g → g.Ready (occupies ty a.toNat) → g.Writable (occupies ty d.toNat) →
       ∃ (G : Group), Completes (.mov d a x h) s gid sl g G ∧
         (∀ k, (k = 0 ∨ (k = 1 ∧ isPair ty = true)) → ∀ l < 64, G.readV (d.toNat + k) l =
           if (g.active sl).getLsbD l then
             (if k = 1 ∧ ty = 12 then g.readV (a.toNat + k) l &&& 0xFFFF#32 else g.readV (a.toNat + k) l)
           else g.readV (d.toNat + k) l) ∧
         (∀ n ∈ occupies ty d.toNat, ∃ r, G.vreg n = some r ∧ r.full = true) ∧
           g.Kept G sl { v := occupies ty d.toNat }))

/-- A vector word of two sources checks a, then b, then a d that it reads, register by register (R250): a vacant
register faults (R118); an empty one faults where its t bit is set and is waited for where it is not (R119, R248). The
word has no other effect. -/
def Obligations.SourceChecks : Prop :=
  ∀ (i : Instr) (v : Vec2) (s : State) (gid : GroupId) (sl : SlotId) (g : Group),
    ((∃ f, intForm (g.ty sl) (modeSat (g.mode sl)) i = some (v, f)) ∨ ∃ f,
      floatForm (g.ty sl) (g.mode sl) i = some (v, f)) →
    Issues i s gid sl g →
    let occ (n : BitVec 6) (t : Bool) : List (Nat × Bool) := (occupies (g.ty sl) n.toNat).map (·, t)
    ∀ pre n t post, occ v.a v.x ++ occ v.b v.y ++ (if readsD i then occ v.d false else []) = pre ++ (n, t) :: post →
      g.Ready (pre.map (·.1)) →
      (g.vreg n = none → Faults i s gid sl g (Cause.record ⟨0x08, 0⟩)) ∧
      (∀ x, g.vreg n = some x → x.full = false → t = true → Faults i s gid sl g (Cause.record ⟨0x09, 0⟩)) ∧
      (∀ x, g.vreg n = some x → x.full = false → t = false → Waits i s gid sl (.empty n))

/-- The long-latency words of 0x43 to 0x45 leave their destination empty and their results on the way, and FLAGS gain
what the active lanes raise (R119, R305, R310, R312; where the model's interval does not decide a rounding of R312 the
value is free, log 14). -/
def Obligations.LongLatency : Prop :=
  ∀ (s : State) (gid : GroupId) (sl : SlotId) (g : Group),
    let ty := g.ty sl
    let m := g.mode sl
    (∀ d a b x y h, Issues (.fdiv d a b x y h) s gid sl g → g.Ready (occupies ty a.toNat ++ occupies ty b.toNat) →
      g.Writable (occupies ty d.toNat) →
      let res (l : Nat) : Nat × Flags :=
        (fmtOf ty).div (modeRnd m) (modeSat m) (numOf ty (g.rawV ty a.toNat l)) (numOf ty (g.rawV ty b.toNat l))
      ∃ (G : Group), Completes (.fdiv d a b x y h) s gid sl g G ∧
        g.Pending G sl (laneWords ty d.toNat (fun l => (res l).1)) ∧
        g.Raised G sl (fun l => (res l).2) ∧ G.LastRead h (occupies ty b.toNat) (occupies ty d.toNat) ∧
        g.Kept G sl { v := touched h (occupies ty b.toNat) (occupies ty d.toNat), flags := true, wb := true }) ∧
    (∀ (i : Instr) d a x f, slowForm1 ty m i = some (d, a, x, f) → Issues i s gid sl g → g.Ready (occupies ty a.toNat) →
      g.Writable (occupies ty d.toNat) →
      let res (l : Nat) : Nat × Flags := f (g.rawV ty a.toNat l)
      ∃ (G : Group), Completes i s gid sl g G ∧ g.Pending G sl (laneWords ty d.toNat (fun l => (res l).1)) ∧
        g.Raised G sl (fun l => (res l).2) ∧ g.Kept G sl { v := occupies ty d.toNat, flags := true, wb := true })

/-- The lane exchanges (R320): lane l of d takes the lane of a, read at issue, that `shfl` finds in b mod the width,
`shxor` at l XOR (S[b] mod the width), and `bcast` at S[b] mod the width; the results are on the way (R305). `vrd`
reads lane S[b] mod the width into a scalar: 32 bits with zero above, the pair under a 64-bit type, 48 bits under
acc48; `vwr` writes it where that lane is active, in the layout of R225, and keeps every other lane (R321). What moves of
an acc48 pair, and the extension of a narrow `vwr`, are the model's reading (log 63). -/
def Obligations.LaneWords : Prop :=
  (∀ (s : State) (gid : GroupId) (sl : SlotId) (g : Group),
     let ty := g.ty sl
     let takes (d a : BitVec 6) (f : Nat → Nat) : List (Nat × (Nat → BitVec 32)) :=
       (d.toNat, fun l => g.readV a.toNat (f l)) ::
         if ty = 12 then [(d.toNat + 1, fun l => g.readV (a.toNat + 1) (f l) &&& 0xFFFF#32)]
         else if isPair ty then [(d.toNat + 1, fun l => g.readV (a.toNat + 1) (f l))] else []
     (∀ d a b x y h, Issues (.shfl d a b x y h) s gid sl g → g.Ready (occupies ty a.toNat ++ [b.toNat]) →
       g.Writable (occupies ty d.toNat) →
       ∃ (G : Group), Completes (.shfl d a b x y h) s gid sl g G ∧
         g.Pending G sl (takes d a (fun l => (g.readV b.toNat l).toNat % g.width)) ∧
         G.LastRead h [b.toNat] (occupies ty d.toNat) ∧
         g.Kept G sl { v := touched h [b.toNat] (occupies ty d.toNat), wb := true }) ∧
     (∀ d a b x h, Issues (.shxor d a b x h) s gid sl g → g.Ready (occupies ty a.toNat) →
       g.Writable (occupies ty d.toNat) →
       ∃ (G : Group), Completes (.shxor d a b x h) s gid sl g G ∧
         g.Pending G sl (takes d a (fun l => l ^^^ ((g.readS sl b).toNat % g.width))) ∧
         g.Kept G sl { v := occupies ty d.toNat, wb := true }) ∧
     (∀ d a b x h, Issues (.bcast d a b x h) s gid sl g → g.Ready (occupies ty a.toNat) →
       g.Writable (occupies ty d.toNat) →
       ∃ (G : Group), Completes (.bcast d a b x h) s gid sl g G ∧
         g.Pending G sl (takes d a (fun _ => (g.readS sl b).toNat % g.width)) ∧
         g.Kept G sl { v := occupies ty d.toNat, wb := true })) ∧
  (∀ (s : State) (gid : GroupId) (sl : SlotId) (g : Group),
     let ty := g.ty sl
     (∀ d a b x h, Issues (.vrd d a b x h) s gid sl g → g.Ready (occupies ty a.toNat) →
       let l := (g.readS sl b).toNat % g.width
       ∃ (G : Group), Completes (.vrd d a b x h) s gid sl g G ∧ g.Kept G sl { s := [d.toNat] } ∧
         (G.readS sl d).toNat = (g.readV a.toNat l).toNat +
           if ty = 12 then (g.readV (a.toNat + 1) l).toNat % 2 ^ 16 * 2 ^ 32
           else if isPair ty then (g.readV (a.toNat + 1) l).toNat * 2 ^ 32 else 0) ∧
     (∀ d a b, Issues (.vwr d a b) s gid sl g → g.Writable (occupies ty d.toNat) →
       let k := (g.readS sl b).toNat % g.width
       let x := (g.readS sl a).toNat
       ((g.active sl &&& laneBit k) = 0 → Completes (.vwr d a b) s gid sl g g) ∧
       ((g.active sl &&& laneBit k) ≠ 0 → ∃ (G : Group), Completes (.vwr d a b) s gid sl g G ∧
         (∀ l < 64, G.readV d.toNat l = if l = k then loLane ty x else g.readV d.toNat l) ∧
         (isPair ty = true → ∀ l < 64, G.readV (d.toNat + 1) l =
           if l = k then hiLane ty x else g.readV (d.toNat + 1) l) ∧
         (∀ n ∈ occupies ty d.toNat, ∃ r, G.vreg n = some r ∧ r.full = true) ∧
           g.Kept G sl { v := occupies ty d.toNat })))

/-- The oldest write-back of a group that is not frozen arrives: its registers hold the new bits in the lanes it
writes, keep the others, and are full; nothing else of the group changes, and no byte (R119). A lane of a load that has
returned a later write of its group instead, which nothing orders after it, holds the bytes of that write (R171, R183; which
do is the model's choice, log 99). -/
def Obligations.WritebackArrives : Prop :=
  ∀ (s : State) (gid : GroupId) (g : Group) w ws, s.group? gid = some g → g.wb = w :: ws →
    (s.core g.core).frozen = none → (w.regs.map (·.1)).Nodup →
    (∀ e ∈ w.regs, ∃ r, g.vreg e.1 = some r) →
    ∃ (t : State) (G : Group), exec (.writeback gid) s = .next t ∧ { t with ledger := s.ledger } = s.setGroup gid G ∧ G.wb = ws ∧
      t.ledger.writes = s.ledger.writes ∧ (∀ l ∈ t.ledger.loads, ¬ Loading.of gid w l = true) ∧
      (∀ e ∈ w.regs, (∃ r, G.vreg e.1 = some r ∧ r.full = true) ∧
        (∀ l < 64, w.mask.getLsbD l = false → G.readV e.1 l = g.readV e.1 l) ∧
        ((∀ l ∈ s.ledger.loads, Loading.of gid w l = true → l.value = none) →
          ∀ l < 64, w.mask.getLsbD l = true → G.readV e.1 l = e.2[l]?.getD 0)) ∧
      g.Kept G .a { v := w.regs.map (·.1), wb := true } ∧ s.SameMemory t

/-- The extended registers (R322, R323): `vacq` sets c0 at v63, takes the next block of 16 where its quadrant has room
and no group waits there, and otherwise waits its turn behind those that wait; the grant of the oldest that waits in a quadrant
retires it, with c0 set where its registers
reach v63 by then; `vrel` sets c0
without a block, and gives the highest block back once no write into it is pending, until when it waits. -/
def Obligations.ExtendedRegisters : Prop :=
  ∀ (s : State) (gid : GroupId) (sl : SlotId) (g : Group),
    let lo : Nat := g.base + 16 * (g.ext - 1)
    (Issues .vacq s gid sl g → 64 ≤ g.vLimit →
      ∃ (G : Group), Completes .vacq s gid sl g G ∧ G.readC sl 0 = true ∧ g.Kept G sl { c := [0] }) ∧
    (Issues .vacq s gid sl g → g.vLimit < 64 → (∀ w ∈ (s.core g.core).vacq, w.1 ≠ g.quad ∧ w.2 ≠ (gid, sl)) →
      s.blockFree g = true →
      ∃ (G : Group), Completes .vacq s gid sl g G ∧ G.readC sl 0 = false ∧ G.ext = g.ext + 1 ∧
        g.Kept { G with ext := g.ext } sl { c := [0] }) ∧
    (Issues .vacq s gid sl g → g.vLimit < 64 → (∀ w ∈ (s.core g.core).vacq, w.2 ≠ (gid, sl)) →
      ((∃ w ∈ (s.core g.core).vacq, w.1 = g.quad) ∨ s.blockFree g = false) →
      ∃ t, exec .vacq s = .next t ∧ t.group? gid = some (g.waitIn sl .vacq) ∧
        (t.core g.core).vacq = (s.core g.core).vacq ++ [(g.quad, gid, sl)] ∧ s.SameMemory t) ∧
    (Issues .vacq s gid sl g → g.vLimit < 64 → (g.quad, gid, sl) ∈ (s.core g.core).vacq → Waits .vacq s gid sl .vacq) ∧
    (∀ (core : Fin 384) (quad : Fin 4), s.group? gid = some g →
      (s.core core.val).vacq.find? (fun w => decide (w.1 = quad.val)) = some (quad.val, gid, sl) →
      (s.blockFree g = true ∨ 64 ≤ g.vLimit) → (s.core core.val).frozen = none →
      ∃ (s1 : State) (G : Group),
        exec (.registerBlockGrant core quad) s =
          .next (((s1.setGroup gid G).retire gid sl (g.slot sl).pc.next).modGroup gid (fun x => { x with wait := g.wait })) ∧
        (g.vLimit < 64 → G.readC sl 0 = false ∧ G.ext = g.ext + 1 ∧ g.Kept { G with ext := g.ext } sl { c := [0] }) ∧
        (64 ≤ g.vLimit → G.readC sl 0 = true ∧ g.Kept G sl { c := [0] }) ∧ s.SameMemory s1 ∧ s1.groups = s.groups ∧
        ∀ e, e ∈ (s1.core core.val).vacq ↔ e ∈ (s.core core.val).vacq ∧ e ≠ (quad.val, gid, sl)) ∧
    (Issues .vrel s gid sl g → g.ext = 0 →
      ∃ (G : Group), Completes .vrel s gid sl g G ∧ G.readC sl 0 = true ∧ g.Kept G sl { c := [0] }) ∧
    (Issues .vrel s gid sl g → 0 < g.ext → (∀ w ∈ g.wb, ∀ r ∈ w.regs, r.1 < lo ∨ lo + 16 ≤ r.1) →
      ∃ (G : Group), Completes .vrel s gid sl g G ∧ G.readC sl 0 = false ∧ G.ext = g.ext - 1 ∧
        (∀ n < lo, G.v.find n = g.v.find n) ∧ (∀ n, lo ≤ n → G.vreg n = none) ∧
        g.Kept { G with ext := g.ext, v := g.v } sl { c := [0] }) ∧
    (Issues .vrel s gid sl g → 0 < g.ext → (∃ w ∈ g.wb, ∃ r ∈ w.regs, lo ≤ r.1 ∧ r.1 < lo + 16) → Waits .vrel s gid sl .vrel)

/-- `cvt` (R313): an integer becomes an integer through IntRes, a float becomes an integer by RoundTo with the clamp
and the flags of R232, and anything becomes a float by RoundTo; the lane form gives the lane's number. `npack` and
`nunpk` (R314, R315): a lane's float as a narrow code of the loaded slot's format word, and back; an unloaded slot is
detail 8, and a format other than 5 detail 2. -/
def Obligations.Conversions : Prop :=
  (∀ d a k x h (s : State) (gid : GroupId) (sl : SlotId) (g : Group), Issues (.cvt d a k x h) s gid sl g →
     let ty := g.ty sl
     let m := g.mode sl
     let src := k.toNat
     let raw (l : Nat) : Nat := g.rawV src a.toNat l
     (k = 13#4 → g.Writable (occupies ty d.toNat) →
       ∃ (G : Group), Completes (.cvt d a k x h) s gid sl g G ∧
         g.Result G sl ty d.toNat (fun l => if ty < 8 then intRes ty (modeSat m) l else (roundTo ty m (.ofInt l)).1) ∧
         g.Kept G sl { v := occupies ty d.toNat }) ∧
     (k ≠ 13#4 → g.Ready (occupies src a.toNat) → g.Writable (occupies ty d.toNat) →
       let res (l : Nat) : Nat × Flags :=
         if ty < 8 ∧ src < 8 then (intRes ty (modeSat m) (intOf src (raw l)), 0)
         else if ty < 8 then
           let r := (numOf src (raw l)).toInt (modeRnd m) (intLo ty) (intHi ty)
           (intCode ty r.1, r.2)
         else roundTo ty m (numOf src (raw l))
       ∃ (G : Group), Completes (.cvt d a k x h) s gid sl g G ∧ g.Result G sl ty d.toNat (fun l => (res l).1) ∧
         g.Raised G sl (fun l => (res l).2) ∧ g.Kept G sl { v := occupies ty d.toNat, flags := true })) ∧
  (∀ d a z x h (s : State) (gid : GroupId) (sl : SlotId) (g : Group) t, s.team? gid.teamKey = some t →
     (Issues (.npack d a z x h) s gid sl g → g.Ready (occupies (g.ty sl) a.toNat) → g.Writable [d.toNat] →
       (t.slotT.find (g.half, z.toNat) = none → Faults (.npack d a z x h) s gid sl g (Cause.record ⟨0x01, 8⟩)) ∧
       (∀ e, t.slotT.find (g.half, z.toNat) = some e → e.fmt.toNat % 16 ≠ 5 →
         Faults (.npack d a z x h) s gid sl g (Cause.record ⟨0x01, 2⟩)) ∧
       (∀ e, t.slotT.find (g.half, z.toNat) = some e → e.fmt.toNat % 16 = 5 →
         let res (l : Nat) : Nat × Flags := (Narrow.ofWord e.fmt).pack (modeRnd (g.mode sl)) (modeSat (g.mode sl))
           (numOf (g.ty sl) (g.rawV (g.ty sl) a.toNat l))
         ∃ (G : Group), Completes (.npack d a z x h) s gid sl g G ∧ (∃ r, G.vreg d.toNat = some r ∧ r.full = true) ∧
           (∀ l < 64, G.readV d.toNat l =
             if (g.active sl).getLsbD l then BitVec.ofNat 32 (res l).1 else g.readV d.toNat l) ∧
           g.Raised G sl (fun l => (res l).2) ∧ g.Kept G sl { v := [d.toNat], flags := true })) ∧
     (Issues (.nunpk d a z x h) s gid sl g → g.Ready [a.toNat] → g.Writable [d.toNat] →
       (t.slotT.find (g.half, z.toNat) = none → Faults (.nunpk d a z x h) s gid sl g (Cause.record ⟨0x01, 8⟩)) ∧
       (∀ e, t.slotT.find (g.half, z.toNat) = some e → e.fmt.toNat % 16 ≠ 5 →
         Faults (.nunpk d a z x h) s gid sl g (Cause.record ⟨0x01, 2⟩)) ∧
       (∀ e, t.slotT.find (g.half, z.toNat) = some e → e.fmt.toNat % 16 = 5 →
         let f := Narrow.ofWord e.fmt
         let res (l : Nat) : Nat × Flags :=
           roundTo (g.ty sl) (g.mode sl) (f.decode ((g.readV a.toNat l).toNat % 2 ^ f.b))
         ∃ (G : Group), Completes (.nunpk d a z x h) s gid sl g G ∧
           g.Result G sl (g.ty sl) d.toNat (fun l => (res l).1) ∧
           g.Raised G sl (fun l => (res l).2) ∧ g.Kept G sl { v := [d.toNat], flags := true })))

/-- The compares set P[d] in each active lane to 1 or 0, keep its other lanes, clear its elected tag and raise only
invalid: integers by the type's sign, floats with −0 equal to +0 and a NaN unordered (R317). The predicate words
(R318, R319): bit operations in the active lanes, `pset` from the bits of a scalar, `pget` and `pcnt` over the slot's
lanes whatever the guard. A write clears the elected tag. `elect` sets the predicate in the lowest active lane of the
slot alone, clears it in the slot's other lanes, keeps the lanes outside the slot, and tags it as elected (R279);
`nop` has no effect (R280). -/
def Obligations.VectorCompares : Prop :=
  (∀ (i : Instr) (v : Vec2) f (s : State) (gid : GroupId) (sl : SlotId) (g : Group), laneTest (g.ty sl) i = some (v,
    f) → Issues i s gid sl g →
     let ty := g.ty sl
     let occ (n : BitVec 6) : List Nat := occupies ty n.toNat
     let res (l : Nat) : Bool × Flags := f (g.rawV ty v.a.toNat l) (g.rawV ty v.b.toNat l)
     g.Ready (occ v.a ++ occ v.b) →
     ∃ (G : Group), Completes i s gid sl g G ∧
       (∀ l < 64, (G.readP v.d.toNat).getLsbD l =
         if (g.active sl).getLsbD l then (res l).1 else (g.readP v.d.toNat).getLsbD l) ∧
       G.elected.getLsbD v.d.toNat = false ∧ g.Raised G sl (fun l => (res l).2) ∧ G.LastRead v.h (occ v.b) [] ∧
       g.Kept G sl { p := [v.d.toNat], v := touched v.h (occ v.b) [], flags := true }) ∧
  (∀ (s : State) (gid : GroupId) (sl : SlotId) (g : Group),
     (∀ (i : Instr) d a b f, predForm i = some (d, a, b, f) → Issues i s gid sl g →
       ∃ (G : Group), Completes i s gid sl g G ∧ G.elected.getLsbD d.toNat = false ∧ g.Kept G sl { p := [d.toNat] } ∧
         ∀ l < 64, (G.readP d.toNat).getLsbD l =
           if (g.active sl).getLsbD l then f ((g.readP a.toNat).getLsbD l) ((g.readP b.toNat).getLsbD l)
           else (g.readP d.toNat).getLsbD l) ∧
     (∀ d a, Issues (.pset d a) s gid sl g →
       ∃ (G : Group), Completes (.pset d a) s gid sl g G ∧ G.elected.getLsbD d.toNat = false ∧
         g.Kept G sl { p := [d.toNat] } ∧
         ∀ l < 64, (G.readP d.toNat).getLsbD l =
           if (g.active sl).getLsbD l then (g.readS sl a).getLsbD l else (g.readP d.toNat).getLsbD l) ∧
     (∀ d a, Issues (.pget d a) s gid sl g →
       ∃ (G : Group), Completes (.pget d a) s gid sl g G ∧ g.Kept G sl { s := [d.toNat] } ∧
         ∀ l < 64, (G.readS sl d).getLsbD l = ((g.readP a.toNat).getLsbD l && (g.lanes sl).getLsbD l)) ∧
     (∀ d a, Issues (.pcnt d a) s gid sl g →
       ∃ (G : Group), Completes (.pcnt d a) s gid sl g G ∧ g.Kept G sl { s := [d.toNat] } ∧
         (G.readS sl d).toNat =
           ((List.range 64).map (fun l => ((g.readP a.toNat).getLsbD l && (g.lanes sl).getLsbD l).toNat)).sum)) ∧
  (∀ (s : State) (gid : GroupId) (sl : SlotId) (g : Group),
     (∀ d, Issues (.elect d) s gid sl g → ∃ (G : Group), Completes (.elect d) s gid sl g G ∧
       (∀ l < 64, (G.readP d.toNat).getLsbD l =
         if (g.lanes sl).getLsbD l then (g.active sl).getLsbD l && decide (∀ k < l, (g.active sl).getLsbD k = false)
         else (g.readP d.toNat).getLsbD l) ∧
       G.elected.getLsbD d.toNat = true ∧ g.Kept G sl { p := [d.toNat] }) ∧
     (Issues .nop s gid sl g → Completes .nop s gid sl g g))

/-! ### Memory words -/

/-- Addresses (R254, R333), their checks in order (R325, R145, R148, R160), and the lane that a failed vector access
reports: the lowest one that fails (R193); lanes whose memory does not answer yet hold the access only when none fails
(R16, R209). Translation (R153): a walk from the root through table
entries to a leaf at the level where it stands gives the physical address of the leaf's frame and device, and the
offset in its page; an entry that is not valid is a page fault. The entry read is the one that the address itself indexes, whatever
replicas of it stand elsewhere: the model's choice (log 130). -/
def Obligations.Addresses : Prop :=
  ((∀ (g : Group) (sl : SlotId) (b : BitVec 5) (i : BitVec 6) n off l,
     (laneAddr g sl b i n off l).toNat =
       ((g.readS sl (b.zeroExtend 6)).toNat + (if i = 63#6 then 0 else (g.readV i.toNat l).toNat * n) + off * n) % 2 ^ 64 ∧
     (spadAddr g sl b i n off l).toNat =
       (0x01F0000000000000 + (g.readS sl (b.zeroExtend 6)).toNat + (if i = 63#6 then 0 else (g.readV i.toNat l).toNat * n) +
         off * n) % 2 ^ 64) ∧
   (∀ (s : State) (gid : GroupId) k st8 n (a : Word),
     (2 ^ 57 ≤ a.toNat → checkAddr s gid k st8 n a = .error (.viol 5)) ∧
     (a.toNat < 2 ^ 57 → a.toNat % n ≠ 0 → checkAddr s gid k st8 n a = .error .misaligned) ∧
     (a.toNat % n = 0 → 0x01F0000010000000 ≤ a.toNat → a.toNat < 0x0200000000000000 → st8 = false →
       checkAddr s gid k st8 n a = .error (.viol 4)) ∧
     (a.toNat % n ≠ 0 → checkSpad s gid n a = .error .misaligned) ∧
     (a.toNat % n = 0 → gid.isDebug = true → checkSpad s gid n a = .error (.viol 4)) ∧
     (∀ e < 16, ∀ c < 64, (s.spaceOf gid).isSome = true →
       checkAddr s gid .write true 8 (BitVec.ofNat 64 (0x01F0000100000000 + 4096 * e + 64 * c)) = .ok (.aperture e c))) ∧
   (∀ (s : State) (gid : GroupId) (t : Team) n off, gid.isDebug = false → s.team? gid.teamKey = some t →
     t.live ≠ 0 → off < 2 ^ 21 → off % n = 0 →
     0x01F0000000000000 % n = 0 →
     (off + n ≤ t.spad * 1024 →
       checkSpad s gid n (BitVec.ofNat 64 (0x01F0000000000000 + off)) = .ok (.spad gid.teamKey off) ∧
       checkAddr s gid .read false n (BitVec.ofNat 64 (0x01F0000000000000 + off)) = .ok (.spad gid.teamKey off)) ∧
     (t.spad * 1024 < off + n → checkSpad s gid n (BitVec.ofNat 64 (0x01F0000000000000 + off)) = .error .bound ∧
       checkAddr s gid .read false n (BitVec.ofNat 64 (0x01F0000000000000 + off)) = .error .bound)) ∧
   (∀ (chk : Word → Except Bad Place) addr ls b l a,
     ((∀ w, b ≠ .hold w) →
       (checkLanes chk addr ls = .error (b, l, a) ↔
         ∃ pre post, ls = pre ++ l :: post ∧ (∀ x ∈ pre, (∃ p, chk (addr x) = .ok p) ∨ ∃ w, chk (addr x) = .error (.hold w)) ∧
           chk (addr l) = .error b ∧ a = addr l)) ∧
     (∀ w, b = .hold w →
       (checkLanes chk addr ls = .error (b, l, a) ↔
         ∃ pre post, ls = pre ++ l :: post ∧ (∀ x ∈ pre, ∃ p, chk (addr x) = .ok p) ∧ chk (addr l) = .error b ∧
           a = addr l ∧ ∀ x ∈ post, (∃ p, chk (addr x) = .ok p) ∨ ∃ w, chk (addr x) = .error (.hold w))))) ∧
  (∀ (s : State) va fuel table, fuel < 5 →
     let level := 5 - fuel
     let a := table + 8 * (va / 2 ^ (12 + 9 * (5 - level)) % 512)
     let e := BitVec.ofNat 64 (leNat (memRead s.mem a 8))
     localBad s a = none →
     (e.getLsbD 0 = false → walk s va (fuel + 1) table = .error .page) ∧
     (∀ w x, e.getLsbD 0 = true → e.getLsbD 1 = true → e.extractLsb' 8 4 = 0#4 → e.getLsbD 2 = w → e.getLsbD 3 = x →
       sizeAllowed level (e.extractLsb' 4 4).toNat = true →
       let size := 4096 * 4 ^ (e.extractLsb' 4 4).toNat
       (e.extractLsb' 12 31).toNat * 4096 % size = 0 →
       walk s va (fuel + 1) table =
         .ok ⟨(e.extractLsb' 43 21).toNat * 2 ^ 43 + (e.extractLsb' 12 31).toNat * 4096 + va % size, w, x⟩) ∧
     (e.getLsbD 0 = true → e.getLsbD 1 = false → e.extractLsb' 4 8 = 0#8 → e.extractLsb' 43 21 = 0#21 → level < 5 →
       walk s va (fuel + 1) table = walk s va fuel ((e.extractLsb' 12 31).toNat * 4096)))

/-- The vector loads (R327, R329, R333): where every active lane's address passes, t and the registers it implies are
empty and their results on the way hold the bytes, zero-extended; with no active lane nothing is written. The bytes are
those that stand in memory, or older ones of the group's own writes that nothing has ordered before its core events (R171,
R174); which of them is a free value, and what the model keeps of the order of events is its own choice (log 99, log 23). The later core
events of the slot of a `ld.acq` follow, within its scope, what comes before the newest write of the bytes that it reads, once every
write of the group to them is ordered before it (R172, R173). Where an address does not pass, nothing happens but the wait of the whole word (log 67) or
the fault; the address that a scratchpad word reports is log 84. No byte changes. -/
def Obligations.VectorLoads : Prop :=
  ∀ (i : Instr) f (s : State) (gid : GroupId) (sl : SlotId) (g : Group), loadForm i = some f → Issues i s gid sl g →
    f.ready g →
    (∀ e, f.places s gid sl g .read = .error e → Unreached i s gid sl g 0 e) ∧
    (∀ ps, f.places s gid sl g .read = .ok ps →
      (g.active sl = 0 → Completes i s gid sl g g) ∧
      (g.active sl ≠ 0 → ∃ (t : State) (data : Vector (List Byte) 64) (G : Group),
        s.ReadsOnly t ∧ Accesses i s gid sl g (t.setGroup gid G) false f.n (f.accs g sl ps) ∧
        (∀ l p, (l, p) ∈ ps → s.SeenAll gid sl 0 p f.n (data[l]?.getD [])) ∧
        (∀ l p, (l, p) ∈ ps → s.Settled gid sl 0 p f.n → data[l]?.getD [] = readPlace s p f.n) ∧
        (∀ t' b ix sc o, i = .ldAcqV t' b ix sc o → ∀ l p w, (l, p) ∈ ps → s.Settled gid sl 0 p f.n → s.Newest w p f.n →
          s.AcquiresFrom t w (s.paths gid sl [0]) (s.scopeFor gid sc)) ∧
        g.Pending G sl (f.loaded data) ∧ g.Kept G sl { v := f.regs, wb := true }))

/-- The vector stores (R327, R329, R333, R177): the bytes of the active lanes' places hold what the lanes store, the
highest lane's where several meet, where every earlier write of the group to them is ordered before the word; without that a
byte may also keep what it held, since the two writes come in either order (R171, R174). Every other byte, every group and
everything beside memory is unchanged. `sts.f`
alone sets granules full: those it names (R150). The writes of a `st.rel` follow, within its scope, the slot's earlier core events
(R172); at package scope it rings the doorbell pages that it stores to (R30), lane by lane, which is the model's choice (log 33). What the model keeps of the bytes that later reads may go behind is its own choice
(log 99), as are the wait of the whole word (log 67), the address that a scratchpad word reports (log 84) and what a scope
orders (log 23). -/
def Obligations.VectorStores : Prop :=
  ∀ (i : Instr) f full (s : State) (gid : GroupId) (sl : SlotId) (g : Group), storeForm i = some (f, full) →
    Issues i s gid sl g →
    s.memOk → g.Ready (f.index ++ f.regs) →
    (∀ e, f.places s gid sl g .write = .error e → Unreached i s gid sl g 0 e) ∧
    (∀ ps, f.places s gid sl g .write = .ok ps →
      ∃ (s1 s2 : State), Accesses i s gid sl g s2 true f.n (f.accs g sl ps) ∧ s.OnlyMemory s1 ∧ s.SameOutside s1 f.n ps ∧
        ((∀ t b ix sc o, i ≠ .stRelV t b ix sc o) → s2 = s1) ∧
        (∀ t b ix sc o, i = .stRelV t b ix sc o →
          s2 = ps.foldl (fun u e => u.ringBell (u.bellOf gid sc (f.addr g sl e.1)) (zx (g.readV f.t.toNat e.1))) s1) ∧
        ((gid.isDebug = true ∨ ∀ e ∈ ps, s.Settled gid sl 0 e.2 f.n) →
          ∀ l p, (l, p) ∈ ps → ∀ k < f.n, (∀ l' p', (l', p') ∈ ps → l < l' → ¬ p'.covers f.n (p.add k)) →
            readPlace s1 (p.add k) 1 = [f.byte g l k]) ∧
        (∀ q, readPlace s1 q 1 = readPlace s q 1 ∨
          ∃ l p, (l, p) ∈ ps ∧ ∃ k < f.n, q = p.add k ∧ readPlace s1 q 1 = [f.byte g l k]) ∧
        (∀ t b ix sc o, i = .stRelV t b ix sc o → s.StoresAfter s1 (s.paths gid sl [0]) (s.scopeFor gid sc)) ∧
        ∀ t x, s1.isFull t x ↔ s.isFull t x ∨ (full = true ∧ (s.team? t).isSome = true ∧ ∃ l off, (l,
          .spad t off) ∈ ps ∧ x = off / 16))

/-- The scalar loads and stores (R326, R327, R329): once an issue, with lane 0 in a fault, whatever the lanes and the
guard; a load takes the bytes that stand, or older ones of the group's own writes, and stays in the ledger until a word of its slot
uses its register (log 99); `ld.acq` and `st.rel` order as the vector forms do (R172), and so does a store whose bytes stand where
the group's earlier writes to them are ordered before it. A `st.d` to the aperture starts
a copy: it reads its template in copy class (R161, R170, R171), retires once the copy is accepted into its channel, faults where the template cannot be read or the copy is
rejected, and waits while the engine is off (log 22), its channel holds 16, or a stack is not ready (R16, R160, R162, R163).
A `st.rel` at package scope into a page that Isacor has mapped as the doorbell of a queue also writes that queue's WRX (R30;
where the page is and which bits are the index is log 33; which rejections have a CLASS and an address is log 64). -/
def Obligations.ScalarMemory : Prop :=
  ∀ (i : Instr) t b n off st st8 (s : State) (gid : GroupId) (sl : SlotId) (g : Group), scalarMem i = some (t, b, n,
    off, st, st8) →
    Issues i s gid sl g →
    let a := laneAddr g sl b 63 n off 0
    (∀ x, checkAddr s gid (if st then .write else .read) st8 n a = .error x → Unreached i s gid sl g 0 (x, 0, a)) ∧
    (∀ p, st = false → checkAddr s gid .read false n a = .ok p →
      ∃ (u : State) (data : List Byte) (G : Group), s.ReadsOnly u ∧
        Accesses i s gid sl g (u.setGroup gid G) false n [(0, a.toNat)] ∧
        s.SeenAll gid sl 0 p n data ∧ (s.Settled gid sl 0 p n → data = readPlace s p n) ∧
        (G.readS sl t).toNat = leNat data ∧ g.Kept G sl { s := [t.toNat] } ∧
        (∃ l, u.ledger.loads.getLast? = some l ∧ l.dest = some (gid, sl, t) ∧ l.place = p ∧ l.bytes = n ∧ l.value = none) ∧
        (∀ t b sc o, i = .ldAcqS t b sc o → ∀ w, s.Settled gid sl 0 p n → s.Newest w p n →
          s.AcquiresFrom u w (s.paths gid sl [0]) (s.scopeFor gid sc))) ∧
    (∀ p, st = true → s.memOk → checkAddr s gid .write st8 n a = .ok p → (∀ e c, p ≠ .aperture e c) →
      let page (c : Context) : Option Nat := c.bells.find (a.toNat / 4096)
      let bell : Option Nat := match i with
        | .stRelS _ _ sc _ =>
          if sc = 4#3 ∧ ¬ (gid.isDebug = true ∧ a.toNat < 0x40000) then (s.spaceOf gid).bind page else none
        | _ => none
      ∃ (s1 : State), s.OnlyMemory s1 ∧ s.SameOutside s1 n [(0, p)] ∧
        ((gid.isDebug = true ∨ s.Settled gid sl 0 p n) →
          ∀ k < n, readPlace s1 (p.add k) 1 = [BitVec.ofNat 8 ((g.readS sl t).toNat / 2 ^ (8 * k))]) ∧
        (∀ k < n, readPlace s1 (p.add k) 1 = readPlace s (p.add k) 1 ∨
          readPlace s1 (p.add k) 1 = [BitVec.ofNat 8 ((g.readS sl t).toNat / 2 ^ (8 * k))]) ∧
        (∀ t b sc o, i = .stRelS t b sc o → s.StoresAfter s1 (s.paths gid sl [0]) (s.scopeFor gid sc)) ∧
        (bell = none → Accesses i s gid sl g s1 true n [(0, a.toNat)]) ∧
        (∀ n1, bell = some n1 →
          Accesses i s gid sl g ((s1.doorbell n1 ((g.readS sl t).setWidth 32)).versioned n1) true n [(0, a.toNat)])) ∧
    (∀ e c m x, st8 = true → checkAddr s gid .write st8 n a = .ok (.aperture e c) → s.spaceAt gid g = some (m, x) →
      let data := g.readS sl t
      let at_ : Nat := x.tmbase.toNat + 64 * (data.extractLsb' 0 8).toNat
      ((s.umap (e / 4)).copy.getLsbD (e % 4) = false ∨ 16 ≤ (s.channel (e, c)).length → Waits i s gid sl .aperture) ∧
      ((s.umap (e / 4)).copy.getLsbD (e % 4) = true → (s.channel (e, c)).length < 16 →
        (∀ w, translate s x at_ needRead = .error (.hold w) → Waits i s gid sl w) ∧
        (∀ y, translate s x at_ needRead = .error y → (∀ w, y ≠ .hold w) →
          Faults i s gid sl g { (Cause.record ⟨0x0B, 3⟩) with cls := 1, addr := BitVec.ofNat 64 at_ }) ∧
        (∀ pa, translate s x at_ needRead = .ok pa →
          let cp := s.newCopy gid sl e m (data.extractLsb' 0 8)
          ∃ (bs : List Byte) (u : State), s.ReadsOnly u ∧ bs.length = 64 ∧
            (∀ k < 64, ∀ y, bs[k]? = some y → (s.copyBegin gid sl e c).CopySeen cp (.phys (pa + k)) y) ∧
            ((∀ r ∈ s.ledger.writes, r.group = some gid → ∃ y ∈ s.lines gid sl 1, r.after.knows.At y (max cp.scope r.need)) →
              bs = physRead s pa 64) ∧
            (let start := (acceptCopy u x cp bs (data.extractLsb' 8 28).toNat (data.extractLsb' 36 28).toNat).1
            (∀ y, start = .accepted y → ∃ v, s.ReadsOnly v ∧
              Accesses i s gid sl g (v.setChannel (e, c) (s.channel (e, c) ++ [y])) true n [(0, a.toNat)]) ∧
            (∀ d k, start = .rejected d k → Faults i s gid sl g (Cause.record ⟨0x0B, d⟩)) ∧
            (∀ w, start = .hold w → Waits i s gid sl w)))))

/-- A memory word that hits no armed watchpoint of its core retires (R216). One that hits some retires too: its group
waits before its next word, and the lowest watchpoint hit is queued at the debug core of its die with the address of
the lowest lane that hit it and the PROG of the watchpoint as it stands (R217, R218, R373). A debug core's accesses hit
none. That the pending hits are one list, and which debug core holds it, are the model's choice (log 97, log 62). -/
def Obligations.Watchpoints : Prop :=
  ∀ (s s1 : State) (gid : GroupId) (sl : SlotId) (pc : PC) write n accs (g : Group), s1.group? gid = some g →
    let hits (k : Nat) (a : Nat) : Prop :=
      let w := (s1.core g.core).wpt[k]?.getD 0
      let base := (w.extractLsb' 0 57).toNat
      w.getLsbD 63 = true ∧ w.getLsbD (if write then 62 else 61) = true ∧
        a < base + 2 ^ (w.extractLsb' 57 4).toNat ∧ base < a + n
    ((gid.isDebug = true ∨ ∀ k < 16, ∀ e ∈ accs, ¬ hits k e.2) →
      (accessDone s1 gid sl pc write n accs).finish s gid sl pc = s1.retire gid sl pc.next) ∧
    (∀ k < 16, ∀ pre e post, gid.isDebug = false → accs = pre ++ e :: post → hits k e.2 → (∀ x ∈ pre, ¬ hits k x.2) →
      (∀ j < k, ∀ x ∈ accs, ¬ hits j x.2) →
      let u := (accessDone s1 gid sl pc write n accs).finish s gid sl pc
      (u.group? gid).map (·.wait) = some (some .watch) ∧ ((u.group? gid).map (fun x => (x.slot sl).pc)) = some pc.next ∧
        (u.dbg (g.core / 96)).hits = (s1.dbg (g.core / 96)).hits ++ [⟨gid, sl, k, BitVec.ofNat 64 e.2,
          ((s1.core g.core).wpt[k]?.getD 0).extractLsb' 64 64⟩])

/-- The atomics, where the active lanes name different places (R159, R330 to R332): each place takes the value of its
operation, with RET the old values are on the way to the registers of t, and every other byte is unchanged. With ORD bit 1 its
writes follow, within the scope, the slot's earlier core events and atomics, and with bit 0 its later ones follow what comes before
the newest write of the bytes of a place, where that write meets no other place (R172, R332). A failed
address has CLASS 4 and nothing happens. With no active lane nothing changes. That a word which meets an absent tile is held as a
whole is the model's choice (log 67). -/
def Obligations.Atomics : Prop :=
  ∀ (i : Instr) w (s : State) (gid : GroupId) (sl : SlotId) (g : Group), atomForm (g.ty sl) i = some w →
    Issues i s gid sl g → s.memOk →
    let f : MemWord := ⟨w.t, w.b, w.i, w.n, 0, false⟩
    let two : Nat := if w.two then w.n / 4 else 0
    g.Ready (f.index ++ (List.range (w.n / 4 + two)).map (w.t.toNat + ·)) →
    (∀ e, f.places s gid sl g .amo = .error e → Unreached i s gid sl g 4 e) ∧
    (∀ ps, f.places s gid sl g .amo = .ok ps → (ps.map (·.2)).Nodup →
      (g.active sl = 0 → Completes i s gid sl g g) ∧
      (g.active sl ≠ 0 → ∃ (s1 : State) (G : Group),
        Accesses i s gid sl g (s1.setGroup gid G) true w.n (f.accs g sl ps) ∧
        s.OnlyMemory s1 ∧ s.SameOutside s1 w.n ps ∧
        (∀ l p, (l, p) ∈ ps → leNat (readPlace s1 p w.n) =
          w.new (leNat (readPlace s p w.n)) (lanePack g (w.t.toNat + two) w.n l) (lanePack g w.t.toNat w.n l)) ∧
        (∀ ord sc, orderForm i = some (ord, sc) →
          (ord.getLsbD 1 = true → s.StoresAfter s1 (s.paths gid sl [0, 4]) (s.scopeFor gid sc)) ∧
          (ord.getLsbD 0 = true → gid.isDebug = false → ∀ l p x, (l, p) ∈ ps → s.Newest x p w.n →
            (∀ l' p', (l', p') ∈ ps → p' ≠ p → x.meets p' w.n = false) →
            s.AcquiresFrom s1 x (s.paths gid sl [0, 4]) (s.scopeFor gid sc))) ∧
        (w.ret = false → G = g) ∧
        (w.ret = true → g.Pending G sl (f.loaded (s.laneData w.n ps)) ∧ g.Kept G sl { v := f.regs, wb := true })))

/-- The consuming loads (R150, R334): with every granule named full the word loads them, and the emptying forms leave
those granules, and no other, empty; with one not full it waits, or the forms that fault do so in the lowest such
lane. The bytes are those of the fill or newer (R172). What the record of such a fault holds is the model's choice (log 69,
log 84). -/
def Obligations.ConsumingLoads : Prop :=
  ∀ (i : Instr) f empties faults (s : State) (gid : GroupId) (sl : SlotId) (g : Group), consumeForm i = some (f,
    empties, faults) →
    Issues i s gid sl g → f.ready g →
    (∀ e, f.places s gid sl g .read = .error e → Unreached i s gid sl g 0 e) ∧
    (∀ ps, f.places s gid sl g .read = .ok ps →
      ((∀ l k off, (l, .spad k off) ∈ ps → s.isFull k (off / 16)) →
        (g.active sl = 0 → Completes i s gid sl g g) ∧
        (g.active sl ≠ 0 → ∃ (s1 : State) (G : Group), Accesses i s gid sl g s1 false 16 (f.accs g sl ps) ∧
          s1.group? gid = some G ∧
          (s.setGroup gid G).OnlyMemory s1 ∧ s.SameMemory s1 ∧ g.Pending G sl (f.loaded (s.laneData 16 ps)) ∧
            g.Kept G sl { v := f.regs, wb := true } ∧
          ∀ k x, s1.isFull k x ↔ s.isFull k x ∧ ¬ (empties = true ∧ ∃ l off, (l, .spad k off) ∈ ps ∧ x = off / 16))) ∧
      (∀ pre l k off post, ps = pre ++ (l, .spad k off) :: post → ¬ s.isFull k (off / 16) →
        (∀ l' k' off', (l', .spad k' off') ∈ pre → s.isFull k' (off' / 16)) →
        (faults = false → Waits i s gid sl .granule) ∧
        (faults = true → Faults i s gid sl g { (Cause.record ⟨0x09, 0⟩) with lane := BitVec.ofNat 6 l })))

/-- The tag table (R151, R335): `tlook` answers the lowest valid entry with the key, or all ones with c0 set; `tset`,
`tget` and `tinv` act on the entry that S[a] names, of 64, or of 128 on a pair, and fault at one that does not exist. -/
def Obligations.TagTable : Prop :=
  ∀ (s : State) (gid : GroupId) (sl : SlotId) (g : Group) (t : Team), s.team? gid.teamKey = some t →
    let count : Nat := if t.pair then 128 else 64
    let holds (k : Nat) (a : BitVec 6) : Prop :=
      (t.tag k).getLsbD 48 = true ∧ (t.tag k).toNat % 2 ^ 48 = (g.readS sl a).toNat % 2 ^ 48
    (∀ d a, Issues (.tlook d a) s gid sl g →
      ∃ (G : Group), Completes (.tlook d a) s gid sl g G ∧ g.Kept G sl { s := [d.toNat], c := [0] } ∧
        (∀ k < count, holds k a → (∀ j < k, ¬ holds j a) → (G.readS sl d).toNat = k ∧ G.readC sl 0 = false) ∧
        ((∀ k < count, ¬ holds k a) → G.readS sl d = BitVec.allOnes 64 ∧ G.readC sl 0 = true)) ∧
    (∀ a b, Issues (.tset a b) s gid sl g → (g.readS sl a).toNat < count →
      ∃ (u : Team), Retires (.tset a b) s gid sl g (s.setTeam gid.teamKey u) ∧ { u with tags := t.tags } = t ∧
        ∀ k, u.tag k = if k = (g.readS sl a).toNat then g.readS sl b else t.tag k) ∧
    (∀ d a, Issues (.tget d a) s gid sl g → (g.readS sl a).toNat < count →
      ∃ (G : Group), Completes (.tget d a) s gid sl g G ∧ G.readS sl d = t.tag (g.readS sl a).toNat ∧
        g.Kept G sl { s := [d.toNat] }) ∧
    (∀ a, Issues (.tinv a) s gid sl g → (g.readS sl a).toNat < count →
      ∃ (u : Team), Retires (.tinv a) s gid sl g (s.setTeam gid.teamKey u) ∧ { u with tags := t.tags } = t ∧
        ∀ k, (u.tag k).toNat = if k = (g.readS sl a).toNat then
          (t.tag k).toNat - (if (t.tag k).getLsbD 48 then 2 ^ 48 else 0) else (t.tag k).toNat) ∧
    (∀ (i : Instr) a, ((∃ b, i = .tset a b) ∨ (∃ d, i = .tget d a) ∨ i = .tinv a) → Issues i s gid sl g →
      count ≤ (g.readS sl a).toNat →
      Faults i s gid sl g (Cause.record ⟨0x01, 8⟩))

/-- The fences and the counter waits (R171, R172, R336, R337, R366, R375): a fence puts the slot's core and atomic
events before it before those after it, within its scope; `xfence` P → Q so orders its P events before its Q events, and waits
while P is copy and copies that the slot has started are not performed (what the model keeps of the order is log 99); the debug
core's `ivr` retires. `cwait` retires once the 8-byte counter is at or above the target, unsigned, and waits below; `ctest` says so in
c0. One found at its target is an acquire: the slot's later core, atomic and sync events follow, within the scope, what comes before
the newest write of the counter, once the group's own are ordered before the read; that both count as loads for a watchpoint is the model's choice (log 76). -/
def Obligations.FencesCounters : Prop :=
  ∀ (s : State) (gid : GroupId) (sl : SlotId) (g : Group),
    (∀ sc, Issues (.fence sc) s gid sl g →
      ∃ t, Retires (.fence sc) s gid sl g t ∧ s.Orders t (s.paths gid sl [0, 4]) (s.paths gid sl [0, 4]) (s.scopeFor gid sc)) ∧
    (∀ cq cp sc, Issues (.xfence cq cp sc) s gid sl g →
      (cp = 1 → s.copiesPending gid sl = true → Waits (.xfence cq cp sc) s gid sl .copies) ∧
      ((cp ≠ 1 ∨ s.copiesPending gid sl = false) →
        ∃ t, Retires (.xfence cq cp sc) s gid sl g t ∧
          s.Orders t (s.paths gid sl [cp.toNat]) (s.paths gid sl [cq.toNat]) (s.scopeFor gid sc))) ∧
    (∀ w a b, Issues (.ivr w a b) s gid sl g → (s.dbg gid.gang).dctx ≠ 0 → Completes (.ivr w a b) s gid sl g g) ∧
    (∀ sc a b (i : Instr), i = .cwait sc a b ∨ i = .ctest sc a b → Issues i s gid sl g → ∀ x,
      checkAddr s gid .read false 8 (g.readS sl a) = .error x → Unreached i s gid sl g 4 (x, 0, g.readS sl a)) ∧
    (∀ sc a b p (i : Instr), i = .cwait sc a b ∨ i = .ctest sc a b → Issues i s gid sl g →
      checkAddr s gid .read false 8 (g.readS sl a) = .ok p →
      ∃ (t : State) (bs : List Byte), s.ReadsOnly t ∧ s.SeenAll gid sl 4 p 8 bs ∧
        (s.Settled gid sl 4 p 8 → bs = readPlace s p 8) ∧
        (∀ w, s.Settled gid sl 4 p 8 → s.Newest w p 8 → (g.readS sl b).toNat ≤ leNat bs →
          s.AcquiresFrom t w (s.paths gid sl [0, 4, 3]) (s.scopeFor gid sc)) ∧
        (i = .cwait sc a b →
          ((g.readS sl b).toNat ≤ leNat bs → Accesses i s gid sl g t false 8 [(0, (g.readS sl a).toNat)]) ∧
          (leNat bs < (g.readS sl b).toNat → exec i s = .next (t.modGroup gid (·.waitIn sl .counter)))) ∧
        (i = .ctest sc a b → ∃ (G : Group),
          Accesses i s gid sl g (t.setGroup gid G) false 8 [(0, (g.readS sl a).toNat)] ∧
          G.readC sl 0 = decide ((g.readS sl b).toNat ≤ leNat bs) ∧ g.Kept G sl { c := [0] }))

/-! ### Named groups and rings -/

/-- The words that name a group by a key or a value (R126, R129 to R135, R341 to R343): a new key takes the lowest
free slot of its home die under the function's quota; a known key with the same operator and type is joined at the
next boundary, or handed back to one that has joined it. Where no slot is free, the quota is full, the entry has all the
members it can have, or its operator or type is another one, the word is refused: null and c0, or the stale-handle fault
with detail 2 of `hnew.t`. A busy register is detail 3, a null one 4, and the built-in handles are not left. That slot 0 of
die 0 is passed over while its handle would be 0 follows from R126 (log 15). -/
def Obligations.HandleNames : Prop :=
  ∀ (s : State) (gid : GroupId) (sl : SlotId) (g : Group), g.diverged = false →
    (∀ (i : Instr) h k y p, i = .hnew h k y p ∨ i = .hnewT h k y p → Issues i s gid sl g →
      let key := g.readS sl k
      let die : Nat := (key.toNat ^^^ (key.toNat / 2 ^ 16) ^^^ (key.toNat / 2 ^ 32) ^^^ (key.toNat / 2 ^ 48)) % 4
      let ctx : BitVec 20 := BitVec.ofNat 20 g.ctx
      (g.readH h.toNat ≠ 0 → Faults i s gid sl g (Cause.record ⟨0x0A, 3⟩)) ∧
      (∀ n fn, g.readH h.toNat = 0 → s.findKey die ctx key = none → s.freeSlot die = some n →
        (s.ctx? g.ctx).map (·.fn) = some fn → s.heldBy die fn < s.quota fn →
        ∃ (G : Group) (e : SEntry), Retires i s gid sl g ((s.setEntry die n e).setGroup gid G) ∧
          G.readH h.toNat = userHandle die n e.gen ∧ G.readC sl 0 = false ∧ G.readC sl 1 = true ∧
          g.Kept G sl { h := [h.toNat], c := [0, 1] } ∧ e.key = key ∧ e.ctx = ctx ∧ e.op = p ∧ e.ty = y ∧
          e.gen = (s.entry die n).gen ∧ e.valid = true ∧ e.parked = false ∧ e.phase = 0 ∧ e.broken = false ∧
            e.members = [gid] ∧
          e.arrived = [] ∧ e.pjoin = [] ∧ e.pleave = [] ∧ e.racc = identity p.toNat (.ofEntry y) ∧ e.vall = true) ∧
      (∀ n < 4096, g.readH h.toNat = 0 → s.findKey die ctx key = some n →
        let e := s.entry die n
        (e.op = p → e.ty = y → e.isMember gid = false → gid ∉ e.pjoin → e.members.length + e.pjoin.length < 1048575 →
          ∃ (G : Group), Retires i s gid sl g ((s.setEntry die n { e with pjoin := e.pjoin ++ [gid] }).setGroup gid G) ∧
            G.readH h.toNat = userHandle die n e.gen ∧ G.readC sl 0 = false ∧ G.readC sl 1 = false ∧
            g.Kept G sl { h := [h.toNat], c := [0, 1] }) ∧
        (e.op = p → e.ty = y → (e.isMember gid = true ∨ gid ∈ e.pjoin) →
          ∃ (G : Group), Completes i s gid sl g G ∧ G.readH h.toNat = userHandle die n e.gen ∧ G.readC sl 0 = false ∧
            G.readC sl 1 = false ∧ g.Kept G sl { h := [h.toNat], c := [0, 1] })) ∧
      (g.readH h.toNat = 0 →
        ((∃ n, s.findKey die ctx key = some n ∧ ((s.entry die n).op ≠ p ∨ (s.entry die n).ty ≠ y)) ∨
         (∃ n, s.findKey die ctx key = some n ∧ (s.entry die n).isMember gid = false ∧ gid ∉ (s.entry die n).pjoin ∧
           1048575 ≤ (s.entry die n).members.length + (s.entry die n).pjoin.length) ∨
         (s.findKey die ctx key = none ∧
           (s.freeSlot die = none ∨ ∃ fn, (s.ctx? g.ctx).map (·.fn) = some fn ∧ s.quota fn ≤ s.heldBy die fn))) →
          (i = .hnew h k y p → ∃ (G : Group), Completes i s gid sl g G ∧ G.readH h.toNat = 0 ∧ G.readC sl 0 = true ∧
            G.readC sl 1 = false ∧ g.Kept G sl { h := [h.toNat], c := [0, 1] }) ∧
          (i = .hnewT h k y p → Faults i s gid sl g (Cause.record ⟨0x0A, 2⟩)))) ∧
    (∀ h k, Issues (.hjoin h k) s gid sl g → g.readH h.toNat = 0 →
      let key := g.readS sl k
      (∀ n < 4096, s.findKey (homeDie key) (BitVec.ofNat 20 g.ctx) key = some n →
        ∃ (G : Group), Retires (.hjoin h k) s gid sl g ((s.join (userHandle (homeDie key) n (s.entry (homeDie key) n).gen) gid).setGroup gid G) ∧
          G.readH h.toNat = userHandle (homeDie key) n (s.entry (homeDie key) n).gen ∧ G.readC sl 0 = false ∧
          g.Kept G sl { h := [h.toNat], c := [0] }) ∧
      (s.findKey (homeDie key) (BitVec.ofNat 20 g.ctx) key = none → ∃ (G : Group), Completes (.hjoin h k) s gid sl g G ∧
        G.readH h.toNat = 0 ∧ G.readC sl 0 = true ∧ g.Kept G sl { h := [h.toNat], c := [0] })) ∧
    (∀ h k, Issues (.hjoinH h k) s gid sl g → g.readH h.toNat = 0 →
      let v : BitVec 32 := BitVec.ofNat 32 (g.readS sl k).toNat
      (handleKind v = 0 → v ≠ 0 → (s.entryOf v).valid = true → (s.entryOf v).gen = handleGen v →
        (s.entryOf v).ctx = BitVec.ofNat 20 g.ctx →
        ∃ (G : Group), Retires (.hjoinH h k) s gid sl g ((s.join v gid).setGroup gid G) ∧ G.readH h.toNat = v ∧
          G.readC sl 0 = false ∧
          g.Kept G sl { h := [h.toNat], c := [0] }) ∧
      (v = 0 → Faults (.hjoinH h k) s gid sl g (Cause.record ⟨0x0A, 4⟩)) ∧
      ((handleKind v = 1 ∨ handleKind v = 2) → Faults (.hjoinH h k) s gid sl g (Cause.record ⟨0x01, 4⟩)) ∧
      ((3 ≤ handleKind v ∨ (handleKind v = 0 ∧ v ≠ 0 ∧ ((s.entryOf v).valid = false ∨ (s.entryOf v).gen ≠ handleGen v ∨
          (s.entryOf v).ctx ≠ BitVec.ofNat 20 g.ctx))) → Faults (.hjoinH h k) s gid sl g (Cause.record ⟨0x0A, 1⟩))) ∧
    (∀ h, Issues (.hleave h) s gid sl g →
      (g.readH h.toNat ≠ 0 → h.toNat < 6 → s.handleOk (g.readH h.toNat) = true →
        ∃ t, s.Releases t gid sl [0, 3] 4 [] ∧
          Retires (.hleave h) s gid sl g ((t.leave (g.readH h.toNat) gid false).modGroup gid (fun g => g.writeH h.toNat 0))) ∧
      (g.readH h.toNat = 0 → Faults (.hleave h) s gid sl g (Cause.record ⟨0x0A, 4⟩)) ∧
      (g.readH h.toNat ≠ 0 → 6 ≤ h.toNat → Faults (.hleave h) s gid sl g (Cause.record ⟨0x01, 4⟩)))

/-- What reaches an entry (R134, R135, R137 to R139, R141): a join waits for the boundary; a leave is an arrival that
the boundary removes, and the leave of a kill breaks the phase; an arrival adds its value and vote, and the one that
completes the phase applies the boundary as one step, gives each waiter its result, and frees a user entry that keeps
no member. An arrival asks for the frozen tiles that the entry counts as absent, and ends the
mark of a group that was awaited there (R74, R143); that a leave in place of an arrival does the same is the model's reading
(log 100). -/
def Obligations.Phases : Prop :=
  ∀ (s : State) (h : BitVec 32) (gid : GroupId),
    let e := s.entryOf h
    let adds (a : Arrival) : SEntry := { e with
      arrived := e.arrived ++ [gid]
      racc := match a.value with
        | some v => combine e.op.toNat (.ofEntry e.ty) e.racc v
        | none => e.racc
      vany := match a.vote with
        | some (x, _, _) => e.vany || x
        | none => e.vany
      vall := match a.vote with
        | some (_, x, _) => e.vall && x
        | none => e.vall
      vcnt := match a.vote with
        | some (_, _, n) => e.vcnt + BitVec.ofNat 32 n
        | none => e.vcnt }
    (e.isMember gid = false → gid ∉ e.pjoin → (s.join h gid).entryOf h = { e with pjoin := e.pjoin ++ [gid] }) ∧
    (gid ∈ e.pjoin → ∀ k, ((s.leave h gid k).entryOf h).pjoin = e.pjoin.filter (· != gid) ∧
      ((s.leave h gid k).entryOf h).members = e.members ∧ ((s.leave h gid k).entryOf h).arrived = e.arrived) ∧
    (gid ∉ e.pjoin → e.isMember gid = true → gid ∉ e.arrived → e.arrived.length + 1 ≠ e.members.length → ∀ k,
      let x := (s.leave h gid k).entryOf h
      x.arrived = e.arrived ++ [gid] ∧ x.pleave = e.pleave ++ [gid] ∧ x.broken = (e.broken || k) ∧ x.racc = e.racc ∧
        x.vcnt = e.vcnt ∧ x.phase = e.phase ∧ x.members = e.members) ∧
    (∀ g u, s.group? gid = some g → ((∃ a, u = s.arrive h gid a) ∨
        (gid ∉ e.pjoin ∧ e.isMember gid = true ∧ gid ∉ e.arrived ∧ ∃ k, u = s.leave h gid k)) →
      (u.group? gid).map (·.urgent) = some (g.urgent.filter (· != h)) ∧
      ∀ c n f, (c, n) ∈ e.absent → n ≠ 0 → (s.core c).frozen = some f →
        ∃ f', (u.core c).frozen = some f' ∧ h ∈ f'.wakes) ∧
    (∀ a, (adds a).arrived.length ≠ e.members.length →
      (s.arrive h gid a).entryOf h = adds a ∧ ∀ k ≠ gid, (s.arrive h gid a).group? k = s.group? k) ∧
    (∀ a, (adds a).arrived.length = e.members.length →
      let e1 := adds a
      let left := e.members.filter (fun k => !e.pleave.contains k) ++ e.pjoin
      let u := s.arrive h gid a
      let e2 := u.entryOf h
      (handleKind h = 0 → left = [] → e2 = { SEntry.reset with gen := e.gen + 1 }) ∧
      ((handleKind h ≠ 0 ∨ left ≠ []) →
        { e2 with absent := e.absent } = { e1 with
          res := e1.racc, rcnt := e1.vcnt, rany := e1.vany, rall := e1.vall, rbrk := e.broken, members := left,
            pjoin := [],
          pleave := [], phase := e.phase + 1, arrived := [], broken := false,
          racc := identity e.op.toNat (.ofEntry e.ty), vcnt := 0, vany := false, vall := true, waiters := [] }) ∧
      ∀ k x ph ret (sl : SlotId), k ∈ e.waiters → s.group? k = some x → x.wait = some (.phase h ph ret sl) →
        (u.group? k).map (·.wait) = some (some (.result h ret sl e1.racc e1.vcnt e1.vany e1.vall e.broken)))

/-- The words that arrive, wait and read (R137, R139, R140, R344, R345): an arrival that its entry admits is applied
with the group's value or vote, and the waiting forms wait for the phase, or are held until the entry admits them, and
the completion writes their results; `harv` goes on with the phase; `hwait` waits only while the phase is the one
given. An arrival is a release over core and sync events, and a return an acquire (R172; what the model keeps of the order is
log 99). `hvote` and `hred` take every lane of the slot, whatever the guard (R257, R339). A handle word raises the illegal-scope
fault with detail 7 in a diverged group, and one that needs a handle the stale-handle fault with detail 4 on a null one and detail 1
on a stale one (R113, R133, R340). The events of the synchronisation units (R132, R134, R135,
R138, R140, R141, R344): an arrival held at its core is applied once the entry admits it; a join or a leave reaches
its entry; the completion lets a group of a tile that is not frozen, which may run, go on with the broken mark in c0
and what its form returns. -/
def Obligations.HandleArrivals : Prop :=
  (∀ (s : State) (gid : GroupId) (sl : SlotId) (g : Group) h, g.diverged = false →
     let v := g.readH h.toNat
     let e := s.entryOf v
     v ≠ 0 → s.handleOk v = true →
     let waits (t : State) (w : Wait) : State := t.setGroup gid (g.waitIn sl w)
     let vote (p : Nat) : Option (Bool × Bool × Nat) :=
       let m := g.lanes sl
       let t := g.lanes sl &&& g.readP p
       if m = 0 then none else some (decide (t ≠ 0), decide (t = m), countOf t)
     (∀ d, Issues (.harv h d) s gid sl g → e.admits gid = true →
       ∃ (t : State) (G : Group), s.Releases t gid sl [0, 3] 4 [] ∧
         Retires (.harv h d) s gid sl g ((t.setGroup gid (G.send sl)).arrive v gid ⟨none, none⟩) ∧
         (G.readS sl d).toNat = e.phase.toNat ∧ g.Kept G sl { s := [d.toNat] }) ∧
     (∀ d, Issues (.harv h d) s gid sl g → e.admits gid = false →
       ∃ (t : State), s.Releases t gid sl [0, 3] 4 [] ∧ exec (.harv h d) s =
         .next ((waits t (.held v (some d) none sl)).putEntry v { e with held := e.held ++ [(gid, ⟨none, none⟩)] })) ∧
     (∀ (i : Instr) a ret, ((i = .hbar h ∧ a = ⟨none, none⟩ ∧ ret = .bar) ∨ (∃ p d, i = .hvote h p d ∧ a = ⟨none,
       vote p.toNat⟩ ∧ ret = .vote d) ∨
         (∃ r d, i = .hred h r d e.ty e.op ∧ g.Ready (if e.ty = 2 then [r.toNat, r.toNat + 1] else [r.toNat]) ∧
           a = ⟨some (partialValue g (g.lanes sl) r.toNat e.op.toNat (.ofEntry e.ty)), none⟩ ∧ ret = .red d)) →
       Issues i s gid sl g →
       ∃ (t : State), s.Releases t gid sl [0, 3] 4 [] ∧
       (e.admits gid = true → exec i s = .next (((waits t (.phase v e.phase ret sl)).addWaiter v gid).arrive v gid a)) ∧
       (e.admits gid = false → exec i s =
         .next ((waits t (.held v none (some ret) sl)).putEntry v { e with held := e.held ++ [(gid, a)] }))) ∧
     (∀ r d y p, Issues (.hred h r d y p) s gid sl g → g.Ready (if y = 2 then [r.toNat, r.toNat + 1] else [r.toNat]) →
       (e.op ≠ p ∨ e.ty ≠ y) → Faults (.hred h r d y p) s gid sl g (Cause.record ⟨0x01, 9⟩)) ∧
     (∀ a, Issues (.hwait h a) s gid sl g →
       (e.phase.toNat ≠ (g.readS sl a).toNat % 4 → ∃ (t : State) (G : Group), s.Acquires t gid sl [.phase v (e.phase - 1)] [0, 3] 4 [] ∧
         Retires (.hwait h a) s gid sl g (t.setGroup gid G) ∧ G.readC sl 0 = e.rbrk ∧ g.Kept G sl { c := [0] }) ∧
       (e.phase.toNat = (g.readS sl a).toNat % 4 →
         exec (.hwait h a) s = .next ((waits s (.phase v e.phase .wait sl)).addWaiter v gid))) ∧
     (∀ d n, Issues (.hinfo h d n) s gid sl g → ∃ (G : Group), Completes (.hinfo h d n) s gid sl g G ∧
       g.Kept G sl { s := [d.toNat] } ∧
       (handleKind v = 0 → n = 0 → G.readS sl d = e.key) ∧
       (handleKind v = 0 → n = 1 →
         (G.readS sl d).toNat = e.ctx.toNat + e.gen.toNat * 2 ^ 20 + e.op.toNat * 2 ^ 34 + e.ty.toNat * 2 ^ 37 +
         e.phase.toNat * 2 ^ 39 + e.broken.toNat * 2 ^ 41 + e.parked.toNat * 2 ^ 42 + e.valid.toNat * 2 ^ 43 +
         e.members.length % 2 ^ 20 * 2 ^ 44) ∧
       (n = 4 → G.readS sl d = e.racc) ∧ (n = 6 → G.readS sl d = e.res) ∧
       (n = 5 → (G.readS sl d).toNat = e.vcnt.toNat + e.vany.toNat * 2 ^ 32 + e.vall.toNat * 2 ^ 33) ∧
       (n = 7 → (G.readS sl d).toNat =
         e.rcnt.toNat + e.rany.toNat * 2 ^ 32 + e.rall.toNat * 2 ^ 33 + e.rbrk.toNat * 2 ^ 34))) ∧
  (∀ (i : Instr) (s : State) (gid : GroupId) (sl : SlotId) (g : Group) h, Issues i s gid sl g →
     (i = .hbar h ∨ (∃ a d, i = .hvote h a d) ∨ (∃ a, i = .hwait h a) ∨ (∃ d, i = .harv h d) ∨ (∃ d n, i = .hinfo h d n) ∨
       (i = .hleave h ∧ h.toNat < 6) ∨
       (∃ r d y p, i = .hred h r d y p ∧ g.Ready (if y = 2 then [r.toNat, r.toNat + 1] else [r.toNat])) →
       (g.diverged = true → Faults i s gid sl g (Cause.record ⟨0x02, 7⟩)) ∧
       (g.diverged = false → g.readH h.toNat = 0 → Faults i s gid sl g (Cause.record ⟨0x0A, 4⟩)) ∧
       (g.diverged = false → g.readH h.toNat ≠ 0 → s.handleOk (g.readH h.toNat) = false →
         Faults i s gid sl g (Cause.record ⟨0x0A, 1⟩))) ∧
     ((∃ k y p, i = .hnew h k y p ∨ i = .hnewT h k y p) ∨ (∃ k, i = .hjoin h k ∨ i = .hjoinH h k) → g.diverged = true →
       Faults i s gid sl g (Cause.record ⟨0x02, 7⟩))) ∧
  (∀ (s : State) (gid : GroupId) (g : Group), s.group? gid = some g →
     (∀ v ret (sl : SlotId) a, g.wait = some (.held v none (some ret) sl) →
       (s.entryOf v).held.find? (fun x => decide (x.1 = gid)) = some (gid, a) →
       (s.entryOf v).admits gid = true →
       let s1 : State := s.putEntry v { s.entryOf v with held := (s.entryOf v).held.filter (fun x => x.1 != gid) }
       exec (.syncArrival gid) s = .next (((s1.setGroup gid { g with wait := some (.phase v (s.entryOf v).phase ret sl) }).addWaiter v gid).arrive v
         gid a)) ∧
     (∀ v (sl : SlotId) d a, g.wait = some (.held v (some d) none sl) → d.toNat < 32 → (sl = .b → g.b.isSome = true) →
       (s.entryOf v).held.find? (fun x => decide (x.1 = gid)) = some (gid, a) →
       (s.entryOf v).admits gid = true →
       let s1 : State := s.putEntry v { s.entryOf v with held := (s.entryOf v).held.filter (fun x => x.1 != gid) }
       ∃ (G : Group), exec (.syncArrival gid) s =
           .next (((s1.setGroup gid G).arrive v gid a).retire gid sl (g.slot sl).pc.next) ∧
         (G.readS sl d).toNat = (s.entryOf v).phase.toNat ∧ g.Kept G sl { s := [d.toNat] }) ∧
     (∀ die slot, (s.entry die.val slot.val).valid = true → (s.entry die.val slot.val).ctx = BitVec.ofNat 20 g.ctx →
       exec (.syncJoin gid die slot) s = .next (s.join (userHandle die.val slot.val (s.entry die.val slot.val).gen) gid)) ∧
     (∀ die slot k, (s.entry die.val slot.val).valid = true →
       exec (.syncLeave gid die slot k) s = .next (s.leave (userHandle die.val slot.val (s.entry die.val slot.val).gen) gid k)) ∧
     (∀ v ret (sl : SlotId) res cnt any all brk, g.wait = some (.result v ret sl res cnt any all brk) →
       (s.core g.core).frozen = none →
       s.runnable g = true → (sl = .b → g.b.isSome = true) →
       ∃ (t u : State) (G : Group), s.Acquires t gid sl (s.lines gid sl syncClass) [0, 3] 4 [] ∧
         exec (.phaseCompletion gid) s = .next u ∧
         u = (t.setGroup gid G).retire gid sl (g.slot sl).pc.next ∧
         G.readC sl 0 = brk ∧
         ((ret = .bar ∨ ret = .wait) → g.Kept G sl { c := [0] }) ∧
         (∀ d, ret = .vote d → d.toNat < 32 → (G.readS sl d).toNat = cnt.toNat ∧ G.readC sl 1 = any ∧
           G.readC sl 2 = all ∧
           g.Kept G sl { s := [d.toNat], c := [0, 1, 2] }) ∧
         (∀ d, ret = .red d → d.toNat < 32 → G.readS sl d = extendRed (.ofEntry (s.entryOf v).ty) res ∧
           g.Kept G sl { s := [d.toNat], c := [0] })))

/-- The stage rings (R116, R346): `qfill` fills an empty stage, `qdrain` empties a full one and turns its phase over,
`qwait` goes on once the phase differs; each waits otherwise, and faults at a stage the ring does not have or in a
diverged group. A fill is a release over core and matrix events at team scope, a drain an acquire of what the fill has
released, and a wait that goes on of what the drain has (R172; what the model keeps of the order is log 99). -/
def Obligations.StageRings : Prop :=
  ∀ (s : State) (gid : GroupId) (sl : SlotId) (g : Group) (t : Team), s.team? gid.teamKey = some t →
    (∀ (i : Instr) r k, (i = .qfill r k ∨ i = .qdrain r k ∨ ∃ f, i = .qwait r k f) → Issues i s gid sl g →
      (g.diverged = true → Faults i s gid sl g (Cause.record ⟨0x02, 7⟩)) ∧
      (g.diverged = false → t.stages ≤ (g.readS sl k).toNat → Faults i s gid sl g (Cause.record ⟨0x01, 8⟩))) ∧
    (∀ r k, r.toNat < 4 → g.diverged = false →
      let n := (g.readS sl k).toNat
      n < t.stages → n < 8 →
      let becomes (u : Team) (full phase : Bool) : Prop := u.stageFull r.toNat n = full ∧
        u.stagePhase r.toNat n = phase ∧
        (∀ q' < 4, ∀ n' < 8, (q' ≠ r.toNat ∨ n' ≠ n) → u.stageFull q' n' = t.stageFull q' n' ∧
          u.stagePhase q' n' = t.stagePhase q' n') ∧
        { u with ringF := t.ringF, ringP := t.ringP } = t
      (Issues (.qfill r k) s gid sl g → t.stageFull r.toNat n = false →
        ∃ (v : State) (u : Team), s.Releases v gid sl [0, 2] 1 [.fill gid.teamKey r.toNat n] ∧
          Retires (.qfill r k) s gid sl g (v.setTeam gid.teamKey u) ∧
          becomes u true (t.stagePhase r.toNat n)) ∧
      (Issues (.qfill r k) s gid sl g → t.stageFull r.toNat n = true → Waits (.qfill r k) s gid sl .ring) ∧
      (Issues (.qdrain r k) s gid sl g → t.stageFull r.toNat n = true →
        ∃ (v : State) (u : Team), s.Acquires v gid sl [.fill gid.teamKey r.toNat n] [0, 2] 1 [.drain gid.teamKey r.toNat n] ∧
          Retires (.qdrain r k) s gid sl g (v.setTeam gid.teamKey u) ∧
          becomes u false (!t.stagePhase r.toNat n)) ∧
      (Issues (.qdrain r k) s gid sl g → t.stageFull r.toNat n = false → Waits (.qdrain r k) s gid sl .ring) ∧
      (∀ f, Issues (.qwait r k f) s gid sl g →
        (t.stagePhase r.toNat n ≠ f → ∃ v, s.Acquires v gid sl [.drain gid.teamKey r.toNat n] [0, 2] 1 [] ∧
          Retires (.qwait r k f) s gid sl g v) ∧
        (t.stagePhase r.toNat n = f → Waits (.qwait r k f) s gid sl .ring)))

/-! ### The matrix unit -/

/-- `mma` (R86, R238 to R240, R347, R353, R361): without leave it asks for it and waits. Once the checks of R352 pass
and its elements are read, each element of the tile in a masked row, from the restart row on, and a masked column
takes the step, unless the depth mask is 0, when no element is in play: for floats RoundTo acc48 of the exact sum of the 16 products and of the element, which FLAGS leaves
out when it says so; for integers the sum modulo 2^32. Every other element stays, mrp is 0, and the step takes the
grant. `mma.j` enters its latch (R117, R356), and when the last member of its squad has entered, every member's tile takes its
step, with one fetch of A, and every member retires; where the members do not agree each takes the fault of detail 5, as those that
wait for a member do when that one ends, and so does a word whose squad breaks R117. The issue makes the quadrant leave
near-threshold mode (R82). The reads
of a matrix word see the memory as it stands, or behind writes of the group that nothing has ordered before its matrix
events (R171, R174): one view for the word, or for the squad (R378), of which the model chooses what it keeps (log 99). Operations on
tiles and slots are events of the matrix class there (R364). That leave is asked for before
the checks, and that a depth mask of 0 leaves no element in play, are the model's reading (log 73, log 72). -/
def Obligations.DepthSteps : Prop :=
  (∀ (s : State) (gid : GroupId) (sl : SlotId),
    let v := (s.viewFor gid sl 2).1.mem
    s.ReadsOnly (s.viewFor gid sl 2).2 ∧ s.OnlyMemory v ∧
    (∀ p b, readPlace v p 1 = [b] → s.Seen gid sl 2 p b) ∧
    ∀ p, s.Settled gid sl 2 p 1 → readPlace v p 1 = readPlace s p 1) ∧
  (∀ (s : State) ms half reads writes, s.TileOrders (s.tileEvent ms half reads writes) ms half reads writes) ∧
  (∀ (s : State) (gid : GroupId) (g : Group), gid.isDebug = false → s.group? gid = some g →
    let home := s.homeCore gid g
    let waits (l : Latched) : Bool := l.group.teamKey == gid.teamKey && l.group != gid && l.memb.getLsbD gid.grp
    ∃ (u : State), u.group? gid = none ∧ (∀ l ∈ (u.core home).latch, waits l = false) ∧
      s.finishGroup gid = ((s.core home).latch.filter waits).foldl (fun u l =>
        match u.group? l.group with
        | some x => (u.recharge x.core 16 1).takeStop l.group l.slot (Cause.record ⟨0x01, 5⟩) (x.slot l.slot).pc
        | none => u) u) ∧
  (∀ (s : State) (gid : GroupId) (sl : SlotId) (g : Group) (t : Team) m a b c, s.team? gid.teamKey = some t →
    let w := g.coords sl c
    let k := s.core g.core
    let v := (s.viewFor gid sl 2).1.mem
    let from_ (x : Group) (n : Nat) : Prop := x.mrp.getLsbD 4 = false ∨ x.mrp.toNat % 16 ≤ n
    let whole (x : Tile) : Prop := (∀ l, x = .floating l → l.length = 256) ∧ ∀ l, x = .integer l → l.length = 256
    let stepped (w : Coords) (floating : Bool) (tile : Tile) (av bv : List Sys2Proof.Machine.Num) (n j : Nat) : Nat :=
      if floating then floatStep (if w.fl.getLsbD 0 then none else some (tile.value (16 * n + j))) (spread w.dm av) (columnOf w bv j)
      else intStep (if w.fl.getLsbD 0 then 0 else (tile.value (16 * n + j)).asInt) (spread w.dm av) (columnOf w bv j)
    (∀ (i : Instr), i = .mma m a b c ∨ i = .mmaJ m a b c → Issues i s gid sl g → k.mayStep s.timer = false →
      ∃ (u : State), exec i s = .next (u.modGroup gid (·.waitIn sl .leave)) ∧
        u.groups = s.groups ∧ u.teams = s.teams ∧ s.SameMemory u ∧ (∃ x, (u.core g.core).leave = .asked x) ∧
        ((∀ x, k.leave ≠ .asked x) → g.core ∈ (u.die (g.core / 96)).leaveQ)) ∧
    (∀ x y tile bv (av : Nat → List Sys2Proof.Machine.Num), Issues (.mma m a b c) s gid sl g →
      k.mayStep s.timer = true →
      mmaReady v gid g t m a b w = .ok (x, y, tile) → fetchB v gid y w = .ok bv →
      (∀ n < 16, w.rm.getLsbD n = true → w.cm ≠ 0 → fetchElems v gid x true (w.aElems n) = .ok (av n)) → whole tile →
      ∃ (s1 : State), MatrixRetires (.mma m a b c) s gid sl g s1 ∧ s.SameMemory s1 ∧
        (s1.group? gid) = some { g with mrp := 0 } ∧ (∀ n, n ≠ gid → s1.group? n = s.group? n) ∧
        (s1.core g.core).stepped = some s.timer ∧
        (s1.core g.core).leave = (if k.leave = .half ∨ k.leave = .full then k.leave else .half) ∧
        ∃ (u : Team), s1.team? gid.teamKey = some u ∧ { u with tileT := t.tileT } = t ∧
          (∀ n, n ≠ m.toNat → u.tile g n = t.tile g n) ∧
          ∀ n < 16, ∀ j < 16, (u.tile g m.toNat).bits (16 * n + j) =
            if w.dm ≠ 0 ∧ w.rm.getLsbD n ∧ from_ g n ∧ w.cm.getLsbD j then stepped w x.floating tile (av n) bv n j
            else tile.bits (16 * n + j)) ∧
    (∀ x y tile, Issues (.mmaJ m a b c) s gid sl g → k.mayStep s.timer = true → mmaReady v gid g t m a b w = .ok (x,
      y, tile) →
      let me : Latched := { group := gid, slot := sl, m := m.toNat, za := a.toNat, zb := b.toNat, cs := g.readS sl (c.zeroExtend 6),
                            ct := g.readS sl (c.zeroExtend 6 + 1), memb := g.squad }
      let latch := (s.core t.core).latch.filter (fun x => !(x.group == gid && x.slot == sl)) ++ [me]
      (squadOk s gid g = false → MatrixFaults (.mmaJ m a b c) s gid sl g (Cause.record ⟨0x01, 5⟩)) ∧
      (squadOk s gid g = true → readySquad latch gid.teamKey = none →
        ∃ (u : State), exec (.mmaJ m a b c) s = .next u ∧ (u.core t.core).latch = latch ∧ u.teams = s.teams ∧
          s.SameMemory u ∧ u.groups = (s.setGroup gid (g.waitIn sl .latch)).groups) ∧
      (∀ ms, squadOk s gid g = true → readySquad latch gid.teamKey = some ms →
        let rest := latch.filter (fun l => !ms.contains l)
        let fired := (((s.viewFor gid sl 2).2.setGroup gid (g.waitIn sl .latch)).modCore t.core (fun k => { k with
          latch := latch })).modCore t.core (fun k => { k with latch := rest })
        let named (l : Latched) (x : Group) : Prop := l ∈ ms ∧ fired.group? l.group = some x
        (∀ l ∈ ms, ∃ x, named l x) →
        ((∃ l x l' x', named l x ∧ named l' x' ∧ l.agrees l' x.core x'.core = false) →
          exec (.mmaJ m a b c) s = Out.leaves (.next (ms.foldl (fun u l =>
            match u.group? l.group with
            | some x => (u.unlatch l x 16).takeStop l.group l.slot (Cause.record ⟨0x01, 5⟩) (x.slot l.slot).pc
            | none => u) fired)) gid g) ∧
        ((∀ l x l' x', named l x → named l' x' → l.agrees l' x.core x'.core = true) →
          ∀ l0 x0 z (av bv : Nat → List Sys2Proof.Machine.Num), ms.head? = some l0 → named l0 x0 → t.slotOf x0 l0.za = some z →
          let seen := (fired.viewBy (fired.jointEvent ms)).1.mem
          (∀ n < 16, (Coords.of l0.cs l0.ct).rm.getLsbD n = true →
            fetchElems seen l0.group z true ((Coords.of l0.cs l0.ct).aElems n) = .ok (av n)) →
          (∀ l x, named l x → (∃ y, t.slotOf x l.zb = some y ∧
            fetchB seen l.group y (Coords.of l.cs l.ct) = .ok (bv l.group.grp)) ∧
            whole (t.tile x l.m) ∧ (t.tile x l.m).accepts z.floating = true ∧ (l.slot = .b → x.b.isSome = true)) →
          (∀ l x l' x', named l x → named l' x' → (x.half, l.m) = (x'.half, l'.m) → l = l') →
          ∃ (u : State) (T : Team), exec (.mmaJ m a b c) s = .next u ∧ s.SameMemory u ∧ (u.core t.core).latch = rest ∧
            u.team? gid.teamKey = some T ∧ { T with tileT := t.tileT } = t ∧
            (∀ q, (∀ l ∈ ms, l.group ≠ q) → u.group? q = s.group? q) ∧
            (∀ l x, named l x → ∃ X, u.group? l.group = some X ∧ (X.slot l.slot).pc = (x.slot l.slot).pc.next ∧
              (X.slot l.slot).hold = none ∧ X.mrp = 0 ∧
              ∀ n < 16, ∀ j < 16, (T.tile x l.m).bits (16 * n + j) =
                let w := Coords.of l.cs l.ct
                if w.dm ≠ 0 ∧ w.rm.getLsbD n ∧ from_ x n ∧ w.cm.getLsbD j then
                  stepped w z.floating (t.tile x l.m) (av n) (bv l.group.grp) n j
                else (t.tile x l.m).bits (16 * n + j)) ∧
            ∀ h q, (∀ l x, named l x → (x.half, l.m) ≠ (h, q)) → T.tileT.find (h, q) = t.tileT.find (h, q)))))

/-- Tensor slots, squads and whole tiles (R348, R349, R355, R357), the moves between a tile and lanes (R360), and the
grants of the power budget (R86, R363): `zld` loads a slot from 64 bytes that pass the checks of R349; `mzero` zeroes
a tile; `mrd` and `mwr` move rows q to q+3 modulo 16, a lane an element; `leave` asks ahead of time. `mld` and `mst`
from their first row, where every element's place is within the slot, aligned and reached (R241, R350, R352, R358,
R359): `mld` loads each element of the window, 48 or 32 bits of it, and keeps the others; `mst` writes each element's
bytes, of the pattern itself or of RoundTo of its value times its row's and column's scale, to its place and nothing
else, where the group's earlier writes to these places are ordered before it, and otherwise before or after these (R174), and FLAGS
gain what the roundings raise. Reads see the memory as `DepthSteps` says of a matrix word, and every
one of these words makes the quadrant leave near-threshold mode (R82). (A window of several rows is taken into the scratchpad without
indirection, where no row's store can change how the next one is reached.) The grants of leave (R86): the oldest
request of a die is granted; a grant that `leave` obtained lapses; the half-rate time of a unit ends. -/
def Obligations.SlotsTiles : Prop :=
  (∀ (s : State) (gid : GroupId) (sl : SlotId) (g : Group) (t : Team), s.team? gid.teamKey = some t →
     let row (c : BitVec 5) (l : Nat) : Nat := 16 * (((g.readS sl (c.zeroExtend 6)).toNat + l / 16) % 16) + l % 16
     (∀ z b n p, Issues (.zld z b n) s gid sl g →
       let a := g.readS sl (b.zeroExtend 6) + BitVec.ofNat 64 (n.toNat * 64)
       (∀ x, checkAddr s gid .read false 64 a = .error x → MatrixUnreached (.zld z b n) s gid sl g 2 (x, 0, a)) ∧
       (checkAddr s gid .read false 64 a = .ok p →
         ∃ (v : State) (bs : List Byte), s.ReadsOnly v ∧ s.SeenAll gid sl 2 p 64 bs ∧
         (s.Settled gid sl 2 p 64 → bs = readPlace s p 64) ∧
         let num (o k : Nat) : Nat := leNat ((bs.drop o).take k)
         (descriptorBad bs = true → MatrixFaults (.zld z b n) s gid sl g (Cause.record ⟨0x01, 2⟩)) ∧
         (descriptorBad bs = false →
           ∃ (u : Team) (x : TSlot), MatrixRetires (.zld z b n) s gid sl g (v.setTeam gid.teamKey u) ∧
             { u with slotT := t.slotT } = t ∧
             u.slotOf g z.toNat = some x ∧ (∀ k, k ≠ z.toNat → u.slotOf g k = t.slotOf g k) ∧
             x.base.toNat = num 0 8 ∧ x.rstride.toNat = num 8 4 ∧ x.cstride.toNat = num 12 2 ∧ x.mcg.toNat = num 14 1 ∧
             x.mce.toNat = num 15 1 ∧
             x.rows.toNat = num 16 3 ∧ x.cols.toNat = num 20 3 ∧ x.fmt.toNat = num 24 4 ∧ x.scbase.toNat = num 32 8 ∧
             x.rsbase.toNat = num 40 8 ∧ x.csbase.toNat = num 48 8 ∧ x.ind.toNat = num 56 8))) ∧
     (∀ m, Issues (.mzero m) s gid sl g → ∃ (u : Team),
       MatrixRetires (.mzero m) s gid sl g ((s.tileEvent [(gid, sl)] g.half [] [m.toNat]).setTeam gid.teamKey u) ∧
       { u with tileT := t.tileT } = t ∧ u.tile g m.toNat = .zero ∧ ∀ k, k ≠ m.toNat → u.tile g k = t.tile g k) ∧
     (∀ a, Issues (.sqset a) s gid sl g →
       MatrixCompletes (.sqset a) s gid sl g { g with squad := BitVec.ofNat 32 (g.readS sl a).toNat }) ∧
     (∀ d, Issues (.sqget d) s gid sl g → ∃ (G : Group), MatrixCompletes (.sqget d) s gid sl g G ∧
       (G.readS sl d).toNat = g.squad.toNat ∧
       g.Kept G sl { s := [d.toNat] }) ∧
     (∀ m v c, Issues (.mrd m v c) s gid sl g → g.Writable (occupies (g.ty sl) v.toNat) →
       ((t.tile g m.toNat).accepts (g.ty sl == 12) = false → MatrixFaults (.mrd m v c) s gid sl g (Cause.record ⟨0x01, 2⟩)) ∧
       ((t.tile g m.toNat).accepts (g.ty sl == 12) = true → g.active sl = 0 → MatrixCompletes (.mrd m v c) s gid sl g g) ∧
       ((t.tile g m.toNat).accepts (g.ty sl == 12) = true → g.active sl ≠ 0 →
         ∃ (G : Group),
           MatrixRetires (.mrd m v c) s gid sl g ((s.tileEvent [(gid, sl)] g.half [m.toNat] []).setGroup gid G) ∧
           g.Pending G sl (laneWords (g.ty sl) v.toNat (fun l => (t.tile g m.toNat).bits (row c l))) ∧
           g.Kept G sl { v := occupies (g.ty sl) v.toNat, wb := true })) ∧
     (∀ m v c, Issues (.mwr m v c) s gid sl g → g.Ready (occupies (g.ty sl) v.toNat) →
       ((t.tile g m.toNat).accepts (g.ty sl == 12) = false → MatrixFaults (.mwr m v c) s gid sl g (Cause.record ⟨0x01, 2⟩)) ∧
       ((t.tile g m.toNat).accepts (g.ty sl == 12) = true →
         (∀ l, t.tile g m.toNat = .floating l → l.length = 256) → (∀ l, t.tile g m.toNat = .integer l →
           l.length = 256) →
         ∃ (u : Team), MatrixRetires (.mwr m v c) s gid sl g
             ((s.tileEvent [(gid, sl)] g.half [m.toNat] [m.toNat]).setTeam gid.teamKey u) ∧ { u with tileT := t.tileT } = t ∧
           (∀ k, k ≠ m.toNat → u.tile g k = t.tile g k) ∧
           (∀ l < 64, (g.active sl).getLsbD l = true → (u.tile g m.toNat).bits (row c l) = g.rawV (g.ty sl) v.toNat l) ∧
           ∀ k < 256, (∀ l < 64, (g.active sl).getLsbD l = true → k ≠ row c l) →
             (u.tile g m.toNat).bits k = (t.tile g m.toNat).bits k)) ∧
     (Issues .leave s gid sl g →
       (((s.core g.core).stepping s.timer = true ∨ (∃ x,
         (s.core g.core).leave = .granted x ∨ (s.core g.core).leave = .asked x)) →
         MatrixCompletes .leave s gid sl g g) ∧
       ((s.core g.core).stepping s.timer = false → (∀ x, (s.core g.core).leave ≠ .granted x ∧
         (s.core g.core).leave ≠ .asked x) →
         ∃ (s1 : State), MatrixRetires .leave s gid sl g s1 ∧ s1.groups = s.groups ∧ s.SameMemory s1 ∧
           (s1.core g.core).leave = .asked true ∧
           g.core ∈ (s1.die (g.core / 96)).leaveQ))) ∧
  (∀ (s : State) (gid : GroupId) (sl : SlotId) (g : Group) (t : Team) m a c, s.team? gid.teamKey = some t →
    s.memOk → g.mrp.getLsbD 4 = false →
     let w := g.coords sl c
     let tile := t.tile g m.toNat
     let v := (s.viewFor gid sl 2).1.mem
     (∀ l, tile = .floating l → l.length = 256) → (∀ l, tile = .integer l → l.length = 256) →
     w.rsv = 0 → w.k0 = 0 → w.dm = 0 → ∀ z, t.slotOf g a.toNat = some z →
     (∀ (at_ : Nat → Nat → Word) (p : Nat → Nat → Place) n,
       (∀ x < 16, ∀ y < 16, w.rm.getLsbD x = true → w.cm.getLsbD y = true → w.row0 + x < z.rows.toNat ∧
         w.col0 + y < z.cols.toNat ∧
         elemAddr v gid z (w.row0 + x) (w.col0 + y) (8 * n) = .ok (at_ x y, 0) ∧ (at_ x y).toNat % n = 0) →
       (Issues (.mld m a c) s gid sl g → w.fl.extractLsb' 1 15 = 0#15 → n = (if w.fl.getLsbD 0 then 4 else 8) →
         tile.accepts (!w.fl.getLsbD 0) = true →
         (∀ x < 16, ∀ y < 16, w.rm.getLsbD x = true → w.cm.getLsbD y = true →
           matPlace v gid .read n (at_ x y) = .ok (p x y)) →
         ∃ (s1 : State) (u : Team), MatrixRetires (.mld m a c) s gid sl g s1 ∧ s.SameMemory s1 ∧
           s1.group? gid = some { g with mrp := 0 } ∧
           s1.team? gid.teamKey = some u ∧ { u with tileT := t.tileT } = t ∧
           ∀ x < 16, ∀ y < 16, (u.tile g m.toNat).bits (16 * x + y) =
             if w.rm.getLsbD x ∧
               w.cm.getLsbD y then leNat (readPlace v (p x y) n) % (if w.fl.getLsbD 0 then 2 ^ 32 else 2 ^ 48)
             else tile.bits (16 * x + y)) ∧
       (∀ b r (zs : TSlot) (rs cs : Nat → Sys2Proof.Machine.Num), Issues (.mst m a b c r) s gid sl g →
         t.slotOf g b.toNat = some zs →
         let out := w.fl.toNat % 8
         let sat := w.fl.getLsbD 3
         out < 5 → w.fl.extractLsb' 4 12 = 0#12 → n = (if out = 1 ∨ out = 2 then 2 else if out = 3 then 8 else 4) →
         (out = 3 → tile.accepts true = true) → (out = 4 → tile.accepts false = true) → z.mce = false →
         (∀ x < 16, ∀ y < 16, w.rm.getLsbD x = true → w.cm.getLsbD y = true →
           matPlace v gid .write n (at_ x y) = .ok (p x y)) →
         (∀ x < 16, ∀ y < 16, ∀ x' < 16, ∀ y' < 16, w.rm.getLsbD x = true → w.cm.getLsbD y = true →
           w.rm.getLsbD x' = true →
           w.cm.getLsbD y' = true → p x y = p x' y' → x = x' ∧ y = y') →
         (out < 3 → (∀ x < 16, w.rm.getLsbD x = true → scaleEntry v gid zs.rsbase (w.row0 + x) = .ok (rs x)) ∧
           ∀ y < 16, w.cm.getLsbD y = true → scaleEntry v gid zs.csbase (w.col0 + y) = .ok (cs y)) →
         ((∃ x0, ∀ x < 16, w.rm.getLsbD x = true → x = x0) ∨ (z.ind = 0 ∧ (out < 3 → zs.rsbase = 0) ∧
           ∀ x < 16, ∀ y < 16, w.rm.getLsbD x = true → w.cm.getLsbD y = true → ∃ k off, p x y = .spad k off)) →
         let res (x y : Nat) : Nat × Flags :=
           if out = 3 ∨ out = 4 then (tile.bits (16 * x + y), 0)
           else (if out = 0 then fmtF32 else if out = 1 then fmtF16 else fmtBf16).round r.toNat sat
             (((tile.value (16 * x + y)).mul (rs x)).mul (cs y))
         let ps : List (Nat × Place) := (List.range 256).filterMap (fun k =>
           if w.rm.getLsbD (k / 16) ∧ w.cm.getLsbD (k % 16) then some (k, p (k / 16) (k % 16)) else none)
         ∃ (s1 : State) (G : Group), MatrixRetires (.mst m a b c r) s gid sl g s1 ∧ s1.group? gid = some { G with mrp := 0 } ∧
           { G with flags := g.flags } = g ∧ s.SameOutside s1 n ps ∧
           (∀ e ∈ ps, ∀ j < n,
             let new := [BitVec.ofNat 8 ((res (e.1 / 16) (e.1 % 16)).1 / 2 ^ (8 * j))]
             (readPlace s1 (e.2.add j) 1 = new ∨ readPlace s1 (e.2.add j) 1 = readPlace s (e.2.add j) 1) ∧
             ((∀ x ∈ ps, s.Settled gid sl 2 x.2 n) → readPlace s1 (e.2.add j) 1 = new)) ∧
           ∀ k < 5, G.flags.getLsbD k = true ↔ g.flags.getLsbD k = true ∨ ∃ e ∈ ps,
             (res (e.1 / 16) (e.1 % 16)).2.getLsbD k = true))) ∧
  (∀ s : State,
     (∀ core rest x, (s.die (s.sel % 4)).leaveQ = core :: rest → (s.core core).leave = .asked x →
       ∃ (u : State), exec .leaveGrant s = .next u ∧ (u.core core).leave = .granted x ∧
         (u.die (s.sel % 4)).leaveQ = rest ∧
         u.groups = s.groups ∧ s.SameMemory u) ∧
     (s.sel < 384 → (s.core s.sel).leave = .granted true → ∃ (u : State), exec .leaveLapse s = .next u ∧
       (u.core s.sel).leave = .idle ∧
       u.groups = s.groups ∧ s.SameMemory u) ∧
     (s.sel < 384 → (s.core s.sel).leave = .half → ∃ (u : State), exec .halfRateEnd s = .next u ∧
       (u.core s.sel).leave = .full ∧
       u.groups = s.groups ∧ s.SameMemory u))

/-! ### System words -/

/-- `mode` writes the issuing slot's mode register (R256, R281), `sprint` the group's standing request (R368), and
`getc` reads a control register by its number (R192, R193, R299, R300). `setc` (R192, R216, R256, R299 to R301): an
accepted value is written; a read-only register, a number that is not assigned for the issuer, a reserved bit or a
field out of its limits raises the illegal-instruction fault with detail 2 and writes nothing. -/
def Obligations.ControlRegisters : Prop :=
  (∀ (s : State) (gid : GroupId) (sl : SlotId) (g : Group),
     (∀ e n p t r sat, Issues (.mode e n p t r sat) s gid sl g →
       ∃ (G : Group), Completes (.mode e n p t r sat) s gid sl g G ∧ g.Kept G sl { mode := true } ∧
         (G.mode sl).toNat = sat.toNat * 2 ^ 11 + r.toNat * 2 ^ 12 + t.toNat * 2 ^ 15 + p.toNat * 2 ^ 19 + n.toNat * 2 ^ 22 + e.toNat * 2 ^ 23) ∧
     (∀ b, Issues (.sprint b) s gid sl g → Completes (.sprint b) s gid sl g { g with sprint := b }) ∧
     (∀ d n, Issues (.getc d n) s gid sl g →
       let reads (x : Nat) : Prop := ∃ (G : Group), Completes (.getc d n) s gid sl g G ∧ (G.readS sl d).toNat = x ∧
         g.Kept G sl { s := [d.toNat] }
       let stops : Prop := Faults (.getc d n) s gid sl g (Cause.record ⟨0x01, 2⟩)
       (n = 0x000 → reads (g.mode sl).toNat) ∧
       (n = 0x001 → reads (g.flags.toNat + g.parked.toNat * 2 ^ 5 + min g.tdepth 3 * 2 ^ 6 + g.dhalt.toNat * 2 ^ 8)) ∧
       (n = 0x002 → g.tdepth = 0 → reads 0) ∧
       (∀ k x lm opc split om slot st r outer other rest, k < 4 → n.toNat = 0x002 + k →
         g.hw = .trap x lm opc split om slot st r outer other :: rest → reads (r.words[k]?.getD 0).toNat) ∧
       (n = 0x006 → reads (g.haltPc.toNat + g.skid.toNat % 2 ^ 4 * 2 ^ 57)) ∧ (n = 0x007 → reads g.mrp.toNat) ∧
       (n = 0x010 → reads (gid.grp % 2 ^ 64)) ∧ (n = 0x011 → reads (gid.team % 2 ^ 64)) ∧
       (n = 0x012 → gid.isDebug = false → reads (gid.gang % 2 ^ 64)) ∧ (n = 0x013 → reads (g.width % 2 ^ 64)) ∧
       (n = 0x014 → reads (g.vcore % 2 ^ 64)) ∧ (n = 0x015 → reads (g.quad % 2 ^ 64)) ∧ (n = 0x016 →
         reads (s.timer % 2 ^ 64)) ∧
       (n = 0x017 → reads (BitVec.ofInt 64 (s.region (g.core / 8)).bal).toNat) ∧
       (∀ (t : Team) k, k < 4 → n.toNat = 0x018 + k → s.team? gid.teamKey = some t →
         (k < t.rings → t.stages < 2 ^ 8 →
           reads ((t.ringF[k]?.getD 0).toNat + (t.ringP[k]?.getD 0).toNat * 2 ^ 8 + t.stages * 2 ^ 16)) ∧
         (t.rings ≤ k → Faults (.getc d n) s gid sl g (Cause.record ⟨0x01, 8⟩))) ∧
       (∀ t : Team, n = 0x020 → s.team? gid.teamKey = some t → reads t.tvec.toNat) ∧
       (∀ c : Context, gid.isDebug = false → s.ctx? g.ctx = some c → (n = 0x021 → reads c.pvbase.toNat) ∧
         (n = 0x022 → reads c.tmbase.toNat) ∧
         (n = 0x023 → reads c.mcbase.toNat) ∧ (n = 0x024 → reads c.trbase.toNat) ∧ (n = 0x025 → reads c.trctl.toNat)) ∧
       (n = 0x026 → reads 0) ∧
       (∀ k, k < 19 → n.toNat = 0x100 + k → reads (((s.core g.core).tdc.find k).getD 0).toNat) ∧
       (∀ k, k < 19 → n.toNat = 0x120 + k → reads (((s.core g.core).tds.find k).getD 0).toNat) ∧
       (n = 0x200 → gid.isDebug = true → reads (s.dbg gid.gang).dctx.toNat) ∧
       (n = 0x201 → gid.isDebug = true → reads (s.dbg gid.gang).dgrid.toNat) ∧
       (∀ k, k < 8 → n.toNat = 0x210 + k → gid.isDebug = true → reads ((s.dbg gid.gang).bpt[k]?.getD 0).toNat) ∧
       (∀ k, k < 32 → n.toNat = 0x220 + k → gid.isDebug = true →
         reads (((s.dbg gid.gang).wpt[k / 2]?.getD 0).toNat / 2 ^ (64 * (k % 2)) % 2 ^ 64)) ∧
       (0x200 ≤ n.toNat → gid.isDebug = false → stops) ∧
       ((0x008 ≤ n.toNat ∧ n.toNat < 0x010 ∨ 0x01C ≤ n.toNat ∧ n.toNat < 0x020 ∨ 0x027 ≤ n.toNat ∧ n.toNat < 0x100 ∨
         0x113 ≤ n.toNat ∧ n.toNat < 0x120 ∨ 0x133 ≤ n.toNat ∧ n.toNat < 0x200 ∨ 0x202 ≤ n.toNat ∧ n.toNat < 0x210 ∨
         0x218 ≤ n.toNat ∧ n.toNat < 0x220 ∨ 0x240 ≤ n.toNat) → stops))) ∧
  (∀ (s : State) (gid : GroupId) (sl : SlotId) (g : Group) d n, Issues (.setc d n) s gid sl g →
     let x := g.readS sl d
     let v := x.toNat
     let stops : Prop := Faults (.setc d n) s gid sl g (Cause.record ⟨0x01, 2⟩)
     (n = 0x000 → (v % 2 ^ 11 = 0 ∧ v < 2 ^ 24 ∧ v / 2 ^ 15 % 16 < 13 ∧ v / 2 ^ 12 % 8 < 5) →
       ∃ (G : Group), Completes (.setc d n) s gid sl g G ∧ (G.mode sl).toNat = v ∧ g.Kept G sl { mode := true }) ∧
     (n = 0x000 → ¬ (v % 2 ^ 11 = 0 ∧ v < 2 ^ 24 ∧ v / 2 ^ 15 % 16 < 13 ∧ v / 2 ^ 12 % 8 < 5) → stops) ∧
     (n = 0x001 → (v < 2 ^ 9 → Completes (.setc d n) s gid sl g { g with flags := BitVec.ofNat 5 v }) ∧ (2 ^ 9 ≤ v →
       stops)) ∧
     (n = 0x007 → (v < 2 ^ 5 → Completes (.setc d n) s gid sl g { g with mrp := BitVec.ofNat 5 v }) ∧ (2 ^ 5 ≤ v →
       stops)) ∧
     (∀ t : Team, n = 0x020 → gid.isDebug = false → s.team? gid.teamKey = some t →
       (v % 4 = 0 → v < 2 ^ 57 → Retires (.setc d n) s gid sl g (s.setTeam gid.teamKey { t with tvec := x })) ∧
       ((v % 4 ≠ 0 ∨ 2 ^ 57 ≤ v) → stops)) ∧
     (∀ c : Context, n = 0x025 → gid.isDebug = false → s.ctx? g.ctx = some c →
       (v < 2 ^ 32 → (v % 2 = 1 → 6 ≤ v / 2 % 32 ∧ v / 2 % 32 ≤ 20) →
         Retires (.setc d n) s gid sl g (s.setCtx g.ctx { c with trctl := x })) ∧
       ((2 ^ 32 ≤ v ∨ (v % 2 = 1 ∧ ¬ (6 ≤ v / 2 % 32 ∧ v / 2 % 32 ≤ 20))) → stops)) ∧
     (n = 0x026 → (v = 0 → Completes (.setc d n) s gid sl g g) ∧
       (v = 1 → Retires (.setc d n) s gid sl g (s.setCore g.core { s.core g.core with tds := (s.core g.core).tdc })) ∧ (2 ≤ v → stops)) ∧
     (gid.isDebug = true →
       (n = 0x200 → (v < 2 ^ 20 →
         Retires (.setc d n) s gid sl g (s.setDbg gid.gang { s.dbg gid.gang with dctx := x })) ∧ (2 ^ 20 ≤ v → stops)) ∧
       (n = 0x201 → v / 2 ^ 42 % 2 ^ 21 = 0 →
         Retires (.setc d n) s gid sl g (s.setDbg gid.gang { s.dbg gid.gang with dgrid := x })) ∧
       (∀ k, k < 8 → n.toNat = 0x210 + k → (v < 2 ^ 58 →
         Retires (.setc d n) s gid sl g (s.setDbg gid.gang { s.dbg gid.gang with bpt := (s.dbg gid.gang).bpt.setIfInBounds k x })) ∧
         (2 ^ 58 ≤ v → stops)) ∧
       (∀ k, k < 16 → (n.toNat = 0x220 + 2 * k ∨ n.toNat = 0x221 + 2 * k) →
         let old := ((s.dbg gid.gang).wpt[k]?.getD 0).toNat
         let ok : Prop := if n.toNat = 0x220 + 2 * k then v / 2 ^ 57 % 16 < 13 ∧
           v % 2 ^ 57 % 2 ^ (v / 2 ^ 57 % 16) = 0 else v % 4 = 0
         (ok → ∃ y : BitVec 128, Retires (.setc d n) s gid sl g
             (s.setDbg gid.gang { s.dbg gid.gang with wpt := (s.dbg gid.gang).wpt.setIfInBounds k y }) ∧
           y.toNat = if n.toNat = 0x220 + 2 * k then old / 2 ^ 64 * 2 ^ 64 + v else old % 2 ^ 64 + v * 2 ^ 64) ∧
             (¬ ok → stops)) ∧
       (n = 0x020 → stops)) ∧
     ((0x002 ≤ n.toNat ∧ n.toNat ≤ 0x006 ∨ 0x008 ≤ n.toNat ∧ n.toNat < 0x020 ∨ 0x021 ≤ n.toNat ∧ n.toNat ≤ 0x024 ∨
       0x027 ≤ n.toNat ∧ n.toNat < 0x200 ∨ 0x202 ≤ n.toNat ∧ n.toNat < 0x210 ∨ 0x218 ≤ n.toNat ∧
         n.toNat < 0x220 ∨ 0x240 ≤ n.toNat ∨
       (0x200 ≤ n.toNat ∧ gid.isDebug = false)) → stops))

/-- `spawn`, `cpost`, `ctake` and `trace` (R75 to R77, R219, R282, R284, R285, R369): a group where a quadrant of the
core has room, with s0 to s7, all lanes, flags of 0 and a base block of full v registers of 0, whose core events follow at
team scope what those of the spawning slot have followed, or all ones and c0; a record
to its home die, or to the overflow area, or c0; the oldest record of the context found from the caller's die upward, which
then leaves its list, or c0; records that wait in overflow move up first where there is room (R77). A trace record where
tracing is on: the index goes up by one and the record is written, where no earlier write of the group to it is unordered. A record's
post is a release and its taking an acquire over core events (R172). The model's own: which group slot a spawned group takes (log 21),
which free record of the overflow area a post takes (log 128), that the two accesses of a trace record meet watchpoints (log 113), and
what it keeps of the order (log 99). -/
def Obligations.SpawnTasksTrace : Prop :=
  ∀ (s : State) (gid : GroupId) (sl : SlotId) (g : Group),
    (∀ d (n : BitVec 18) (t : Team), Issues (.spawn d n) s gid sl g → s.team? gid.teamKey = some t →
      (∀ quad k, s.spawnPlace g.core g.quad g.base g.width = some (quad, k) → t.nextId < 2 ^ 32 → gid.grp ≠ t.nextId →
        ∃ (s1 : State) (G H : Group), Retires (.spawn d n) s gid sl g s1 ∧ s1.group? gid = some G ∧
          s1.group? ⟨gid.grid, gid.gang, gid.team, t.nextId⟩ = some H ∧ (G.readS sl d).toNat = t.nextId ∧
            G.readC sl 0 = false ∧
          g.Kept G sl { s := [d.toNat], c := [0] } ∧ H.spawned = true ∧ H.core = g.core ∧ H.quad = quad ∧
            H.slotNo = k ∧ H.width = g.width ∧
          H.base = g.base ∧ H.ext = 0 ∧ H.split = false ∧
            (H.slot .a).pc = (g.slot sl).pc + BitVec.ofInt 57 (4 * n.toInt) ∧
          H.lanes .a = widthMask g.width ∧ (∀ j < 32,
            (H.slot .a).fork.s[j]? = some (if j < 8 then ((g.slot sl).fork.s[j]?).getD 0 else 0)) ∧
          (∀ j < 4, H.readC .a j = false) ∧
          (∀ j < 64, j < g.base → ∃ r, H.vreg j = some r ∧ r.full = true ∧ ∀ l < 64, r.lanes[l]? = some 0) ∧
          (∀ j, g.base ≤ j → H.vreg j = none) ∧ H.order = s.timer ∧
          H.mode .a = 0 ∧ (∀ j < 8, H.readP j = 0 ∧ H.readH j = 0) ∧ H.flags = 0 ∧ H.depth = 0 ∧ H.view = g.view ∧
          (s1.team? gid.teamKey).map (fun u => (u.nextId, u.live)) = some (t.nextId + 1, t.live + 1) ∧
            s.SameMemory s1 ∧
          (∀ (j : Nat) (r r' : Written), s.ledger.writes[j]? = some r → s1.ledger.writes[j]? = some r' → ∀ y ∈ s.paths gid sl [0],
            ∀ m ≤ 1, r.after.past.At y m → ∀ x ∈ s1.lines ⟨gid.grid, gid.gang, gid.team, t.nextId⟩ .a 0,
              r'.after.knows.At x m)) ∧
      (s.spawnPlace g.core g.quad g.base g.width = none → ∃ (G : Group), Completes (.spawn d n) s gid sl g G ∧
        G.readS sl d = BitVec.allOnes 64 ∧ G.readC sl 0 = true ∧ g.Kept G sl { s := [d.toNat], c := [0] })) ∧
    (∀ a, Issues (.cpost a) s gid sl g →
      let rec_ : Vector Word 4 := #v[g.readS sl a, g.readS sl (a + 1), g.readS sl (a + 2), g.readS sl (a + 3)]
      let w := (g.readS sl a).toNat
      let die := (w / 2 ^ 12 % 4) ^^^ (w / 2 ^ 20 % 4)
      ∃ (t : State), s.Releases t gid sl [0] 4 [.post g.ctx] ∧
      let u := t.refillAll die
      u.groups = s.groups ∧ s.SameMemory u ∧
      (∃ more, (u.die die).tasks = (s.die die).tasks ++ more ∧ ((∀ e ∈ s.contexts, e.2.ovfUsed = []) → more = [])) ∧
      ((u.die die).tasks.length < 4096 → ∃ (s1 : State) (G : Group), Retires (.cpost a) s gid sl g (s1.setGroup gid G) ∧
        (s1.die die).tasks = (u.die die).tasks ++ [⟨g.ctx, rec_⟩] ∧ s1.groups = s.groups ∧ s.SameMemory s1 ∧
        G.readC sl 0 = false ∧ G.readC sl 1 = false ∧ g.Kept G sl { c := [0, 1] }) ∧
      (∀ c : Context, 4096 ≤ (u.die die).tasks.length → u.ctx? g.ctx = some c →
        (c.ovfFree = none → ∃ (G : Group), Retires (.cpost a) s gid sl g (u.setGroup gid G) ∧ G.readC sl 0 = true ∧
          G.readC sl 1 = false ∧
          g.Kept G sl { c := [0, 1] }) ∧
        (∀ k w, c.ovfFree = some k → placeOf u gid .write false 32 k = .error (.hold w) →
          exec (.cpost a) s = .next (u.modGroup gid (·.waitIn sl w))) ∧
        (∀ k b, c.ovfFree = some k → placeOf u gid .write false 32 k = .error b → (∀ w, b ≠ .hold w) →
          Faults (.cpost a) s gid sl g (b.record 0 0 (BitVec.ofNat 64 k))) ∧
        (∀ k p, c.ovfFree = some k → placeOf u gid .write false 32 k = .ok p →
          ∃ (s1 : State) (G : Group), Retires (.cpost a) s gid sl g (s1.setGroup gid G) ∧ s1.groups = s.groups ∧
            (s1.ctx? g.ctx).map (·.ovfUsed) = some (c.ovfUsed ++ [k]) ∧ s.SameOutside s1 32 [(0, p)] ∧
            (∀ pa, p = .phys pa → pa % 32 = 0 → s.memOk → ∀ j < 32,
              readPlace s1 (p.add j) 1 = [(taskBytes rec_)[j]?.getD 0]) ∧
            G.readC sl 0 = false ∧ G.readC sl 1 = true ∧ g.Kept G sl { c := [0, 1] }))) ∧
    (∀ d, Issues (.ctake d) s gid sl g →
      (∀ die t, s.taskAt (g.core / 96) g.ctx = some (die, t) → ∃ (s1 u : State) (G : Group),
        Retires (.ctake d) s gid sl g (s1.setGroup gid G) ∧
        s.Acquires u gid sl [.post g.ctx] [0] 4 [] ∧ s1.ledger = u.ledger ∧
        s1.groups = s.groups ∧ s.SameMemory s1 ∧
        (∃ more, (s1.die die).tasks = (s.die die).tasks.erase t ++ more ∧
          ((∀ e ∈ s.contexts, e.2.ovfUsed = []) → more = [])) ∧
        G.readC sl 0 = false ∧ (∀ k < 4, d.toNat + k < 32 →
          (G.slot sl).fork.s[d.toNat + k]? = some (t.words[k]?.getD 0)) ∧
        g.Kept G sl { s := [d.toNat, d.toNat + 1, d.toNat + 2, d.toNat + 3], c := [0] }) ∧
      (s.taskAt (g.core / 96) g.ctx = none → (s.ctx? g.ctx).all (fun c => c.ovfUsed.isEmpty) = true →
        ∃ (G : Group), Completes (.ctake d) s gid sl g G ∧ G.readC sl 0 = true ∧ g.Kept G sl { c := [0] }) ∧
      (∀ (c : Context) k rest p, s.taskAt (g.core / 96) g.ctx = none → s.ctx? g.ctx = some c → c.ovfUsed = k :: rest →
        placeOf s gid .read false 32 k = .ok p →
        ∃ (u : State) (G : Group), s.Acquires u gid sl [.post g.ctx] [0] 4 [] ∧
          Retires (.ctake d) s gid sl g ((u.setCtx g.ctx { c with ovfUsed := rest }).setGroup gid G) ∧
          G.readC sl 0 = false ∧ (∀ j < 4, d.toNat + j < 32 →
            (G.slot sl).fork.s[d.toNat + j]? = some (BitVec.ofNat 64 (leNat (((readPlace s p 32).drop (8 * j)).take 8)))) ∧
          g.Kept G sl { s := [d.toNat, d.toNat + 1, d.toNat + 2, d.toNat + 3], c := [0] })) ∧
    (∀ a (c : Context), Issues (.trace a) s gid sl g → s.ctx? g.ctx = some c →
      (c.trctl.getLsbD 0 = false → Completes (.trace a) s gid sl g g) ∧
      (c.trctl.getLsbD 0 = true →
        (∀ w, translate s c c.trbase.toNat needWrite = .error (.hold w) → Waits (.trace a) s gid sl w) ∧
        (∀ b, translate s c c.trbase.toNat needWrite = .error b → (∀ w, b ≠ .hold w) → Completes (.trace a) s gid sl g g) ∧
        ∀ pa pb, translate s c c.trbase.toNat needWrite = .ok pa →
        let idx := leNat (physRead s pa 8)
        let at_ := c.trbase.toNat + 64 * (idx % 2 ^ (c.trctl.extractLsb' 1 5).toNat + 1)
        translate s c at_ needWrite = .ok pb → pa % 8 = 0 → pb % 64 = 0 → pa / 64 ≠ pb / 64 →
        s.Settled gid sl 0 (.phys pb) 64 →
        ∃ (u : State), { u with ledger := s.ledger, free := s.free } = physWrite (physWrite s pa (leBytes 8 (idx + 1))) pb
            (recBytes (stopRecord s gid g sl 0 (g.slot sl).pc 0 0 (g.readS sl a))) ∧
          exec (.trace a) s = .next ((accessesDone u gid sl (g.slot sl).pc true
            [(c.trbase.toNat, 8), (at_, 64)]).finish s gid sl (g.slot sl).pc)))

/-! ### Debugging -/

/-- The debug core's words (R214, R371 to R374): each answers a status in S[d] and its nonzero mark in c0. `dhalt`
halts every group that it names, `dres` releases those that are halted, `dstep` releases one for one instruction and
answers once that step has completed, `dbpt` and `dwpt` copy the breakpoint or watchpoint set to the cores of the
tiles named, and the mailbox words read a word, write OUT while OUTV is 0, set OUTV with its interrupt, and take the
oldest inbox item into memory. A request wakes the regions of the tiles that it names (R83). The debug events (R211, R213,
R215, R217, R219, R220, R370, R388, R389): a breakpoint halts its group before the word, and its record reaches the debug core
whose dctx names the context; a watchpoint hit with PROG 0 as it stood at the hit halts its group, and one with a program starts it on the
debug core with s0 to s3 and c3, its other registers as they were; a sample is written, or waits for its stack (R16); the
host's side of the mailbox. The model's own readings: which die's debug core a stop reaches (log 62), what `dhalt` does with a
group that is not resident (log 77), that the pending hits of a die form one list (log 97), that the accesses of a sample meet watchpoints (log 113),
and which context's trctl and group a sample's record is of (log 114). -/
def Obligations.DebugWords : Prop :=
  (∀ (s : State) (gid : GroupId) (sl : SlotId) (g : Group),
     let dbg := s.dbg gid.gang
     let answers (i : Instr) (d : BitVec 6) (x : Nat) (u : State) : Prop :=
       Retires i s gid sl g (u.modGroup gid (fun g => (g.writeS sl d (BitVec.ofNat 64 x)).writeC sl 0 (decide (x ≠ 0))))
     (∀ w : Word, (w.toNat / 2 ^ 60 ≠ 0 ∨ (w.getLsbD 59 = true ∧ w.toNat / 2 ^ 27 % 2 ^ 32 ≠ 0) →
       s.target gid.gang w = .bad) ∧
       (w.toNat / 2 ^ 59 = 0 → dbg.dctx = 0 → s.target gid.gang w = .none)) ∧
     (∀ d a, Issues (.dhalt d a) s gid sl g →
       (s.target gid.gang (g.readS sl a) = .bad → answers (.dhalt d a) d 5 s) ∧
       (s.target gid.gang (g.readS sl a) = .none → answers (.dhalt d a) d 1 s) ∧
       (∀ l, s.target gid.gang (g.readS sl a) = .groups l →
         ((∀ k ∈ l, s.isHalted k = true) → answers (.dhalt d a) d 2 s) ∧
         ((∃ k ∈ l, s.isHalted k = false) → ∃ (u : State), answers (.dhalt d a) d (if l.any s.away then 6 else 0) u ∧
           (∀ k ∈ l, u.isHalted k = true) ∧ (∀ k, k ∉ l → u.group? k = s.group? k) ∧ s.SameMemory u ∧
           (∀ k ∈ l, ∀ x, s.group? k = some x → (s.region (x.core / 8)).gate = .hold →
             (u.region (x.core / 8)).gate = .running)))) ∧
     (∀ d a, Issues (.dres d a) s gid sl g →
       (s.target gid.gang (g.readS sl a) = .bad → answers (.dres d a) d 5 s) ∧
       (s.target gid.gang (g.readS sl a) = .none → answers (.dres d a) d 1 s) ∧
       (∀ l, s.target gid.gang (g.readS sl a) = .groups l →
         ((∃ k ∈ l, s.away k = true) → answers (.dres d a) d 6 s) ∧
         ((∀ k ∈ l, s.away k = false) → ∃ (u : State), answers (.dres d a) d (if l.all s.isHalted then 0 else 3) u ∧
           (∀ k x, k ∈ l → s.group? k = some x → u.group? k =
             some (if x.dhalt then
               { x with dhalt := false, kind := .none, skip := if x.kind = .breakpoint then some x.stopPc else x.skip } else x)) ∧
           (∀ k, k ∉ l → u.group? k = s.group? k) ∧ s.SameMemory u ∧
           (∀ k ∈ l, ∀ x, s.group? k = some x → (s.region (x.core / 8)).gate = .hold →
             (u.region (x.core / 8)).gate = .running)))) ∧
     (∀ d a b, Issues (.dstep d a b) s gid sl g →
       (dbg.step = none → g.wait = some .debug → answers (.dstep d a b) d 0 s) ∧
       (dbg.step = none → g.wait ≠ some .debug → s.target gid.gang (g.readS sl a) = .bad →
         answers (.dstep d a b) d 5 s) ∧
       (∀ k l x t, dbg.step = none → g.wait ≠ some .debug → s.target gid.gang (g.readS sl a) = .groups (k :: l) →
         (g.readS sl a).getLsbD 59 = false → (g.readS sl b).toNat < 3 → s.away k = false → s.group? k = some x →
           k ≠ gid →
         (x.dhalt = false → answers (.dstep d a b) d 3 s) ∧
         (x.dhalt = true → x.selected (g.readS sl b).toNat = none → answers (.dstep d a b) d 4 s) ∧
         (x.dhalt = true → x.selected (g.readS sl b).toNat = some t →
           exec (.dstep d a b) s = .next (((((s.callTiles [x.core]).setGroup k
             { x with dhalt := false, skip := if x.kind = .breakpoint then some x.stopPc else x.skip }).setDbg gid.gang
             { dbg with step := some (k, t) }).modGroup gid (·.waitIn sl .debug)))))) ∧
     (∀ (i : Instr) d a, i = .dbpt d a ∨ i = .dwpt d a → Issues i s gid sl g → dbg.dctx ≠ 0 →
       let v := (g.readS sl a).toNat
       let tiles (v : Nat) : List Nat := s.tilesOf gid.gang dbg.dctx.toNat (if v = 1023 then none else some v)
       (1024 ≤ v ∨ (v < 1023 ∧ tiles v = []) → answers i d 1 s) ∧
       (v < 1024 → (v = 1023 ∨ tiles v ≠ []) → ∃ (u : State), answers i d 0 u ∧ u.groups = s.groups ∧ s.SameMemory u ∧
         (∀ k, u.core k = if k ∈ tiles v then
           (if i = .dbpt d a then { s.core k with bpt := dbg.bpt } else { s.core k with wpt := dbg.wpt }) else s.core k) ∧
         (∀ k, u.ctx? k = if v = 1023 ∧ k = dbg.dctx.toNat then (s.ctx? k).map (fun c =>
           if i = .dbpt d a then { c with bptSet := c.bptSet.put gid.gang dbg.bpt }
           else { c with wptSet := c.wptSet.put gid.gang dbg.wpt }) else s.ctx? k) ∧
         (∀ k ∈ tiles v, (s.region (k / 8)).gate = .hold → (u.region (k / 8)).gate = .running))) ∧
     (∀ d a, Issues (.mbrd d a) s gid sl g →
       let n := (g.readS sl a).toNat
       let m := s.mailbox gid.gang
       let reads (x : Nat) : Prop := ∃ (G : Group), Completes (.mbrd d a) s gid sl g G ∧ (G.readS sl d).toNat = x ∧
         g.Kept G sl { s := [d.toNat] }
       (n < 8 → reads (m.inw[n]?.getD 0).toNat) ∧ (8 ≤ n → n < 16 → reads (m.outw[n - 8]?.getD 0).toNat) ∧
       (n = 16 → reads (m.inv.toNat + m.outv.toNat * 2 + m.ien.toNat * 4 + m.vec.toNat * 8 + m.derr.toNat * 2 ^ 14)) ∧
       (16 < n → Faults (.mbrd d a) s gid sl g (Cause.record ⟨0x01, 2⟩))) ∧
     (∀ a b, Issues (.mbwr a b) s gid sl g →
       let n := (g.readS sl a).toNat
       let m := s.mailbox gid.gang
       (7 < n → Faults (.mbwr a b) s gid sl g (Cause.record ⟨0x01, 2⟩)) ∧
       (n ≤ 7 → m.outv = true → Waits (.mbwr a b) s gid sl .debug) ∧
       (n ≤ 7 → m.outv = false →
         Retires (.mbwr a b) s gid sl g (s.setMailbox gid.gang { m with outw := m.outw.setIfInBounds n (g.readS sl b) }))) ∧
     (Issues .mbpost s gid sl g →
       let m := s.mailbox gid.gang
       (m.outv = true → Waits .mbpost s gid sl .debug) ∧
       (m.outv = false → ∃ (u : State), Retires .mbpost s gid sl g u ∧
         u.mailbox gid.gang = { m with outv := true } ∧ u.groups = s.groups ∧
         u.irqs = (if m.ien then s.irqs ++ [⟨0, m.vec⟩] else s.irqs) ∧ s.SameMemory u)) ∧
     (∀ d a, Issues (.mbtake d a) s gid sl g →
       let at_ (k : Nat) : Word := g.readS sl a + BitVec.ofNat 64 (16 * k)
       (dbg.inbox = [] → Retires (.mbtake d a) s gid sl g (s.modGroup gid (fun g => (g.writeS sl d 0).writeC sl 0 true))) ∧
       (∀ x rest (p : Nat → Place), dbg.inbox = x :: rest → dbg.overflow = [] → s.memOk →
         (∀ k < 4, checkAddr s gid .write false 16 (at_ k) = .ok (p k)) → (∀ j < 4, ∀ k < 4, p j = p k → j = k) →
         let bytes : List Byte := match x with
           | .hostIn => (s.mailbox gid.gang).inw.toList.flatMap (fun w => leBytes 8 w.toNat)
           | .stop r => r.toList.flatMap (fun w => leBytes 8 w.toNat)
         ∃ (u : State), Retires (.mbtake d a) s gid sl g u ∧ (u.dbg gid.gang).inbox = rest ∧
           (u.mailbox gid.gang).inv = (if x = .hostIn then false else (s.mailbox gid.gang).inv) ∧
           (u.group? gid).map (fun y => (y.readC sl 0, (y.slot sl).fork.s[d.toNat]?)) =
             some (false, some (if x = .hostIn then 1 else 2)) ∧
           s.SameOutside u 16 ((List.range 4).map (fun k => (k, p k))) ∧
           ∀ k < 4, ∀ j < 16, readPlace u ((p k).add j) 1 = [bytes[16 * k + j]?.getD 0]))) ∧
  (∀ s : State,
     (∀ (gid : GroupId) (sl : SlotId) (g : Group), s.group? gid = some g → gid.isDebug = false →
       s.runnable g = true → g.mayStep sl = true → g.skip ≠ some (g.slot sl).pc → (g.slot sl).hold = none →
       s.stepper gid = none → (∃ k < 8, ((s.core g.core).bpt[k]?.getD 0).getLsbD 57 = true ∧
         ((s.core g.core).bpt[k]?.getD 0).toNat % 2 ^ 57 = (g.slot sl).pc.toNat) →
       ∃ (u : State), exec (.breakpointHit gid sl) s = .next u ∧ s.SameMemory u ∧
         u.group? gid = some { g with dhalt := true, kind := .breakpoint, haltPc := (g.slot sl).pc, stopPc := (g.slot sl).pc } ∧
         ((s.dbg (g.core / 96)).dctx.toNat ≠ g.ctx → u.dbg (g.core / 96) = s.dbg (g.core / 96)) ∧
         ((s.dbg (g.core / 96)).dctx.toNat = g.ctx → stopsIn (s.dbg (g.core / 96)).inbox < 32 → (u.dbg (g.core / 96)).inbox =
           (s.dbg (g.core / 96)).inbox ++ [.stop (stopRecord s gid g sl 2 (g.slot sl).pc 0x22 0 0)])) ∧
     (∀ h (g : Group), s.sel < 4 → (s.dbg s.sel).hits.find? s.hitReady = some h → (s.dbg s.sel).prog = none →
       (s.mailbox s.sel).derr = false →
       s.group? h.group = some g → h.group.isDebug = false →
       let prog := h.prog.toNat
       let x := (s.group? (debugId s.sel)).getD ((s.dbg s.sel).rest.getD (debugGroup s.sel 0))
       (prog = 0 → ∃ (u : State), exec .predicateRun s = .next u ∧ s.SameMemory u ∧
         (u.dbg s.sel).hits = (s.dbg s.sel).hits.erase h ∧
         (u.dbg s.sel).prog = none ∧ (u.group? h.group).map (fun x => (x.dhalt, x.kind)) = some (true, .watchpoint)) ∧
       (prog ≠ 0 → ∃ (u : State) (D : Group), exec .predicateRun s = .next u ∧ s.SameMemory u ∧
         (u.dbg s.sel).hits = (s.dbg s.sel).hits.erase h ∧ (u.dbg s.sel).prog = some {
           idle := (s.group? (debugId s.sel)).isNone, slot := x.a, flags := x.flags, dhalt := x.dhalt, wait := x.wait
           step := (s.dbg s.sel).step, hit := h, left := 16 } ∧ (u.dbg s.sel).step = none ∧
         u.group? (debugId s.sel) = some D ∧ (D.slot .a).pc.toNat = prog % 2 ^ 57 ∧ D.readS .a 0 = h.addr ∧
         (D.readS .a 2).toNat = h.wpn % 2 ^ 64 ∧ D.readS .a 3 = BitVec.ofNat 64 (whereWord g 0x12) ∧ D.wait = none ∧
         u.group? h.group = some g ∧
         (∀ n < 32, 4 ≤ n → (D.slot .a).fork.s[n]? = (x.slot .a).fork.s[n]?) ∧ (∀ n < 3, D.readC .a n = x.readC .a n) ∧
         D.p = x.p ∧ D.v = x.v ∧ D.b = x.b ∧ D.hw = x.hw ∧ D.flags = x.flags ∧
         (∀ p, placeOf s h.group .read false 8 (h.addr.toNat / 8 * 8) = .ok p →
           (D.readS .a 1).toNat = leNat (readPlace s p 8) ∧ D.readC .a 3 = false) ∧
         (∀ b, placeOf s h.group .read false 8 (h.addr.toNat / 8 * 8) = .error b → D.readS .a 1 = 0 ∧
           D.readC .a 3 = true))) ∧
     (∀ (core : Fin 384) (quad : Fin 4) (gid : GroupId) (sl : SlotId) (x : Sample) (c : Context),
       (s.core core.val).sampled.find? (fun x => x.quad == quad.val && some (x.group, x.slot) == some (gid, sl)) = some x →
       s.ctx? x.ctx = some c →
       let t := s.modCore core.val (fun c => { c with sampled := c.sampled.erase x })
       (∀ w, translate t c c.trbase.toNat needWrite = .error (.hold w) →
         exec (.traceSample core quad (some (gid, sl))) s = .next s) ∧
       ∀ pa pb, translate t c c.trbase.toNat needWrite = .ok pa →
         let idx := leNat (physRead t pa 8)
         let at_ := c.trbase.toNat + 64 * (idx % 2 ^ (x.ctl.extractLsb' 1 5).toNat + 1)
         translate t c at_ needWrite = .ok pb → pa % 8 = 0 → pb % 64 = 0 → pa / 64 ≠ pb / 64 →
         s.Settled x.group x.slot 0 (.phys pb) 64 →
         ∃ (u : State), { u with ledger := s.ledger, free := s.free } =
             physWrite (physWrite t pa (leBytes 8 (idx + 1))) pb (recBytes x.record) ∧
           exec (.traceSample core quad (some (gid, sl))) s = .next (
             match s.group? x.group, firstHit (s.core core.val).wpt true [(c.trbase.toNat, 8), (at_, 64)] with
             | some g, some (w, a) =>
               (u.modGroup x.group (fun g => { g with wait := g.wait.or (some .watch) })).queueHit x.group x.slot g w a
             | _, _ => u)) ∧
     (∀ (die : Fin 4) (n : Fin 8) v, ∃ (u : State), exec (.mailboxInWrite die n v) s = .next u ∧
       u.mailbox die.val = (if (s.mailbox die.val).inv then s.mailbox die.val
         else { s.mailbox die.val with inw := (s.mailbox die.val).inw.set n.val v }) ∧ u.groups = s.groups ∧
           s.SameMemory u) ∧
     (s.sel < 4 → ((s.mailbox s.sel).inv = true → exec .mailboxInPost s = .next s) ∧
       ((s.mailbox s.sel).inv = false → ∃ (u : State), exec .mailboxInPost s = .next u ∧
         u.mailbox s.sel = { s.mailbox s.sel with inv := true } ∧
         (u.dbg s.sel).inbox = (s.dbg s.sel).inbox ++ [.hostIn] ∧ s.SameMemory u ∧
         ((s.mailbox s.sel).derr = true ∨ (s.group? (debugId s.sel)).isSome = true → u.groups = s.groups) ∧
         ((s.mailbox s.sel).derr = false →
           (s.group? (debugId s.sel) = none → (u.dbg s.sel).started = true ∧
             let x := (s.dbg s.sel).rest.getD (debugGroup s.sel 0)
             ∃ D : Group, u.group? (debugId s.sel) = some D ∧ D.a = (debugGroup s.sel 0).a ∧ D.b = none ∧ D.lanes .a = 1 ∧
               (D.slot .a).pc = 0 ∧ D.spilled = [] ∧ D.hw = [] ∧ D.flags = 0 ∧ D.dhalt = false ∧ D.wait = none ∧ D.width = x.width ∧ D.p = x.p ∧ D.v = x.v) ∧
           ((s.group? (debugId s.sel)).isSome = true → (∃ p, (s.dbg s.sel).prog = some p ∧ p.idle = true) →
             (u.dbg s.sel).due = true)))) ∧
     (s.sel < 4 → ∃ (u : State), exec .mailboxOutvClear s = .next u ∧
       u.mailbox s.sel = { s.mailbox s.sel with outv := false } ∧
       u.groups = s.groups ∧ s.SameMemory u))

/-! ### Events -/

/-- The events of cores and copies (R96, R97, R101, R103, R161 to R165, R209, R271, R297): a stream issues the run up
to the first word of its level or above, 4,096 words of a longer one, which the next baton continues, and an empty baton
where its members must come to a word of its own; a group at the end of its baton reads the next; a decision is that of the
word at which the members have posted; a word that cannot be fetched faults; a copy's bytes, granule by granule for FE 2, where
a granule goes full with its last byte of the copy (R150), and its signal after all of them. The model's own choices: where no
`xfence` has put a write of the group before a copy, or a copy before it, which comes first is a free value (log 99); one event
moves a whole row of a copy that is not FE 2, before its signal (log 112); what one resend tries again is the held access of
every slot of a group (log 67). -/
def Obligations.CoreEvents : Prop :=
  ∀ s : State,
    (∀ (q : SeqId) x n (word : Nat → BitVec 32), s.seq? q = some x → x.runs q = true → s.seqHeld q = false →
      x.queue.length < 8 →
      stubAt s x.ctx x.own.pc = none → 0 < n → n ≤ 4096 →
      (∀ k ≤ n, fetchIn s x.ctx (x.own.pc + BitVec.ofNat 57 (4 * k)) = .ok (word k)) →
      (∀ k < n, ∀ l, wordScope (word k) = some l → l.ge q.level = false) → (∃ l, wordScope (word n) = some l ∧
        l.ge q.level = true) →
      ∃ (y : Seq) (b : Queued), exec (.batonIssue q) s = .next (s.setSeq q y) ∧ y.queue = x.queue ++ [b] ∧
        b.baton.pc = x.own.pc ∧
        b.baton.len = n ∧ b.baton.seq = x.nextSeq ∧ b.baton.level = q.level ∧ b.baton.cont = false ∧
          b.baton.empty = false ∧
        b.begun = [] ∧ b.done = [] ∧ y.nextSeq = x.nextSeq + 1 ∧
          y.own = { x.own with pc := x.own.pc + BitVec.ofNat 57 (4 * n) } ∧
        y.lastEnd = some y.own.pc ∧ (q.level = .team → b.baton.w = x.own.regs ∧ b.baton.cTeam = x.own.c) ∧
        (q.level = .gang → (∀ k < 8, b.baton.g[k]? = x.own.regs[k]?) ∧ b.baton.cGang = x.own.c ∧
          b.baton.w = .replicate 16 0) ∧
        (q.level = .grid → (∀ k < 8, b.baton.d[k]? = x.own.regs[k]?) ∧ b.baton.cGrid = x.own.c ∧
          b.baton.w = .replicate 16 0)) ∧
    (∀ (q : SeqId) x (word : Nat → BitVec 32), s.seq? q = some x → x.runs q = true → s.seqHeld q = false →
      x.queue.length < 8 → stubAt s x.ctx x.own.pc = none →
      (∀ k ≤ 4096, fetchIn s x.ctx (x.own.pc + BitVec.ofNat 57 (4 * k)) = .ok (word k) ∧
        ∀ l, wordScope (word k) = some l → l.ge q.level = false) →
      ∃ (y : Seq) (b : Queued), exec (.batonIssue q) s = .next (s.setSeq q y) ∧ y.queue = x.queue ++ [b] ∧
        b.baton.pc = x.own.pc ∧ b.baton.len = 4096 ∧ b.baton.seq = x.nextSeq ∧ b.baton.cont = true ∧
        b.baton.empty = false ∧ y.own = { x.own with pc := x.own.pc + BitVec.ofNat 57 (4 * 4096) } ∧ y.lastEnd = none) ∧
    (∀ (q : SeqId) x w, s.seq? q = some x → x.runs q = true → s.seqHeld q = false → x.queue.length < 8 →
      stubAt s x.ctx x.own.pc = none → fetchIn s x.ctx x.own.pc = .ok w → wordScope w = some q.level →
      (needsPosts (decodeWord w) = true ∨ (ownerStop x (decodeWord w)).isSome = true) → x.lastEnd ≠ some x.own.pc →
      ∃ (y : Seq) (b : Queued), exec (.batonIssue q) s = .next (s.setSeq q y) ∧ y.queue = x.queue ++ [b] ∧
        b.baton.pc = x.own.pc ∧ b.baton.len = 0 ∧ b.baton.seq = x.nextSeq ∧ b.baton.cont = false ∧
        b.baton.empty = true ∧ y.own = x.own ∧ y.lastEnd = some x.own.pc) ∧
    (∀ (gid : GroupId) (g : Group) b, s.group? gid = some g → s.nextBaton (streamOf gid g) g.read = some b →
      s.runnable g = true → g.spawned = false →
      g.viewEnd = some g.a.pc → g.split = false → g.divDepth ≤ g.batDiv → g.post = none →
      ∃ (u : State), exec (.batonTake (.group gid)) s = .next u ∧ s.SameMemory u ∧ u.group? gid = some { g with
        view := b.baton, viewEnd := if b.baton.cont then none else some (b.baton.pc + BitVec.ofNat 57 (4 * b.baton.len)), read := g.read + 1,
        a := { g.a with pc := b.baton.pc }, batDiv := g.divDepth,
          wait := if g.wait = some .baton then none else g.wait }) ∧
    (∀ (q : SeqId) x (i : Instr) w, s.cur = .seq q → Owns i s q x → fetchIn s x.ctx x.own.pc = .ok w →
      decodeWord w = i → upperScope i = some q.level →
      needsPosts i = true → stubAt s x.ctx x.own.pc = none → (s.posted q x.own.pc).isSome = true →
      exec (.ownerDecide q) s = exec i s) ∧
    (∀ (q : SeqId) x (i : Instr) w ps, s.seq? q = some x → x.runs q = true → s.seqHeld q = false →
      fetchIn s x.ctx x.own.pc = .ok w → decodeWord w = i → upperScope i = some q.level → needsPosts i = true →
      ownerStop x i = none → stubAt s x.ctx x.own.pc = none → s.posted q x.own.pc = some ps →
      let act : Nat := (ps.map (fun p => p.2.2.active)).sum
      let tru : Nat := (ps.map (fun p => p.2.2.true_)).sum
      ∃ (t : State), exec (.ownerDecide q) s = .next t ∧
        (∀ sc e c (off : BitVec 16), i = .br sc e c off → (tru = 0 ∨ tru = act) → s.SameMemory t ∧
          (t.seq? q).map (·.own) = some { x.own with
            pc := if 0 < act ∧ (decide (tru = act)) ≠ e then x.own.pc + BitVec.ofInt 57 (4 * off.toInt) else x.own.pc.next }) ∧
        (∀ d a p y h k, i = .wred d a p y h k ∨ i = .gred d a p y h k ∨ i = .dred d a p y h k → s.SameMemory t ∧
          ∃ o, (t.seq? q).map (·.own) = some o ∧ o.pc = x.own.pc.next ∧ (∀ n, n ≠ d.toNat → o.reg n = x.own.reg n) ∧
            o.reg d.toNat = extendRed (RedTy.ofScope y) (nested p.toNat (RedTy.ofScope y) q.level ps))) ∧
    (∀ (gid : GroupId) (sl : SlotId) (g : Group) b, s.cur = .group gid sl → s.group? gid = some g →
      fetchWord s gid (g.slot sl).pc = .error b → (∀ w, b ≠ .hold w) →
      (g.viewEnd ≠ some (g.slot sl).pc ∨ g.spawned = true ∨ s.nextBaton (streamOf gid g) g.read = none) →
      Faults .instructionFetchFault s gid sl g (b.record 0 0 (BitVec.ofNat 64 (g.slot sl).pc.toNat))) ∧
    (∀ (gid : GroupId) (g : Group), s.group? gid = some g →
      let left (w : Option Wait) : Option Wait := match w with
        | some (.absent c) => if s.absentCore c then w else none
        | w => w
      exec (.retryResend gid) s = .next (s.setGroup gid { g with
        wait := left g.wait, a := { g.a with hold := left g.a.hold }, b := g.b.map (fun b => { b with hold := left b.hold }) })) ∧
    (∀ (e : Fin 16) c cp rest (x : Context) (gid : GroupId) (t : Team) pa off, s.memOk → s.channel (e.val,
      c) = cp :: rest → s.ctx? cp.ctx = some x →
      cp.fe = 2 → cp.group = some gid → cp.teams = none → cp.kept = [] → cp.parts < cp.nrows * (cp.rowb / 16) →
      (∀ k < cp.nrows, cp.src.row k + cp.rowb < 0x01F0000000000000) →
      let row := cp.parts / (cp.rowb / 16)
      let at_ := cp.parts % (cp.rowb / 16) * 16
      s.team? gid.teamKey = some t → at_ ≤ off → off % 16 = 0 → off < 2 ^ 21 → cp.dst.row row + at_ = 0x01F0000000000000 + off →
      s.absentCore (spadCore t off) = false → (cp.src.row row + at_) % 16 = 0 →
      translate s x (cp.src.row row + at_) needRead = .ok pa →
      (off / 16 ∈ t.full → ∃ (u : State), exec (.copyGranuleWrite e c) s = .next u ∧ u.teams = s.teams ∧
        s.SameMemory u ∧
        u.channel (e.val, c) = { cp with waiting := true } :: rest) ∧
      (off / 16 ∉ t.full → ∃ (u : State), exec (.copyGranuleWrite e c) s = .next u ∧
        (∀ k < 16, ∀ b, readPlace u (.spad gid.teamKey (off + k)) 1 = [b] →
          s.CopySeen cp (.phys (pa + k)) b ∨ readPlace s (.spad gid.teamKey (off + k)) 1 = [b]) ∧
        (s.CopySettled cp (.phys pa) 16 → s.CopySettled cp (.spad gid.teamKey off) 16 → readPlace u (.spad gid.teamKey off) 16 = physRead s pa 16) ∧ s.SameOutside u 16 [(0, .spad gid.teamKey off)] ∧
        (let later : Prop := ∃ j, row < j ∧ j < cp.nrows ∧
            spadTeam gid.teamKey (cp.dst.row j - 0x01F0000000000000) = gid.teamKey ∧
            cp.dst.row j % 2 ^ 21 / 16 ≤ off / 16 ∧ off / 16 < cp.dst.row j % 2 ^ 21 / 16 + cp.rowb / 16
          ∀ k y, u.isFull k y ↔ s.isFull k y ∨ (¬ later ∧ k = gid.teamKey ∧ y = off / 16)) ∧
        ∃ bs, u.channel (e.val, c) = { cp with waiting := false, parts := cp.parts + 1, granule := bs } :: rest)) ∧
    (∀ (e : Fin 16) c cp rest (x : Context) pa pb, s.memOk → s.channel (e.val, c) = cp :: rest →
      s.ctx? cp.ctx = some x →
      cp.fe = 0 → cp.teams = none → cp.nrows = 1 → cp.caddr = 0 → cp.pkt = none → 0 < cp.rowb → cp.parts = 0 → cp.kept = [] →
      (cp.src.row 0) % 4096 + cp.rowb ≤ 4096 →
      (cp.dst.row 0) % 4096 + cp.rowb ≤ 4096 → cp.src.row 0 < 0x01F0000000000000 → cp.dst.row 0 < 0x01F0000000000000 →
      translate s x (cp.src.row 0) needRead = .ok pa → translate s x (cp.dst.row 0) needWrite = .ok pb →
      (pa + cp.rowb ≤ pb ∨ pb + cp.rowb ≤ pa) → s.CopySettled cp (.phys pa) cp.rowb → s.CopySettled cp (.phys pb) cp.rowb →
      (∃ (u : State), exec (.copyComplete e c) s = .next u ∧ u.channel (e.val, c) = rest ∧ u.groups = s.groups ∧
        physRead u pb cp.rowb = physRead s pa cp.rowb ∧ s.SameOutside u cp.rowb [(0, .phys pb)]) ∧
      ∃ (u : State), exec (.copyGranuleWrite e c) s = .next u ∧ u.groups = s.groups ∧
        u.channel (e.val, c) = { cp with waiting := false, parts := 1 } :: rest ∧
        physRead u pb cp.rowb = physRead s pa cp.rowb ∧ s.SameOutside u cp.rowb [(0, .phys pb)]) ∧
    (∀ (e : Fin 16) c cp rest (x : Context) pa, s.memOk → s.channel (e.val, c) = cp :: rest →
      s.ctx? cp.ctx = some x →
      (if cp.fe = 2 then cp.nrows * (cp.rowb / 16) * cp.keys.length else cp.nrows) ≤ cp.parts → cp.caddr ≠ 0 → cp.caddr.toNat % 8 = 0 →
      translate s x cp.caddr.toNat needWrite = .ok pa →
      ∃ (u : State), exec (.copyComplete e c) s = .next u ∧ u.channel (e.val, c) = rest ∧ s.SameOutside u 8 [(0,
        .phys pa)] ∧
        leNat (physRead u pa 8) = (leNat (physRead s pa 8) + cp.cinc.toNat) % 2 ^ 64)

/-- After reset the host reads in the registers what the specification gives, and zeros in the identity blocks (log 8).
Queue events (R26 to R31, R35, R40, R43, R46, R47): a write of a record leaves the record that R28 gives and raises VER, and
STOP = 0 is ignored in STATE 3; a write of DMBCTL clears OUTV by a 1 in bit 1 and posts or withdraws IN by bit 0 (R211); a WRX
past the ring stops the queue with ECODE 0x08; a service round serves the head of an active lane, sets W, or stops the queue
with the ECODE of R46. Scheduler (R56 to R61, R64, R66, R67, R69 to R71, R124, R127): a pass places the next gang of the head on
the first window that fits, a claim is answered, a blocked head takes a reservation, and a head rises a level after 8 quanta.
Power (R81 to R84, R87 to R90): CTL rises on the die that draws the most and falls everywhere, a quadrant enters and leaves
near-threshold mode, a region is held, gated and woken, and an interval begins with refill, bin and charge. Tiles and contexts
(R74, R141, R144, R199, R201, R203 to R208, R384): a frozen tile lands, closes and completes; a restore gives every group of
the tile its core and registers; a failure kills the grids of the context; a pre-emption goes from soft to frozen to out and
back; a destroyed context is gone. The model's own choices: which restores hold up a die (log 26), when the firmware serves (log
34), an error that stands (log 36), what a switched-out context keeps (log 38), a write of PRIO (log 40), one write of a record
(log 41), conditions that come as events, and package power (logs 49, 51), save areas and stacks that fail (log 80), restores after
TILE_MIGRATE (log 86), SIZE of FWIN (log 101), what raises VER (logs 103, 118), INV = 0 (log 115), claims (log 116), replicas (log
117), arguments read at service (log 123), the lowest free sequencers and too few of them (logs 125, 126), and FLOOR = 3 (log
135). -/
def Obligations.ServiceTiles : Prop :=
  (let read (off : Nat) : BitVec 32 := State.reset.hostRead 0 off
   (∀ n < 1024, read (0x140000 + 64 * n + 12) = 4 ∧ read (0x21000 + 4 * n) = 0 ∧ read (0x20000 + 4 * n) = 0 ∧
     ∀ j < 16, j ≠ 3 → read (0x140000 + 64 * n + 4 * j) = 0) ∧
   (∀ r < 48, read (0x3000 + 4 * r) = 12 * 64 ∧ read (0x3100 + 4 * r) = 64) ∧ (∀ f < 64, read (0x4000 + 4 * f) = 4096) ∧
   read 0x40 = 0 ∧ read 0x44 = 0 ∧ (∀ d off n, State.reset.identityRead d off n = ((List.replicate 48 0).drop off).take n) ∧ read 0x2000 = 500 ∧ read 0x5000 = 500 ∧ ∀ d < 4, read (0x1100 + 4 * d) = 0 ∧ read (0x6080 + 256 * d) = 0) ∧
  (∀ s : State,
     let fn (n : Nat) : Nat := ((s.qown.find n).map (·.fn.toNat)).getD 0
     let queueIs (e : Instr) (n : Nat) (q : Queue) (irqs : List Irq) : Prop :=
       ∃ (u : State), exec e s = .next u ∧ u.queue n = q ∧ (∀ k, k ≠ n → u.queue k = s.queue k) ∧
         u.irqs = s.irqs ++ irqs ∧
         u.groups = s.groups ∧ s.SameMemory u
     let z (q : Queue) : Queue := { q with ecode := 0, etype := 0, etag := 0, eidx := 0 }
     (∀ (n : Fin 1024) stop, (s.queue n.val).state = 0 → (s.queue n.val).held = false →
       queueIs (.queueEnable n stop) n.val
       (let r := s.queue n.val
        { r with en := true, stop := stop, state := if stop then 2 else 1, rdx := 0, wrx := 0, waiting := false, ver := r.ver + 1 }) []) ∧
     (∀ (n : Fin 1024) stop, (s.queue n.val).state ≠ 0 → (s.queue n.val).held = false →
       queueIs (.queueEnable n stop) n.val
       (let r := s.queue n.val
        if r.state = 1 ∧ stop = true then { r with stop := true, state := 2, waiting := false, ver := r.ver + 1 }
        else if r.state = 2 ∧ stop = false then { r with stop := false, state := 1, ver := r.ver + 1 }
        else if r.state = 3 ∧ stop = false then { r with ver := r.ver + 1 }
        else { r with stop := stop, ver := r.ver + 1 }) []) ∧
     (∀ n, n < 1024 → s.sel = n → (s.queue n).held = false →
       let r := s.queue n
       (r.state = 1 → r.en = true →
         queueIs .queueStop n { r with stop := true, state := 2, waiting := false, ver := r.ver + 1 } []) ∧
       (r.state = 2 → r.en = true → queueIs .queueResume n { r with stop := false, state := 1, ver := r.ver + 1 } []) ∧
       ((r.state = 1 ∧ r.stop = false) ∨ (r.state = 2 ∧ r.stop = true) ∨ r.state = 3 →
         (r.inflight = [] → queueIs .queueDisable n { z r with en := false, state := 0, waiting := false, ver := r.ver + 1 } []) ∧
         (r.inflight ≠ [] → queueIs .queueDisable n { r with en := false, held := true, waiting := false, ver := r.ver + 1 } [])) ∧
       (r.state = 3 → queueIs .queueEclr n { z r with state := 2, ver := r.ver + 1 } [])) ∧
     (∀ n, n < 1024 → s.sel = n → (s.queue n).held = true → (s.queue n).inflight = [] →
       queueIs .queueDisableDone n { z (s.queue n) with held := false, state := 0, waiting := false } []) ∧
     (∀ (n : Fin 1024) w,
       let r := s.queue n.val
       let room := decide ((w - r.rdx).toNat ≤ 2 ^ (r.size.toNat + 6))
       (room = true ∨ r.en = false ∨ r.held = true ∨ r.state = 0 ∨ r.state = 3 → queueIs (.queueDoorbell n w) n.val { r with wrx := w, ver := r.ver + 1 } []) ∧
       (room = false → r.en = true → r.held = false → r.state = 1 ∨ r.state = 2 → queueIs (.queueDoorbell n w) n.val
         { r with wrx := w, state := 3, ecode := 0x08, etype := 0, etag := 0, eidx := r.rdx, waiting := false, ver := r.ver + 1 }
         [⟨fn n.val, r.evec⟩])) ∧
     (∀ (n : Fin 1024) v,
       ((s.queue n.val).state = 0 → exec (.qownWrite n v) s =
         .next { s with qown := s.qown.put n.val ⟨v.extractLsb' 0 6, v.getLsbD 6, v.extractLsb' 7 10⟩ }) ∧
       ((s.queue n.val).state ≠ 0 → exec (.qownWrite n v) s = .next s)) ∧
     (∀ v : BitVec 64,
       let writes (off size : Nat) (u : State) : Prop := exec (.registerWrite 0 off size v.toNat) s = .next u
       (v.toNat % 2 ^ 16 = 0 → writes 0x2000 4 s ∧ writes 0x5000 4 s) ∧
       (v.toNat % 2 ^ 16 ≠ 0 → writes 0x2000 4 { s with quantum := v.extractLsb' 0 16, nopromo := v.getLsbD 16 } ∧
         writes 0x5000 4 { s with pdeadline := v.extractLsb' 0 16 }) ∧
       (∀ k, k < 48 → v.toNat / 4 % 4 = 3 → writes (0x3000 + 4 * k) 4 s) ∧
       (∀ k, k < 48 → v.toNat / 4 % 4 ≠ 3 → writes (0x3000 + 4 * k) 4 (s.setRegion k
         { s.region k with floor := v.extractLsb' 2 2, ntt := v.extractLsb' 6 4, nogate := v.getLsbD 10 })) ∧
       (∀ k, k < 64 → writes (0x4000 + 4 * k) 4
         (if 4096 < v.toNat % 2 ^ 13 then s else { s with hquota := s.hquota.put k (v.extractLsb' 0 13) })) ∧
       (∀ d, d < 4 → ∃ (u : State), writes (0x6080 + 256 * d) 4 u ∧ s.SameMemory u ∧ (∀ k, k ≠ d → u.mailbox k = s.mailbox k) ∧
         u.mailbox d = { s.mailbox d with
           inv := v.getLsbD 0, outv := (s.mailbox d).outv && !v.getLsbD 1, ien := v.getLsbD 2, vec := v.extractLsb' 3 11 } ∧
         (v.getLsbD 0 = false → u.groups = s.groups ∧ (u.dbg d).inbox = (s.dbg d).inbox.filter (· != .hostIn)) ∧
         (v.getLsbD 0 = true → (s.mailbox d).inv = true → u.groups = s.groups ∧ (u.dbg d).inbox = (s.dbg d).inbox) ∧
         (v.getLsbD 0 = true → (s.mailbox d).inv = false → (u.dbg d).inbox = (s.dbg d).inbox ++ [.hostIn] ∧
           ((s.mailbox d).derr = false → (u.group? (debugId d)).isSome = true))) ∧
       (∀ d (k : Nat), d < 4 → k < 16 → ∃ (u : State) (x : Word), writes (0x6000 + 256 * d + 4 * k) 4 u ∧ u.groups = s.groups ∧
         s.SameMemory u ∧
         u.mailbox d = (if (s.mailbox d).inv then s.mailbox d
           else { s.mailbox d with inw := (s.mailbox d).inw.setIfInBounds (k / 2) x }) ∧
         (let old := ((s.mailbox d).inw[k / 2]?.getD 0).toNat
          x.toNat = if k % 2 = 0 then old / 2 ^ 32 * 2 ^ 32 + v.toNat % 2 ^ 32 else v.toNat % 2 ^ 32 * 2 ^ 32 + old % 2 ^ 32)) ∧
       (∀ d (k : Nat), d < 4 → k < 8 → ∃ (u : State), writes (0x6000 + 256 * d + 8 * k) 8 u ∧ u.groups = s.groups ∧
         s.SameMemory u ∧
         u.mailbox d = (if (s.mailbox d).inv then s.mailbox d
           else { s.mailbox d with inw := (s.mailbox d).inw.setIfInBounds k v })) ∧
       (∀ n (k : Nat), n < 64 → k < 8 → ∃ (u : State), writes (0x30000 + 256 * n + 16 * k) 4 u ∧ u.groups = s.groups ∧
         u.fwin.find (n, k) = some (BitVec.ofNat 64 (v.toNat % 2 ^ 21))) ∧
       (∀ n, n < 1024 → v.toNat % 4096 ≠ 0 → writes (0x140000 + 64 * n) 8 s) ∧
       (∀ n, n < 1024 → v.toNat % 4096 = 0 → queueIs (.registerWrite 0 (0x140000 + 64 * n) 8 v.toNat) n
         { s.queue n with base := v.setWidth 57, ver := (s.queue n).ver + 1 } []) ∧
       (∀ n : Fin 1024, exec (.registerWrite 0 (0x140000 + 64 * n.val + 20) 4 v.toNat) s = exec (.queueDoorbell n (v.setWidth 32)) s) ∧
       (∀ n, n < 1024 → 11 ≤ v.toNat / 4 % 16 → writes (0x140000 + 64 * n + 8) 4 s) ∧
       (∀ n (x : BitVec 32), n < 1024 → v.toNat % 4096 ≠ 0 ∨ 11 ≤ x.toNat / 4 % 16 →
         exec (.registerWrite 0 (0x140000 + 64 * n) 12 (v.toNat + x.toNat * 2 ^ 64)) s = .next s) ∧
       (∀ n (x : BitVec 32), n < 1024 → v.toNat % 4096 = 0 → x.toNat / 4 % 16 < 11 → (s.queue n).state = 0 → (s.queue n).held = false →
         x.getLsbD 0 = false → ∃ (u : State),
           exec (.registerWrite 0 (0x140000 + 64 * n) 12 (v.toNat + x.toNat * 2 ^ 64)) s = .next u ∧
           u.groups = s.groups ∧ s.SameMemory u ∧ (∀ k, k ≠ n → u.queue k = s.queue k) ∧
           (u.queue n).base = v.setWidth 57 ∧ (u.queue n).size = x.extractLsb' 2 4 ∧ (u.queue n).prio = x.extractLsb' 6 2 ∧
           (u.queue n).vec = x.extractLsb' 8 11 ∧ (u.queue n).evec = x.extractLsb' 19 11 ∧ (u.queue n).state = 0 ∧
           (u.queue n).ver = (s.queue n).ver + 1) ∧
       (∀ (fn : Fin 64) l, fn.val ≠ 0 → l < 1024 → exec (.registerWrite fn (0x100000 + 64 * l + 32) 4 v.toNat) s = .next s)) ∧
     (∀ (die : Fin 4) (k : Fin 8), s.ready (1 + die.val) = false → exec (.serviceRound die k) s = .next s) ∧
     (∀ (die : Fin 4) (k : Fin 8) n ctx (c : Context) (p : Packet), s.memOk → s.ready (1 + die.val) = true →
       ((List.range 32).map (fun l => 256 * die.val + 32 * k.val + l)).filter s.laneActive = [n] →
         s.ctxOfQueue n = some (ctx, c) →
       s.readSlot n c (s.queue n).rdx = .ok p →
       let r := s.queue n
       let e := .serviceRound die k
       let stops (code ty : BitVec 8) : Prop := queueIs e n
         { r with state := 3, ecode := code, etype := ty, etag := p.tag, eidx := r.rdx, waiting := false } [⟨fn n,
           r.evec⟩]
       let irq : List Irq := if p.irq then [⟨fn n, r.vec⟩] else []
       let served : Queue := { r with rdx := r.rdx + 1, waiting := false }
       let value (u : State) (pa : Nat) : Nat := leNat (physRead u pa 8)
       let stores (pa x : Nat) : Prop := ∃ (u : State), exec e s = .next u ∧ u.queue n = served ∧
         u.irqs = s.irqs ++ irq ∧
         u.groups = s.groups ∧ value u pa = x ∧ s.SameOutside u 8 [(0, .phys pa)]
       (p.typ.toNat < 0x10 ∨ 0x17 < p.typ.toNat → stops 0x01 p.typ) ∧ (p.typ = 0x15 → stops 0x05 0x15) ∧
       (∀ code, 0x10 ≤ p.typ.toNat → p.typ.toNat ≤ 0x17 → p.typ ≠ 0x15 → p.error = some code → stops code p.typ) ∧
       (p.error = none →
         (∀ pa, p.typ = 0x11 → p[1] ≠ 0 → translate s c p[1].toNat needRead = .ok pa →
           (p[2].toNat ≤ value s pa → queueIs e n served irq) ∧
           (value s pa < p[2].toNat → queueIs e n { r with waiting := true } [])) ∧
         (∀ b, p.typ = 0x11 ∨ p.typ = 0x12 → p[1] ≠ 0 → (∀ w, b ≠ .hold w) →
           translate s c p[1].toNat (if p.typ = 0x11 then needRead else needWrite) = .error b → stops 0x07 p.typ) ∧
         (∀ pa, p.typ = 0x12 → p[1] ≠ 0 → translate s c p[1].toNat needWrite = .ok pa →
           stores pa ((value s pa + p[2].toNat) % 2 ^ 64)) ∧
         (∀ pa, p.typ = 0x17 → r.inflight = [] → translate s c p[1].toNat needWrite = .ok pa →
           stores pa (s.timer % 2 ^ 64)) ∧
         (p.typ = 0x10 → p[1] = 0 → p[3] = 0 → p[5] = 0 →
           (r.inflight = [] → queueIs e n served irq) ∧ (r.inflight ≠ [] → queueIs e n { r with waiting := true } [])) ∧
         (p.typ = 0x13 → p[4] = 0 → queueIs e n { served with
           inflight := r.inflight ++ [⟨r.rdx, p.typ, p.tag, p.irq, p.sys,
             .inval p[1] p[2] (p[3].extractLsb' 0 3) 0⟩] } []) ∧
         (∀ pa, p.typ = 0x14 → p.roles = false → (gridOf n r.rdx r.ver ctx p none []).fitsEmpty = true → p[7] = 0 →
           translate s c p[4].toNat needRead = .ok pa → ∃ (u : State), exec e s = .next u ∧ u.groups = s.groups ∧
             s.SameMemory u ∧
             u.grid? s.nextGrid = some (gridOf n r.rdx r.ver ctx p none (physRead s pa 256)) ∧ u.nextGrid = s.nextGrid + 1 ∧
             (u.queue n).grids = r.grids ++ [s.nextGrid] ∧ (u.queue n).rdx = r.rdx + 1 ∧
             (u.queue n).inflight = r.inflight ++ [⟨r.rdx, p.typ, p.tag, p.irq, p.sys, .grid s.nextGrid⟩]))) ∧
     (∀ (n : Fin 1024) idx f a b (k : BitVec 3) caddr ctx (c : Context) pa, s.memOk →
       (s.queue n.val).inflight.find? (fun x => x.idx == idx) = some f →
       f.work = .inval a b k caddr → s.ctxOfQueue n.val = some (ctx, c) → caddr ≠ 0 →
         translate s c caddr.toNat needWrite = .ok pa →
       (s.queue n.val).held = false → ∃ (u : State), exec (.invalidateRangeComplete n idx) s = .next u ∧
         (u.queue n.val).inflight = (s.queue n.val).inflight.filter (fun x => x.idx != idx) ∧ u.groups = s.groups ∧
         u.irqs = s.irqs ++ (if f.irq then [⟨fn n.val, (s.queue n.val).vec⟩] else []) ∧ s.SameOutside u 8 [(0,
           .phys pa)] ∧
         leNat (physRead u pa 8) = (leNat (physRead s pa 8) + 1) % 2 ^ 64) ∧
     (∀ (x : Grid) f (c : Context) pa, s.memOk → s.grid? s.sel = some x → x.killed = false → x.gangs ≤ x.ended →
       (s.queue x.queue).inflight.find? (fun f => f.work == .grid s.sel) = some f → s.ctx? x.ctx = some c →
         x.caddr ≠ 0 →
       translate s c x.caddr.toNat needWrite = .ok pa → ∃ (u : State), exec .gridComplete s = .next u ∧
         u.grid? s.sel = none ∧
         (u.queue x.queue).inflight = (s.queue x.queue).inflight.filter (fun y => y.idx != f.idx) ∧
           u.groups = s.groups ∧
         u.irqs = s.irqs ++ (if f.irq then [⟨fn x.queue, (s.queue x.queue).vec⟩] else []) ∧ s.SameOutside u 8 [(0,
           .phys pa)] ∧
         leNat (physRead u pa 8) = (leNat (physRead s pa 8) + x.cinc.toNat) % 2 ^ 64) ∧
     (∀ x : Grid, s.grid? s.sel = some x → (s.queue x.queue).held = false →
       (s.queue x.queue).state = 1 ∨ (s.queue x.queue).state = 2 →
       ∃ (u : State), exec .gridKill s = .next u ∧ u.grid? s.sel = none ∧ (∀ k, k.grid = s.sel →
         u.group? k = none) ∧ u.mem = s.mem ∧ u.far = s.far ∧
         (u.queue x.queue).state = 3 ∧ (u.queue x.queue).ecode = 0x09 ∧ (u.queue x.queue).etype = 0x14 ∧
           (u.queue x.queue).eidx = x.idx)) ∧
  (∀ s : State,
     (∀ die n k (x : Grid) w (r : Queue), s.sel = die → die < 4 → s.ready (1 + die) = true → n < 1024 →
       n / 256 = die → s.queues = [(n, r)] →
       r.grids = [k] → r.blk = false → s.grid? k = some x → x.gangs = x.placed + 1 → s.placeable x.ctx = true →
         (∀ j < 256, s.claiming (256 * die + j) = false) → n ∉ (s.die die).refused →
       (x.placed = 0 → (s.die die).gridSeqs.length + x.roleList.length ≤ 16) →
         (x.windows die).find? (s.windowFits n x r.elev.toNat) = some w →
       w / 96 = die → exec .placementPass s = .next ((s.placeHead n k x w r.elev.toNat).modDie die (fun d =>
         { d with refused := [] }))) ∧
     (∀ n k (x : Grid) w lvl, s.headOf n = some (k, x) →
       let u := s.placeHead n k x w lvl
       let count (l : Tbl Nat Nat) (n : Nat) : Nat := (l.find n).getD 0
       ∃ y : Gang, u.gang? (k, x.placed) = some y ∧ y.start = w ∧ y.live = x.teams ∧ y.level = lvl ∧ y.region = w / 8 ∧
         (let first := y.seqs.headD 0
          y.handle = builtinHandle 2 (w / 96) (w / 8 % 12 * 8 + first) (count (u.region (w / 8)).gangCnt first)) ∧
       ∀ t < x.teams,
         let c := w + t * (x.pair.toNat + 1)
         ∃ z : Team, u.team? (k, x.placed, t) = some z ∧ z.core = c ∧ z.live = x.groups ∧ z.tvec = 0 ∧
         (let first := z.seqs.headD 0
          z.handle = builtinHandle 1 (c / 96) (c % 96 * 16 + first) (count (u.core c).teamCnt first)) ∧
         ∀ j < x.groups, ∃ (G : Group), u.group? ⟨k, x.placed, t, j⟩ = some G ∧ G.a.pc = x.entryOf (x.roleOf j) ∧
           G.readH 6 = y.handle ∧ G.readH 7 = z.handle ∧ (∀ n < 6, G.readH n = 0) ∧
           G.b = none ∧
           G.role = x.roleOf j ∧ G.width = x.width ∧ G.base = x.baseOf (x.roleOf j) ∧ G.quad = (x.seat j).2 ∧
           G.core = w + t * (x.pair.toNat + 1) + (x.seat j).1 ∧ G.a.mask = widthMask x.width ∧ G.a.fork = .reset ∧
             G.v = [] ∧ G.hw = []) ∧
     (∀ c rest k (x : Grid), s.sel < 4 → (s.die s.sel).claims = c :: rest →
       let s1 := (s.setDie s.sel { s.die s.sel with claims := rest }).fetchRecord s.sel c.queue c.ver
       s1.headOf c.queue = some (k, x) →
       let lvl := (s1.queue c.queue).elev.toNat
       (k = c.grid → s1.placeable x.ctx = true → s1.windowFits c.queue x lvl c.start = true → s1.short c.queue x = false →
         s1.heldBack c.queue lvl x.cores = false →
         exec .placementClaim s = .next (s1.placeHead c.queue k x c.start lvl)) ∧
       let refused (u : State) : Prop :=
         exec .placementClaim s = .next (u.modDie (c.queue / 256) (fun d => { d with refused := c.queue :: d.refused }))
       (k ≠ c.grid ∨ s1.placeable x.ctx = false ∨ s1.short c.queue x = true → refused s1) ∧
       (k = c.grid → s1.placeable x.ctx = true → s1.short c.queue x = false →
         (s1.heldBack c.queue lvl x.cores = true → refused (s1.block c.queue)) ∧
         (s1.heldBack c.queue lvl x.cores = false → s1.windowFits c.queue x lvl c.start = false → refused s1))) ∧
     (∀ n k (x : Grid) m w, s.sel = n → n < 1024 → s.headOf n = some (k, x) → (s.queue n).blk = true →
       (s.queue n).rsv = false → s.short n x = false → (∀ j, j ≠ n → s.due j = false) →
       (s.queue n).bfc = 4 ∨ (s.queue n).since + 1000000 ≤ s.timer → s.bestWindow (n / 256) x = some (m, w) →
       exec .reservationTimeout s = .next { s.setQueue n { s.queue n with rsv := true } with
         reserves := s.reserves ++ [⟨some n, x.window w⟩] }) ∧
     (∀ n, s.sel = n → n < 1024 → s.nopromo = false → (s.queue n).grids ≠ [] → (s.queue n).elev ≠ 3 →
       let due := (s.queue n).became + 8 * s.quantum.toNat * 1000
       exec .quantumPromotion s = .next (if s.timer < due then s
         else s.setQueue n { s.queue n with elev := (s.queue n).elev + 1, became := due }))) ∧
  (∀ s : State,
     (∀ w : Fin 4 → Nat, ∀ h : Fin 4, (∀ j, j < h → w j < w h) → (∀ j, h < j → w j ≤ w h) →
       2150 < w 0 + w 1 + w 2 + w 3 →
       (∀ t, s.ctlRaised = some t → t + 10000 ≤ s.timer) → ∃ (u : State),
         exec (.powerCtlRaise (w 0) (w 1) (w 2) (w 3)) s = .next u ∧
         u.ctlRaised = some s.timer ∧ u.groups = s.groups ∧ s.SameMemory u ∧ ∀ r < 48, u.region r =
           if r / 12 = h.val then { s.region r with ctl := BitVec.ofNat 2 (min 2 ((s.region r).ctl.toNat + 1)) } else s.region r) ∧
     (∃ (u : State), exec .powerCtlLower s = .next u ∧ u.groups = s.groups ∧ s.SameMemory u ∧
       ∀ r < 48, u.region r = { s.region r with ctl := BitVec.ofNat 2 ((s.region r).ctl.toNat - 1) }) ∧
     (∀ (c : Fin 384) (k : Fin 4) l, 20 ≤ l.length → (∀ x ∈ l, (s.region (c.val / 8)).ntt.toNat < x) →
       ∃ x : Core, exec (.nearThresholdEnter c k l) s = .next (s.setCore c.val x) ∧ k.val ∈ x.near ∧ k.val ∈ x.slow ∧
         x = { s.core c.val with near := x.near, slow := x.slow } ∧ (∀ j, j ≠ k.val →
           (j ∈ x.near ↔ j ∈ (s.core c.val).near))) ∧
     (∀ (c : Fin 384) (k : Fin 4),
       (∀ l x, l.getLast? = some x → x ≤ (s.region (c.val / 8)).ntt.toNat →
         exec (.nearThresholdEnter c k l) s = exec (.nearThresholdLeave c k) s) ∧
       (∃ x : Core, exec (.nearThresholdLeave c k) s = .next (s.setCore c.val x) ∧
         x = { s.core c.val with near := x.near } ∧
         ∀ j, j ∈ x.near ↔ j ∈ (s.core c.val).near ∧ j ≠ k.val) ∧
       (k.val ∉ (s.core c.val).near → ∃ x : Core, exec (.fullClockReturn c k) s = .next (s.setCore c.val x) ∧
         x = { s.core c.val with slow := x.slow } ∧ ∀ j, j ∈ x.slow ↔ j ∈ (s.core c.val).slow ∧ j ≠ k.val)) ∧
     (∀ r, s.sel = r → r < 48 → (s.region r).nogate = false → s.reservedRegion r = false →
       (∀ k < 8, s.teamsOn (8 * r + k) = [] ∧ (s.core (8 * r + k)).frozen = none) →
       ((s.region r).gate = .running → exec .regionHold s = .next (s.setRegion r { s.region r with gate := .hold })) ∧
       ((s.region r).gate = .hold → exec .regionRailOff s = .next (s.setRegion r { s.region r with gate := .off }))) ∧
     (∀ r rest, s.sel < 4 → (s.die s.sel).rampQueue = r :: rest →
       ((s.die s.sel).ramping.length < 4 → exec .rampStart s = .next (s.setDie s.sel { s.die s.sel with
         rampQueue := rest, ramping := (s.die s.sel).ramping ++ [r] })) ∧
       (4 ≤ (s.die s.sel).ramping.length → exec .rampStart s = .next s)) ∧
     (∀ r, s.sel = r → r < 48 → r ∈ (s.die (r / 12)).ramping → ∃ (u : State), exec .rampDone s = .next u ∧
       u.groups = s.groups ∧
       u.region r = { s.region r with gate := .running } ∧ (∀ j,
         j ∈ (u.die (r / 12)).ramping ↔ j ∈ (s.die (r / 12)).ramping ∧ j ≠ r)) ∧
     (10000 * s.interval ≤ s.timer → ∃ (u : State), exec .sprintInterval s = .next u ∧ u.interval = s.interval + 1 ∧
       u.groups = s.groups ∧
       s.SameMemory u ∧ ∀ r < 48,
         let old := s.region r
         let b : Int := if old.bin = 0 ∧ old.pairing = true then min 64 (old.bal + 1) else old.bal
         let held : Bool := if old.bin = 0 ∧ old.pairing = true then old.ovd && decide (b < 4) else old.ovd
         let ask := s.requested r
         (s.t95 = true ∨ b = -1 ∨ held = true ∨ ask = 0 → (u.region r).bin = 0 ∧ (u.region r).bal = b ∧
           (u.region r).ovd = held) ∧
         (s.t95 = false → 0 ≤ b → held = false → ask = 1 → (u.region r).bin = 1 ∧ (u.region r).bal = b - 1 ∧
           (u.region r).ovd = decide (b = 0)) ∧
         (s.t95 = false → 2 ≤ b → held = false → ask = 2 → s.requested (if r % 2 = 0 then r + 1 else r - 1) ≠ 2 →
           (u.region r).bin = 2 ∧ (u.region r).bal = b - 2 ∧ (u.region r).ovd = false))) ∧
  (∀ s : State,
     (∀ c, s.sel = c → c < 384 → s.teamsOn c ≠ [] → (s.core c).frozen = none → s.tileCores c = [c] →
       ∃ (u : State) (f : Frozen), exec .freeze s = .next u ∧ (u.core c).frozen = some f ∧ f.stage = .landing ∧
         f.home = c ∧ f.landed = [] ∧
         f.held = [] ∧ f.target = none ∧ f.wakes = [] ∧ f.due = false ∧ u.groups = s.groups ∧ u.teams = s.teams ∧ s.SameMemory u) ∧
     (∀ c (f : Frozen), s.sel = c → c < 384 → s.tileCores c = [c] → (s.core c).frozen = some f →
       (f.stage = .landing →
         exec .landingClose s = .next (s.setCore c { s.core c with frozen := some { f with stage := .closed } })) ∧
       (f.stage = .closed → ∀ b, s.imageBad f = some b → ((∀ w, b ≠ .hold w) → exec .imageComplete s = .next (s.freezeFailed c)) ∧
         ∀ w, b = .hold w → exec .imageComplete s = .next s) ∧
       (f.stage = .closed → s.imageBad f = none → s.releases f = false →
         exec .imageComplete s = .next ((s.setCore c { s.core c with frozen := some { f with stage := .complete } }).writeImage
           { f with stage := .complete }))) ∧
     (∀ (f : Frozen) (c : Context) base, Memory.wf s.mem = true → s.ctx? f.ctx = some c → c.save = some base → localBad s (base + 2201728 * f.vcore) = none →
       localBad s (base + 2201728 * f.vcore + 2201727) = none →
       let u := s.writeImage f
       let at_ := base + 2201728 * f.vcore
       let word (o n : Nat) : Nat := leNat (memRead u.mem (at_ + o) n)
       { u with mem := s.mem, free := s.free, ledger := s.ledger } = s ∧ u.imageOk f = true ∧
       (∀ a, a < at_ ∨ at_ + 2201728 ≤ a → memRead u.mem a 1 = memRead s.mem a 1) ∧
       word 0 4 = 0x53465A49 ∧ word 4 2 = f.rev.toNat ∧ word 6 2 = 0 ∧ word 8 8 = f.lhash.toNat ∧ word 16 8 = f.units.toNat ∧
       word 24 4 = f.ctx % 2 ^ 20 ∧ word 28 4 = 2201728 ∧ word 32 4 = f.vcore % 2 ^ 32) ∧
     (∀ (e : Instr) (c t : Fin 384) img (f : Frozen), s.imageOf c.val = some img → s.tileCores img = [img] →
       (s.core img).frozen = some f →
       s.restorable img t.val = true → s.imageBad f = none → s.imageOk f = true → f.landed = [] → f.held = [] → s.NoStops →
       e = .restore c t ∨ (e = .autoRestore ∧ s.sel = c.val ∧ (f.wakes ≠ [] ∨ f.due = true) ∧ f.target = none ∧
         f.home = t.val) →
       ∃ (u : State), exec e s = .next u ∧ s.SameMemory u ∧ (u.core t.val).frozen = none ∧
         ∀ (gid : GroupId) (g : Group), s.group? gid = some g → gid.isDebug = false → g.core = img → ∃ (G : Group),
           u.group? gid = some G ∧ G.core = t.val ∧
           G.a = g.a ∧ G.b = g.b ∧ G.v = g.v ∧ G.p = g.p ∧ G.h = g.h ∧ G.hw = g.hw ∧ G.wb = g.wb ∧
             G.flags = g.flags ∧ G.quad = g.quad ∧
           G.vcore = g.vcore ∧ G.wait = g.wait ∧ G.fenced = true ∧ (f.wakes = [] → G.urgent = g.urgent.eraseDups)) ∧
     (∀ (c t : Fin 384) img (f : Frozen), s.imageOf c.val = some img → s.tileCores img = [img] →
       (s.core img).frozen = some f →
       (s.restorable img t.val = false → exec (.migrateByReplay c t) s = .next s ∧ ∃ (u : State),
         exec (.restore c t) s = .next u ∧ u.groups = s.groups ∧ s.SameMemory u ∧ (u.core img).frozen =
           some (if f.stage = .complete ∧ f.target = none ∧
             (s.ctx? f.ctx).any (fun c => c.stage == .running || c.stage == .soft) = true then { f with due := true } else f)) ∧
       (s.restorable img t.val = true → ∀ b, s.imageBad f = some b →
         ((∀ w, b ≠ .hold w) → exec (.restore c t) s = .next (s.freezeFailed img)) ∧ ∀ w, b = .hold w → exec (.restore c t) s = .next s) ∧
       (s.restorable img t.val = true → s.imageBad f = none → s.imageOk f = false →
         exec (.restore c t) s = .next (s.freezeFailed img)) ∧
       (s.restorable img t.val = true → (∀ v, s.imageBad { f with vcore := v } = none) → s.imageOk f = true → f.landed = [] →
         f.held = [] → s.NoStops → (∃ e ∈ s.teams, e.2.core = img) → (∀ e ∈ s.teams, e.2.core = img → e.2.ctx = f.ctx) →
         ∃ (u : State) (F : Frozen), exec (.migrateByReplay c t) s = .next u ∧ (u.core t.val).frozen = some F ∧
           F.stage = .complete ∧ F.portable = true ∧ F.due = true ∧ F.home = t.val ∧
           ∀ (gid : GroupId) (g : Group), s.group? gid = some g → gid.isDebug = false → g.core = img → ∃ (G : Group),
             u.group? gid = some G ∧ G.core = t.val ∧ G.a = g.a ∧ G.b = g.b ∧ G.v = g.v ∧ G.p = g.p ∧ G.h = g.h)) ∧
     (∀ img (f : Frozen), s.sel < 384 → s.imageOf s.sel = some img → (s.core img).frozen = some f → ∃ (u : State),
       exec .freezeFail s = .next u ∧ u.mem = s.mem ∧ u.far = s.far ∧ ∀ k x, s.grid? k = some x → x.ctx = f.ctx →
         u.grid? k = none) ∧
     (∀ (c t : Fin 384), s.tileCores c.val = [c.val] → (s.core c.val).frozen = none →
       s.reservedRegion (t.val / 8) = false →
       s.enabled t.val = true → s.teamsOn t.val = [] → (s.core t.val).frozen = none → c ≠ t →
       ∀ k (x : Team) h rest, s.teamsOn c.val = (k, x, h) :: rest → s.placeable x.ctx = true →
       if Config.tileRev c.val = Config.tileRev t.val ∧ Config.scanHash c.val = Config.scanHash t.val then
         ∃ (u : State) (f : Frozen), exec (.tileMigrate c t) s = .next u ∧ u.groups = s.groups ∧ s.SameMemory u ∧
           u.reserves = s.reserves ++ [⟨none, [t.val]⟩] ∧ (u.core c.val).frozen = some f ∧ f.stage = .landing ∧
             f.target = some t.val
       else exec (.tileMigrate c t) s = .next s) ∧
     (∀ c : Context, s.ctx? s.sel = some c →
       (c.stage = .running → exec .preempt s = .next (s.setCtx s.sel { c with stage := .soft, preAt := s.timer })) ∧
       (c.stage = .soft → c.preAt + 1000 * s.pdeadline.toNat ≤ s.timer → s.teamsOfCtx s.sel ≠ [] → (∀ k,
         (s.core k).frozen = none) →
         ∃ (u : State), exec .preemptDeadline s = .next u ∧ u.ctx? s.sel = some { c with stage := .frozen } ∧
           u.groups = s.groups ∧
           s.SameMemory u ∧ ∀ t ∈ s.teamsOfCtx s.sel, (u.core t.core).frozen.isSome = true) ∧
       (c.stage = .soft → s.teamsOfCtx s.sel = [] → s.copiesOf s.sel = [] → ∀ b, s.parkedBad s.sel (s.toPark s.sel) = some b →
         ∃ (u : State) (x : Context), exec .contextSwitchComplete s = .next u ∧ u.ctx? s.sel = some x ∧ u.mem = s.mem ∧
         ((∃ w, b = .hold w) → x = c ∧ u.groups = s.groups) ∧
         ((∀ w, b ≠ .hold w) → x.stage = .running ∧ ∀ k y, s.grid? k = some y → y.ctx = s.sel → u.grid? k = none)) ∧
       (c.stage = .soft → s.teamsOfCtx s.sel = [] → s.copiesOf s.sel = [] → s.parkedBad s.sel (s.toPark s.sel) = none →
         ∃ (u : State) (x : Context),
         exec .contextSwitchComplete s = .next u ∧ u.ctx? s.sel = some x ∧ x.stage = .out ∧ x.root = c.root ∧
           u.groups = s.groups ∧ u.far = s.far ∧
         (∀ base a, Memory.wf s.mem = true → c.save = some base → a < base + 0x38000000 → memRead u.mem a 1 = memRead s.mem a 1) ∧
         (∀ n, (s.queue n).pasid = c.pasid → (u.queue n).grids = []) ∧
         ∀ d k e, (s.die d).entries.find k = some e → e.valid = true → e.ctx.toNat = s.sel →
           (u.entry d k).valid = false ∧ (u.entry d k).parked = true ∧ (u.entry d k).key = e.key ∧
             (u.entry d k).gen = e.gen) ∧
       (c.stage = .out → (c.parkedE.map (fun x => (x.1, x.2.1))).Nodup → ∃ (u : State) (x : Context),
         exec .contextRestore s = .next u ∧ u.ctx? s.sel = some x ∧ x.stage = .running ∧ x.parkedE = [] ∧
           u.groups = s.groups ∧
         s.SameMemory u ∧ ∀ d k e, (d, k, e) ∈ c.parkedE → u.entry d k = e) ∧
       (∃ (u : State), exec .contextDestroy s = .next u ∧ u.ctx? s.sel = none ∧ u.mem = s.mem ∧ u.far = s.far ∧
         (∀ k x, s.grid? k = some x → x.ctx = s.sel → u.grid? k = none) ∧
         ∀ t ∈ (u.dies.flatMap (fun d => d.2.tasks)), t.ctx ≠ s.sel)))

/-- Isacor (R48 to R55, R379): an image is loaded or refused, each system call leaves in a0 the result of R49 with its
effect on the context, and a call number that Isacor does not know leaves −4; the linked-image cache keeps a capacity and
its newest entries (R52). The package (R9 to R24, R27): reset, self-test, readiness, reports, thermal actions, ports, flits and
routes, remote requests and the host's accesses. The model's own choices: the device number 0 until it is set (log 4), what is
read and reported where data of a die is missing (log 8), the functions of SHA-256 and SLH-DSA (log 27), where Isacor puts pages,
rings and stubs, and what mem_map, mem_unmap and queue_open do where the rule is silent (log 28), at 95 degrees Celsius bin 0 is
taken at once (log 42), what a reset leaves outside the package (log 44), the reply to a request that faults (log 45), the order
of fields in a report (log 46), a retraining port carries nothing (log 48), the use of a port and its queue as an event's numbers
(log 49), the message lists (log 92), how flits carry a request (log 93), the port that a route moves to (log 98), which kernel
sections are refused (log 108), what a load returns (log 109), the failures of a launch but for a bad ENTRY (log 110), the unit
of the event as a7 or as the size of the heap (log 111), held requests of a stack (log 119), and that a call whose memory is not
ready waits (log 122). -/
def Obligations.IsacorPackage : Prop :=
  (∀ (s : State) ctx (c : Context), s.ctx? ctx = some c → c.ended = false → s.sel < 8 →
     let answers (e : Instr) (x : Word) : Prop := exec e s = .next (s.setCtx ctx { c with a0 := x })
     (∀ img n, ctx < 2 ^ 20 → n = field img 24 4 →
       (imageBad img = true ∨ field img 16 8 % 4 ≠ 0 ∨ n = 0 ∨ 65535 < n → answers (.imageLoad ctx img) 0xFFFFFFFFFFFFFFFF) ∧
       (imageBad img = false → field img 16 8 % 4 = 0 → 0 < n → n ≤ 65535 → ∃ (u : State) (x : Context),
         exec (.imageLoad ctx img) s = .next u ∧ u.groups = s.groups ∧ s.SameMemory u ∧ u.linked = s.linked ∧
         u.ctx? ctx = some x ∧ x.a0 = 0 ∧
         x.digest = (img.drop 32).take 32 ∧ x.kernels = (List.range n).map (kernelAt img (field img 16 8)) ∧
           x.root = c.root)) ∧
     (∀ x, exec (.exit ctx x) s = .next (s.setCtx ctx { c with ended := true, a0 := x, cwait := none })) ∧
     (∀ a n, s.heldAt c needRead (pieceStarts a.toNat n.toNat) = true → exec (.log ctx a n) s = .next s) ∧
     (∀ a n, s.heldAt c needRead (pieceStarts a.toNat n.toNat) = false →
       (s.readRange c a.toNat n.toNat = none → answers (.log ctx a n) 0xFFFFFFFFFFFFFFFF) ∧
       (∀ bs, s.readRange c a.toNat n.toNat = some bs →
         exec (.log ctx a n) s = .next (s.setCtx ctx { c with logged := c.logged ++ bs, a0 := n }))) ∧
     (∀ x, 4 ≤ x.toNat → answers (.queueOpen ctx x) 0xFFFFFFFFFFFFFFFF) ∧
     (∀ x n l, x.toNat < 4 →
       (List.range 1024).find? (fun n => !((s.qown.find n).map (·.val)).getD false && (s.queue n).state == 0#2) = some n →
       (List.range 1024).find? (fun l => !(s.queueAt c.fn l).isSome) = some l →
         s.allMapped c 1 (0x9000000000 + 4096 * l) = true →
       s.allMapped c 1 (0xD000000000 + 4096 * l) = true →
       (s.queue n).held = false → ∃ (u : State), exec (.queueOpen ctx x) s = .next u ∧ u.ctx? ctx = some { c with
           a0 := BitVec.ofNat 64 l, bells := c.bells.put ((0xD000000000 + 4096 * l) / 4096) n } ∧
         u.groups = s.groups ∧ s.SameMemory u ∧ u.qown.find n = some ⟨BitVec.ofNat 6 c.fn, true, BitVec.ofNat 10 l⟩ ∧
         (u.queue n).en = true ∧ (u.queue n).state = 1 ∧ (u.queue n).pasid = c.pasid ∧
           (u.queue n).prio = x.setWidth 2 ∧ (u.queue n).size = 0 ∧
         (u.queue n).rdx = 0 ∧ (u.queue n).wrx = 0 ∧ (u.queue n).base.toNat = 0x9000000000 + 4096 * l) ∧
     (∀ va n fl, rangeOk va.toNat n.toNat = false ∨ 4 ≤ fl.toNat → answers (.memMap ctx va n fl) 0xFFFFFFFFFFFFFFFF) ∧
     (∀ va n fl, rangeOk va.toNat n.toNat = true → fl.toNat < 4 →
       (s.heldWalk c (n.toNat / 4096) va.toNat = true → exec (.memMap ctx va n fl) s = .next s) ∧
       (s.heldWalk c (n.toNat / 4096) va.toNat = false → s.anyMapped c (n.toNat / 4096) va.toNat = true →
         answers (.memMap ctx va n fl) 0xFFFFFFFFFFFFFFFF) ∧
       (s.heldWalk c (n.toNat / 4096) va.toNat = false → s.anyMapped c (n.toNat / 4096) va.toNat = false →
         s.giveFrames ctx n.toNat 4096 = none →
         (s.roomHeld = true → exec (.memMap ctx va n fl) s = .next s) ∧
         (s.roomHeld = false → answers (.memMap ctx va n fl) 0xFFFFFFFFFFFFFFFE))) ∧
     (∀ va n fl (f : Nat) (s1 : State) s2 x, rangeOk va.toNat n.toNat = true → fl.toNat < 4 →
       s.heldWalk c (n.toNat / 4096) va.toNat = false → s.anyMapped c (n.toNat / 4096) va.toNat = false →
       s.giveFrames ctx n.toNat 4096 = some (f, s1) →
       s1.mapPages ctx c.root.toNat 5 0 4096 (fl.getLsbD 0) (fl.getLsbD 1) (n.toNat / 4096) va.toNat f = some s2 →
         s2.ctx? ctx = some x →
       exec (.memMap ctx va n fl) s = .next (s2.setCtx ctx { x with a0 := 0 })) ∧
     (∀ va n, rangeOk va.toNat n.toNat = false → answers (.memUnmap ctx va n) 0xFFFFFFFFFFFFFFFF) ∧
     (∀ va n, rangeOk va.toNat n.toNat = true →
       (s.heldWalk c (n.toNat / 4096) va.toNat = true → exec (.memUnmap ctx va n) s = .next s) ∧
       (s.heldWalk c (n.toNat / 4096) va.toNat = false → s.allMapped c (n.toNat / 4096) va.toNat = false →
         answers (.memUnmap ctx va n) 0xFFFFFFFFFFFFFFFF)) ∧
     (∀ va (s1 : State) x, rangeOk va.toNat 4096 = true → s.heldWalk c 1 va.toNat = false → s.allMapped c 1 va.toNat = true →
       s.mapEntry ctx va.toNat 5 0 5 c.root.toNat = some s1 →
       s1.ctx? ctx = some x → exec (.memUnmap ctx va 4096) s = .next (s1.setCtx ctx { x with a0 := 0 })) ∧
     (∀ qu pk, s.heldAt c needRead [pk.toNat, pk.toNat + 63] = true → exec (.launchCall ctx qu pk) s = .next s) ∧
     (∀ qu pk n bs pa, s.memOk → qu.toNat < 1024 → s.queueAt c.fn qu.toNat = some n →
       s.heldAt c needRead [pk.toNat, pk.toNat + 63] = false → s.readRange c pk.toNat 64 = some bs → bs.length = 64 →
       let p := Packet.ofBytes bs
       let r := s.queue n
       (p.roles = true → s.heldAt c needRead [pk.toNat + 64, pk.toNat + 127] = true → exec (.launchCall ctx qu pk) s = .next s) ∧
       let seen : Prop := p.roles = false ∨ s.heldAt c needRead [pk.toNat + 64, pk.toNat + 127] = false
       (seen → r.pasid ≠ c.pasid → answers (.launchCall ctx qu pk) 0xFFFFFFFFFFFFFFFD) ∧
       (seen → r.pasid = c.pasid → p.typ ≠ 0x14 ∨ r.en = false ∨ (p[1] ≠ 0 ∧ c.stubKnown p[1] = false) →
         answers (.launchCall ctx qu pk) 0xFFFFFFFFFFFFFFFF) ∧
       (p.typ = 0x14 → r.pasid = c.pasid → r.en = true → p[1] = 0 ∨ c.stubKnown p[1] = true → p.roles = false →
         (2 ^ (r.size.toNat + 6) ≤ (r.wrx - r.rdx).toNat → answers (.launchCall ctx qu pk) 0xFFFFFFFFFFFFFFFE) ∧
         ((r.wrx - r.rdx).toNat < 2 ^ (r.size.toNat + 6) →
           translate s c (r.base.toNat + 64 * (r.wrx.toNat % 2 ^ (r.size.toNat + 6))) needWrite = .ok pa →
           ∃ (u : State), exec (.launchCall ctx qu pk) s = .next u ∧ u.ctx? ctx = some { c with a0 := zx r.wrx } ∧
             u.groups = s.groups ∧
             u.queue n = { r with wrx := r.wrx + 1, ver := r.ver + 1 } ∧ physRead u pa 64 = bs ∧
               s.SameOutside u 64 [(0, .phys pa)]))) ∧
     (∀ a x t,
       (a.toNat % 8 ≠ 0 → answers (.counterWait ctx a x t) 0xFFFFFFFFFFFFFFFF) ∧
       (a.toNat % 8 = 0 → s.heldAt c needRead [a.toNat] = true → exec (.counterWait ctx a x t) s = .next s) ∧
       (∀ v, a.toNat % 8 = 0 → counterValue s c a = some v →
         (x.toNat ≤ v → exec (.counterWait ctx a x t) s = .next (s.setCtx ctx { c with a0 := 0, cwait := none })) ∧
         (v < x.toNat → c.cwait = none →
           exec (.counterWait ctx a x t) s = .next (s.setCtx ctx { c with cwait := some ⟨a, x, s.timer + t.toNat⟩ })))) ∧
     (∀ k, c.fns.find? (fun f => f.kernel == k.toNat) = none ∨ c.kernels[k.toNat]? = none →
       answers (.fnLoad ctx k) 0xFFFFFFFFFFFFFFFF) ∧
     (∀ k f kk, c.fns.find? (fun f => f.kernel == k.toNat) = some f → c.kernels[k.toNat]? = some kk →
       let stub : Word := zx ((f.stubs.head?.map (·.1)).getD 0)
       let top := (c.heapNext + 63) / 64 * 64
       (s.heapHeld ctx c = true → exec (.fnLoad ctx k) s = .next s) ∧
       (s.heapHeld ctx c = false → f.body.isSome = true → ∃ (u : State), exec (.fnLoad ctx k) s = .next u ∧ u.groups = s.groups ∧ s.SameMemory u ∧
         u.ctx? ctx = some { c with a0 := stub, fns := c.fns.map (fun y =>
           if y.kernel = f.kernel then { y with loaded := true } else y) }) ∧
       (s.heapHeld ctx c = false → f.body = none → s.heapFailed c = true → exec (.fnLoad ctx k) s = .next
         ((s.loaderFault ctx f.kernel 8).modCtx ctx (fun y => { y with a0 := 0xFFFFFFFFFFFFFFFF }))) ∧
       (s.heapHeld ctx c = false → f.body = none → s.heapFailed c = false → top + f.bytes ≤ c.heapSize → ∃ (u : State), exec (.fnLoad ctx k) s = .next u ∧
         u.groups = s.groups ∧ u.ctx? ctx = some
         { c with a0 := stub, heapNext := top + f.bytes, fns := c.fns.map (fun y => if y.kernel = f.kernel then
           { y with body := some (c.heapBase + BitVec.ofNat 57 top), loaded := true } else y) }))) ∧
  (∀ (s : State) ctx (c : Context), s.ctx? ctx = some c → c.ended = false →
     let answers (e : Instr) (x : Word) : Prop := exec e s = .next (s.setCtx ctx { c with a0 := x })
     (8 ≤ s.sel → ∀ a x t : Word, ∀ e, e = .exit ctx a ∨ e = .log ctx a x ∨ e = .queueOpen ctx a ∨ e = .memMap ctx a x t ∨
       e = .memUnmap ctx a x ∨ e = .launchCall ctx a x ∨ e = .counterWait ctx a x t ∨ e = .fnLoad ctx a →
       answers e 0xFFFFFFFFFFFFFFFC) ∧
     (∀ w v, s.sel = ctx → c.cwait = some w → w.deadline ≤ s.timer → counterValue s c w.addr = some v →
       exec .counterWaitTimeout s = .next (s.setCtx ctx
         { c with cwait := none, a0 := if w.target.toNat ≤ v then 0 else 0xFFFFFFFFFFFFFFFE })) ∧
     (∀ k f kk, c.fns.find? (fun f => f.kernel == k) = some f → c.kernels[k]? = some kk → f.body.isSome = true →
       s.heapHeld ctx c = false → (s.groups.map (·.1)).Nodup →
       ∃ (u : State), exec (.functionPublish ctx k) s = .next u ∧ u.teams = s.teams ∧ u.ctx? ctx = some
         { c with fns := c.fns.map (fun y => if y.kernel = k then { y with published := true } else y) } ∧
         ∀ (gid : GroupId) (g : Group), s.group? gid = some g → gid.isDebug = false → u.group? gid =
           some (if g.ctx = ctx ∧ g.wait = some (.loader k) then { g with wait := none } else g))) ∧
  (∀ (s : State) (c : Context) k code,
     let x := s.cacheLink c k code
     let same (l : Linked) : Bool := l.digest == c.digest && l.kernel == k
     x.2 = { s with linked := x.2.linked, free := s.free + 1 } ∧ x.2.linked.length ≤ Config.cacheSpare + 1 ∧
     (∃ l, x.2.linked.head? = some l ∧ same l = true ∧ l.code = x.1) ∧ (∀ l ∈ x.2.linked.drop 1, l ∈ s.linked ∧ same l = false) ∧
     (s.linked.find? same = none → x.1 = code ∧ x.2.linked.head?.map (·.meas) = some s.measures) ∧
     (∀ l, s.linked.find? same = some l → Config.nvmeError s.free = false → l.sum = l.digestOf → x.1 = l.code) ∧
     (∀ l, s.linked.find? same = some l → Config.nvmeError s.free = true ∨ l.sum ≠ l.digestOf → x.1 = code)) ∧
  (∀ s : State,
     (∀ ctx img, ctx < 2 ^ 20 → s.ctx? ctx = none → imageBad img = true →
       exec (.imageLoad ctx img) s = .next { s with callReply := 0xFFFFFFFFFFFFFFFF }) ∧
     (∃ (u : State), exec .reset s = .next u ∧ u.groups = [] ∧ u.grids = [] ∧ u.contexts = [] ∧ u.mem = [] ∧
       u.timer = 0 ∧ u.devrdy = 0 ∧
       u.umaps = [] ∧ u.queues = [] ∧ u.quantum = 500 ∧ u.tripped = false ∧ u.devnum = none ∧ u.cur = .none ∧
         u.far = s.far ∧
       (∀ d fw, d < 4 → s.plat.fw.find d = some fw → u.meas.find d = some (sha256 fw)) ∧
       (∀ d, d < 4 → (u.devfail.getLsbD (13 + d) = true ↔ ∀ fw, s.plat.fw.find d = some fw →
         slhHolds Config.creostouKey fw ((s.plat.sig.find d).getD []) = false)) ∧
       (∀ d, d < 4 →
         let p := (Config.pufCorrect d ((s.plat.puf.find d).getD []) ((s.plat.aid.find d).getD [])).toList
         let seeds := (sha256 (0 :: p) ++ sha256 (1 :: p) ++ sha256 (2 :: p)).take 72
         u.ident.find d = some (publicKey seeds, seeds) ∧ ∀ off n, u.identityRead d off n = ((publicKey seeds).drop off).take n) ∧
       (∀ l, l ∈ u.linked ↔ l ∈ s.linked ∧ l.meas = u.measures)) ∧
     (∀ key m sig, sig.length ≠ 16224 → slhHolds key m sig = false) ∧
     (∀ (d : Fin 4) co cp po sc, ((s.umap d.val).done = true → exec (.selfTestDone d co cp po sc) s = .next s) ∧
       ((s.umap d.val).done = false →
         exec (.selfTestDone d co cp po sc) s = .next { s with umaps := s.umaps.put d.val ⟨co, cp, po, true, sc⟩ })) ∧
     (∀ (d : Fin 4) n key seeds, s.ident.find d.val = some (key, seeds) → n.length = 32 → ∃ r, n <:+: r ∧
       ((List.range 4).flatMap (fun d => (s.meas.find d).getD [])) <+: r ∧
       ∃ extra : List Byte, extra.length = 24 ∧
       exec (.attestationReport d n) s = .next { s with
         reports := s.reports ++ [(r, slhSign seeds extra r)], free := s.free + 24 }) ∧
     (∀ f : DevFn, s.devfail.getLsbD (devBit f) = false →
       (∀ d, f = .lnk d → s.devnum.isSome = true ∧ (∃ p ∈ s.enabledPorts d.val, (s.port p).up = true) ∧
         ∀ p ∈ s.enabledPorts d.val, (s.port p).up = true ∨ (s.port p).fail = true) →
       (∀ d, f = .ctl d → (s.meas.find d.val).isSome = true) →
       exec (.functionReady f) s = .next { s with
         devrdy := s.devrdy ||| BitVec.twoPow 32 (devBit f)
         hostMsgs := if f = .host ∧ s.ready 0 = false then s.hostMsgs ++ [.readiness] else s.hostMsgs }) ∧
     (∀ (d : Fin 4) p, p ∈ s.enabledPorts d.val → (s.port p).fail = false → exec (.functionFail (.lnk d)) s = .next s) ∧
     (∀ f : DevFn, (∀ d, f = .lnk d → ∀ p ∈ s.enabledPorts d.val, (s.port p).fail = true) →
       exec (.functionFail f) s = .next { s with
         devfail := s.devfail ||| BitVec.twoPow 32 (devBit f),
           devrdy := s.devrdy &&& ~~~ BitVec.twoPow 32 (devBit f) }) ∧
     (∀ k, s.sel = k → k < 8 → s.devrdy.getLsbD (5 + k) = true ∨ s.devfail.getLsbD (5 + k) = true →
       s.NoStops → ∃ (u v : State),
       exec .stackHoldRelease s = .next u ∧ s.SameMemory v ∧ v.groups = u.groups ∧ v.heldReqs = [] ∧
       u = s.heldReqs.foldl (fun v x => v.serveRemote x.1 x.2.1 x.2.2) v ∧ ∀ (gid : GroupId) (g : Group), s.group? gid = some g →
         u.group? gid = some (if g.wait = some (.stack k) then { g with wait := none } else g)) ∧
     (∀ n, (∃ d < 4, s.ready (13 + d) = true) → exec (.deviceNumberSet n) s = .next { s with devnum := some n }) ∧
     (∃ (u : State), exec (.thermalAction .t95) s = .next u ∧ u.t95 = true ∧ (∀ r,
       u.region r = { s.region r with bin := 0 }) ∧ s.SameMemory u) ∧
     exec (.thermalAction .t102) s = .next { s with t102 := true } ∧
       exec (.thermalAction .t108) s = .next { s with t108 := true } ∧
     exec (.thermalWithdraw .t95) s = .next { s with t95 := false } ∧
       exec (.thermalWithdraw .t102) s = .next { s with t102 := false } ∧
     exec (.thermalWithdraw .t108) s = .next { s with t108 := false } ∧
       exec .thermalTrip s = .next { s with tripped := true, hostMsgs := s.hostMsgs ++ [.fatal] } ∧
     (∀ p, s.sel = p → p < 36 →
       let x := s.port p
       (s.portEnabled p = true → x.fail = false → exec .portTrained s = .next (s.setPort p { x with up := true }).reroute) ∧
       (s.portEnabled p = true →
         let t := (s.setPort p { x with up := false, fail := true }).reroute
         ((∀ q ∈ t.enabledPorts (p / 9), (t.port q).fail = true) → exec .portFailure s = .next { t with
           devfail := s.devfail ||| BitVec.twoPow 32 (21 + p / 9), devrdy := s.devrdy &&& ~~~ BitVec.twoPow 32 (21 + p / 9) }) ∧
         ((∃ q ∈ t.enabledPorts (p / 9), (t.port q).fail = false) → exec .portFailure s = .next t)) ∧
       (8 ≤ x.replays → exec .portRetrain s = .next (s.setPort p { x with replays := 0, up := false }).reroute) ∧
       (x.replays < 8 → exec .portRetrain s = .next s) ∧
       (let idle := Config.portUse p s.timer
        (x.since + 10000 ≤ s.timer → (x.lanes = 4 ∧ idle < 25) ∨ (x.lanes = 2 ∧ idle < 10) →
          exec .laneNarrow s = .next (s.setPort p { x with lanes := x.lanes / 2, since := s.timer })) ∧
        (s.timer < x.since + 10000 ∨ 25 ≤ idle ∨ (x.lanes = 2 ∧ 10 ≤ idle) ∨ x.lanes = 1 → exec .laneNarrow s = .next s)) ∧
       (16 < Config.portQueue p s.timer → exec .laneWiden s = .next (s.setPort p { x with lanes := 4, since := s.timer })) ∧
       (Config.portQueue p s.timer ≤ 16 → exec .laneWiden s = .next s)) ∧
     ({ s.reroute with routes := s.routes } = s ∧
       ∀ dev q, s.routes.find dev = some q → ∃ k, s.reroute.routes.find dev = some k ∧
         ((s.port q).up = true → k = q) ∧
         ((s.port q).up = false → (∃ j < 36, (s.port j).up = true) → (s.port k).up = true) ∧
         ((s.port q).up = false → (∃ j < 9, (s.port (9 * (q / 9) + j)).up = true) → k / 9 = q / 9) ∧
         ((∀ j, (s.port j).up = false) → k = q)) ∧
     (∀ (p : Fin 36) h bs, (s.port p.val).up = true → bs.length = 224 →
       exec (.flitReceive p h bs true) s = .next (s.setPort p.val { s.port p.val with
         replays := 0
         rx := if h.toNat % 2 ^ 21 = s.ownDev then (s.port p.val).rx ++ [{
           dest := h.extractLsb' 0 21, src := h.extractLsb' 21 21, typ := h.extractLsb' 42 6, vc := h.extractLsb' 48 3
           seq := h.extractLsb' 51 12, payload := bs }] else (s.port p.val).rx }) ∧
       exec (.flitReceive p h bs false) s = .next (s.setPort p.val { s.port p.val with replays := (s.port p.val).replays + 1 })) ∧
     (∀ (p : Fin 36) h bs ok, (s.port p.val).up = false ∨ bs.length ≠ 224 → exec (.flitReceive p h bs ok) s = .next s) ∧
     (∀ src (a : BitVec 43),
       let at_ := a.toNat
       let t := s.takeFlit src
       let replies (op : RemoteOp) (m : Mem) (bs : List Byte) : Prop :=
         exec (.remoteRequest src op a) s = .next { t with mem := m, replies := s.replies ++ [(src, bs)] }
       let stores (op : RemoteOp) (m : Mem) (bs : List Byte) : Prop :=
         ∃ (u : State), exec (.remoteRequest src op a) s = .next u ∧
           { u with ledger := s.ledger } = { t with mem := m, replies := s.replies ++ [(src, bs)] } ∧ s.Aside u
       { t with ports := s.ports } = s ∧
       (∀ op w, localBad t at_ = some (.hold w) →
         exec (.remoteRequest src op a) s = .next { t with heldReqs := s.heldReqs ++ [(src, op, a)] }) ∧
       (∀ op b, localBad t at_ = some b → (∀ w, b ≠ .hold w) → replies op s.mem []) ∧
       (∀ op b, localBad t at_ = none → 0 < RemoteOp.bytes op → localBad t (at_ + RemoteOp.bytes op - 1) = some b →
         (∀ w, b ≠ .hold w) → replies op s.mem []) ∧
       (localBad t at_ = none →
         (∀ n, n = 0 ∨ localBad t (at_ + n - 1) = none → replies (.load n) s.mem (memRead s.mem at_ n)) ∧
         (∀ bs : List Byte, bs = [] ∨ localBad t (at_ + bs.length - 1) = none →
           stores (.store bs) (memWrite s.mem at_ bs) [] ∧ stores (.copyWrite bs) (memWrite s.mem at_ bs) []) ∧
         (∀ x y, localBad t (at_ + 4 - 1) = none →
           stores (.atomic .xchg .n32 x y) (memWrite s.mem at_ (leBytes 4 (x.toNat % 2 ^ 32))) (memRead s.mem at_ 4)))) ∧
     (∀ (f : Fin 64) k o n, k < 8 → o < 2 ^ 36 → 0 < n →
       let w := ((s.fwin.find (f.val, k)).getD 0).toNat
       let size := w / 2 ^ 13 % 2 ^ 7 * 2 ^ 30
       let at_ := w % 2 ^ 13 * 2 ^ 30 + o
       let off := k * 2 ^ 36 + o
       (size < o + n ∨ hbmEnd < at_ + n →
         exec (.hostAccess f off n none) s = .next { s with hostReply := .unsupportedRequest }) ∧
       (o + n ≤ size → at_ + n ≤ hbmEnd → (localBad s at_).isSome = true ∨ (localBad s (at_ + n - 1)).isSome = true →
         exec (.hostAccess f off n none) s = .next { s with hostReply := .completerAbort }) ∧
       (o + n ≤ size → at_ + n ≤ hbmEnd → localBad s at_ = none → localBad s (at_ + n - 1) = none →
         exec (.hostAccess f off n none) s = .next { s with hostReply := .data (memRead s.mem at_ n) } ∧
         ∀ bs, bs.length = n →
           (w / 2 ^ 20 % 2 = 0 →
             exec (.hostAccess f off n (some bs)) s = .next { s with hostReply := .unsupportedRequest }) ∧
           (w / 2 ^ 20 % 2 = 1 → ∃ (u : State), exec (.hostAccess f off n (some bs)) s = .next u ∧
             { u with ledger := s.ledger } = { s with mem := memWrite s.mem at_ bs, hostReply := .done } ∧ s.Aside u))) ∧
     (∀ (f : Fin 64) off n b, 2 ^ 39 ≤ off →
       exec (.hostAccess f off n b) s = .next { s with hostReply := .unsupportedRequest }))
end

