-- ==== Sys2Proof/Laws/State.lean ====
section
/-! SUPPORT. The fields of a state and of a group after each update of one unit or one register: an update changes the
field it names and keeps every other. -/

namespace Sys2Proof.Machine

/-! ### Units -/

@[simp] theorem setGroup_cur (s : State) (k : GroupId) (x : Group) : (s.setGroup k x).cur = s.cur := rfl
@[simp] theorem setGroup_agenda (s : State) (k : GroupId) (x : Group) : (s.setGroup k x).agenda = s.agenda := rfl
@[simp] theorem setGroup_sel (s : State) (k : GroupId) (x : Group) : (s.setGroup k x).sel = s.sel := rfl
@[simp] theorem setGroup_steps (s : State) (k : GroupId) (x : Group) : (s.setGroup k x).steps = s.steps := rfl
@[simp] theorem setGroup_free (s : State) (k : GroupId) (x : Group) : (s.setGroup k x).free = s.free := rfl
@[simp] theorem setGroup_timer (s : State) (k : GroupId) (x : Group) : (s.setGroup k x).timer = s.timer := rfl
@[simp] theorem setGroup_devnum (s : State) (k : GroupId) (x : Group) : (s.setGroup k x).devnum = s.devnum := rfl
@[simp] theorem setGroup_devrdy (s : State) (k : GroupId) (x : Group) : (s.setGroup k x).devrdy = s.devrdy := rfl
@[simp] theorem setGroup_devfail (s : State) (k : GroupId) (x : Group) : (s.setGroup k x).devfail = s.devfail := rfl
@[simp] theorem setGroup_umaps (s : State) (k : GroupId) (x : Group) : (s.setGroup k x).umaps = s.umaps := rfl
@[simp] theorem setGroup_ports (s : State) (k : GroupId) (x : Group) : (s.setGroup k x).ports = s.ports := rfl
@[simp] theorem setGroup_replies (s : State) (k : GroupId) (x : Group) : (s.setGroup k x).replies = s.replies := rfl
@[simp] theorem setGroup_routes (s : State) (k : GroupId) (x : Group) : (s.setGroup k x).routes = s.routes := rfl
@[simp] theorem setGroup_heldReqs (s : State) (k : GroupId) (x : Group) : (s.setGroup k x).heldReqs = s.heldReqs := rfl
@[simp] theorem setGroup_hostMsgs (s : State) (k : GroupId) (x : Group) : (s.setGroup k x).hostMsgs = s.hostMsgs := rfl
@[simp] theorem setGroup_t95 (s : State) (k : GroupId) (x : Group) : (s.setGroup k x).t95 = s.t95 := rfl
@[simp] theorem setGroup_t102 (s : State) (k : GroupId) (x : Group) : (s.setGroup k x).t102 = s.t102 := rfl
@[simp] theorem setGroup_t108 (s : State) (k : GroupId) (x : Group) : (s.setGroup k x).t108 = s.t108 := rfl
@[simp] theorem setGroup_tripped (s : State) (k : GroupId) (x : Group) : (s.setGroup k x).tripped = s.tripped := rfl
@[simp] theorem setGroup_plat (s : State) (k : GroupId) (x : Group) : (s.setGroup k x).plat = s.plat := rfl
@[simp] theorem setGroup_ident (s : State) (k : GroupId) (x : Group) : (s.setGroup k x).ident = s.ident := rfl
@[simp] theorem setGroup_meas (s : State) (k : GroupId) (x : Group) : (s.setGroup k x).meas = s.meas := rfl
@[simp] theorem setGroup_reports (s : State) (k : GroupId) (x : Group) : (s.setGroup k x).reports = s.reports := rfl
@[simp] theorem setGroup_linked (s : State) (k : GroupId) (x : Group) : (s.setGroup k x).linked = s.linked := rfl
@[simp] theorem setGroup_qown (s : State) (k : GroupId) (x : Group) : (s.setGroup k x).qown = s.qown := rfl
@[simp] theorem setGroup_fwin (s : State) (k : GroupId) (x : Group) : (s.setGroup k x).fwin = s.fwin := rfl
@[simp] theorem setGroup_queues (s : State) (k : GroupId) (x : Group) : (s.setGroup k x).queues = s.queues := rfl
@[simp] theorem setGroup_quantum (s : State) (k : GroupId) (x : Group) : (s.setGroup k x).quantum = s.quantum := rfl
@[simp] theorem setGroup_nopromo (s : State) (k : GroupId) (x : Group) : (s.setGroup k x).nopromo = s.nopromo := rfl
@[simp] theorem setGroup_hquota (s : State) (k : GroupId) (x : Group) : (s.setGroup k x).hquota = s.hquota := rfl
@[simp] theorem setGroup_pdeadline (s : State) (k : GroupId) (x : Group) : (s.setGroup k x).pdeadline = s.pdeadline := rfl
@[simp] theorem setGroup_interval (s : State) (k : GroupId) (x : Group) : (s.setGroup k x).interval = s.interval := rfl
@[simp] theorem setGroup_ctlRaised (s : State) (k : GroupId) (x : Group) : (s.setGroup k x).ctlRaised = s.ctlRaised := rfl
@[simp] theorem setGroup_mailboxes (s : State) (k : GroupId) (x : Group) : (s.setGroup k x).mailboxes = s.mailboxes := rfl
@[simp] theorem setGroup_irqs (s : State) (k : GroupId) (x : Group) : (s.setGroup k x).irqs = s.irqs := rfl
@[simp] theorem setGroup_hostReply (s : State) (k : GroupId) (x : Group) : (s.setGroup k x).hostReply = s.hostReply := rfl
@[simp] theorem setGroup_callReply (s : State) (k : GroupId) (x : Group) : (s.setGroup k x).callReply = s.callReply := rfl
@[simp] theorem setGroup_contexts (s : State) (k : GroupId) (x : Group) : (s.setGroup k x).contexts = s.contexts := rfl
@[simp] theorem setGroup_dies (s : State) (k : GroupId) (x : Group) : (s.setGroup k x).dies = s.dies := rfl
@[simp] theorem setGroup_regions (s : State) (k : GroupId) (x : Group) : (s.setGroup k x).regions = s.regions := rfl
@[simp] theorem setGroup_cores (s : State) (k : GroupId) (x : Group) : (s.setGroup k x).cores = s.cores := rfl
@[simp] theorem setGroup_debugs (s : State) (k : GroupId) (x : Group) : (s.setGroup k x).debugs = s.debugs := rfl
@[simp] theorem setGroup_channels (s : State) (k : GroupId) (x : Group) : (s.setGroup k x).channels = s.channels := rfl
@[simp] theorem setGroup_reserves (s : State) (k : GroupId) (x : Group) : (s.setGroup k x).reserves = s.reserves := rfl
@[simp] theorem setGroup_nextGrid (s : State) (k : GroupId) (x : Group) : (s.setGroup k x).nextGrid = s.nextGrid := rfl
@[simp] theorem setGroup_grids (s : State) (k : GroupId) (x : Group) : (s.setGroup k x).grids = s.grids := rfl
@[simp] theorem setGroup_gangs (s : State) (k : GroupId) (x : Group) : (s.setGroup k x).gangs = s.gangs := rfl
@[simp] theorem setGroup_teams (s : State) (k : GroupId) (x : Group) : (s.setGroup k x).teams = s.teams := rfl
@[simp] theorem setGroup_groups (s : State) (k : GroupId) (x : Group) : (s.setGroup k x).groups = s.groups.put k x := rfl
@[simp] theorem setGroup_seqs (s : State) (k : GroupId) (x : Group) : (s.setGroup k x).seqs = s.seqs := rfl
@[simp] theorem setGroup_builtins (s : State) (k : GroupId) (x : Group) : (s.setGroup k x).builtins = s.builtins := rfl
@[simp] theorem setGroup_mem (s : State) (k : GroupId) (x : Group) : (s.setGroup k x).mem = s.mem := rfl
@[simp] theorem setGroup_far (s : State) (k : GroupId) (x : Group) : (s.setGroup k x).far = s.far := rfl
@[simp] theorem setGroup_ledger (s : State) (k : GroupId) (x : Group) : (s.setGroup k x).ledger = s.ledger := rfl

@[simp] theorem setTeam_cur (s : State) (k : Nat × Nat × Nat) (x : Team) : (s.setTeam k x).cur = s.cur := rfl
@[simp] theorem setTeam_agenda (s : State) (k : Nat × Nat × Nat) (x : Team) : (s.setTeam k x).agenda = s.agenda := rfl
@[simp] theorem setTeam_sel (s : State) (k : Nat × Nat × Nat) (x : Team) : (s.setTeam k x).sel = s.sel := rfl
@[simp] theorem setTeam_steps (s : State) (k : Nat × Nat × Nat) (x : Team) : (s.setTeam k x).steps = s.steps := rfl
@[simp] theorem setTeam_free (s : State) (k : Nat × Nat × Nat) (x : Team) : (s.setTeam k x).free = s.free := rfl
@[simp] theorem setTeam_timer (s : State) (k : Nat × Nat × Nat) (x : Team) : (s.setTeam k x).timer = s.timer := rfl
@[simp] theorem setTeam_devnum (s : State) (k : Nat × Nat × Nat) (x : Team) : (s.setTeam k x).devnum = s.devnum := rfl
@[simp] theorem setTeam_devrdy (s : State) (k : Nat × Nat × Nat) (x : Team) : (s.setTeam k x).devrdy = s.devrdy := rfl
@[simp] theorem setTeam_devfail (s : State) (k : Nat × Nat × Nat) (x : Team) : (s.setTeam k x).devfail = s.devfail := rfl
@[simp] theorem setTeam_umaps (s : State) (k : Nat × Nat × Nat) (x : Team) : (s.setTeam k x).umaps = s.umaps := rfl
@[simp] theorem setTeam_ports (s : State) (k : Nat × Nat × Nat) (x : Team) : (s.setTeam k x).ports = s.ports := rfl
@[simp] theorem setTeam_replies (s : State) (k : Nat × Nat × Nat) (x : Team) : (s.setTeam k x).replies = s.replies := rfl
@[simp] theorem setTeam_routes (s : State) (k : Nat × Nat × Nat) (x : Team) : (s.setTeam k x).routes = s.routes := rfl
@[simp] theorem setTeam_heldReqs (s : State) (k : Nat × Nat × Nat) (x : Team) : (s.setTeam k x).heldReqs = s.heldReqs := rfl
@[simp] theorem setTeam_hostMsgs (s : State) (k : Nat × Nat × Nat) (x : Team) : (s.setTeam k x).hostMsgs = s.hostMsgs := rfl
@[simp] theorem setTeam_t95 (s : State) (k : Nat × Nat × Nat) (x : Team) : (s.setTeam k x).t95 = s.t95 := rfl
@[simp] theorem setTeam_t102 (s : State) (k : Nat × Nat × Nat) (x : Team) : (s.setTeam k x).t102 = s.t102 := rfl
@[simp] theorem setTeam_t108 (s : State) (k : Nat × Nat × Nat) (x : Team) : (s.setTeam k x).t108 = s.t108 := rfl
@[simp] theorem setTeam_tripped (s : State) (k : Nat × Nat × Nat) (x : Team) : (s.setTeam k x).tripped = s.tripped := rfl
@[simp] theorem setTeam_plat (s : State) (k : Nat × Nat × Nat) (x : Team) : (s.setTeam k x).plat = s.plat := rfl
@[simp] theorem setTeam_ident (s : State) (k : Nat × Nat × Nat) (x : Team) : (s.setTeam k x).ident = s.ident := rfl
@[simp] theorem setTeam_meas (s : State) (k : Nat × Nat × Nat) (x : Team) : (s.setTeam k x).meas = s.meas := rfl
@[simp] theorem setTeam_reports (s : State) (k : Nat × Nat × Nat) (x : Team) : (s.setTeam k x).reports = s.reports := rfl
@[simp] theorem setTeam_linked (s : State) (k : Nat × Nat × Nat) (x : Team) : (s.setTeam k x).linked = s.linked := rfl
@[simp] theorem setTeam_qown (s : State) (k : Nat × Nat × Nat) (x : Team) : (s.setTeam k x).qown = s.qown := rfl
@[simp] theorem setTeam_fwin (s : State) (k : Nat × Nat × Nat) (x : Team) : (s.setTeam k x).fwin = s.fwin := rfl
@[simp] theorem setTeam_queues (s : State) (k : Nat × Nat × Nat) (x : Team) : (s.setTeam k x).queues = s.queues := rfl
@[simp] theorem setTeam_quantum (s : State) (k : Nat × Nat × Nat) (x : Team) : (s.setTeam k x).quantum = s.quantum := rfl
@[simp] theorem setTeam_nopromo (s : State) (k : Nat × Nat × Nat) (x : Team) : (s.setTeam k x).nopromo = s.nopromo := rfl
@[simp] theorem setTeam_hquota (s : State) (k : Nat × Nat × Nat) (x : Team) : (s.setTeam k x).hquota = s.hquota := rfl
@[simp] theorem setTeam_pdeadline (s : State) (k : Nat × Nat × Nat) (x : Team) : (s.setTeam k x).pdeadline = s.pdeadline := rfl
@[simp] theorem setTeam_interval (s : State) (k : Nat × Nat × Nat) (x : Team) : (s.setTeam k x).interval = s.interval := rfl
@[simp] theorem setTeam_ctlRaised (s : State) (k : Nat × Nat × Nat) (x : Team) : (s.setTeam k x).ctlRaised = s.ctlRaised := rfl
@[simp] theorem setTeam_mailboxes (s : State) (k : Nat × Nat × Nat) (x : Team) : (s.setTeam k x).mailboxes = s.mailboxes := rfl
@[simp] theorem setTeam_irqs (s : State) (k : Nat × Nat × Nat) (x : Team) : (s.setTeam k x).irqs = s.irqs := rfl
@[simp] theorem setTeam_hostReply (s : State) (k : Nat × Nat × Nat) (x : Team) : (s.setTeam k x).hostReply = s.hostReply := rfl
@[simp] theorem setTeam_callReply (s : State) (k : Nat × Nat × Nat) (x : Team) : (s.setTeam k x).callReply = s.callReply := rfl
@[simp] theorem setTeam_contexts (s : State) (k : Nat × Nat × Nat) (x : Team) : (s.setTeam k x).contexts = s.contexts := rfl
@[simp] theorem setTeam_dies (s : State) (k : Nat × Nat × Nat) (x : Team) : (s.setTeam k x).dies = s.dies := rfl
@[simp] theorem setTeam_regions (s : State) (k : Nat × Nat × Nat) (x : Team) : (s.setTeam k x).regions = s.regions := rfl
@[simp] theorem setTeam_cores (s : State) (k : Nat × Nat × Nat) (x : Team) : (s.setTeam k x).cores = s.cores := rfl
@[simp] theorem setTeam_debugs (s : State) (k : Nat × Nat × Nat) (x : Team) : (s.setTeam k x).debugs = s.debugs := rfl
@[simp] theorem setTeam_channels (s : State) (k : Nat × Nat × Nat) (x : Team) : (s.setTeam k x).channels = s.channels := rfl
@[simp] theorem setTeam_reserves (s : State) (k : Nat × Nat × Nat) (x : Team) : (s.setTeam k x).reserves = s.reserves := rfl
@[simp] theorem setTeam_nextGrid (s : State) (k : Nat × Nat × Nat) (x : Team) : (s.setTeam k x).nextGrid = s.nextGrid := rfl
@[simp] theorem setTeam_grids (s : State) (k : Nat × Nat × Nat) (x : Team) : (s.setTeam k x).grids = s.grids := rfl
@[simp] theorem setTeam_gangs (s : State) (k : Nat × Nat × Nat) (x : Team) : (s.setTeam k x).gangs = s.gangs := rfl
@[simp] theorem setTeam_teams (s : State) (k : Nat × Nat × Nat) (x : Team) : (s.setTeam k x).teams = s.teams.put k x := rfl
@[simp] theorem setTeam_groups (s : State) (k : Nat × Nat × Nat) (x : Team) : (s.setTeam k x).groups = s.groups := rfl
@[simp] theorem setTeam_seqs (s : State) (k : Nat × Nat × Nat) (x : Team) : (s.setTeam k x).seqs = s.seqs := rfl
@[simp] theorem setTeam_builtins (s : State) (k : Nat × Nat × Nat) (x : Team) : (s.setTeam k x).builtins = s.builtins := rfl
@[simp] theorem setTeam_mem (s : State) (k : Nat × Nat × Nat) (x : Team) : (s.setTeam k x).mem = s.mem := rfl
@[simp] theorem setTeam_far (s : State) (k : Nat × Nat × Nat) (x : Team) : (s.setTeam k x).far = s.far := rfl
@[simp] theorem setTeam_ledger (s : State) (k : Nat × Nat × Nat) (x : Team) : (s.setTeam k x).ledger = s.ledger := rfl

@[simp] theorem setGang_cur (s : State) (k : Nat × Nat) (x : Gang) : (s.setGang k x).cur = s.cur := rfl
@[simp] theorem setGang_agenda (s : State) (k : Nat × Nat) (x : Gang) : (s.setGang k x).agenda = s.agenda := rfl
@[simp] theorem setGang_sel (s : State) (k : Nat × Nat) (x : Gang) : (s.setGang k x).sel = s.sel := rfl
@[simp] theorem setGang_steps (s : State) (k : Nat × Nat) (x : Gang) : (s.setGang k x).steps = s.steps := rfl
@[simp] theorem setGang_free (s : State) (k : Nat × Nat) (x : Gang) : (s.setGang k x).free = s.free := rfl
@[simp] theorem setGang_timer (s : State) (k : Nat × Nat) (x : Gang) : (s.setGang k x).timer = s.timer := rfl
@[simp] theorem setGang_devnum (s : State) (k : Nat × Nat) (x : Gang) : (s.setGang k x).devnum = s.devnum := rfl
@[simp] theorem setGang_devrdy (s : State) (k : Nat × Nat) (x : Gang) : (s.setGang k x).devrdy = s.devrdy := rfl
@[simp] theorem setGang_devfail (s : State) (k : Nat × Nat) (x : Gang) : (s.setGang k x).devfail = s.devfail := rfl
@[simp] theorem setGang_umaps (s : State) (k : Nat × Nat) (x : Gang) : (s.setGang k x).umaps = s.umaps := rfl
@[simp] theorem setGang_ports (s : State) (k : Nat × Nat) (x : Gang) : (s.setGang k x).ports = s.ports := rfl
@[simp] theorem setGang_replies (s : State) (k : Nat × Nat) (x : Gang) : (s.setGang k x).replies = s.replies := rfl
@[simp] theorem setGang_routes (s : State) (k : Nat × Nat) (x : Gang) : (s.setGang k x).routes = s.routes := rfl
@[simp] theorem setGang_heldReqs (s : State) (k : Nat × Nat) (x : Gang) : (s.setGang k x).heldReqs = s.heldReqs := rfl
@[simp] theorem setGang_hostMsgs (s : State) (k : Nat × Nat) (x : Gang) : (s.setGang k x).hostMsgs = s.hostMsgs := rfl
@[simp] theorem setGang_t95 (s : State) (k : Nat × Nat) (x : Gang) : (s.setGang k x).t95 = s.t95 := rfl
@[simp] theorem setGang_t102 (s : State) (k : Nat × Nat) (x : Gang) : (s.setGang k x).t102 = s.t102 := rfl
@[simp] theorem setGang_t108 (s : State) (k : Nat × Nat) (x : Gang) : (s.setGang k x).t108 = s.t108 := rfl
@[simp] theorem setGang_tripped (s : State) (k : Nat × Nat) (x : Gang) : (s.setGang k x).tripped = s.tripped := rfl
@[simp] theorem setGang_plat (s : State) (k : Nat × Nat) (x : Gang) : (s.setGang k x).plat = s.plat := rfl
@[simp] theorem setGang_ident (s : State) (k : Nat × Nat) (x : Gang) : (s.setGang k x).ident = s.ident := rfl
@[simp] theorem setGang_meas (s : State) (k : Nat × Nat) (x : Gang) : (s.setGang k x).meas = s.meas := rfl
@[simp] theorem setGang_reports (s : State) (k : Nat × Nat) (x : Gang) : (s.setGang k x).reports = s.reports := rfl
@[simp] theorem setGang_linked (s : State) (k : Nat × Nat) (x : Gang) : (s.setGang k x).linked = s.linked := rfl
@[simp] theorem setGang_qown (s : State) (k : Nat × Nat) (x : Gang) : (s.setGang k x).qown = s.qown := rfl
@[simp] theorem setGang_fwin (s : State) (k : Nat × Nat) (x : Gang) : (s.setGang k x).fwin = s.fwin := rfl
@[simp] theorem setGang_queues (s : State) (k : Nat × Nat) (x : Gang) : (s.setGang k x).queues = s.queues := rfl
@[simp] theorem setGang_quantum (s : State) (k : Nat × Nat) (x : Gang) : (s.setGang k x).quantum = s.quantum := rfl
@[simp] theorem setGang_nopromo (s : State) (k : Nat × Nat) (x : Gang) : (s.setGang k x).nopromo = s.nopromo := rfl
@[simp] theorem setGang_hquota (s : State) (k : Nat × Nat) (x : Gang) : (s.setGang k x).hquota = s.hquota := rfl
@[simp] theorem setGang_pdeadline (s : State) (k : Nat × Nat) (x : Gang) : (s.setGang k x).pdeadline = s.pdeadline := rfl
@[simp] theorem setGang_interval (s : State) (k : Nat × Nat) (x : Gang) : (s.setGang k x).interval = s.interval := rfl
@[simp] theorem setGang_ctlRaised (s : State) (k : Nat × Nat) (x : Gang) : (s.setGang k x).ctlRaised = s.ctlRaised := rfl
@[simp] theorem setGang_mailboxes (s : State) (k : Nat × Nat) (x : Gang) : (s.setGang k x).mailboxes = s.mailboxes := rfl
@[simp] theorem setGang_irqs (s : State) (k : Nat × Nat) (x : Gang) : (s.setGang k x).irqs = s.irqs := rfl
@[simp] theorem setGang_hostReply (s : State) (k : Nat × Nat) (x : Gang) : (s.setGang k x).hostReply = s.hostReply := rfl
@[simp] theorem setGang_callReply (s : State) (k : Nat × Nat) (x : Gang) : (s.setGang k x).callReply = s.callReply := rfl
@[simp] theorem setGang_contexts (s : State) (k : Nat × Nat) (x : Gang) : (s.setGang k x).contexts = s.contexts := rfl
@[simp] theorem setGang_dies (s : State) (k : Nat × Nat) (x : Gang) : (s.setGang k x).dies = s.dies := rfl
@[simp] theorem setGang_regions (s : State) (k : Nat × Nat) (x : Gang) : (s.setGang k x).regions = s.regions := rfl
@[simp] theorem setGang_cores (s : State) (k : Nat × Nat) (x : Gang) : (s.setGang k x).cores = s.cores := rfl
@[simp] theorem setGang_debugs (s : State) (k : Nat × Nat) (x : Gang) : (s.setGang k x).debugs = s.debugs := rfl
@[simp] theorem setGang_channels (s : State) (k : Nat × Nat) (x : Gang) : (s.setGang k x).channels = s.channels := rfl
@[simp] theorem setGang_reserves (s : State) (k : Nat × Nat) (x : Gang) : (s.setGang k x).reserves = s.reserves := rfl
@[simp] theorem setGang_nextGrid (s : State) (k : Nat × Nat) (x : Gang) : (s.setGang k x).nextGrid = s.nextGrid := rfl
@[simp] theorem setGang_grids (s : State) (k : Nat × Nat) (x : Gang) : (s.setGang k x).grids = s.grids := rfl
@[simp] theorem setGang_gangs (s : State) (k : Nat × Nat) (x : Gang) : (s.setGang k x).gangs = s.gangs.put k x := rfl
@[simp] theorem setGang_teams (s : State) (k : Nat × Nat) (x : Gang) : (s.setGang k x).teams = s.teams := rfl
@[simp] theorem setGang_groups (s : State) (k : Nat × Nat) (x : Gang) : (s.setGang k x).groups = s.groups := rfl
@[simp] theorem setGang_seqs (s : State) (k : Nat × Nat) (x : Gang) : (s.setGang k x).seqs = s.seqs := rfl
@[simp] theorem setGang_builtins (s : State) (k : Nat × Nat) (x : Gang) : (s.setGang k x).builtins = s.builtins := rfl
@[simp] theorem setGang_mem (s : State) (k : Nat × Nat) (x : Gang) : (s.setGang k x).mem = s.mem := rfl
@[simp] theorem setGang_far (s : State) (k : Nat × Nat) (x : Gang) : (s.setGang k x).far = s.far := rfl
@[simp] theorem setGang_ledger (s : State) (k : Nat × Nat) (x : Gang) : (s.setGang k x).ledger = s.ledger := rfl

@[simp] theorem setGrid_cur (s : State) (k : Nat) (x : Grid) : (s.setGrid k x).cur = s.cur := rfl
@[simp] theorem setGrid_agenda (s : State) (k : Nat) (x : Grid) : (s.setGrid k x).agenda = s.agenda := rfl
@[simp] theorem setGrid_sel (s : State) (k : Nat) (x : Grid) : (s.setGrid k x).sel = s.sel := rfl
@[simp] theorem setGrid_steps (s : State) (k : Nat) (x : Grid) : (s.setGrid k x).steps = s.steps := rfl
@[simp] theorem setGrid_free (s : State) (k : Nat) (x : Grid) : (s.setGrid k x).free = s.free := rfl
@[simp] theorem setGrid_timer (s : State) (k : Nat) (x : Grid) : (s.setGrid k x).timer = s.timer := rfl
@[simp] theorem setGrid_devnum (s : State) (k : Nat) (x : Grid) : (s.setGrid k x).devnum = s.devnum := rfl
@[simp] theorem setGrid_devrdy (s : State) (k : Nat) (x : Grid) : (s.setGrid k x).devrdy = s.devrdy := rfl
@[simp] theorem setGrid_devfail (s : State) (k : Nat) (x : Grid) : (s.setGrid k x).devfail = s.devfail := rfl
@[simp] theorem setGrid_umaps (s : State) (k : Nat) (x : Grid) : (s.setGrid k x).umaps = s.umaps := rfl
@[simp] theorem setGrid_ports (s : State) (k : Nat) (x : Grid) : (s.setGrid k x).ports = s.ports := rfl
@[simp] theorem setGrid_replies (s : State) (k : Nat) (x : Grid) : (s.setGrid k x).replies = s.replies := rfl
@[simp] theorem setGrid_routes (s : State) (k : Nat) (x : Grid) : (s.setGrid k x).routes = s.routes := rfl
@[simp] theorem setGrid_heldReqs (s : State) (k : Nat) (x : Grid) : (s.setGrid k x).heldReqs = s.heldReqs := rfl
@[simp] theorem setGrid_hostMsgs (s : State) (k : Nat) (x : Grid) : (s.setGrid k x).hostMsgs = s.hostMsgs := rfl
@[simp] theorem setGrid_t95 (s : State) (k : Nat) (x : Grid) : (s.setGrid k x).t95 = s.t95 := rfl
@[simp] theorem setGrid_t102 (s : State) (k : Nat) (x : Grid) : (s.setGrid k x).t102 = s.t102 := rfl
@[simp] theorem setGrid_t108 (s : State) (k : Nat) (x : Grid) : (s.setGrid k x).t108 = s.t108 := rfl
@[simp] theorem setGrid_tripped (s : State) (k : Nat) (x : Grid) : (s.setGrid k x).tripped = s.tripped := rfl
@[simp] theorem setGrid_plat (s : State) (k : Nat) (x : Grid) : (s.setGrid k x).plat = s.plat := rfl
@[simp] theorem setGrid_ident (s : State) (k : Nat) (x : Grid) : (s.setGrid k x).ident = s.ident := rfl
@[simp] theorem setGrid_meas (s : State) (k : Nat) (x : Grid) : (s.setGrid k x).meas = s.meas := rfl
@[simp] theorem setGrid_reports (s : State) (k : Nat) (x : Grid) : (s.setGrid k x).reports = s.reports := rfl
@[simp] theorem setGrid_linked (s : State) (k : Nat) (x : Grid) : (s.setGrid k x).linked = s.linked := rfl
@[simp] theorem setGrid_qown (s : State) (k : Nat) (x : Grid) : (s.setGrid k x).qown = s.qown := rfl
@[simp] theorem setGrid_fwin (s : State) (k : Nat) (x : Grid) : (s.setGrid k x).fwin = s.fwin := rfl
@[simp] theorem setGrid_queues (s : State) (k : Nat) (x : Grid) : (s.setGrid k x).queues = s.queues := rfl
@[simp] theorem setGrid_quantum (s : State) (k : Nat) (x : Grid) : (s.setGrid k x).quantum = s.quantum := rfl
@[simp] theorem setGrid_nopromo (s : State) (k : Nat) (x : Grid) : (s.setGrid k x).nopromo = s.nopromo := rfl
@[simp] theorem setGrid_hquota (s : State) (k : Nat) (x : Grid) : (s.setGrid k x).hquota = s.hquota := rfl
@[simp] theorem setGrid_pdeadline (s : State) (k : Nat) (x : Grid) : (s.setGrid k x).pdeadline = s.pdeadline := rfl
@[simp] theorem setGrid_interval (s : State) (k : Nat) (x : Grid) : (s.setGrid k x).interval = s.interval := rfl
@[simp] theorem setGrid_ctlRaised (s : State) (k : Nat) (x : Grid) : (s.setGrid k x).ctlRaised = s.ctlRaised := rfl
@[simp] theorem setGrid_mailboxes (s : State) (k : Nat) (x : Grid) : (s.setGrid k x).mailboxes = s.mailboxes := rfl
@[simp] theorem setGrid_irqs (s : State) (k : Nat) (x : Grid) : (s.setGrid k x).irqs = s.irqs := rfl
@[simp] theorem setGrid_hostReply (s : State) (k : Nat) (x : Grid) : (s.setGrid k x).hostReply = s.hostReply := rfl
@[simp] theorem setGrid_callReply (s : State) (k : Nat) (x : Grid) : (s.setGrid k x).callReply = s.callReply := rfl
@[simp] theorem setGrid_contexts (s : State) (k : Nat) (x : Grid) : (s.setGrid k x).contexts = s.contexts := rfl
@[simp] theorem setGrid_dies (s : State) (k : Nat) (x : Grid) : (s.setGrid k x).dies = s.dies := rfl
@[simp] theorem setGrid_regions (s : State) (k : Nat) (x : Grid) : (s.setGrid k x).regions = s.regions := rfl
@[simp] theorem setGrid_cores (s : State) (k : Nat) (x : Grid) : (s.setGrid k x).cores = s.cores := rfl
@[simp] theorem setGrid_debugs (s : State) (k : Nat) (x : Grid) : (s.setGrid k x).debugs = s.debugs := rfl
@[simp] theorem setGrid_channels (s : State) (k : Nat) (x : Grid) : (s.setGrid k x).channels = s.channels := rfl
@[simp] theorem setGrid_reserves (s : State) (k : Nat) (x : Grid) : (s.setGrid k x).reserves = s.reserves := rfl
@[simp] theorem setGrid_nextGrid (s : State) (k : Nat) (x : Grid) : (s.setGrid k x).nextGrid = s.nextGrid := rfl
@[simp] theorem setGrid_grids (s : State) (k : Nat) (x : Grid) : (s.setGrid k x).grids = s.grids.put k x := rfl
@[simp] theorem setGrid_gangs (s : State) (k : Nat) (x : Grid) : (s.setGrid k x).gangs = s.gangs := rfl
@[simp] theorem setGrid_teams (s : State) (k : Nat) (x : Grid) : (s.setGrid k x).teams = s.teams := rfl
@[simp] theorem setGrid_groups (s : State) (k : Nat) (x : Grid) : (s.setGrid k x).groups = s.groups := rfl
@[simp] theorem setGrid_seqs (s : State) (k : Nat) (x : Grid) : (s.setGrid k x).seqs = s.seqs := rfl
@[simp] theorem setGrid_builtins (s : State) (k : Nat) (x : Grid) : (s.setGrid k x).builtins = s.builtins := rfl
@[simp] theorem setGrid_mem (s : State) (k : Nat) (x : Grid) : (s.setGrid k x).mem = s.mem := rfl
@[simp] theorem setGrid_far (s : State) (k : Nat) (x : Grid) : (s.setGrid k x).far = s.far := rfl
@[simp] theorem setGrid_ledger (s : State) (k : Nat) (x : Grid) : (s.setGrid k x).ledger = s.ledger := rfl

@[simp] theorem setSeq_cur (s : State) (k : SeqId) (x : Seq) : (s.setSeq k x).cur = s.cur := rfl
@[simp] theorem setSeq_agenda (s : State) (k : SeqId) (x : Seq) : (s.setSeq k x).agenda = s.agenda := rfl
@[simp] theorem setSeq_sel (s : State) (k : SeqId) (x : Seq) : (s.setSeq k x).sel = s.sel := rfl
@[simp] theorem setSeq_steps (s : State) (k : SeqId) (x : Seq) : (s.setSeq k x).steps = s.steps := rfl
@[simp] theorem setSeq_free (s : State) (k : SeqId) (x : Seq) : (s.setSeq k x).free = s.free := rfl
@[simp] theorem setSeq_timer (s : State) (k : SeqId) (x : Seq) : (s.setSeq k x).timer = s.timer := rfl
@[simp] theorem setSeq_devnum (s : State) (k : SeqId) (x : Seq) : (s.setSeq k x).devnum = s.devnum := rfl
@[simp] theorem setSeq_devrdy (s : State) (k : SeqId) (x : Seq) : (s.setSeq k x).devrdy = s.devrdy := rfl
@[simp] theorem setSeq_devfail (s : State) (k : SeqId) (x : Seq) : (s.setSeq k x).devfail = s.devfail := rfl
@[simp] theorem setSeq_umaps (s : State) (k : SeqId) (x : Seq) : (s.setSeq k x).umaps = s.umaps := rfl
@[simp] theorem setSeq_ports (s : State) (k : SeqId) (x : Seq) : (s.setSeq k x).ports = s.ports := rfl
@[simp] theorem setSeq_replies (s : State) (k : SeqId) (x : Seq) : (s.setSeq k x).replies = s.replies := rfl
@[simp] theorem setSeq_routes (s : State) (k : SeqId) (x : Seq) : (s.setSeq k x).routes = s.routes := rfl
@[simp] theorem setSeq_heldReqs (s : State) (k : SeqId) (x : Seq) : (s.setSeq k x).heldReqs = s.heldReqs := rfl
@[simp] theorem setSeq_hostMsgs (s : State) (k : SeqId) (x : Seq) : (s.setSeq k x).hostMsgs = s.hostMsgs := rfl
@[simp] theorem setSeq_t95 (s : State) (k : SeqId) (x : Seq) : (s.setSeq k x).t95 = s.t95 := rfl
@[simp] theorem setSeq_t102 (s : State) (k : SeqId) (x : Seq) : (s.setSeq k x).t102 = s.t102 := rfl
@[simp] theorem setSeq_t108 (s : State) (k : SeqId) (x : Seq) : (s.setSeq k x).t108 = s.t108 := rfl
@[simp] theorem setSeq_tripped (s : State) (k : SeqId) (x : Seq) : (s.setSeq k x).tripped = s.tripped := rfl
@[simp] theorem setSeq_plat (s : State) (k : SeqId) (x : Seq) : (s.setSeq k x).plat = s.plat := rfl
@[simp] theorem setSeq_ident (s : State) (k : SeqId) (x : Seq) : (s.setSeq k x).ident = s.ident := rfl
@[simp] theorem setSeq_meas (s : State) (k : SeqId) (x : Seq) : (s.setSeq k x).meas = s.meas := rfl
@[simp] theorem setSeq_reports (s : State) (k : SeqId) (x : Seq) : (s.setSeq k x).reports = s.reports := rfl
@[simp] theorem setSeq_linked (s : State) (k : SeqId) (x : Seq) : (s.setSeq k x).linked = s.linked := rfl
@[simp] theorem setSeq_qown (s : State) (k : SeqId) (x : Seq) : (s.setSeq k x).qown = s.qown := rfl
@[simp] theorem setSeq_fwin (s : State) (k : SeqId) (x : Seq) : (s.setSeq k x).fwin = s.fwin := rfl
@[simp] theorem setSeq_queues (s : State) (k : SeqId) (x : Seq) : (s.setSeq k x).queues = s.queues := rfl
@[simp] theorem setSeq_quantum (s : State) (k : SeqId) (x : Seq) : (s.setSeq k x).quantum = s.quantum := rfl
@[simp] theorem setSeq_nopromo (s : State) (k : SeqId) (x : Seq) : (s.setSeq k x).nopromo = s.nopromo := rfl
@[simp] theorem setSeq_hquota (s : State) (k : SeqId) (x : Seq) : (s.setSeq k x).hquota = s.hquota := rfl
@[simp] theorem setSeq_pdeadline (s : State) (k : SeqId) (x : Seq) : (s.setSeq k x).pdeadline = s.pdeadline := rfl
@[simp] theorem setSeq_interval (s : State) (k : SeqId) (x : Seq) : (s.setSeq k x).interval = s.interval := rfl
@[simp] theorem setSeq_ctlRaised (s : State) (k : SeqId) (x : Seq) : (s.setSeq k x).ctlRaised = s.ctlRaised := rfl
@[simp] theorem setSeq_mailboxes (s : State) (k : SeqId) (x : Seq) : (s.setSeq k x).mailboxes = s.mailboxes := rfl
@[simp] theorem setSeq_irqs (s : State) (k : SeqId) (x : Seq) : (s.setSeq k x).irqs = s.irqs := rfl
@[simp] theorem setSeq_hostReply (s : State) (k : SeqId) (x : Seq) : (s.setSeq k x).hostReply = s.hostReply := rfl
@[simp] theorem setSeq_callReply (s : State) (k : SeqId) (x : Seq) : (s.setSeq k x).callReply = s.callReply := rfl
@[simp] theorem setSeq_contexts (s : State) (k : SeqId) (x : Seq) : (s.setSeq k x).contexts = s.contexts := rfl
@[simp] theorem setSeq_dies (s : State) (k : SeqId) (x : Seq) : (s.setSeq k x).dies = s.dies := rfl
@[simp] theorem setSeq_regions (s : State) (k : SeqId) (x : Seq) : (s.setSeq k x).regions = s.regions := rfl
@[simp] theorem setSeq_cores (s : State) (k : SeqId) (x : Seq) : (s.setSeq k x).cores = s.cores := rfl
@[simp] theorem setSeq_debugs (s : State) (k : SeqId) (x : Seq) : (s.setSeq k x).debugs = s.debugs := rfl
@[simp] theorem setSeq_channels (s : State) (k : SeqId) (x : Seq) : (s.setSeq k x).channels = s.channels := rfl
@[simp] theorem setSeq_reserves (s : State) (k : SeqId) (x : Seq) : (s.setSeq k x).reserves = s.reserves := rfl
@[simp] theorem setSeq_nextGrid (s : State) (k : SeqId) (x : Seq) : (s.setSeq k x).nextGrid = s.nextGrid := rfl
@[simp] theorem setSeq_grids (s : State) (k : SeqId) (x : Seq) : (s.setSeq k x).grids = s.grids := rfl
@[simp] theorem setSeq_gangs (s : State) (k : SeqId) (x : Seq) : (s.setSeq k x).gangs = s.gangs := rfl
@[simp] theorem setSeq_teams (s : State) (k : SeqId) (x : Seq) : (s.setSeq k x).teams = s.teams := rfl
@[simp] theorem setSeq_groups (s : State) (k : SeqId) (x : Seq) : (s.setSeq k x).groups = s.groups := rfl
@[simp] theorem setSeq_seqs (s : State) (k : SeqId) (x : Seq) : (s.setSeq k x).seqs = s.seqs.put k x := rfl
@[simp] theorem setSeq_builtins (s : State) (k : SeqId) (x : Seq) : (s.setSeq k x).builtins = s.builtins := rfl
@[simp] theorem setSeq_mem (s : State) (k : SeqId) (x : Seq) : (s.setSeq k x).mem = s.mem := rfl
@[simp] theorem setSeq_far (s : State) (k : SeqId) (x : Seq) : (s.setSeq k x).far = s.far := rfl
@[simp] theorem setSeq_ledger (s : State) (k : SeqId) (x : Seq) : (s.setSeq k x).ledger = s.ledger := rfl

@[simp] theorem setCtx_cur (s : State) (k : Nat) (x : Context) : (s.setCtx k x).cur = s.cur := rfl
@[simp] theorem setCtx_agenda (s : State) (k : Nat) (x : Context) : (s.setCtx k x).agenda = s.agenda := rfl
@[simp] theorem setCtx_sel (s : State) (k : Nat) (x : Context) : (s.setCtx k x).sel = s.sel := rfl
@[simp] theorem setCtx_steps (s : State) (k : Nat) (x : Context) : (s.setCtx k x).steps = s.steps := rfl
@[simp] theorem setCtx_free (s : State) (k : Nat) (x : Context) : (s.setCtx k x).free = s.free := rfl
@[simp] theorem setCtx_timer (s : State) (k : Nat) (x : Context) : (s.setCtx k x).timer = s.timer := rfl
@[simp] theorem setCtx_devnum (s : State) (k : Nat) (x : Context) : (s.setCtx k x).devnum = s.devnum := rfl
@[simp] theorem setCtx_devrdy (s : State) (k : Nat) (x : Context) : (s.setCtx k x).devrdy = s.devrdy := rfl
@[simp] theorem setCtx_devfail (s : State) (k : Nat) (x : Context) : (s.setCtx k x).devfail = s.devfail := rfl
@[simp] theorem setCtx_umaps (s : State) (k : Nat) (x : Context) : (s.setCtx k x).umaps = s.umaps := rfl
@[simp] theorem setCtx_ports (s : State) (k : Nat) (x : Context) : (s.setCtx k x).ports = s.ports := rfl
@[simp] theorem setCtx_replies (s : State) (k : Nat) (x : Context) : (s.setCtx k x).replies = s.replies := rfl
@[simp] theorem setCtx_routes (s : State) (k : Nat) (x : Context) : (s.setCtx k x).routes = s.routes := rfl
@[simp] theorem setCtx_heldReqs (s : State) (k : Nat) (x : Context) : (s.setCtx k x).heldReqs = s.heldReqs := rfl
@[simp] theorem setCtx_hostMsgs (s : State) (k : Nat) (x : Context) : (s.setCtx k x).hostMsgs = s.hostMsgs := rfl
@[simp] theorem setCtx_t95 (s : State) (k : Nat) (x : Context) : (s.setCtx k x).t95 = s.t95 := rfl
@[simp] theorem setCtx_t102 (s : State) (k : Nat) (x : Context) : (s.setCtx k x).t102 = s.t102 := rfl
@[simp] theorem setCtx_t108 (s : State) (k : Nat) (x : Context) : (s.setCtx k x).t108 = s.t108 := rfl
@[simp] theorem setCtx_tripped (s : State) (k : Nat) (x : Context) : (s.setCtx k x).tripped = s.tripped := rfl
@[simp] theorem setCtx_plat (s : State) (k : Nat) (x : Context) : (s.setCtx k x).plat = s.plat := rfl
@[simp] theorem setCtx_ident (s : State) (k : Nat) (x : Context) : (s.setCtx k x).ident = s.ident := rfl
@[simp] theorem setCtx_meas (s : State) (k : Nat) (x : Context) : (s.setCtx k x).meas = s.meas := rfl
@[simp] theorem setCtx_reports (s : State) (k : Nat) (x : Context) : (s.setCtx k x).reports = s.reports := rfl
@[simp] theorem setCtx_linked (s : State) (k : Nat) (x : Context) : (s.setCtx k x).linked = s.linked := rfl
@[simp] theorem setCtx_qown (s : State) (k : Nat) (x : Context) : (s.setCtx k x).qown = s.qown := rfl
@[simp] theorem setCtx_fwin (s : State) (k : Nat) (x : Context) : (s.setCtx k x).fwin = s.fwin := rfl
@[simp] theorem setCtx_queues (s : State) (k : Nat) (x : Context) : (s.setCtx k x).queues = s.queues := rfl
@[simp] theorem setCtx_quantum (s : State) (k : Nat) (x : Context) : (s.setCtx k x).quantum = s.quantum := rfl
@[simp] theorem setCtx_nopromo (s : State) (k : Nat) (x : Context) : (s.setCtx k x).nopromo = s.nopromo := rfl
@[simp] theorem setCtx_hquota (s : State) (k : Nat) (x : Context) : (s.setCtx k x).hquota = s.hquota := rfl
@[simp] theorem setCtx_pdeadline (s : State) (k : Nat) (x : Context) : (s.setCtx k x).pdeadline = s.pdeadline := rfl
@[simp] theorem setCtx_interval (s : State) (k : Nat) (x : Context) : (s.setCtx k x).interval = s.interval := rfl
@[simp] theorem setCtx_ctlRaised (s : State) (k : Nat) (x : Context) : (s.setCtx k x).ctlRaised = s.ctlRaised := rfl
@[simp] theorem setCtx_mailboxes (s : State) (k : Nat) (x : Context) : (s.setCtx k x).mailboxes = s.mailboxes := rfl
@[simp] theorem setCtx_irqs (s : State) (k : Nat) (x : Context) : (s.setCtx k x).irqs = s.irqs := rfl
@[simp] theorem setCtx_hostReply (s : State) (k : Nat) (x : Context) : (s.setCtx k x).hostReply = s.hostReply := rfl
@[simp] theorem setCtx_callReply (s : State) (k : Nat) (x : Context) : (s.setCtx k x).callReply = s.callReply := rfl
@[simp] theorem setCtx_contexts (s : State) (k : Nat) (x : Context) : (s.setCtx k x).contexts = s.contexts.put k x := rfl
@[simp] theorem setCtx_dies (s : State) (k : Nat) (x : Context) : (s.setCtx k x).dies = s.dies := rfl
@[simp] theorem setCtx_regions (s : State) (k : Nat) (x : Context) : (s.setCtx k x).regions = s.regions := rfl
@[simp] theorem setCtx_cores (s : State) (k : Nat) (x : Context) : (s.setCtx k x).cores = s.cores := rfl
@[simp] theorem setCtx_debugs (s : State) (k : Nat) (x : Context) : (s.setCtx k x).debugs = s.debugs := rfl
@[simp] theorem setCtx_channels (s : State) (k : Nat) (x : Context) : (s.setCtx k x).channels = s.channels := rfl
@[simp] theorem setCtx_reserves (s : State) (k : Nat) (x : Context) : (s.setCtx k x).reserves = s.reserves := rfl
@[simp] theorem setCtx_nextGrid (s : State) (k : Nat) (x : Context) : (s.setCtx k x).nextGrid = s.nextGrid := rfl
@[simp] theorem setCtx_grids (s : State) (k : Nat) (x : Context) : (s.setCtx k x).grids = s.grids := rfl
@[simp] theorem setCtx_gangs (s : State) (k : Nat) (x : Context) : (s.setCtx k x).gangs = s.gangs := rfl
@[simp] theorem setCtx_teams (s : State) (k : Nat) (x : Context) : (s.setCtx k x).teams = s.teams := rfl
@[simp] theorem setCtx_groups (s : State) (k : Nat) (x : Context) : (s.setCtx k x).groups = s.groups := rfl
@[simp] theorem setCtx_seqs (s : State) (k : Nat) (x : Context) : (s.setCtx k x).seqs = s.seqs := rfl
@[simp] theorem setCtx_builtins (s : State) (k : Nat) (x : Context) : (s.setCtx k x).builtins = s.builtins := rfl
@[simp] theorem setCtx_mem (s : State) (k : Nat) (x : Context) : (s.setCtx k x).mem = s.mem := rfl
@[simp] theorem setCtx_far (s : State) (k : Nat) (x : Context) : (s.setCtx k x).far = s.far := rfl
@[simp] theorem setCtx_ledger (s : State) (k : Nat) (x : Context) : (s.setCtx k x).ledger = s.ledger := rfl

@[simp] theorem setCore_cur (s : State) (k : Nat) (x : Core) : (s.setCore k x).cur = s.cur := rfl
@[simp] theorem setCore_agenda (s : State) (k : Nat) (x : Core) : (s.setCore k x).agenda = s.agenda := rfl
@[simp] theorem setCore_sel (s : State) (k : Nat) (x : Core) : (s.setCore k x).sel = s.sel := rfl
@[simp] theorem setCore_steps (s : State) (k : Nat) (x : Core) : (s.setCore k x).steps = s.steps := rfl
@[simp] theorem setCore_free (s : State) (k : Nat) (x : Core) : (s.setCore k x).free = s.free := rfl
@[simp] theorem setCore_timer (s : State) (k : Nat) (x : Core) : (s.setCore k x).timer = s.timer := rfl
@[simp] theorem setCore_devnum (s : State) (k : Nat) (x : Core) : (s.setCore k x).devnum = s.devnum := rfl
@[simp] theorem setCore_devrdy (s : State) (k : Nat) (x : Core) : (s.setCore k x).devrdy = s.devrdy := rfl
@[simp] theorem setCore_devfail (s : State) (k : Nat) (x : Core) : (s.setCore k x).devfail = s.devfail := rfl
@[simp] theorem setCore_umaps (s : State) (k : Nat) (x : Core) : (s.setCore k x).umaps = s.umaps := rfl
@[simp] theorem setCore_ports (s : State) (k : Nat) (x : Core) : (s.setCore k x).ports = s.ports := rfl
@[simp] theorem setCore_replies (s : State) (k : Nat) (x : Core) : (s.setCore k x).replies = s.replies := rfl
@[simp] theorem setCore_routes (s : State) (k : Nat) (x : Core) : (s.setCore k x).routes = s.routes := rfl
@[simp] theorem setCore_heldReqs (s : State) (k : Nat) (x : Core) : (s.setCore k x).heldReqs = s.heldReqs := rfl
@[simp] theorem setCore_hostMsgs (s : State) (k : Nat) (x : Core) : (s.setCore k x).hostMsgs = s.hostMsgs := rfl
@[simp] theorem setCore_t95 (s : State) (k : Nat) (x : Core) : (s.setCore k x).t95 = s.t95 := rfl
@[simp] theorem setCore_t102 (s : State) (k : Nat) (x : Core) : (s.setCore k x).t102 = s.t102 := rfl
@[simp] theorem setCore_t108 (s : State) (k : Nat) (x : Core) : (s.setCore k x).t108 = s.t108 := rfl
@[simp] theorem setCore_tripped (s : State) (k : Nat) (x : Core) : (s.setCore k x).tripped = s.tripped := rfl
@[simp] theorem setCore_plat (s : State) (k : Nat) (x : Core) : (s.setCore k x).plat = s.plat := rfl
@[simp] theorem setCore_ident (s : State) (k : Nat) (x : Core) : (s.setCore k x).ident = s.ident := rfl
@[simp] theorem setCore_meas (s : State) (k : Nat) (x : Core) : (s.setCore k x).meas = s.meas := rfl
@[simp] theorem setCore_reports (s : State) (k : Nat) (x : Core) : (s.setCore k x).reports = s.reports := rfl
@[simp] theorem setCore_linked (s : State) (k : Nat) (x : Core) : (s.setCore k x).linked = s.linked := rfl
@[simp] theorem setCore_qown (s : State) (k : Nat) (x : Core) : (s.setCore k x).qown = s.qown := rfl
@[simp] theorem setCore_fwin (s : State) (k : Nat) (x : Core) : (s.setCore k x).fwin = s.fwin := rfl
@[simp] theorem setCore_queues (s : State) (k : Nat) (x : Core) : (s.setCore k x).queues = s.queues := rfl
@[simp] theorem setCore_quantum (s : State) (k : Nat) (x : Core) : (s.setCore k x).quantum = s.quantum := rfl
@[simp] theorem setCore_nopromo (s : State) (k : Nat) (x : Core) : (s.setCore k x).nopromo = s.nopromo := rfl
@[simp] theorem setCore_hquota (s : State) (k : Nat) (x : Core) : (s.setCore k x).hquota = s.hquota := rfl
@[simp] theorem setCore_pdeadline (s : State) (k : Nat) (x : Core) : (s.setCore k x).pdeadline = s.pdeadline := rfl
@[simp] theorem setCore_interval (s : State) (k : Nat) (x : Core) : (s.setCore k x).interval = s.interval := rfl
@[simp] theorem setCore_ctlRaised (s : State) (k : Nat) (x : Core) : (s.setCore k x).ctlRaised = s.ctlRaised := rfl
@[simp] theorem setCore_mailboxes (s : State) (k : Nat) (x : Core) : (s.setCore k x).mailboxes = s.mailboxes := rfl
@[simp] theorem setCore_irqs (s : State) (k : Nat) (x : Core) : (s.setCore k x).irqs = s.irqs := rfl
@[simp] theorem setCore_hostReply (s : State) (k : Nat) (x : Core) : (s.setCore k x).hostReply = s.hostReply := rfl
@[simp] theorem setCore_callReply (s : State) (k : Nat) (x : Core) : (s.setCore k x).callReply = s.callReply := rfl
@[simp] theorem setCore_contexts (s : State) (k : Nat) (x : Core) : (s.setCore k x).contexts = s.contexts := rfl
@[simp] theorem setCore_dies (s : State) (k : Nat) (x : Core) : (s.setCore k x).dies = s.dies := rfl
@[simp] theorem setCore_regions (s : State) (k : Nat) (x : Core) : (s.setCore k x).regions = s.regions := rfl
@[simp] theorem setCore_cores (s : State) (k : Nat) (x : Core) : (s.setCore k x).cores = s.cores.put k x := rfl
@[simp] theorem setCore_debugs (s : State) (k : Nat) (x : Core) : (s.setCore k x).debugs = s.debugs := rfl
@[simp] theorem setCore_channels (s : State) (k : Nat) (x : Core) : (s.setCore k x).channels = s.channels := rfl
@[simp] theorem setCore_reserves (s : State) (k : Nat) (x : Core) : (s.setCore k x).reserves = s.reserves := rfl
@[simp] theorem setCore_nextGrid (s : State) (k : Nat) (x : Core) : (s.setCore k x).nextGrid = s.nextGrid := rfl
@[simp] theorem setCore_grids (s : State) (k : Nat) (x : Core) : (s.setCore k x).grids = s.grids := rfl
@[simp] theorem setCore_gangs (s : State) (k : Nat) (x : Core) : (s.setCore k x).gangs = s.gangs := rfl
@[simp] theorem setCore_teams (s : State) (k : Nat) (x : Core) : (s.setCore k x).teams = s.teams := rfl
@[simp] theorem setCore_groups (s : State) (k : Nat) (x : Core) : (s.setCore k x).groups = s.groups := rfl
@[simp] theorem setCore_seqs (s : State) (k : Nat) (x : Core) : (s.setCore k x).seqs = s.seqs := rfl
@[simp] theorem setCore_builtins (s : State) (k : Nat) (x : Core) : (s.setCore k x).builtins = s.builtins := rfl
@[simp] theorem setCore_mem (s : State) (k : Nat) (x : Core) : (s.setCore k x).mem = s.mem := rfl
@[simp] theorem setCore_far (s : State) (k : Nat) (x : Core) : (s.setCore k x).far = s.far := rfl
@[simp] theorem setCore_ledger (s : State) (k : Nat) (x : Core) : (s.setCore k x).ledger = s.ledger := rfl

@[simp] theorem setDie_cur (s : State) (k : Nat) (x : Die) : (s.setDie k x).cur = s.cur := rfl
@[simp] theorem setDie_agenda (s : State) (k : Nat) (x : Die) : (s.setDie k x).agenda = s.agenda := rfl
@[simp] theorem setDie_sel (s : State) (k : Nat) (x : Die) : (s.setDie k x).sel = s.sel := rfl
@[simp] theorem setDie_steps (s : State) (k : Nat) (x : Die) : (s.setDie k x).steps = s.steps := rfl
@[simp] theorem setDie_free (s : State) (k : Nat) (x : Die) : (s.setDie k x).free = s.free := rfl
@[simp] theorem setDie_timer (s : State) (k : Nat) (x : Die) : (s.setDie k x).timer = s.timer := rfl
@[simp] theorem setDie_devnum (s : State) (k : Nat) (x : Die) : (s.setDie k x).devnum = s.devnum := rfl
@[simp] theorem setDie_devrdy (s : State) (k : Nat) (x : Die) : (s.setDie k x).devrdy = s.devrdy := rfl
@[simp] theorem setDie_devfail (s : State) (k : Nat) (x : Die) : (s.setDie k x).devfail = s.devfail := rfl
@[simp] theorem setDie_umaps (s : State) (k : Nat) (x : Die) : (s.setDie k x).umaps = s.umaps := rfl
@[simp] theorem setDie_ports (s : State) (k : Nat) (x : Die) : (s.setDie k x).ports = s.ports := rfl
@[simp] theorem setDie_replies (s : State) (k : Nat) (x : Die) : (s.setDie k x).replies = s.replies := rfl
@[simp] theorem setDie_routes (s : State) (k : Nat) (x : Die) : (s.setDie k x).routes = s.routes := rfl
@[simp] theorem setDie_heldReqs (s : State) (k : Nat) (x : Die) : (s.setDie k x).heldReqs = s.heldReqs := rfl
@[simp] theorem setDie_hostMsgs (s : State) (k : Nat) (x : Die) : (s.setDie k x).hostMsgs = s.hostMsgs := rfl
@[simp] theorem setDie_t95 (s : State) (k : Nat) (x : Die) : (s.setDie k x).t95 = s.t95 := rfl
@[simp] theorem setDie_t102 (s : State) (k : Nat) (x : Die) : (s.setDie k x).t102 = s.t102 := rfl
@[simp] theorem setDie_t108 (s : State) (k : Nat) (x : Die) : (s.setDie k x).t108 = s.t108 := rfl
@[simp] theorem setDie_tripped (s : State) (k : Nat) (x : Die) : (s.setDie k x).tripped = s.tripped := rfl
@[simp] theorem setDie_plat (s : State) (k : Nat) (x : Die) : (s.setDie k x).plat = s.plat := rfl
@[simp] theorem setDie_ident (s : State) (k : Nat) (x : Die) : (s.setDie k x).ident = s.ident := rfl
@[simp] theorem setDie_meas (s : State) (k : Nat) (x : Die) : (s.setDie k x).meas = s.meas := rfl
@[simp] theorem setDie_reports (s : State) (k : Nat) (x : Die) : (s.setDie k x).reports = s.reports := rfl
@[simp] theorem setDie_linked (s : State) (k : Nat) (x : Die) : (s.setDie k x).linked = s.linked := rfl
@[simp] theorem setDie_qown (s : State) (k : Nat) (x : Die) : (s.setDie k x).qown = s.qown := rfl
@[simp] theorem setDie_fwin (s : State) (k : Nat) (x : Die) : (s.setDie k x).fwin = s.fwin := rfl
@[simp] theorem setDie_queues (s : State) (k : Nat) (x : Die) : (s.setDie k x).queues = s.queues := rfl
@[simp] theorem setDie_quantum (s : State) (k : Nat) (x : Die) : (s.setDie k x).quantum = s.quantum := rfl
@[simp] theorem setDie_nopromo (s : State) (k : Nat) (x : Die) : (s.setDie k x).nopromo = s.nopromo := rfl
@[simp] theorem setDie_hquota (s : State) (k : Nat) (x : Die) : (s.setDie k x).hquota = s.hquota := rfl
@[simp] theorem setDie_pdeadline (s : State) (k : Nat) (x : Die) : (s.setDie k x).pdeadline = s.pdeadline := rfl
@[simp] theorem setDie_interval (s : State) (k : Nat) (x : Die) : (s.setDie k x).interval = s.interval := rfl
@[simp] theorem setDie_ctlRaised (s : State) (k : Nat) (x : Die) : (s.setDie k x).ctlRaised = s.ctlRaised := rfl
@[simp] theorem setDie_mailboxes (s : State) (k : Nat) (x : Die) : (s.setDie k x).mailboxes = s.mailboxes := rfl
@[simp] theorem setDie_irqs (s : State) (k : Nat) (x : Die) : (s.setDie k x).irqs = s.irqs := rfl
@[simp] theorem setDie_hostReply (s : State) (k : Nat) (x : Die) : (s.setDie k x).hostReply = s.hostReply := rfl
@[simp] theorem setDie_callReply (s : State) (k : Nat) (x : Die) : (s.setDie k x).callReply = s.callReply := rfl
@[simp] theorem setDie_contexts (s : State) (k : Nat) (x : Die) : (s.setDie k x).contexts = s.contexts := rfl
@[simp] theorem setDie_dies (s : State) (k : Nat) (x : Die) : (s.setDie k x).dies = s.dies.put k x := rfl
@[simp] theorem setDie_regions (s : State) (k : Nat) (x : Die) : (s.setDie k x).regions = s.regions := rfl
@[simp] theorem setDie_cores (s : State) (k : Nat) (x : Die) : (s.setDie k x).cores = s.cores := rfl
@[simp] theorem setDie_debugs (s : State) (k : Nat) (x : Die) : (s.setDie k x).debugs = s.debugs := rfl
@[simp] theorem setDie_channels (s : State) (k : Nat) (x : Die) : (s.setDie k x).channels = s.channels := rfl
@[simp] theorem setDie_reserves (s : State) (k : Nat) (x : Die) : (s.setDie k x).reserves = s.reserves := rfl
@[simp] theorem setDie_nextGrid (s : State) (k : Nat) (x : Die) : (s.setDie k x).nextGrid = s.nextGrid := rfl
@[simp] theorem setDie_grids (s : State) (k : Nat) (x : Die) : (s.setDie k x).grids = s.grids := rfl
@[simp] theorem setDie_gangs (s : State) (k : Nat) (x : Die) : (s.setDie k x).gangs = s.gangs := rfl
@[simp] theorem setDie_teams (s : State) (k : Nat) (x : Die) : (s.setDie k x).teams = s.teams := rfl
@[simp] theorem setDie_groups (s : State) (k : Nat) (x : Die) : (s.setDie k x).groups = s.groups := rfl
@[simp] theorem setDie_seqs (s : State) (k : Nat) (x : Die) : (s.setDie k x).seqs = s.seqs := rfl
@[simp] theorem setDie_builtins (s : State) (k : Nat) (x : Die) : (s.setDie k x).builtins = s.builtins := rfl
@[simp] theorem setDie_mem (s : State) (k : Nat) (x : Die) : (s.setDie k x).mem = s.mem := rfl
@[simp] theorem setDie_far (s : State) (k : Nat) (x : Die) : (s.setDie k x).far = s.far := rfl
@[simp] theorem setDie_ledger (s : State) (k : Nat) (x : Die) : (s.setDie k x).ledger = s.ledger := rfl

@[simp] theorem setRegion_cur (s : State) (k : Nat) (x : Region) : (s.setRegion k x).cur = s.cur := rfl
@[simp] theorem setRegion_agenda (s : State) (k : Nat) (x : Region) : (s.setRegion k x).agenda = s.agenda := rfl
@[simp] theorem setRegion_sel (s : State) (k : Nat) (x : Region) : (s.setRegion k x).sel = s.sel := rfl
@[simp] theorem setRegion_steps (s : State) (k : Nat) (x : Region) : (s.setRegion k x).steps = s.steps := rfl
@[simp] theorem setRegion_free (s : State) (k : Nat) (x : Region) : (s.setRegion k x).free = s.free := rfl
@[simp] theorem setRegion_timer (s : State) (k : Nat) (x : Region) : (s.setRegion k x).timer = s.timer := rfl
@[simp] theorem setRegion_devnum (s : State) (k : Nat) (x : Region) : (s.setRegion k x).devnum = s.devnum := rfl
@[simp] theorem setRegion_devrdy (s : State) (k : Nat) (x : Region) : (s.setRegion k x).devrdy = s.devrdy := rfl
@[simp] theorem setRegion_devfail (s : State) (k : Nat) (x : Region) : (s.setRegion k x).devfail = s.devfail := rfl
@[simp] theorem setRegion_umaps (s : State) (k : Nat) (x : Region) : (s.setRegion k x).umaps = s.umaps := rfl
@[simp] theorem setRegion_ports (s : State) (k : Nat) (x : Region) : (s.setRegion k x).ports = s.ports := rfl
@[simp] theorem setRegion_replies (s : State) (k : Nat) (x : Region) : (s.setRegion k x).replies = s.replies := rfl
@[simp] theorem setRegion_routes (s : State) (k : Nat) (x : Region) : (s.setRegion k x).routes = s.routes := rfl
@[simp] theorem setRegion_heldReqs (s : State) (k : Nat) (x : Region) : (s.setRegion k x).heldReqs = s.heldReqs := rfl
@[simp] theorem setRegion_hostMsgs (s : State) (k : Nat) (x : Region) : (s.setRegion k x).hostMsgs = s.hostMsgs := rfl
@[simp] theorem setRegion_t95 (s : State) (k : Nat) (x : Region) : (s.setRegion k x).t95 = s.t95 := rfl
@[simp] theorem setRegion_t102 (s : State) (k : Nat) (x : Region) : (s.setRegion k x).t102 = s.t102 := rfl
@[simp] theorem setRegion_t108 (s : State) (k : Nat) (x : Region) : (s.setRegion k x).t108 = s.t108 := rfl
@[simp] theorem setRegion_tripped (s : State) (k : Nat) (x : Region) : (s.setRegion k x).tripped = s.tripped := rfl
@[simp] theorem setRegion_plat (s : State) (k : Nat) (x : Region) : (s.setRegion k x).plat = s.plat := rfl
@[simp] theorem setRegion_ident (s : State) (k : Nat) (x : Region) : (s.setRegion k x).ident = s.ident := rfl
@[simp] theorem setRegion_meas (s : State) (k : Nat) (x : Region) : (s.setRegion k x).meas = s.meas := rfl
@[simp] theorem setRegion_reports (s : State) (k : Nat) (x : Region) : (s.setRegion k x).reports = s.reports := rfl
@[simp] theorem setRegion_linked (s : State) (k : Nat) (x : Region) : (s.setRegion k x).linked = s.linked := rfl
@[simp] theorem setRegion_qown (s : State) (k : Nat) (x : Region) : (s.setRegion k x).qown = s.qown := rfl
@[simp] theorem setRegion_fwin (s : State) (k : Nat) (x : Region) : (s.setRegion k x).fwin = s.fwin := rfl
@[simp] theorem setRegion_queues (s : State) (k : Nat) (x : Region) : (s.setRegion k x).queues = s.queues := rfl
@[simp] theorem setRegion_quantum (s : State) (k : Nat) (x : Region) : (s.setRegion k x).quantum = s.quantum := rfl
@[simp] theorem setRegion_nopromo (s : State) (k : Nat) (x : Region) : (s.setRegion k x).nopromo = s.nopromo := rfl
@[simp] theorem setRegion_hquota (s : State) (k : Nat) (x : Region) : (s.setRegion k x).hquota = s.hquota := rfl
@[simp] theorem setRegion_pdeadline (s : State) (k : Nat) (x : Region) : (s.setRegion k x).pdeadline = s.pdeadline := rfl
@[simp] theorem setRegion_interval (s : State) (k : Nat) (x : Region) : (s.setRegion k x).interval = s.interval := rfl
@[simp] theorem setRegion_ctlRaised (s : State) (k : Nat) (x : Region) : (s.setRegion k x).ctlRaised = s.ctlRaised := rfl
@[simp] theorem setRegion_mailboxes (s : State) (k : Nat) (x : Region) : (s.setRegion k x).mailboxes = s.mailboxes := rfl
@[simp] theorem setRegion_irqs (s : State) (k : Nat) (x : Region) : (s.setRegion k x).irqs = s.irqs := rfl
@[simp] theorem setRegion_hostReply (s : State) (k : Nat) (x : Region) : (s.setRegion k x).hostReply = s.hostReply := rfl
@[simp] theorem setRegion_callReply (s : State) (k : Nat) (x : Region) : (s.setRegion k x).callReply = s.callReply := rfl
@[simp] theorem setRegion_contexts (s : State) (k : Nat) (x : Region) : (s.setRegion k x).contexts = s.contexts := rfl
@[simp] theorem setRegion_dies (s : State) (k : Nat) (x : Region) : (s.setRegion k x).dies = s.dies := rfl
@[simp] theorem setRegion_regions (s : State) (k : Nat) (x : Region) : (s.setRegion k x).regions = s.regions.put k x := rfl
@[simp] theorem setRegion_cores (s : State) (k : Nat) (x : Region) : (s.setRegion k x).cores = s.cores := rfl
@[simp] theorem setRegion_debugs (s : State) (k : Nat) (x : Region) : (s.setRegion k x).debugs = s.debugs := rfl
@[simp] theorem setRegion_channels (s : State) (k : Nat) (x : Region) : (s.setRegion k x).channels = s.channels := rfl
@[simp] theorem setRegion_reserves (s : State) (k : Nat) (x : Region) : (s.setRegion k x).reserves = s.reserves := rfl
@[simp] theorem setRegion_nextGrid (s : State) (k : Nat) (x : Region) : (s.setRegion k x).nextGrid = s.nextGrid := rfl
@[simp] theorem setRegion_grids (s : State) (k : Nat) (x : Region) : (s.setRegion k x).grids = s.grids := rfl
@[simp] theorem setRegion_gangs (s : State) (k : Nat) (x : Region) : (s.setRegion k x).gangs = s.gangs := rfl
@[simp] theorem setRegion_teams (s : State) (k : Nat) (x : Region) : (s.setRegion k x).teams = s.teams := rfl
@[simp] theorem setRegion_groups (s : State) (k : Nat) (x : Region) : (s.setRegion k x).groups = s.groups := rfl
@[simp] theorem setRegion_seqs (s : State) (k : Nat) (x : Region) : (s.setRegion k x).seqs = s.seqs := rfl
@[simp] theorem setRegion_builtins (s : State) (k : Nat) (x : Region) : (s.setRegion k x).builtins = s.builtins := rfl
@[simp] theorem setRegion_mem (s : State) (k : Nat) (x : Region) : (s.setRegion k x).mem = s.mem := rfl
@[simp] theorem setRegion_far (s : State) (k : Nat) (x : Region) : (s.setRegion k x).far = s.far := rfl
@[simp] theorem setRegion_ledger (s : State) (k : Nat) (x : Region) : (s.setRegion k x).ledger = s.ledger := rfl

@[simp] theorem setDbg_cur (s : State) (k : Nat) (x : DebugCore) : (s.setDbg k x).cur = s.cur := rfl
@[simp] theorem setDbg_agenda (s : State) (k : Nat) (x : DebugCore) : (s.setDbg k x).agenda = s.agenda := rfl
@[simp] theorem setDbg_sel (s : State) (k : Nat) (x : DebugCore) : (s.setDbg k x).sel = s.sel := rfl
@[simp] theorem setDbg_steps (s : State) (k : Nat) (x : DebugCore) : (s.setDbg k x).steps = s.steps := rfl
@[simp] theorem setDbg_free (s : State) (k : Nat) (x : DebugCore) : (s.setDbg k x).free = s.free := rfl
@[simp] theorem setDbg_timer (s : State) (k : Nat) (x : DebugCore) : (s.setDbg k x).timer = s.timer := rfl
@[simp] theorem setDbg_devnum (s : State) (k : Nat) (x : DebugCore) : (s.setDbg k x).devnum = s.devnum := rfl
@[simp] theorem setDbg_devrdy (s : State) (k : Nat) (x : DebugCore) : (s.setDbg k x).devrdy = s.devrdy := rfl
@[simp] theorem setDbg_devfail (s : State) (k : Nat) (x : DebugCore) : (s.setDbg k x).devfail = s.devfail := rfl
@[simp] theorem setDbg_umaps (s : State) (k : Nat) (x : DebugCore) : (s.setDbg k x).umaps = s.umaps := rfl
@[simp] theorem setDbg_ports (s : State) (k : Nat) (x : DebugCore) : (s.setDbg k x).ports = s.ports := rfl
@[simp] theorem setDbg_replies (s : State) (k : Nat) (x : DebugCore) : (s.setDbg k x).replies = s.replies := rfl
@[simp] theorem setDbg_routes (s : State) (k : Nat) (x : DebugCore) : (s.setDbg k x).routes = s.routes := rfl
@[simp] theorem setDbg_heldReqs (s : State) (k : Nat) (x : DebugCore) : (s.setDbg k x).heldReqs = s.heldReqs := rfl
@[simp] theorem setDbg_hostMsgs (s : State) (k : Nat) (x : DebugCore) : (s.setDbg k x).hostMsgs = s.hostMsgs := rfl
@[simp] theorem setDbg_t95 (s : State) (k : Nat) (x : DebugCore) : (s.setDbg k x).t95 = s.t95 := rfl
@[simp] theorem setDbg_t102 (s : State) (k : Nat) (x : DebugCore) : (s.setDbg k x).t102 = s.t102 := rfl
@[simp] theorem setDbg_t108 (s : State) (k : Nat) (x : DebugCore) : (s.setDbg k x).t108 = s.t108 := rfl
@[simp] theorem setDbg_tripped (s : State) (k : Nat) (x : DebugCore) : (s.setDbg k x).tripped = s.tripped := rfl
@[simp] theorem setDbg_plat (s : State) (k : Nat) (x : DebugCore) : (s.setDbg k x).plat = s.plat := rfl
@[simp] theorem setDbg_ident (s : State) (k : Nat) (x : DebugCore) : (s.setDbg k x).ident = s.ident := rfl
@[simp] theorem setDbg_meas (s : State) (k : Nat) (x : DebugCore) : (s.setDbg k x).meas = s.meas := rfl
@[simp] theorem setDbg_reports (s : State) (k : Nat) (x : DebugCore) : (s.setDbg k x).reports = s.reports := rfl
@[simp] theorem setDbg_linked (s : State) (k : Nat) (x : DebugCore) : (s.setDbg k x).linked = s.linked := rfl
@[simp] theorem setDbg_qown (s : State) (k : Nat) (x : DebugCore) : (s.setDbg k x).qown = s.qown := rfl
@[simp] theorem setDbg_fwin (s : State) (k : Nat) (x : DebugCore) : (s.setDbg k x).fwin = s.fwin := rfl
@[simp] theorem setDbg_queues (s : State) (k : Nat) (x : DebugCore) : (s.setDbg k x).queues = s.queues := rfl
@[simp] theorem setDbg_quantum (s : State) (k : Nat) (x : DebugCore) : (s.setDbg k x).quantum = s.quantum := rfl
@[simp] theorem setDbg_nopromo (s : State) (k : Nat) (x : DebugCore) : (s.setDbg k x).nopromo = s.nopromo := rfl
@[simp] theorem setDbg_hquota (s : State) (k : Nat) (x : DebugCore) : (s.setDbg k x).hquota = s.hquota := rfl
@[simp] theorem setDbg_pdeadline (s : State) (k : Nat) (x : DebugCore) : (s.setDbg k x).pdeadline = s.pdeadline := rfl
@[simp] theorem setDbg_interval (s : State) (k : Nat) (x : DebugCore) : (s.setDbg k x).interval = s.interval := rfl
@[simp] theorem setDbg_ctlRaised (s : State) (k : Nat) (x : DebugCore) : (s.setDbg k x).ctlRaised = s.ctlRaised := rfl
@[simp] theorem setDbg_mailboxes (s : State) (k : Nat) (x : DebugCore) : (s.setDbg k x).mailboxes = s.mailboxes := rfl
@[simp] theorem setDbg_irqs (s : State) (k : Nat) (x : DebugCore) : (s.setDbg k x).irqs = s.irqs := rfl
@[simp] theorem setDbg_hostReply (s : State) (k : Nat) (x : DebugCore) : (s.setDbg k x).hostReply = s.hostReply := rfl
@[simp] theorem setDbg_callReply (s : State) (k : Nat) (x : DebugCore) : (s.setDbg k x).callReply = s.callReply := rfl
@[simp] theorem setDbg_contexts (s : State) (k : Nat) (x : DebugCore) : (s.setDbg k x).contexts = s.contexts := rfl
@[simp] theorem setDbg_dies (s : State) (k : Nat) (x : DebugCore) : (s.setDbg k x).dies = s.dies := rfl
@[simp] theorem setDbg_regions (s : State) (k : Nat) (x : DebugCore) : (s.setDbg k x).regions = s.regions := rfl
@[simp] theorem setDbg_cores (s : State) (k : Nat) (x : DebugCore) : (s.setDbg k x).cores = s.cores := rfl
@[simp] theorem setDbg_debugs (s : State) (k : Nat) (x : DebugCore) : (s.setDbg k x).debugs = s.debugs.put k x := rfl
@[simp] theorem setDbg_channels (s : State) (k : Nat) (x : DebugCore) : (s.setDbg k x).channels = s.channels := rfl
@[simp] theorem setDbg_reserves (s : State) (k : Nat) (x : DebugCore) : (s.setDbg k x).reserves = s.reserves := rfl
@[simp] theorem setDbg_nextGrid (s : State) (k : Nat) (x : DebugCore) : (s.setDbg k x).nextGrid = s.nextGrid := rfl
@[simp] theorem setDbg_grids (s : State) (k : Nat) (x : DebugCore) : (s.setDbg k x).grids = s.grids := rfl
@[simp] theorem setDbg_gangs (s : State) (k : Nat) (x : DebugCore) : (s.setDbg k x).gangs = s.gangs := rfl
@[simp] theorem setDbg_teams (s : State) (k : Nat) (x : DebugCore) : (s.setDbg k x).teams = s.teams := rfl
@[simp] theorem setDbg_groups (s : State) (k : Nat) (x : DebugCore) : (s.setDbg k x).groups = s.groups := rfl
@[simp] theorem setDbg_seqs (s : State) (k : Nat) (x : DebugCore) : (s.setDbg k x).seqs = s.seqs := rfl
@[simp] theorem setDbg_builtins (s : State) (k : Nat) (x : DebugCore) : (s.setDbg k x).builtins = s.builtins := rfl
@[simp] theorem setDbg_mem (s : State) (k : Nat) (x : DebugCore) : (s.setDbg k x).mem = s.mem := rfl
@[simp] theorem setDbg_far (s : State) (k : Nat) (x : DebugCore) : (s.setDbg k x).far = s.far := rfl
@[simp] theorem setDbg_ledger (s : State) (k : Nat) (x : DebugCore) : (s.setDbg k x).ledger = s.ledger := rfl

@[simp] theorem setMailbox_cur (s : State) (k : Nat) (x : Mailbox) : (s.setMailbox k x).cur = s.cur := rfl
@[simp] theorem setMailbox_agenda (s : State) (k : Nat) (x : Mailbox) : (s.setMailbox k x).agenda = s.agenda := rfl
@[simp] theorem setMailbox_sel (s : State) (k : Nat) (x : Mailbox) : (s.setMailbox k x).sel = s.sel := rfl
@[simp] theorem setMailbox_steps (s : State) (k : Nat) (x : Mailbox) : (s.setMailbox k x).steps = s.steps := rfl
@[simp] theorem setMailbox_free (s : State) (k : Nat) (x : Mailbox) : (s.setMailbox k x).free = s.free := rfl
@[simp] theorem setMailbox_timer (s : State) (k : Nat) (x : Mailbox) : (s.setMailbox k x).timer = s.timer := rfl
@[simp] theorem setMailbox_devnum (s : State) (k : Nat) (x : Mailbox) : (s.setMailbox k x).devnum = s.devnum := rfl
@[simp] theorem setMailbox_devrdy (s : State) (k : Nat) (x : Mailbox) : (s.setMailbox k x).devrdy = s.devrdy := rfl
@[simp] theorem setMailbox_devfail (s : State) (k : Nat) (x : Mailbox) : (s.setMailbox k x).devfail = s.devfail := rfl
@[simp] theorem setMailbox_umaps (s : State) (k : Nat) (x : Mailbox) : (s.setMailbox k x).umaps = s.umaps := rfl
@[simp] theorem setMailbox_ports (s : State) (k : Nat) (x : Mailbox) : (s.setMailbox k x).ports = s.ports := rfl
@[simp] theorem setMailbox_replies (s : State) (k : Nat) (x : Mailbox) : (s.setMailbox k x).replies = s.replies := rfl
@[simp] theorem setMailbox_routes (s : State) (k : Nat) (x : Mailbox) : (s.setMailbox k x).routes = s.routes := rfl
@[simp] theorem setMailbox_heldReqs (s : State) (k : Nat) (x : Mailbox) : (s.setMailbox k x).heldReqs = s.heldReqs := rfl
@[simp] theorem setMailbox_hostMsgs (s : State) (k : Nat) (x : Mailbox) : (s.setMailbox k x).hostMsgs = s.hostMsgs := rfl
@[simp] theorem setMailbox_t95 (s : State) (k : Nat) (x : Mailbox) : (s.setMailbox k x).t95 = s.t95 := rfl
@[simp] theorem setMailbox_t102 (s : State) (k : Nat) (x : Mailbox) : (s.setMailbox k x).t102 = s.t102 := rfl
@[simp] theorem setMailbox_t108 (s : State) (k : Nat) (x : Mailbox) : (s.setMailbox k x).t108 = s.t108 := rfl
@[simp] theorem setMailbox_tripped (s : State) (k : Nat) (x : Mailbox) : (s.setMailbox k x).tripped = s.tripped := rfl
@[simp] theorem setMailbox_plat (s : State) (k : Nat) (x : Mailbox) : (s.setMailbox k x).plat = s.plat := rfl
@[simp] theorem setMailbox_ident (s : State) (k : Nat) (x : Mailbox) : (s.setMailbox k x).ident = s.ident := rfl
@[simp] theorem setMailbox_meas (s : State) (k : Nat) (x : Mailbox) : (s.setMailbox k x).meas = s.meas := rfl
@[simp] theorem setMailbox_reports (s : State) (k : Nat) (x : Mailbox) : (s.setMailbox k x).reports = s.reports := rfl
@[simp] theorem setMailbox_linked (s : State) (k : Nat) (x : Mailbox) : (s.setMailbox k x).linked = s.linked := rfl
@[simp] theorem setMailbox_qown (s : State) (k : Nat) (x : Mailbox) : (s.setMailbox k x).qown = s.qown := rfl
@[simp] theorem setMailbox_fwin (s : State) (k : Nat) (x : Mailbox) : (s.setMailbox k x).fwin = s.fwin := rfl
@[simp] theorem setMailbox_queues (s : State) (k : Nat) (x : Mailbox) : (s.setMailbox k x).queues = s.queues := rfl
@[simp] theorem setMailbox_quantum (s : State) (k : Nat) (x : Mailbox) : (s.setMailbox k x).quantum = s.quantum := rfl
@[simp] theorem setMailbox_nopromo (s : State) (k : Nat) (x : Mailbox) : (s.setMailbox k x).nopromo = s.nopromo := rfl
@[simp] theorem setMailbox_hquota (s : State) (k : Nat) (x : Mailbox) : (s.setMailbox k x).hquota = s.hquota := rfl
@[simp] theorem setMailbox_pdeadline (s : State) (k : Nat) (x : Mailbox) : (s.setMailbox k x).pdeadline = s.pdeadline := rfl
@[simp] theorem setMailbox_interval (s : State) (k : Nat) (x : Mailbox) : (s.setMailbox k x).interval = s.interval := rfl
@[simp] theorem setMailbox_ctlRaised (s : State) (k : Nat) (x : Mailbox) : (s.setMailbox k x).ctlRaised = s.ctlRaised := rfl
@[simp] theorem setMailbox_mailboxes (s : State) (k : Nat) (x : Mailbox) : (s.setMailbox k x).mailboxes = s.mailboxes.put k x := rfl
@[simp] theorem setMailbox_irqs (s : State) (k : Nat) (x : Mailbox) : (s.setMailbox k x).irqs = s.irqs := rfl
@[simp] theorem setMailbox_hostReply (s : State) (k : Nat) (x : Mailbox) : (s.setMailbox k x).hostReply = s.hostReply := rfl
@[simp] theorem setMailbox_callReply (s : State) (k : Nat) (x : Mailbox) : (s.setMailbox k x).callReply = s.callReply := rfl
@[simp] theorem setMailbox_contexts (s : State) (k : Nat) (x : Mailbox) : (s.setMailbox k x).contexts = s.contexts := rfl
@[simp] theorem setMailbox_dies (s : State) (k : Nat) (x : Mailbox) : (s.setMailbox k x).dies = s.dies := rfl
@[simp] theorem setMailbox_regions (s : State) (k : Nat) (x : Mailbox) : (s.setMailbox k x).regions = s.regions := rfl
@[simp] theorem setMailbox_cores (s : State) (k : Nat) (x : Mailbox) : (s.setMailbox k x).cores = s.cores := rfl
@[simp] theorem setMailbox_debugs (s : State) (k : Nat) (x : Mailbox) : (s.setMailbox k x).debugs = s.debugs := rfl
@[simp] theorem setMailbox_channels (s : State) (k : Nat) (x : Mailbox) : (s.setMailbox k x).channels = s.channels := rfl
@[simp] theorem setMailbox_reserves (s : State) (k : Nat) (x : Mailbox) : (s.setMailbox k x).reserves = s.reserves := rfl
@[simp] theorem setMailbox_nextGrid (s : State) (k : Nat) (x : Mailbox) : (s.setMailbox k x).nextGrid = s.nextGrid := rfl
@[simp] theorem setMailbox_grids (s : State) (k : Nat) (x : Mailbox) : (s.setMailbox k x).grids = s.grids := rfl
@[simp] theorem setMailbox_gangs (s : State) (k : Nat) (x : Mailbox) : (s.setMailbox k x).gangs = s.gangs := rfl
@[simp] theorem setMailbox_teams (s : State) (k : Nat) (x : Mailbox) : (s.setMailbox k x).teams = s.teams := rfl
@[simp] theorem setMailbox_groups (s : State) (k : Nat) (x : Mailbox) : (s.setMailbox k x).groups = s.groups := rfl
@[simp] theorem setMailbox_seqs (s : State) (k : Nat) (x : Mailbox) : (s.setMailbox k x).seqs = s.seqs := rfl
@[simp] theorem setMailbox_builtins (s : State) (k : Nat) (x : Mailbox) : (s.setMailbox k x).builtins = s.builtins := rfl
@[simp] theorem setMailbox_mem (s : State) (k : Nat) (x : Mailbox) : (s.setMailbox k x).mem = s.mem := rfl
@[simp] theorem setMailbox_far (s : State) (k : Nat) (x : Mailbox) : (s.setMailbox k x).far = s.far := rfl
@[simp] theorem setMailbox_ledger (s : State) (k : Nat) (x : Mailbox) : (s.setMailbox k x).ledger = s.ledger := rfl

@[simp] theorem setQueue_cur (s : State) (k : Nat) (x : Queue) : (s.setQueue k x).cur = s.cur := rfl
@[simp] theorem setQueue_agenda (s : State) (k : Nat) (x : Queue) : (s.setQueue k x).agenda = s.agenda := rfl
@[simp] theorem setQueue_sel (s : State) (k : Nat) (x : Queue) : (s.setQueue k x).sel = s.sel := rfl
@[simp] theorem setQueue_steps (s : State) (k : Nat) (x : Queue) : (s.setQueue k x).steps = s.steps := rfl
@[simp] theorem setQueue_free (s : State) (k : Nat) (x : Queue) : (s.setQueue k x).free = s.free := rfl
@[simp] theorem setQueue_timer (s : State) (k : Nat) (x : Queue) : (s.setQueue k x).timer = s.timer := rfl
@[simp] theorem setQueue_devnum (s : State) (k : Nat) (x : Queue) : (s.setQueue k x).devnum = s.devnum := rfl
@[simp] theorem setQueue_devrdy (s : State) (k : Nat) (x : Queue) : (s.setQueue k x).devrdy = s.devrdy := rfl
@[simp] theorem setQueue_devfail (s : State) (k : Nat) (x : Queue) : (s.setQueue k x).devfail = s.devfail := rfl
@[simp] theorem setQueue_umaps (s : State) (k : Nat) (x : Queue) : (s.setQueue k x).umaps = s.umaps := rfl
@[simp] theorem setQueue_ports (s : State) (k : Nat) (x : Queue) : (s.setQueue k x).ports = s.ports := rfl
@[simp] theorem setQueue_replies (s : State) (k : Nat) (x : Queue) : (s.setQueue k x).replies = s.replies := rfl
@[simp] theorem setQueue_routes (s : State) (k : Nat) (x : Queue) : (s.setQueue k x).routes = s.routes := rfl
@[simp] theorem setQueue_heldReqs (s : State) (k : Nat) (x : Queue) : (s.setQueue k x).heldReqs = s.heldReqs := rfl
@[simp] theorem setQueue_hostMsgs (s : State) (k : Nat) (x : Queue) : (s.setQueue k x).hostMsgs = s.hostMsgs := rfl
@[simp] theorem setQueue_t95 (s : State) (k : Nat) (x : Queue) : (s.setQueue k x).t95 = s.t95 := rfl
@[simp] theorem setQueue_t102 (s : State) (k : Nat) (x : Queue) : (s.setQueue k x).t102 = s.t102 := rfl
@[simp] theorem setQueue_t108 (s : State) (k : Nat) (x : Queue) : (s.setQueue k x).t108 = s.t108 := rfl
@[simp] theorem setQueue_tripped (s : State) (k : Nat) (x : Queue) : (s.setQueue k x).tripped = s.tripped := rfl
@[simp] theorem setQueue_plat (s : State) (k : Nat) (x : Queue) : (s.setQueue k x).plat = s.plat := rfl
@[simp] theorem setQueue_ident (s : State) (k : Nat) (x : Queue) : (s.setQueue k x).ident = s.ident := rfl
@[simp] theorem setQueue_meas (s : State) (k : Nat) (x : Queue) : (s.setQueue k x).meas = s.meas := rfl
@[simp] theorem setQueue_reports (s : State) (k : Nat) (x : Queue) : (s.setQueue k x).reports = s.reports := rfl
@[simp] theorem setQueue_linked (s : State) (k : Nat) (x : Queue) : (s.setQueue k x).linked = s.linked := rfl
@[simp] theorem setQueue_qown (s : State) (k : Nat) (x : Queue) : (s.setQueue k x).qown = s.qown := rfl
@[simp] theorem setQueue_fwin (s : State) (k : Nat) (x : Queue) : (s.setQueue k x).fwin = s.fwin := rfl
@[simp] theorem setQueue_queues (s : State) (k : Nat) (x : Queue) : (s.setQueue k x).queues = s.queues.put k x := rfl
@[simp] theorem setQueue_quantum (s : State) (k : Nat) (x : Queue) : (s.setQueue k x).quantum = s.quantum := rfl
@[simp] theorem setQueue_nopromo (s : State) (k : Nat) (x : Queue) : (s.setQueue k x).nopromo = s.nopromo := rfl
@[simp] theorem setQueue_hquota (s : State) (k : Nat) (x : Queue) : (s.setQueue k x).hquota = s.hquota := rfl
@[simp] theorem setQueue_pdeadline (s : State) (k : Nat) (x : Queue) : (s.setQueue k x).pdeadline = s.pdeadline := rfl
@[simp] theorem setQueue_interval (s : State) (k : Nat) (x : Queue) : (s.setQueue k x).interval = s.interval := rfl
@[simp] theorem setQueue_ctlRaised (s : State) (k : Nat) (x : Queue) : (s.setQueue k x).ctlRaised = s.ctlRaised := rfl
@[simp] theorem setQueue_mailboxes (s : State) (k : Nat) (x : Queue) : (s.setQueue k x).mailboxes = s.mailboxes := rfl
@[simp] theorem setQueue_irqs (s : State) (k : Nat) (x : Queue) : (s.setQueue k x).irqs = s.irqs := rfl
@[simp] theorem setQueue_hostReply (s : State) (k : Nat) (x : Queue) : (s.setQueue k x).hostReply = s.hostReply := rfl
@[simp] theorem setQueue_callReply (s : State) (k : Nat) (x : Queue) : (s.setQueue k x).callReply = s.callReply := rfl
@[simp] theorem setQueue_contexts (s : State) (k : Nat) (x : Queue) : (s.setQueue k x).contexts = s.contexts := rfl
@[simp] theorem setQueue_dies (s : State) (k : Nat) (x : Queue) : (s.setQueue k x).dies = s.dies := rfl
@[simp] theorem setQueue_regions (s : State) (k : Nat) (x : Queue) : (s.setQueue k x).regions = s.regions := rfl
@[simp] theorem setQueue_cores (s : State) (k : Nat) (x : Queue) : (s.setQueue k x).cores = s.cores := rfl
@[simp] theorem setQueue_debugs (s : State) (k : Nat) (x : Queue) : (s.setQueue k x).debugs = s.debugs := rfl
@[simp] theorem setQueue_channels (s : State) (k : Nat) (x : Queue) : (s.setQueue k x).channels = s.channels := rfl
@[simp] theorem setQueue_reserves (s : State) (k : Nat) (x : Queue) : (s.setQueue k x).reserves = s.reserves := rfl
@[simp] theorem setQueue_nextGrid (s : State) (k : Nat) (x : Queue) : (s.setQueue k x).nextGrid = s.nextGrid := rfl
@[simp] theorem setQueue_grids (s : State) (k : Nat) (x : Queue) : (s.setQueue k x).grids = s.grids := rfl
@[simp] theorem setQueue_gangs (s : State) (k : Nat) (x : Queue) : (s.setQueue k x).gangs = s.gangs := rfl
@[simp] theorem setQueue_teams (s : State) (k : Nat) (x : Queue) : (s.setQueue k x).teams = s.teams := rfl
@[simp] theorem setQueue_groups (s : State) (k : Nat) (x : Queue) : (s.setQueue k x).groups = s.groups := rfl
@[simp] theorem setQueue_seqs (s : State) (k : Nat) (x : Queue) : (s.setQueue k x).seqs = s.seqs := rfl
@[simp] theorem setQueue_builtins (s : State) (k : Nat) (x : Queue) : (s.setQueue k x).builtins = s.builtins := rfl
@[simp] theorem setQueue_mem (s : State) (k : Nat) (x : Queue) : (s.setQueue k x).mem = s.mem := rfl
@[simp] theorem setQueue_far (s : State) (k : Nat) (x : Queue) : (s.setQueue k x).far = s.far := rfl
@[simp] theorem setQueue_ledger (s : State) (k : Nat) (x : Queue) : (s.setQueue k x).ledger = s.ledger := rfl

@[simp] theorem setPort_cur (s : State) (k : Nat) (x : Port) : (s.setPort k x).cur = s.cur := rfl
@[simp] theorem setPort_agenda (s : State) (k : Nat) (x : Port) : (s.setPort k x).agenda = s.agenda := rfl
@[simp] theorem setPort_sel (s : State) (k : Nat) (x : Port) : (s.setPort k x).sel = s.sel := rfl
@[simp] theorem setPort_steps (s : State) (k : Nat) (x : Port) : (s.setPort k x).steps = s.steps := rfl
@[simp] theorem setPort_free (s : State) (k : Nat) (x : Port) : (s.setPort k x).free = s.free := rfl
@[simp] theorem setPort_timer (s : State) (k : Nat) (x : Port) : (s.setPort k x).timer = s.timer := rfl
@[simp] theorem setPort_devnum (s : State) (k : Nat) (x : Port) : (s.setPort k x).devnum = s.devnum := rfl
@[simp] theorem setPort_devrdy (s : State) (k : Nat) (x : Port) : (s.setPort k x).devrdy = s.devrdy := rfl
@[simp] theorem setPort_devfail (s : State) (k : Nat) (x : Port) : (s.setPort k x).devfail = s.devfail := rfl
@[simp] theorem setPort_umaps (s : State) (k : Nat) (x : Port) : (s.setPort k x).umaps = s.umaps := rfl
@[simp] theorem setPort_ports (s : State) (k : Nat) (x : Port) : (s.setPort k x).ports = s.ports.put k x := rfl
@[simp] theorem setPort_replies (s : State) (k : Nat) (x : Port) : (s.setPort k x).replies = s.replies := rfl
@[simp] theorem setPort_routes (s : State) (k : Nat) (x : Port) : (s.setPort k x).routes = s.routes := rfl
@[simp] theorem setPort_heldReqs (s : State) (k : Nat) (x : Port) : (s.setPort k x).heldReqs = s.heldReqs := rfl
@[simp] theorem setPort_hostMsgs (s : State) (k : Nat) (x : Port) : (s.setPort k x).hostMsgs = s.hostMsgs := rfl
@[simp] theorem setPort_t95 (s : State) (k : Nat) (x : Port) : (s.setPort k x).t95 = s.t95 := rfl
@[simp] theorem setPort_t102 (s : State) (k : Nat) (x : Port) : (s.setPort k x).t102 = s.t102 := rfl
@[simp] theorem setPort_t108 (s : State) (k : Nat) (x : Port) : (s.setPort k x).t108 = s.t108 := rfl
@[simp] theorem setPort_tripped (s : State) (k : Nat) (x : Port) : (s.setPort k x).tripped = s.tripped := rfl
@[simp] theorem setPort_plat (s : State) (k : Nat) (x : Port) : (s.setPort k x).plat = s.plat := rfl
@[simp] theorem setPort_ident (s : State) (k : Nat) (x : Port) : (s.setPort k x).ident = s.ident := rfl
@[simp] theorem setPort_meas (s : State) (k : Nat) (x : Port) : (s.setPort k x).meas = s.meas := rfl
@[simp] theorem setPort_reports (s : State) (k : Nat) (x : Port) : (s.setPort k x).reports = s.reports := rfl
@[simp] theorem setPort_linked (s : State) (k : Nat) (x : Port) : (s.setPort k x).linked = s.linked := rfl
@[simp] theorem setPort_qown (s : State) (k : Nat) (x : Port) : (s.setPort k x).qown = s.qown := rfl
@[simp] theorem setPort_fwin (s : State) (k : Nat) (x : Port) : (s.setPort k x).fwin = s.fwin := rfl
@[simp] theorem setPort_queues (s : State) (k : Nat) (x : Port) : (s.setPort k x).queues = s.queues := rfl
@[simp] theorem setPort_quantum (s : State) (k : Nat) (x : Port) : (s.setPort k x).quantum = s.quantum := rfl
@[simp] theorem setPort_nopromo (s : State) (k : Nat) (x : Port) : (s.setPort k x).nopromo = s.nopromo := rfl
@[simp] theorem setPort_hquota (s : State) (k : Nat) (x : Port) : (s.setPort k x).hquota = s.hquota := rfl
@[simp] theorem setPort_pdeadline (s : State) (k : Nat) (x : Port) : (s.setPort k x).pdeadline = s.pdeadline := rfl
@[simp] theorem setPort_interval (s : State) (k : Nat) (x : Port) : (s.setPort k x).interval = s.interval := rfl
@[simp] theorem setPort_ctlRaised (s : State) (k : Nat) (x : Port) : (s.setPort k x).ctlRaised = s.ctlRaised := rfl
@[simp] theorem setPort_mailboxes (s : State) (k : Nat) (x : Port) : (s.setPort k x).mailboxes = s.mailboxes := rfl
@[simp] theorem setPort_irqs (s : State) (k : Nat) (x : Port) : (s.setPort k x).irqs = s.irqs := rfl
@[simp] theorem setPort_hostReply (s : State) (k : Nat) (x : Port) : (s.setPort k x).hostReply = s.hostReply := rfl
@[simp] theorem setPort_callReply (s : State) (k : Nat) (x : Port) : (s.setPort k x).callReply = s.callReply := rfl
@[simp] theorem setPort_contexts (s : State) (k : Nat) (x : Port) : (s.setPort k x).contexts = s.contexts := rfl
@[simp] theorem setPort_dies (s : State) (k : Nat) (x : Port) : (s.setPort k x).dies = s.dies := rfl
@[simp] theorem setPort_regions (s : State) (k : Nat) (x : Port) : (s.setPort k x).regions = s.regions := rfl
@[simp] theorem setPort_cores (s : State) (k : Nat) (x : Port) : (s.setPort k x).cores = s.cores := rfl
@[simp] theorem setPort_debugs (s : State) (k : Nat) (x : Port) : (s.setPort k x).debugs = s.debugs := rfl
@[simp] theorem setPort_channels (s : State) (k : Nat) (x : Port) : (s.setPort k x).channels = s.channels := rfl
@[simp] theorem setPort_reserves (s : State) (k : Nat) (x : Port) : (s.setPort k x).reserves = s.reserves := rfl
@[simp] theorem setPort_nextGrid (s : State) (k : Nat) (x : Port) : (s.setPort k x).nextGrid = s.nextGrid := rfl
@[simp] theorem setPort_grids (s : State) (k : Nat) (x : Port) : (s.setPort k x).grids = s.grids := rfl
@[simp] theorem setPort_gangs (s : State) (k : Nat) (x : Port) : (s.setPort k x).gangs = s.gangs := rfl
@[simp] theorem setPort_teams (s : State) (k : Nat) (x : Port) : (s.setPort k x).teams = s.teams := rfl
@[simp] theorem setPort_groups (s : State) (k : Nat) (x : Port) : (s.setPort k x).groups = s.groups := rfl
@[simp] theorem setPort_seqs (s : State) (k : Nat) (x : Port) : (s.setPort k x).seqs = s.seqs := rfl
@[simp] theorem setPort_builtins (s : State) (k : Nat) (x : Port) : (s.setPort k x).builtins = s.builtins := rfl
@[simp] theorem setPort_mem (s : State) (k : Nat) (x : Port) : (s.setPort k x).mem = s.mem := rfl
@[simp] theorem setPort_far (s : State) (k : Nat) (x : Port) : (s.setPort k x).far = s.far := rfl
@[simp] theorem setPort_ledger (s : State) (k : Nat) (x : Port) : (s.setPort k x).ledger = s.ledger := rfl

@[simp] theorem modGroup_cur (s : State) (k : GroupId) (f : Group → Group) : (s.modGroup k f).cur = s.cur := by
  unfold State.modGroup; split <;> rfl
@[simp] theorem modGroup_agenda (s : State) (k : GroupId) (f : Group → Group) : (s.modGroup k f).agenda = s.agenda := by
  unfold State.modGroup; split <;> rfl
@[simp] theorem modGroup_sel (s : State) (k : GroupId) (f : Group → Group) : (s.modGroup k f).sel = s.sel := by
  unfold State.modGroup; split <;> rfl
@[simp] theorem modGroup_steps (s : State) (k : GroupId) (f : Group → Group) : (s.modGroup k f).steps = s.steps := by
  unfold State.modGroup; split <;> rfl
@[simp] theorem modGroup_free (s : State) (k : GroupId) (f : Group → Group) : (s.modGroup k f).free = s.free := by
  unfold State.modGroup; split <;> rfl
@[simp] theorem modGroup_timer (s : State) (k : GroupId) (f : Group → Group) : (s.modGroup k f).timer = s.timer := by
  unfold State.modGroup; split <;> rfl
@[simp] theorem modGroup_devnum (s : State) (k : GroupId) (f : Group → Group) : (s.modGroup k f).devnum = s.devnum := by
  unfold State.modGroup; split <;> rfl
@[simp] theorem modGroup_devrdy (s : State) (k : GroupId) (f : Group → Group) : (s.modGroup k f).devrdy = s.devrdy := by
  unfold State.modGroup; split <;> rfl
@[simp] theorem modGroup_devfail (s : State) (k : GroupId) (f : Group → Group) : (s.modGroup k f).devfail = s.devfail := by
  unfold State.modGroup; split <;> rfl
@[simp] theorem modGroup_umaps (s : State) (k : GroupId) (f : Group → Group) : (s.modGroup k f).umaps = s.umaps := by
  unfold State.modGroup; split <;> rfl
@[simp] theorem modGroup_ports (s : State) (k : GroupId) (f : Group → Group) : (s.modGroup k f).ports = s.ports := by
  unfold State.modGroup; split <;> rfl
@[simp] theorem modGroup_replies (s : State) (k : GroupId) (f : Group → Group) : (s.modGroup k f).replies = s.replies := by
  unfold State.modGroup; split <;> rfl
@[simp] theorem modGroup_routes (s : State) (k : GroupId) (f : Group → Group) : (s.modGroup k f).routes = s.routes := by
  unfold State.modGroup; split <;> rfl
@[simp] theorem modGroup_heldReqs (s : State) (k : GroupId) (f : Group → Group) : (s.modGroup k f).heldReqs = s.heldReqs := by
  unfold State.modGroup; split <;> rfl
@[simp] theorem modGroup_hostMsgs (s : State) (k : GroupId) (f : Group → Group) : (s.modGroup k f).hostMsgs = s.hostMsgs := by
  unfold State.modGroup; split <;> rfl
@[simp] theorem modGroup_t95 (s : State) (k : GroupId) (f : Group → Group) : (s.modGroup k f).t95 = s.t95 := by
  unfold State.modGroup; split <;> rfl
@[simp] theorem modGroup_t102 (s : State) (k : GroupId) (f : Group → Group) : (s.modGroup k f).t102 = s.t102 := by
  unfold State.modGroup; split <;> rfl
@[simp] theorem modGroup_t108 (s : State) (k : GroupId) (f : Group → Group) : (s.modGroup k f).t108 = s.t108 := by
  unfold State.modGroup; split <;> rfl
@[simp] theorem modGroup_tripped (s : State) (k : GroupId) (f : Group → Group) : (s.modGroup k f).tripped = s.tripped := by
  unfold State.modGroup; split <;> rfl
@[simp] theorem modGroup_plat (s : State) (k : GroupId) (f : Group → Group) : (s.modGroup k f).plat = s.plat := by
  unfold State.modGroup; split <;> rfl
@[simp] theorem modGroup_ident (s : State) (k : GroupId) (f : Group → Group) : (s.modGroup k f).ident = s.ident := by
  unfold State.modGroup; split <;> rfl
@[simp] theorem modGroup_meas (s : State) (k : GroupId) (f : Group → Group) : (s.modGroup k f).meas = s.meas := by
  unfold State.modGroup; split <;> rfl
@[simp] theorem modGroup_reports (s : State) (k : GroupId) (f : Group → Group) : (s.modGroup k f).reports = s.reports := by
  unfold State.modGroup; split <;> rfl
@[simp] theorem modGroup_linked (s : State) (k : GroupId) (f : Group → Group) : (s.modGroup k f).linked = s.linked := by
  unfold State.modGroup; split <;> rfl
@[simp] theorem modGroup_qown (s : State) (k : GroupId) (f : Group → Group) : (s.modGroup k f).qown = s.qown := by
  unfold State.modGroup; split <;> rfl
@[simp] theorem modGroup_fwin (s : State) (k : GroupId) (f : Group → Group) : (s.modGroup k f).fwin = s.fwin := by
  unfold State.modGroup; split <;> rfl
@[simp] theorem modGroup_queues (s : State) (k : GroupId) (f : Group → Group) : (s.modGroup k f).queues = s.queues := by
  unfold State.modGroup; split <;> rfl
@[simp] theorem modGroup_quantum (s : State) (k : GroupId) (f : Group → Group) : (s.modGroup k f).quantum = s.quantum := by
  unfold State.modGroup; split <;> rfl
@[simp] theorem modGroup_nopromo (s : State) (k : GroupId) (f : Group → Group) : (s.modGroup k f).nopromo = s.nopromo := by
  unfold State.modGroup; split <;> rfl
@[simp] theorem modGroup_hquota (s : State) (k : GroupId) (f : Group → Group) : (s.modGroup k f).hquota = s.hquota := by
  unfold State.modGroup; split <;> rfl
@[simp] theorem modGroup_pdeadline (s : State) (k : GroupId) (f : Group → Group) : (s.modGroup k f).pdeadline = s.pdeadline := by
  unfold State.modGroup; split <;> rfl
@[simp] theorem modGroup_interval (s : State) (k : GroupId) (f : Group → Group) : (s.modGroup k f).interval = s.interval := by
  unfold State.modGroup; split <;> rfl
@[simp] theorem modGroup_ctlRaised (s : State) (k : GroupId) (f : Group → Group) : (s.modGroup k f).ctlRaised = s.ctlRaised := by
  unfold State.modGroup; split <;> rfl
@[simp] theorem modGroup_mailboxes (s : State) (k : GroupId) (f : Group → Group) : (s.modGroup k f).mailboxes = s.mailboxes := by
  unfold State.modGroup; split <;> rfl
@[simp] theorem modGroup_irqs (s : State) (k : GroupId) (f : Group → Group) : (s.modGroup k f).irqs = s.irqs := by
  unfold State.modGroup; split <;> rfl
@[simp] theorem modGroup_hostReply (s : State) (k : GroupId) (f : Group → Group) : (s.modGroup k f).hostReply = s.hostReply := by
  unfold State.modGroup; split <;> rfl
@[simp] theorem modGroup_callReply (s : State) (k : GroupId) (f : Group → Group) : (s.modGroup k f).callReply = s.callReply := by
  unfold State.modGroup; split <;> rfl
@[simp] theorem modGroup_contexts (s : State) (k : GroupId) (f : Group → Group) : (s.modGroup k f).contexts = s.contexts := by
  unfold State.modGroup; split <;> rfl
@[simp] theorem modGroup_dies (s : State) (k : GroupId) (f : Group → Group) : (s.modGroup k f).dies = s.dies := by
  unfold State.modGroup; split <;> rfl
@[simp] theorem modGroup_regions (s : State) (k : GroupId) (f : Group → Group) : (s.modGroup k f).regions = s.regions := by
  unfold State.modGroup; split <;> rfl
@[simp] theorem modGroup_cores (s : State) (k : GroupId) (f : Group → Group) : (s.modGroup k f).cores = s.cores := by
  unfold State.modGroup; split <;> rfl
@[simp] theorem modGroup_debugs (s : State) (k : GroupId) (f : Group → Group) : (s.modGroup k f).debugs = s.debugs := by
  unfold State.modGroup; split <;> rfl
@[simp] theorem modGroup_channels (s : State) (k : GroupId) (f : Group → Group) : (s.modGroup k f).channels = s.channels := by
  unfold State.modGroup; split <;> rfl
@[simp] theorem modGroup_reserves (s : State) (k : GroupId) (f : Group → Group) : (s.modGroup k f).reserves = s.reserves := by
  unfold State.modGroup; split <;> rfl
@[simp] theorem modGroup_nextGrid (s : State) (k : GroupId) (f : Group → Group) : (s.modGroup k f).nextGrid = s.nextGrid := by
  unfold State.modGroup; split <;> rfl
@[simp] theorem modGroup_grids (s : State) (k : GroupId) (f : Group → Group) : (s.modGroup k f).grids = s.grids := by
  unfold State.modGroup; split <;> rfl
@[simp] theorem modGroup_gangs (s : State) (k : GroupId) (f : Group → Group) : (s.modGroup k f).gangs = s.gangs := by
  unfold State.modGroup; split <;> rfl
@[simp] theorem modGroup_teams (s : State) (k : GroupId) (f : Group → Group) : (s.modGroup k f).teams = s.teams := by
  unfold State.modGroup; split <;> rfl
@[simp] theorem modGroup_seqs (s : State) (k : GroupId) (f : Group → Group) : (s.modGroup k f).seqs = s.seqs := by
  unfold State.modGroup; split <;> rfl
@[simp] theorem modGroup_builtins (s : State) (k : GroupId) (f : Group → Group) : (s.modGroup k f).builtins = s.builtins := by
  unfold State.modGroup; split <;> rfl
@[simp] theorem modGroup_mem (s : State) (k : GroupId) (f : Group → Group) : (s.modGroup k f).mem = s.mem := by
  unfold State.modGroup; split <;> rfl
@[simp] theorem modGroup_far (s : State) (k : GroupId) (f : Group → Group) : (s.modGroup k f).far = s.far := by
  unfold State.modGroup; split <;> rfl
@[simp] theorem modGroup_ledger (s : State) (k : GroupId) (f : Group → Group) : (s.modGroup k f).ledger = s.ledger := by
  unfold State.modGroup; split <;> rfl

@[simp] theorem modTeam_cur (s : State) (k : Nat × Nat × Nat) (f : Team → Team) : (s.modTeam k f).cur = s.cur := by
  unfold State.modTeam; split <;> rfl
@[simp] theorem modTeam_agenda (s : State) (k : Nat × Nat × Nat) (f : Team → Team) : (s.modTeam k f).agenda = s.agenda := by
  unfold State.modTeam; split <;> rfl
@[simp] theorem modTeam_sel (s : State) (k : Nat × Nat × Nat) (f : Team → Team) : (s.modTeam k f).sel = s.sel := by
  unfold State.modTeam; split <;> rfl
@[simp] theorem modTeam_steps (s : State) (k : Nat × Nat × Nat) (f : Team → Team) : (s.modTeam k f).steps = s.steps := by
  unfold State.modTeam; split <;> rfl
@[simp] theorem modTeam_free (s : State) (k : Nat × Nat × Nat) (f : Team → Team) : (s.modTeam k f).free = s.free := by
  unfold State.modTeam; split <;> rfl
@[simp] theorem modTeam_timer (s : State) (k : Nat × Nat × Nat) (f : Team → Team) : (s.modTeam k f).timer = s.timer := by
  unfold State.modTeam; split <;> rfl
@[simp] theorem modTeam_devnum (s : State) (k : Nat × Nat × Nat) (f : Team → Team) : (s.modTeam k f).devnum = s.devnum := by
  unfold State.modTeam; split <;> rfl
@[simp] theorem modTeam_devrdy (s : State) (k : Nat × Nat × Nat) (f : Team → Team) : (s.modTeam k f).devrdy = s.devrdy := by
  unfold State.modTeam; split <;> rfl
@[simp] theorem modTeam_devfail (s : State) (k : Nat × Nat × Nat) (f : Team → Team) : (s.modTeam k f).devfail = s.devfail := by
  unfold State.modTeam; split <;> rfl
@[simp] theorem modTeam_umaps (s : State) (k : Nat × Nat × Nat) (f : Team → Team) : (s.modTeam k f).umaps = s.umaps := by
  unfold State.modTeam; split <;> rfl
@[simp] theorem modTeam_ports (s : State) (k : Nat × Nat × Nat) (f : Team → Team) : (s.modTeam k f).ports = s.ports := by
  unfold State.modTeam; split <;> rfl
@[simp] theorem modTeam_replies (s : State) (k : Nat × Nat × Nat) (f : Team → Team) : (s.modTeam k f).replies = s.replies := by
  unfold State.modTeam; split <;> rfl
@[simp] theorem modTeam_routes (s : State) (k : Nat × Nat × Nat) (f : Team → Team) : (s.modTeam k f).routes = s.routes := by
  unfold State.modTeam; split <;> rfl
@[simp] theorem modTeam_heldReqs (s : State) (k : Nat × Nat × Nat) (f : Team → Team) : (s.modTeam k f).heldReqs = s.heldReqs := by
  unfold State.modTeam; split <;> rfl
@[simp] theorem modTeam_hostMsgs (s : State) (k : Nat × Nat × Nat) (f : Team → Team) : (s.modTeam k f).hostMsgs = s.hostMsgs := by
  unfold State.modTeam; split <;> rfl
@[simp] theorem modTeam_t95 (s : State) (k : Nat × Nat × Nat) (f : Team → Team) : (s.modTeam k f).t95 = s.t95 := by
  unfold State.modTeam; split <;> rfl
@[simp] theorem modTeam_t102 (s : State) (k : Nat × Nat × Nat) (f : Team → Team) : (s.modTeam k f).t102 = s.t102 := by
  unfold State.modTeam; split <;> rfl
@[simp] theorem modTeam_t108 (s : State) (k : Nat × Nat × Nat) (f : Team → Team) : (s.modTeam k f).t108 = s.t108 := by
  unfold State.modTeam; split <;> rfl
@[simp] theorem modTeam_tripped (s : State) (k : Nat × Nat × Nat) (f : Team → Team) : (s.modTeam k f).tripped = s.tripped := by
  unfold State.modTeam; split <;> rfl
@[simp] theorem modTeam_plat (s : State) (k : Nat × Nat × Nat) (f : Team → Team) : (s.modTeam k f).plat = s.plat := by
  unfold State.modTeam; split <;> rfl
@[simp] theorem modTeam_ident (s : State) (k : Nat × Nat × Nat) (f : Team → Team) : (s.modTeam k f).ident = s.ident := by
  unfold State.modTeam; split <;> rfl
@[simp] theorem modTeam_meas (s : State) (k : Nat × Nat × Nat) (f : Team → Team) : (s.modTeam k f).meas = s.meas := by
  unfold State.modTeam; split <;> rfl
@[simp] theorem modTeam_reports (s : State) (k : Nat × Nat × Nat) (f : Team → Team) : (s.modTeam k f).reports = s.reports := by
  unfold State.modTeam; split <;> rfl
@[simp] theorem modTeam_linked (s : State) (k : Nat × Nat × Nat) (f : Team → Team) : (s.modTeam k f).linked = s.linked := by
  unfold State.modTeam; split <;> rfl
@[simp] theorem modTeam_qown (s : State) (k : Nat × Nat × Nat) (f : Team → Team) : (s.modTeam k f).qown = s.qown := by
  unfold State.modTeam; split <;> rfl
@[simp] theorem modTeam_fwin (s : State) (k : Nat × Nat × Nat) (f : Team → Team) : (s.modTeam k f).fwin = s.fwin := by
  unfold State.modTeam; split <;> rfl
@[simp] theorem modTeam_queues (s : State) (k : Nat × Nat × Nat) (f : Team → Team) : (s.modTeam k f).queues = s.queues := by
  unfold State.modTeam; split <;> rfl
@[simp] theorem modTeam_quantum (s : State) (k : Nat × Nat × Nat) (f : Team → Team) : (s.modTeam k f).quantum = s.quantum := by
  unfold State.modTeam; split <;> rfl
@[simp] theorem modTeam_nopromo (s : State) (k : Nat × Nat × Nat) (f : Team → Team) : (s.modTeam k f).nopromo = s.nopromo := by
  unfold State.modTeam; split <;> rfl
@[simp] theorem modTeam_hquota (s : State) (k : Nat × Nat × Nat) (f : Team → Team) : (s.modTeam k f).hquota = s.hquota := by
  unfold State.modTeam; split <;> rfl
@[simp] theorem modTeam_pdeadline (s : State) (k : Nat × Nat × Nat) (f : Team → Team) : (s.modTeam k f).pdeadline = s.pdeadline := by
  unfold State.modTeam; split <;> rfl
@[simp] theorem modTeam_interval (s : State) (k : Nat × Nat × Nat) (f : Team → Team) : (s.modTeam k f).interval = s.interval := by
  unfold State.modTeam; split <;> rfl
@[simp] theorem modTeam_ctlRaised (s : State) (k : Nat × Nat × Nat) (f : Team → Team) : (s.modTeam k f).ctlRaised = s.ctlRaised := by
  unfold State.modTeam; split <;> rfl
@[simp] theorem modTeam_mailboxes (s : State) (k : Nat × Nat × Nat) (f : Team → Team) : (s.modTeam k f).mailboxes = s.mailboxes := by
  unfold State.modTeam; split <;> rfl
@[simp] theorem modTeam_irqs (s : State) (k : Nat × Nat × Nat) (f : Team → Team) : (s.modTeam k f).irqs = s.irqs := by
  unfold State.modTeam; split <;> rfl
@[simp] theorem modTeam_hostReply (s : State) (k : Nat × Nat × Nat) (f : Team → Team) : (s.modTeam k f).hostReply = s.hostReply := by
  unfold State.modTeam; split <;> rfl
@[simp] theorem modTeam_callReply (s : State) (k : Nat × Nat × Nat) (f : Team → Team) : (s.modTeam k f).callReply = s.callReply := by
  unfold State.modTeam; split <;> rfl
@[simp] theorem modTeam_contexts (s : State) (k : Nat × Nat × Nat) (f : Team → Team) : (s.modTeam k f).contexts = s.contexts := by
  unfold State.modTeam; split <;> rfl
@[simp] theorem modTeam_dies (s : State) (k : Nat × Nat × Nat) (f : Team → Team) : (s.modTeam k f).dies = s.dies := by
  unfold State.modTeam; split <;> rfl
@[simp] theorem modTeam_regions (s : State) (k : Nat × Nat × Nat) (f : Team → Team) : (s.modTeam k f).regions = s.regions := by
  unfold State.modTeam; split <;> rfl
@[simp] theorem modTeam_cores (s : State) (k : Nat × Nat × Nat) (f : Team → Team) : (s.modTeam k f).cores = s.cores := by
  unfold State.modTeam; split <;> rfl
@[simp] theorem modTeam_debugs (s : State) (k : Nat × Nat × Nat) (f : Team → Team) : (s.modTeam k f).debugs = s.debugs := by
  unfold State.modTeam; split <;> rfl
@[simp] theorem modTeam_channels (s : State) (k : Nat × Nat × Nat) (f : Team → Team) : (s.modTeam k f).channels = s.channels := by
  unfold State.modTeam; split <;> rfl
@[simp] theorem modTeam_reserves (s : State) (k : Nat × Nat × Nat) (f : Team → Team) : (s.modTeam k f).reserves = s.reserves := by
  unfold State.modTeam; split <;> rfl
@[simp] theorem modTeam_nextGrid (s : State) (k : Nat × Nat × Nat) (f : Team → Team) : (s.modTeam k f).nextGrid = s.nextGrid := by
  unfold State.modTeam; split <;> rfl
@[simp] theorem modTeam_grids (s : State) (k : Nat × Nat × Nat) (f : Team → Team) : (s.modTeam k f).grids = s.grids := by
  unfold State.modTeam; split <;> rfl
@[simp] theorem modTeam_gangs (s : State) (k : Nat × Nat × Nat) (f : Team → Team) : (s.modTeam k f).gangs = s.gangs := by
  unfold State.modTeam; split <;> rfl
@[simp] theorem modTeam_groups (s : State) (k : Nat × Nat × Nat) (f : Team → Team) : (s.modTeam k f).groups = s.groups := by
  unfold State.modTeam; split <;> rfl
@[simp] theorem modTeam_seqs (s : State) (k : Nat × Nat × Nat) (f : Team → Team) : (s.modTeam k f).seqs = s.seqs := by
  unfold State.modTeam; split <;> rfl
@[simp] theorem modTeam_builtins (s : State) (k : Nat × Nat × Nat) (f : Team → Team) : (s.modTeam k f).builtins = s.builtins := by
  unfold State.modTeam; split <;> rfl
@[simp] theorem modTeam_mem (s : State) (k : Nat × Nat × Nat) (f : Team → Team) : (s.modTeam k f).mem = s.mem := by
  unfold State.modTeam; split <;> rfl
@[simp] theorem modTeam_far (s : State) (k : Nat × Nat × Nat) (f : Team → Team) : (s.modTeam k f).far = s.far := by
  unfold State.modTeam; split <;> rfl
@[simp] theorem modTeam_ledger (s : State) (k : Nat × Nat × Nat) (f : Team → Team) : (s.modTeam k f).ledger = s.ledger := by
  unfold State.modTeam; split <;> rfl

@[simp] theorem modGrid_cur (s : State) (k : Nat) (f : Grid → Grid) : (s.modGrid k f).cur = s.cur := by
  unfold State.modGrid; split <;> rfl
@[simp] theorem modGrid_agenda (s : State) (k : Nat) (f : Grid → Grid) : (s.modGrid k f).agenda = s.agenda := by
  unfold State.modGrid; split <;> rfl
@[simp] theorem modGrid_sel (s : State) (k : Nat) (f : Grid → Grid) : (s.modGrid k f).sel = s.sel := by
  unfold State.modGrid; split <;> rfl
@[simp] theorem modGrid_steps (s : State) (k : Nat) (f : Grid → Grid) : (s.modGrid k f).steps = s.steps := by
  unfold State.modGrid; split <;> rfl
@[simp] theorem modGrid_free (s : State) (k : Nat) (f : Grid → Grid) : (s.modGrid k f).free = s.free := by
  unfold State.modGrid; split <;> rfl
@[simp] theorem modGrid_timer (s : State) (k : Nat) (f : Grid → Grid) : (s.modGrid k f).timer = s.timer := by
  unfold State.modGrid; split <;> rfl
@[simp] theorem modGrid_devnum (s : State) (k : Nat) (f : Grid → Grid) : (s.modGrid k f).devnum = s.devnum := by
  unfold State.modGrid; split <;> rfl
@[simp] theorem modGrid_devrdy (s : State) (k : Nat) (f : Grid → Grid) : (s.modGrid k f).devrdy = s.devrdy := by
  unfold State.modGrid; split <;> rfl
@[simp] theorem modGrid_devfail (s : State) (k : Nat) (f : Grid → Grid) : (s.modGrid k f).devfail = s.devfail := by
  unfold State.modGrid; split <;> rfl
@[simp] theorem modGrid_umaps (s : State) (k : Nat) (f : Grid → Grid) : (s.modGrid k f).umaps = s.umaps := by
  unfold State.modGrid; split <;> rfl
@[simp] theorem modGrid_ports (s : State) (k : Nat) (f : Grid → Grid) : (s.modGrid k f).ports = s.ports := by
  unfold State.modGrid; split <;> rfl
@[simp] theorem modGrid_replies (s : State) (k : Nat) (f : Grid → Grid) : (s.modGrid k f).replies = s.replies := by
  unfold State.modGrid; split <;> rfl
@[simp] theorem modGrid_routes (s : State) (k : Nat) (f : Grid → Grid) : (s.modGrid k f).routes = s.routes := by
  unfold State.modGrid; split <;> rfl
@[simp] theorem modGrid_heldReqs (s : State) (k : Nat) (f : Grid → Grid) : (s.modGrid k f).heldReqs = s.heldReqs := by
  unfold State.modGrid; split <;> rfl
@[simp] theorem modGrid_hostMsgs (s : State) (k : Nat) (f : Grid → Grid) : (s.modGrid k f).hostMsgs = s.hostMsgs := by
  unfold State.modGrid; split <;> rfl
@[simp] theorem modGrid_t95 (s : State) (k : Nat) (f : Grid → Grid) : (s.modGrid k f).t95 = s.t95 := by
  unfold State.modGrid; split <;> rfl
@[simp] theorem modGrid_t102 (s : State) (k : Nat) (f : Grid → Grid) : (s.modGrid k f).t102 = s.t102 := by
  unfold State.modGrid; split <;> rfl
@[simp] theorem modGrid_t108 (s : State) (k : Nat) (f : Grid → Grid) : (s.modGrid k f).t108 = s.t108 := by
  unfold State.modGrid; split <;> rfl
@[simp] theorem modGrid_tripped (s : State) (k : Nat) (f : Grid → Grid) : (s.modGrid k f).tripped = s.tripped := by
  unfold State.modGrid; split <;> rfl
@[simp] theorem modGrid_plat (s : State) (k : Nat) (f : Grid → Grid) : (s.modGrid k f).plat = s.plat := by
  unfold State.modGrid; split <;> rfl
@[simp] theorem modGrid_ident (s : State) (k : Nat) (f : Grid → Grid) : (s.modGrid k f).ident = s.ident := by
  unfold State.modGrid; split <;> rfl
@[simp] theorem modGrid_meas (s : State) (k : Nat) (f : Grid → Grid) : (s.modGrid k f).meas = s.meas := by
  unfold State.modGrid; split <;> rfl
@[simp] theorem modGrid_reports (s : State) (k : Nat) (f : Grid → Grid) : (s.modGrid k f).reports = s.reports := by
  unfold State.modGrid; split <;> rfl
@[simp] theorem modGrid_linked (s : State) (k : Nat) (f : Grid → Grid) : (s.modGrid k f).linked = s.linked := by
  unfold State.modGrid; split <;> rfl
@[simp] theorem modGrid_qown (s : State) (k : Nat) (f : Grid → Grid) : (s.modGrid k f).qown = s.qown := by
  unfold State.modGrid; split <;> rfl
@[simp] theorem modGrid_fwin (s : State) (k : Nat) (f : Grid → Grid) : (s.modGrid k f).fwin = s.fwin := by
  unfold State.modGrid; split <;> rfl
@[simp] theorem modGrid_queues (s : State) (k : Nat) (f : Grid → Grid) : (s.modGrid k f).queues = s.queues := by
  unfold State.modGrid; split <;> rfl
@[simp] theorem modGrid_quantum (s : State) (k : Nat) (f : Grid → Grid) : (s.modGrid k f).quantum = s.quantum := by
  unfold State.modGrid; split <;> rfl
@[simp] theorem modGrid_nopromo (s : State) (k : Nat) (f : Grid → Grid) : (s.modGrid k f).nopromo = s.nopromo := by
  unfold State.modGrid; split <;> rfl
@[simp] theorem modGrid_hquota (s : State) (k : Nat) (f : Grid → Grid) : (s.modGrid k f).hquota = s.hquota := by
  unfold State.modGrid; split <;> rfl
@[simp] theorem modGrid_pdeadline (s : State) (k : Nat) (f : Grid → Grid) : (s.modGrid k f).pdeadline = s.pdeadline := by
  unfold State.modGrid; split <;> rfl
@[simp] theorem modGrid_interval (s : State) (k : Nat) (f : Grid → Grid) : (s.modGrid k f).interval = s.interval := by
  unfold State.modGrid; split <;> rfl
@[simp] theorem modGrid_ctlRaised (s : State) (k : Nat) (f : Grid → Grid) : (s.modGrid k f).ctlRaised = s.ctlRaised := by
  unfold State.modGrid; split <;> rfl
@[simp] theorem modGrid_mailboxes (s : State) (k : Nat) (f : Grid → Grid) : (s.modGrid k f).mailboxes = s.mailboxes := by
  unfold State.modGrid; split <;> rfl
@[simp] theorem modGrid_irqs (s : State) (k : Nat) (f : Grid → Grid) : (s.modGrid k f).irqs = s.irqs := by
  unfold State.modGrid; split <;> rfl
@[simp] theorem modGrid_hostReply (s : State) (k : Nat) (f : Grid → Grid) : (s.modGrid k f).hostReply = s.hostReply := by
  unfold State.modGrid; split <;> rfl
@[simp] theorem modGrid_callReply (s : State) (k : Nat) (f : Grid → Grid) : (s.modGrid k f).callReply = s.callReply := by
  unfold State.modGrid; split <;> rfl
@[simp] theorem modGrid_contexts (s : State) (k : Nat) (f : Grid → Grid) : (s.modGrid k f).contexts = s.contexts := by
  unfold State.modGrid; split <;> rfl
@[simp] theorem modGrid_dies (s : State) (k : Nat) (f : Grid → Grid) : (s.modGrid k f).dies = s.dies := by
  unfold State.modGrid; split <;> rfl
@[simp] theorem modGrid_regions (s : State) (k : Nat) (f : Grid → Grid) : (s.modGrid k f).regions = s.regions := by
  unfold State.modGrid; split <;> rfl
@[simp] theorem modGrid_cores (s : State) (k : Nat) (f : Grid → Grid) : (s.modGrid k f).cores = s.cores := by
  unfold State.modGrid; split <;> rfl
@[simp] theorem modGrid_debugs (s : State) (k : Nat) (f : Grid → Grid) : (s.modGrid k f).debugs = s.debugs := by
  unfold State.modGrid; split <;> rfl
@[simp] theorem modGrid_channels (s : State) (k : Nat) (f : Grid → Grid) : (s.modGrid k f).channels = s.channels := by
  unfold State.modGrid; split <;> rfl
@[simp] theorem modGrid_reserves (s : State) (k : Nat) (f : Grid → Grid) : (s.modGrid k f).reserves = s.reserves := by
  unfold State.modGrid; split <;> rfl
@[simp] theorem modGrid_nextGrid (s : State) (k : Nat) (f : Grid → Grid) : (s.modGrid k f).nextGrid = s.nextGrid := by
  unfold State.modGrid; split <;> rfl
@[simp] theorem modGrid_gangs (s : State) (k : Nat) (f : Grid → Grid) : (s.modGrid k f).gangs = s.gangs := by
  unfold State.modGrid; split <;> rfl
@[simp] theorem modGrid_teams (s : State) (k : Nat) (f : Grid → Grid) : (s.modGrid k f).teams = s.teams := by
  unfold State.modGrid; split <;> rfl
@[simp] theorem modGrid_groups (s : State) (k : Nat) (f : Grid → Grid) : (s.modGrid k f).groups = s.groups := by
  unfold State.modGrid; split <;> rfl
@[simp] theorem modGrid_seqs (s : State) (k : Nat) (f : Grid → Grid) : (s.modGrid k f).seqs = s.seqs := by
  unfold State.modGrid; split <;> rfl
@[simp] theorem modGrid_builtins (s : State) (k : Nat) (f : Grid → Grid) : (s.modGrid k f).builtins = s.builtins := by
  unfold State.modGrid; split <;> rfl
@[simp] theorem modGrid_mem (s : State) (k : Nat) (f : Grid → Grid) : (s.modGrid k f).mem = s.mem := by
  unfold State.modGrid; split <;> rfl
@[simp] theorem modGrid_far (s : State) (k : Nat) (f : Grid → Grid) : (s.modGrid k f).far = s.far := by
  unfold State.modGrid; split <;> rfl
@[simp] theorem modGrid_ledger (s : State) (k : Nat) (f : Grid → Grid) : (s.modGrid k f).ledger = s.ledger := by
  unfold State.modGrid; split <;> rfl

@[simp] theorem modSeq_cur (s : State) (k : SeqId) (f : Seq → Seq) : (s.modSeq k f).cur = s.cur := by
  unfold State.modSeq; split <;> rfl
@[simp] theorem modSeq_agenda (s : State) (k : SeqId) (f : Seq → Seq) : (s.modSeq k f).agenda = s.agenda := by
  unfold State.modSeq; split <;> rfl
@[simp] theorem modSeq_sel (s : State) (k : SeqId) (f : Seq → Seq) : (s.modSeq k f).sel = s.sel := by
  unfold State.modSeq; split <;> rfl
@[simp] theorem modSeq_steps (s : State) (k : SeqId) (f : Seq → Seq) : (s.modSeq k f).steps = s.steps := by
  unfold State.modSeq; split <;> rfl
@[simp] theorem modSeq_free (s : State) (k : SeqId) (f : Seq → Seq) : (s.modSeq k f).free = s.free := by
  unfold State.modSeq; split <;> rfl
@[simp] theorem modSeq_timer (s : State) (k : SeqId) (f : Seq → Seq) : (s.modSeq k f).timer = s.timer := by
  unfold State.modSeq; split <;> rfl
@[simp] theorem modSeq_devnum (s : State) (k : SeqId) (f : Seq → Seq) : (s.modSeq k f).devnum = s.devnum := by
  unfold State.modSeq; split <;> rfl
@[simp] theorem modSeq_devrdy (s : State) (k : SeqId) (f : Seq → Seq) : (s.modSeq k f).devrdy = s.devrdy := by
  unfold State.modSeq; split <;> rfl
@[simp] theorem modSeq_devfail (s : State) (k : SeqId) (f : Seq → Seq) : (s.modSeq k f).devfail = s.devfail := by
  unfold State.modSeq; split <;> rfl
@[simp] theorem modSeq_umaps (s : State) (k : SeqId) (f : Seq → Seq) : (s.modSeq k f).umaps = s.umaps := by
  unfold State.modSeq; split <;> rfl
@[simp] theorem modSeq_ports (s : State) (k : SeqId) (f : Seq → Seq) : (s.modSeq k f).ports = s.ports := by
  unfold State.modSeq; split <;> rfl
@[simp] theorem modSeq_replies (s : State) (k : SeqId) (f : Seq → Seq) : (s.modSeq k f).replies = s.replies := by
  unfold State.modSeq; split <;> rfl
@[simp] theorem modSeq_routes (s : State) (k : SeqId) (f : Seq → Seq) : (s.modSeq k f).routes = s.routes := by
  unfold State.modSeq; split <;> rfl
@[simp] theorem modSeq_heldReqs (s : State) (k : SeqId) (f : Seq → Seq) : (s.modSeq k f).heldReqs = s.heldReqs := by
  unfold State.modSeq; split <;> rfl
@[simp] theorem modSeq_hostMsgs (s : State) (k : SeqId) (f : Seq → Seq) : (s.modSeq k f).hostMsgs = s.hostMsgs := by
  unfold State.modSeq; split <;> rfl
@[simp] theorem modSeq_t95 (s : State) (k : SeqId) (f : Seq → Seq) : (s.modSeq k f).t95 = s.t95 := by
  unfold State.modSeq; split <;> rfl
@[simp] theorem modSeq_t102 (s : State) (k : SeqId) (f : Seq → Seq) : (s.modSeq k f).t102 = s.t102 := by
  unfold State.modSeq; split <;> rfl
@[simp] theorem modSeq_t108 (s : State) (k : SeqId) (f : Seq → Seq) : (s.modSeq k f).t108 = s.t108 := by
  unfold State.modSeq; split <;> rfl
@[simp] theorem modSeq_tripped (s : State) (k : SeqId) (f : Seq → Seq) : (s.modSeq k f).tripped = s.tripped := by
  unfold State.modSeq; split <;> rfl
@[simp] theorem modSeq_plat (s : State) (k : SeqId) (f : Seq → Seq) : (s.modSeq k f).plat = s.plat := by
  unfold State.modSeq; split <;> rfl
@[simp] theorem modSeq_ident (s : State) (k : SeqId) (f : Seq → Seq) : (s.modSeq k f).ident = s.ident := by
  unfold State.modSeq; split <;> rfl
@[simp] theorem modSeq_meas (s : State) (k : SeqId) (f : Seq → Seq) : (s.modSeq k f).meas = s.meas := by
  unfold State.modSeq; split <;> rfl
@[simp] theorem modSeq_reports (s : State) (k : SeqId) (f : Seq → Seq) : (s.modSeq k f).reports = s.reports := by
  unfold State.modSeq; split <;> rfl
@[simp] theorem modSeq_linked (s : State) (k : SeqId) (f : Seq → Seq) : (s.modSeq k f).linked = s.linked := by
  unfold State.modSeq; split <;> rfl
@[simp] theorem modSeq_qown (s : State) (k : SeqId) (f : Seq → Seq) : (s.modSeq k f).qown = s.qown := by
  unfold State.modSeq; split <;> rfl
@[simp] theorem modSeq_fwin (s : State) (k : SeqId) (f : Seq → Seq) : (s.modSeq k f).fwin = s.fwin := by
  unfold State.modSeq; split <;> rfl
@[simp] theorem modSeq_queues (s : State) (k : SeqId) (f : Seq → Seq) : (s.modSeq k f).queues = s.queues := by
  unfold State.modSeq; split <;> rfl
@[simp] theorem modSeq_quantum (s : State) (k : SeqId) (f : Seq → Seq) : (s.modSeq k f).quantum = s.quantum := by
  unfold State.modSeq; split <;> rfl
@[simp] theorem modSeq_nopromo (s : State) (k : SeqId) (f : Seq → Seq) : (s.modSeq k f).nopromo = s.nopromo := by
  unfold State.modSeq; split <;> rfl
@[simp] theorem modSeq_hquota (s : State) (k : SeqId) (f : Seq → Seq) : (s.modSeq k f).hquota = s.hquota := by
  unfold State.modSeq; split <;> rfl
@[simp] theorem modSeq_pdeadline (s : State) (k : SeqId) (f : Seq → Seq) : (s.modSeq k f).pdeadline = s.pdeadline := by
  unfold State.modSeq; split <;> rfl
@[simp] theorem modSeq_interval (s : State) (k : SeqId) (f : Seq → Seq) : (s.modSeq k f).interval = s.interval := by
  unfold State.modSeq; split <;> rfl
@[simp] theorem modSeq_ctlRaised (s : State) (k : SeqId) (f : Seq → Seq) : (s.modSeq k f).ctlRaised = s.ctlRaised := by
  unfold State.modSeq; split <;> rfl
@[simp] theorem modSeq_mailboxes (s : State) (k : SeqId) (f : Seq → Seq) : (s.modSeq k f).mailboxes = s.mailboxes := by
  unfold State.modSeq; split <;> rfl
@[simp] theorem modSeq_irqs (s : State) (k : SeqId) (f : Seq → Seq) : (s.modSeq k f).irqs = s.irqs := by
  unfold State.modSeq; split <;> rfl
@[simp] theorem modSeq_hostReply (s : State) (k : SeqId) (f : Seq → Seq) : (s.modSeq k f).hostReply = s.hostReply := by
  unfold State.modSeq; split <;> rfl
@[simp] theorem modSeq_callReply (s : State) (k : SeqId) (f : Seq → Seq) : (s.modSeq k f).callReply = s.callReply := by
  unfold State.modSeq; split <;> rfl
@[simp] theorem modSeq_contexts (s : State) (k : SeqId) (f : Seq → Seq) : (s.modSeq k f).contexts = s.contexts := by
  unfold State.modSeq; split <;> rfl
@[simp] theorem modSeq_dies (s : State) (k : SeqId) (f : Seq → Seq) : (s.modSeq k f).dies = s.dies := by
  unfold State.modSeq; split <;> rfl
@[simp] theorem modSeq_regions (s : State) (k : SeqId) (f : Seq → Seq) : (s.modSeq k f).regions = s.regions := by
  unfold State.modSeq; split <;> rfl
@[simp] theorem modSeq_cores (s : State) (k : SeqId) (f : Seq → Seq) : (s.modSeq k f).cores = s.cores := by
  unfold State.modSeq; split <;> rfl
@[simp] theorem modSeq_debugs (s : State) (k : SeqId) (f : Seq → Seq) : (s.modSeq k f).debugs = s.debugs := by
  unfold State.modSeq; split <;> rfl
@[simp] theorem modSeq_channels (s : State) (k : SeqId) (f : Seq → Seq) : (s.modSeq k f).channels = s.channels := by
  unfold State.modSeq; split <;> rfl
@[simp] theorem modSeq_reserves (s : State) (k : SeqId) (f : Seq → Seq) : (s.modSeq k f).reserves = s.reserves := by
  unfold State.modSeq; split <;> rfl
@[simp] theorem modSeq_nextGrid (s : State) (k : SeqId) (f : Seq → Seq) : (s.modSeq k f).nextGrid = s.nextGrid := by
  unfold State.modSeq; split <;> rfl
@[simp] theorem modSeq_grids (s : State) (k : SeqId) (f : Seq → Seq) : (s.modSeq k f).grids = s.grids := by
  unfold State.modSeq; split <;> rfl
@[simp] theorem modSeq_gangs (s : State) (k : SeqId) (f : Seq → Seq) : (s.modSeq k f).gangs = s.gangs := by
  unfold State.modSeq; split <;> rfl
@[simp] theorem modSeq_teams (s : State) (k : SeqId) (f : Seq → Seq) : (s.modSeq k f).teams = s.teams := by
  unfold State.modSeq; split <;> rfl
@[simp] theorem modSeq_groups (s : State) (k : SeqId) (f : Seq → Seq) : (s.modSeq k f).groups = s.groups := by
  unfold State.modSeq; split <;> rfl
@[simp] theorem modSeq_builtins (s : State) (k : SeqId) (f : Seq → Seq) : (s.modSeq k f).builtins = s.builtins := by
  unfold State.modSeq; split <;> rfl
@[simp] theorem modSeq_mem (s : State) (k : SeqId) (f : Seq → Seq) : (s.modSeq k f).mem = s.mem := by
  unfold State.modSeq; split <;> rfl
@[simp] theorem modSeq_far (s : State) (k : SeqId) (f : Seq → Seq) : (s.modSeq k f).far = s.far := by
  unfold State.modSeq; split <;> rfl
@[simp] theorem modSeq_ledger (s : State) (k : SeqId) (f : Seq → Seq) : (s.modSeq k f).ledger = s.ledger := by
  unfold State.modSeq; split <;> rfl

@[simp] theorem modCtx_cur (s : State) (k : Nat) (f : Context → Context) : (s.modCtx k f).cur = s.cur := by
  unfold State.modCtx; split <;> rfl
@[simp] theorem modCtx_agenda (s : State) (k : Nat) (f : Context → Context) : (s.modCtx k f).agenda = s.agenda := by
  unfold State.modCtx; split <;> rfl
@[simp] theorem modCtx_sel (s : State) (k : Nat) (f : Context → Context) : (s.modCtx k f).sel = s.sel := by
  unfold State.modCtx; split <;> rfl
@[simp] theorem modCtx_steps (s : State) (k : Nat) (f : Context → Context) : (s.modCtx k f).steps = s.steps := by
  unfold State.modCtx; split <;> rfl
@[simp] theorem modCtx_free (s : State) (k : Nat) (f : Context → Context) : (s.modCtx k f).free = s.free := by
  unfold State.modCtx; split <;> rfl
@[simp] theorem modCtx_timer (s : State) (k : Nat) (f : Context → Context) : (s.modCtx k f).timer = s.timer := by
  unfold State.modCtx; split <;> rfl
@[simp] theorem modCtx_devnum (s : State) (k : Nat) (f : Context → Context) : (s.modCtx k f).devnum = s.devnum := by
  unfold State.modCtx; split <;> rfl
@[simp] theorem modCtx_devrdy (s : State) (k : Nat) (f : Context → Context) : (s.modCtx k f).devrdy = s.devrdy := by
  unfold State.modCtx; split <;> rfl
@[simp] theorem modCtx_devfail (s : State) (k : Nat) (f : Context → Context) : (s.modCtx k f).devfail = s.devfail := by
  unfold State.modCtx; split <;> rfl
@[simp] theorem modCtx_umaps (s : State) (k : Nat) (f : Context → Context) : (s.modCtx k f).umaps = s.umaps := by
  unfold State.modCtx; split <;> rfl
@[simp] theorem modCtx_ports (s : State) (k : Nat) (f : Context → Context) : (s.modCtx k f).ports = s.ports := by
  unfold State.modCtx; split <;> rfl
@[simp] theorem modCtx_replies (s : State) (k : Nat) (f : Context → Context) : (s.modCtx k f).replies = s.replies := by
  unfold State.modCtx; split <;> rfl
@[simp] theorem modCtx_routes (s : State) (k : Nat) (f : Context → Context) : (s.modCtx k f).routes = s.routes := by
  unfold State.modCtx; split <;> rfl
@[simp] theorem modCtx_heldReqs (s : State) (k : Nat) (f : Context → Context) : (s.modCtx k f).heldReqs = s.heldReqs := by
  unfold State.modCtx; split <;> rfl
@[simp] theorem modCtx_hostMsgs (s : State) (k : Nat) (f : Context → Context) : (s.modCtx k f).hostMsgs = s.hostMsgs := by
  unfold State.modCtx; split <;> rfl
@[simp] theorem modCtx_t95 (s : State) (k : Nat) (f : Context → Context) : (s.modCtx k f).t95 = s.t95 := by
  unfold State.modCtx; split <;> rfl
@[simp] theorem modCtx_t102 (s : State) (k : Nat) (f : Context → Context) : (s.modCtx k f).t102 = s.t102 := by
  unfold State.modCtx; split <;> rfl
@[simp] theorem modCtx_t108 (s : State) (k : Nat) (f : Context → Context) : (s.modCtx k f).t108 = s.t108 := by
  unfold State.modCtx; split <;> rfl
@[simp] theorem modCtx_tripped (s : State) (k : Nat) (f : Context → Context) : (s.modCtx k f).tripped = s.tripped := by
  unfold State.modCtx; split <;> rfl
@[simp] theorem modCtx_plat (s : State) (k : Nat) (f : Context → Context) : (s.modCtx k f).plat = s.plat := by
  unfold State.modCtx; split <;> rfl
@[simp] theorem modCtx_ident (s : State) (k : Nat) (f : Context → Context) : (s.modCtx k f).ident = s.ident := by
  unfold State.modCtx; split <;> rfl
@[simp] theorem modCtx_meas (s : State) (k : Nat) (f : Context → Context) : (s.modCtx k f).meas = s.meas := by
  unfold State.modCtx; split <;> rfl
@[simp] theorem modCtx_reports (s : State) (k : Nat) (f : Context → Context) : (s.modCtx k f).reports = s.reports := by
  unfold State.modCtx; split <;> rfl
@[simp] theorem modCtx_linked (s : State) (k : Nat) (f : Context → Context) : (s.modCtx k f).linked = s.linked := by
  unfold State.modCtx; split <;> rfl
@[simp] theorem modCtx_qown (s : State) (k : Nat) (f : Context → Context) : (s.modCtx k f).qown = s.qown := by
  unfold State.modCtx; split <;> rfl
@[simp] theorem modCtx_fwin (s : State) (k : Nat) (f : Context → Context) : (s.modCtx k f).fwin = s.fwin := by
  unfold State.modCtx; split <;> rfl
@[simp] theorem modCtx_queues (s : State) (k : Nat) (f : Context → Context) : (s.modCtx k f).queues = s.queues := by
  unfold State.modCtx; split <;> rfl
@[simp] theorem modCtx_quantum (s : State) (k : Nat) (f : Context → Context) : (s.modCtx k f).quantum = s.quantum := by
  unfold State.modCtx; split <;> rfl
@[simp] theorem modCtx_nopromo (s : State) (k : Nat) (f : Context → Context) : (s.modCtx k f).nopromo = s.nopromo := by
  unfold State.modCtx; split <;> rfl
@[simp] theorem modCtx_hquota (s : State) (k : Nat) (f : Context → Context) : (s.modCtx k f).hquota = s.hquota := by
  unfold State.modCtx; split <;> rfl
@[simp] theorem modCtx_pdeadline (s : State) (k : Nat) (f : Context → Context) : (s.modCtx k f).pdeadline = s.pdeadline := by
  unfold State.modCtx; split <;> rfl
@[simp] theorem modCtx_interval (s : State) (k : Nat) (f : Context → Context) : (s.modCtx k f).interval = s.interval := by
  unfold State.modCtx; split <;> rfl
@[simp] theorem modCtx_ctlRaised (s : State) (k : Nat) (f : Context → Context) : (s.modCtx k f).ctlRaised = s.ctlRaised := by
  unfold State.modCtx; split <;> rfl
@[simp] theorem modCtx_mailboxes (s : State) (k : Nat) (f : Context → Context) : (s.modCtx k f).mailboxes = s.mailboxes := by
  unfold State.modCtx; split <;> rfl
@[simp] theorem modCtx_irqs (s : State) (k : Nat) (f : Context → Context) : (s.modCtx k f).irqs = s.irqs := by
  unfold State.modCtx; split <;> rfl
@[simp] theorem modCtx_hostReply (s : State) (k : Nat) (f : Context → Context) : (s.modCtx k f).hostReply = s.hostReply := by
  unfold State.modCtx; split <;> rfl
@[simp] theorem modCtx_callReply (s : State) (k : Nat) (f : Context → Context) : (s.modCtx k f).callReply = s.callReply := by
  unfold State.modCtx; split <;> rfl
@[simp] theorem modCtx_dies (s : State) (k : Nat) (f : Context → Context) : (s.modCtx k f).dies = s.dies := by
  unfold State.modCtx; split <;> rfl
@[simp] theorem modCtx_regions (s : State) (k : Nat) (f : Context → Context) : (s.modCtx k f).regions = s.regions := by
  unfold State.modCtx; split <;> rfl
@[simp] theorem modCtx_cores (s : State) (k : Nat) (f : Context → Context) : (s.modCtx k f).cores = s.cores := by
  unfold State.modCtx; split <;> rfl
@[simp] theorem modCtx_debugs (s : State) (k : Nat) (f : Context → Context) : (s.modCtx k f).debugs = s.debugs := by
  unfold State.modCtx; split <;> rfl
@[simp] theorem modCtx_channels (s : State) (k : Nat) (f : Context → Context) : (s.modCtx k f).channels = s.channels := by
  unfold State.modCtx; split <;> rfl
@[simp] theorem modCtx_reserves (s : State) (k : Nat) (f : Context → Context) : (s.modCtx k f).reserves = s.reserves := by
  unfold State.modCtx; split <;> rfl
@[simp] theorem modCtx_nextGrid (s : State) (k : Nat) (f : Context → Context) : (s.modCtx k f).nextGrid = s.nextGrid := by
  unfold State.modCtx; split <;> rfl
@[simp] theorem modCtx_grids (s : State) (k : Nat) (f : Context → Context) : (s.modCtx k f).grids = s.grids := by
  unfold State.modCtx; split <;> rfl
@[simp] theorem modCtx_gangs (s : State) (k : Nat) (f : Context → Context) : (s.modCtx k f).gangs = s.gangs := by
  unfold State.modCtx; split <;> rfl
@[simp] theorem modCtx_teams (s : State) (k : Nat) (f : Context → Context) : (s.modCtx k f).teams = s.teams := by
  unfold State.modCtx; split <;> rfl
@[simp] theorem modCtx_groups (s : State) (k : Nat) (f : Context → Context) : (s.modCtx k f).groups = s.groups := by
  unfold State.modCtx; split <;> rfl
@[simp] theorem modCtx_seqs (s : State) (k : Nat) (f : Context → Context) : (s.modCtx k f).seqs = s.seqs := by
  unfold State.modCtx; split <;> rfl
@[simp] theorem modCtx_builtins (s : State) (k : Nat) (f : Context → Context) : (s.modCtx k f).builtins = s.builtins := by
  unfold State.modCtx; split <;> rfl
@[simp] theorem modCtx_mem (s : State) (k : Nat) (f : Context → Context) : (s.modCtx k f).mem = s.mem := by
  unfold State.modCtx; split <;> rfl
@[simp] theorem modCtx_far (s : State) (k : Nat) (f : Context → Context) : (s.modCtx k f).far = s.far := by
  unfold State.modCtx; split <;> rfl
@[simp] theorem modCtx_ledger (s : State) (k : Nat) (f : Context → Context) : (s.modCtx k f).ledger = s.ledger := by
  unfold State.modCtx; split <;> rfl

@[simp] theorem modCore_cur (s : State) (k : Nat) (f : Core → Core) : (s.modCore k f).cur = s.cur := rfl
@[simp] theorem modCore_agenda (s : State) (k : Nat) (f : Core → Core) : (s.modCore k f).agenda = s.agenda := rfl
@[simp] theorem modCore_sel (s : State) (k : Nat) (f : Core → Core) : (s.modCore k f).sel = s.sel := rfl
@[simp] theorem modCore_steps (s : State) (k : Nat) (f : Core → Core) : (s.modCore k f).steps = s.steps := rfl
@[simp] theorem modCore_free (s : State) (k : Nat) (f : Core → Core) : (s.modCore k f).free = s.free := rfl
@[simp] theorem modCore_timer (s : State) (k : Nat) (f : Core → Core) : (s.modCore k f).timer = s.timer := rfl
@[simp] theorem modCore_devnum (s : State) (k : Nat) (f : Core → Core) : (s.modCore k f).devnum = s.devnum := rfl
@[simp] theorem modCore_devrdy (s : State) (k : Nat) (f : Core → Core) : (s.modCore k f).devrdy = s.devrdy := rfl
@[simp] theorem modCore_devfail (s : State) (k : Nat) (f : Core → Core) : (s.modCore k f).devfail = s.devfail := rfl
@[simp] theorem modCore_umaps (s : State) (k : Nat) (f : Core → Core) : (s.modCore k f).umaps = s.umaps := rfl
@[simp] theorem modCore_ports (s : State) (k : Nat) (f : Core → Core) : (s.modCore k f).ports = s.ports := rfl
@[simp] theorem modCore_replies (s : State) (k : Nat) (f : Core → Core) : (s.modCore k f).replies = s.replies := rfl
@[simp] theorem modCore_routes (s : State) (k : Nat) (f : Core → Core) : (s.modCore k f).routes = s.routes := rfl
@[simp] theorem modCore_heldReqs (s : State) (k : Nat) (f : Core → Core) : (s.modCore k f).heldReqs = s.heldReqs := rfl
@[simp] theorem modCore_hostMsgs (s : State) (k : Nat) (f : Core → Core) : (s.modCore k f).hostMsgs = s.hostMsgs := rfl
@[simp] theorem modCore_t95 (s : State) (k : Nat) (f : Core → Core) : (s.modCore k f).t95 = s.t95 := rfl
@[simp] theorem modCore_t102 (s : State) (k : Nat) (f : Core → Core) : (s.modCore k f).t102 = s.t102 := rfl
@[simp] theorem modCore_t108 (s : State) (k : Nat) (f : Core → Core) : (s.modCore k f).t108 = s.t108 := rfl
@[simp] theorem modCore_tripped (s : State) (k : Nat) (f : Core → Core) : (s.modCore k f).tripped = s.tripped := rfl
@[simp] theorem modCore_plat (s : State) (k : Nat) (f : Core → Core) : (s.modCore k f).plat = s.plat := rfl
@[simp] theorem modCore_ident (s : State) (k : Nat) (f : Core → Core) : (s.modCore k f).ident = s.ident := rfl
@[simp] theorem modCore_meas (s : State) (k : Nat) (f : Core → Core) : (s.modCore k f).meas = s.meas := rfl
@[simp] theorem modCore_reports (s : State) (k : Nat) (f : Core → Core) : (s.modCore k f).reports = s.reports := rfl
@[simp] theorem modCore_linked (s : State) (k : Nat) (f : Core → Core) : (s.modCore k f).linked = s.linked := rfl
@[simp] theorem modCore_qown (s : State) (k : Nat) (f : Core → Core) : (s.modCore k f).qown = s.qown := rfl
@[simp] theorem modCore_fwin (s : State) (k : Nat) (f : Core → Core) : (s.modCore k f).fwin = s.fwin := rfl
@[simp] theorem modCore_queues (s : State) (k : Nat) (f : Core → Core) : (s.modCore k f).queues = s.queues := rfl
@[simp] theorem modCore_quantum (s : State) (k : Nat) (f : Core → Core) : (s.modCore k f).quantum = s.quantum := rfl
@[simp] theorem modCore_nopromo (s : State) (k : Nat) (f : Core → Core) : (s.modCore k f).nopromo = s.nopromo := rfl
@[simp] theorem modCore_hquota (s : State) (k : Nat) (f : Core → Core) : (s.modCore k f).hquota = s.hquota := rfl
@[simp] theorem modCore_pdeadline (s : State) (k : Nat) (f : Core → Core) : (s.modCore k f).pdeadline = s.pdeadline := rfl
@[simp] theorem modCore_interval (s : State) (k : Nat) (f : Core → Core) : (s.modCore k f).interval = s.interval := rfl
@[simp] theorem modCore_ctlRaised (s : State) (k : Nat) (f : Core → Core) : (s.modCore k f).ctlRaised = s.ctlRaised := rfl
@[simp] theorem modCore_mailboxes (s : State) (k : Nat) (f : Core → Core) : (s.modCore k f).mailboxes = s.mailboxes := rfl
@[simp] theorem modCore_irqs (s : State) (k : Nat) (f : Core → Core) : (s.modCore k f).irqs = s.irqs := rfl
@[simp] theorem modCore_hostReply (s : State) (k : Nat) (f : Core → Core) : (s.modCore k f).hostReply = s.hostReply := rfl
@[simp] theorem modCore_callReply (s : State) (k : Nat) (f : Core → Core) : (s.modCore k f).callReply = s.callReply := rfl
@[simp] theorem modCore_contexts (s : State) (k : Nat) (f : Core → Core) : (s.modCore k f).contexts = s.contexts := rfl
@[simp] theorem modCore_dies (s : State) (k : Nat) (f : Core → Core) : (s.modCore k f).dies = s.dies := rfl
@[simp] theorem modCore_regions (s : State) (k : Nat) (f : Core → Core) : (s.modCore k f).regions = s.regions := rfl
@[simp] theorem modCore_debugs (s : State) (k : Nat) (f : Core → Core) : (s.modCore k f).debugs = s.debugs := rfl
@[simp] theorem modCore_channels (s : State) (k : Nat) (f : Core → Core) : (s.modCore k f).channels = s.channels := rfl
@[simp] theorem modCore_reserves (s : State) (k : Nat) (f : Core → Core) : (s.modCore k f).reserves = s.reserves := rfl
@[simp] theorem modCore_nextGrid (s : State) (k : Nat) (f : Core → Core) : (s.modCore k f).nextGrid = s.nextGrid := rfl
@[simp] theorem modCore_grids (s : State) (k : Nat) (f : Core → Core) : (s.modCore k f).grids = s.grids := rfl
@[simp] theorem modCore_gangs (s : State) (k : Nat) (f : Core → Core) : (s.modCore k f).gangs = s.gangs := rfl
@[simp] theorem modCore_teams (s : State) (k : Nat) (f : Core → Core) : (s.modCore k f).teams = s.teams := rfl
@[simp] theorem modCore_groups (s : State) (k : Nat) (f : Core → Core) : (s.modCore k f).groups = s.groups := rfl
@[simp] theorem modCore_seqs (s : State) (k : Nat) (f : Core → Core) : (s.modCore k f).seqs = s.seqs := rfl
@[simp] theorem modCore_builtins (s : State) (k : Nat) (f : Core → Core) : (s.modCore k f).builtins = s.builtins := rfl
@[simp] theorem modCore_mem (s : State) (k : Nat) (f : Core → Core) : (s.modCore k f).mem = s.mem := rfl
@[simp] theorem modCore_far (s : State) (k : Nat) (f : Core → Core) : (s.modCore k f).far = s.far := rfl
@[simp] theorem modCore_ledger (s : State) (k : Nat) (f : Core → Core) : (s.modCore k f).ledger = s.ledger := rfl

@[simp] theorem modDie_cur (s : State) (k : Nat) (f : Die → Die) : (s.modDie k f).cur = s.cur := rfl
@[simp] theorem modDie_agenda (s : State) (k : Nat) (f : Die → Die) : (s.modDie k f).agenda = s.agenda := rfl
@[simp] theorem modDie_sel (s : State) (k : Nat) (f : Die → Die) : (s.modDie k f).sel = s.sel := rfl
@[simp] theorem modDie_steps (s : State) (k : Nat) (f : Die → Die) : (s.modDie k f).steps = s.steps := rfl
@[simp] theorem modDie_free (s : State) (k : Nat) (f : Die → Die) : (s.modDie k f).free = s.free := rfl
@[simp] theorem modDie_timer (s : State) (k : Nat) (f : Die → Die) : (s.modDie k f).timer = s.timer := rfl
@[simp] theorem modDie_devnum (s : State) (k : Nat) (f : Die → Die) : (s.modDie k f).devnum = s.devnum := rfl
@[simp] theorem modDie_devrdy (s : State) (k : Nat) (f : Die → Die) : (s.modDie k f).devrdy = s.devrdy := rfl
@[simp] theorem modDie_devfail (s : State) (k : Nat) (f : Die → Die) : (s.modDie k f).devfail = s.devfail := rfl
@[simp] theorem modDie_umaps (s : State) (k : Nat) (f : Die → Die) : (s.modDie k f).umaps = s.umaps := rfl
@[simp] theorem modDie_ports (s : State) (k : Nat) (f : Die → Die) : (s.modDie k f).ports = s.ports := rfl
@[simp] theorem modDie_replies (s : State) (k : Nat) (f : Die → Die) : (s.modDie k f).replies = s.replies := rfl
@[simp] theorem modDie_routes (s : State) (k : Nat) (f : Die → Die) : (s.modDie k f).routes = s.routes := rfl
@[simp] theorem modDie_heldReqs (s : State) (k : Nat) (f : Die → Die) : (s.modDie k f).heldReqs = s.heldReqs := rfl
@[simp] theorem modDie_hostMsgs (s : State) (k : Nat) (f : Die → Die) : (s.modDie k f).hostMsgs = s.hostMsgs := rfl
@[simp] theorem modDie_t95 (s : State) (k : Nat) (f : Die → Die) : (s.modDie k f).t95 = s.t95 := rfl
@[simp] theorem modDie_t102 (s : State) (k : Nat) (f : Die → Die) : (s.modDie k f).t102 = s.t102 := rfl
@[simp] theorem modDie_t108 (s : State) (k : Nat) (f : Die → Die) : (s.modDie k f).t108 = s.t108 := rfl
@[simp] theorem modDie_tripped (s : State) (k : Nat) (f : Die → Die) : (s.modDie k f).tripped = s.tripped := rfl
@[simp] theorem modDie_plat (s : State) (k : Nat) (f : Die → Die) : (s.modDie k f).plat = s.plat := rfl
@[simp] theorem modDie_ident (s : State) (k : Nat) (f : Die → Die) : (s.modDie k f).ident = s.ident := rfl
@[simp] theorem modDie_meas (s : State) (k : Nat) (f : Die → Die) : (s.modDie k f).meas = s.meas := rfl
@[simp] theorem modDie_reports (s : State) (k : Nat) (f : Die → Die) : (s.modDie k f).reports = s.reports := rfl
@[simp] theorem modDie_linked (s : State) (k : Nat) (f : Die → Die) : (s.modDie k f).linked = s.linked := rfl
@[simp] theorem modDie_qown (s : State) (k : Nat) (f : Die → Die) : (s.modDie k f).qown = s.qown := rfl
@[simp] theorem modDie_fwin (s : State) (k : Nat) (f : Die → Die) : (s.modDie k f).fwin = s.fwin := rfl
@[simp] theorem modDie_queues (s : State) (k : Nat) (f : Die → Die) : (s.modDie k f).queues = s.queues := rfl
@[simp] theorem modDie_quantum (s : State) (k : Nat) (f : Die → Die) : (s.modDie k f).quantum = s.quantum := rfl
@[simp] theorem modDie_nopromo (s : State) (k : Nat) (f : Die → Die) : (s.modDie k f).nopromo = s.nopromo := rfl
@[simp] theorem modDie_hquota (s : State) (k : Nat) (f : Die → Die) : (s.modDie k f).hquota = s.hquota := rfl
@[simp] theorem modDie_pdeadline (s : State) (k : Nat) (f : Die → Die) : (s.modDie k f).pdeadline = s.pdeadline := rfl
@[simp] theorem modDie_interval (s : State) (k : Nat) (f : Die → Die) : (s.modDie k f).interval = s.interval := rfl
@[simp] theorem modDie_ctlRaised (s : State) (k : Nat) (f : Die → Die) : (s.modDie k f).ctlRaised = s.ctlRaised := rfl
@[simp] theorem modDie_mailboxes (s : State) (k : Nat) (f : Die → Die) : (s.modDie k f).mailboxes = s.mailboxes := rfl
@[simp] theorem modDie_irqs (s : State) (k : Nat) (f : Die → Die) : (s.modDie k f).irqs = s.irqs := rfl
@[simp] theorem modDie_hostReply (s : State) (k : Nat) (f : Die → Die) : (s.modDie k f).hostReply = s.hostReply := rfl
@[simp] theorem modDie_callReply (s : State) (k : Nat) (f : Die → Die) : (s.modDie k f).callReply = s.callReply := rfl
@[simp] theorem modDie_contexts (s : State) (k : Nat) (f : Die → Die) : (s.modDie k f).contexts = s.contexts := rfl
@[simp] theorem modDie_regions (s : State) (k : Nat) (f : Die → Die) : (s.modDie k f).regions = s.regions := rfl
@[simp] theorem modDie_cores (s : State) (k : Nat) (f : Die → Die) : (s.modDie k f).cores = s.cores := rfl
@[simp] theorem modDie_debugs (s : State) (k : Nat) (f : Die → Die) : (s.modDie k f).debugs = s.debugs := rfl
@[simp] theorem modDie_channels (s : State) (k : Nat) (f : Die → Die) : (s.modDie k f).channels = s.channels := rfl
@[simp] theorem modDie_reserves (s : State) (k : Nat) (f : Die → Die) : (s.modDie k f).reserves = s.reserves := rfl
@[simp] theorem modDie_nextGrid (s : State) (k : Nat) (f : Die → Die) : (s.modDie k f).nextGrid = s.nextGrid := rfl
@[simp] theorem modDie_grids (s : State) (k : Nat) (f : Die → Die) : (s.modDie k f).grids = s.grids := rfl
@[simp] theorem modDie_gangs (s : State) (k : Nat) (f : Die → Die) : (s.modDie k f).gangs = s.gangs := rfl
@[simp] theorem modDie_teams (s : State) (k : Nat) (f : Die → Die) : (s.modDie k f).teams = s.teams := rfl
@[simp] theorem modDie_groups (s : State) (k : Nat) (f : Die → Die) : (s.modDie k f).groups = s.groups := rfl
@[simp] theorem modDie_seqs (s : State) (k : Nat) (f : Die → Die) : (s.modDie k f).seqs = s.seqs := rfl
@[simp] theorem modDie_builtins (s : State) (k : Nat) (f : Die → Die) : (s.modDie k f).builtins = s.builtins := rfl
@[simp] theorem modDie_mem (s : State) (k : Nat) (f : Die → Die) : (s.modDie k f).mem = s.mem := rfl
@[simp] theorem modDie_far (s : State) (k : Nat) (f : Die → Die) : (s.modDie k f).far = s.far := rfl
@[simp] theorem modDie_ledger (s : State) (k : Nat) (f : Die → Die) : (s.modDie k f).ledger = s.ledger := rfl

@[simp] theorem modRegion_cur (s : State) (k : Nat) (f : Region → Region) : (s.modRegion k f).cur = s.cur := rfl
@[simp] theorem modRegion_agenda (s : State) (k : Nat) (f : Region → Region) : (s.modRegion k f).agenda = s.agenda := rfl
@[simp] theorem modRegion_sel (s : State) (k : Nat) (f : Region → Region) : (s.modRegion k f).sel = s.sel := rfl
@[simp] theorem modRegion_steps (s : State) (k : Nat) (f : Region → Region) : (s.modRegion k f).steps = s.steps := rfl
@[simp] theorem modRegion_free (s : State) (k : Nat) (f : Region → Region) : (s.modRegion k f).free = s.free := rfl
@[simp] theorem modRegion_timer (s : State) (k : Nat) (f : Region → Region) : (s.modRegion k f).timer = s.timer := rfl
@[simp] theorem modRegion_devnum (s : State) (k : Nat) (f : Region → Region) : (s.modRegion k f).devnum = s.devnum := rfl
@[simp] theorem modRegion_devrdy (s : State) (k : Nat) (f : Region → Region) : (s.modRegion k f).devrdy = s.devrdy := rfl
@[simp] theorem modRegion_devfail (s : State) (k : Nat) (f : Region → Region) : (s.modRegion k f).devfail = s.devfail := rfl
@[simp] theorem modRegion_umaps (s : State) (k : Nat) (f : Region → Region) : (s.modRegion k f).umaps = s.umaps := rfl
@[simp] theorem modRegion_ports (s : State) (k : Nat) (f : Region → Region) : (s.modRegion k f).ports = s.ports := rfl
@[simp] theorem modRegion_replies (s : State) (k : Nat) (f : Region → Region) : (s.modRegion k f).replies = s.replies := rfl
@[simp] theorem modRegion_routes (s : State) (k : Nat) (f : Region → Region) : (s.modRegion k f).routes = s.routes := rfl
@[simp] theorem modRegion_heldReqs (s : State) (k : Nat) (f : Region → Region) : (s.modRegion k f).heldReqs = s.heldReqs := rfl
@[simp] theorem modRegion_hostMsgs (s : State) (k : Nat) (f : Region → Region) : (s.modRegion k f).hostMsgs = s.hostMsgs := rfl
@[simp] theorem modRegion_t95 (s : State) (k : Nat) (f : Region → Region) : (s.modRegion k f).t95 = s.t95 := rfl
@[simp] theorem modRegion_t102 (s : State) (k : Nat) (f : Region → Region) : (s.modRegion k f).t102 = s.t102 := rfl
@[simp] theorem modRegion_t108 (s : State) (k : Nat) (f : Region → Region) : (s.modRegion k f).t108 = s.t108 := rfl
@[simp] theorem modRegion_tripped (s : State) (k : Nat) (f : Region → Region) : (s.modRegion k f).tripped = s.tripped := rfl
@[simp] theorem modRegion_plat (s : State) (k : Nat) (f : Region → Region) : (s.modRegion k f).plat = s.plat := rfl
@[simp] theorem modRegion_ident (s : State) (k : Nat) (f : Region → Region) : (s.modRegion k f).ident = s.ident := rfl
@[simp] theorem modRegion_meas (s : State) (k : Nat) (f : Region → Region) : (s.modRegion k f).meas = s.meas := rfl
@[simp] theorem modRegion_reports (s : State) (k : Nat) (f : Region → Region) : (s.modRegion k f).reports = s.reports := rfl
@[simp] theorem modRegion_linked (s : State) (k : Nat) (f : Region → Region) : (s.modRegion k f).linked = s.linked := rfl
@[simp] theorem modRegion_qown (s : State) (k : Nat) (f : Region → Region) : (s.modRegion k f).qown = s.qown := rfl
@[simp] theorem modRegion_fwin (s : State) (k : Nat) (f : Region → Region) : (s.modRegion k f).fwin = s.fwin := rfl
@[simp] theorem modRegion_queues (s : State) (k : Nat) (f : Region → Region) : (s.modRegion k f).queues = s.queues := rfl
@[simp] theorem modRegion_quantum (s : State) (k : Nat) (f : Region → Region) : (s.modRegion k f).quantum = s.quantum := rfl
@[simp] theorem modRegion_nopromo (s : State) (k : Nat) (f : Region → Region) : (s.modRegion k f).nopromo = s.nopromo := rfl
@[simp] theorem modRegion_hquota (s : State) (k : Nat) (f : Region → Region) : (s.modRegion k f).hquota = s.hquota := rfl
@[simp] theorem modRegion_pdeadline (s : State) (k : Nat) (f : Region → Region) : (s.modRegion k f).pdeadline = s.pdeadline := rfl
@[simp] theorem modRegion_interval (s : State) (k : Nat) (f : Region → Region) : (s.modRegion k f).interval = s.interval := rfl
@[simp] theorem modRegion_ctlRaised (s : State) (k : Nat) (f : Region → Region) : (s.modRegion k f).ctlRaised = s.ctlRaised := rfl
@[simp] theorem modRegion_mailboxes (s : State) (k : Nat) (f : Region → Region) : (s.modRegion k f).mailboxes = s.mailboxes := rfl
@[simp] theorem modRegion_irqs (s : State) (k : Nat) (f : Region → Region) : (s.modRegion k f).irqs = s.irqs := rfl
@[simp] theorem modRegion_hostReply (s : State) (k : Nat) (f : Region → Region) : (s.modRegion k f).hostReply = s.hostReply := rfl
@[simp] theorem modRegion_callReply (s : State) (k : Nat) (f : Region → Region) : (s.modRegion k f).callReply = s.callReply := rfl
@[simp] theorem modRegion_contexts (s : State) (k : Nat) (f : Region → Region) : (s.modRegion k f).contexts = s.contexts := rfl
@[simp] theorem modRegion_dies (s : State) (k : Nat) (f : Region → Region) : (s.modRegion k f).dies = s.dies := rfl
@[simp] theorem modRegion_cores (s : State) (k : Nat) (f : Region → Region) : (s.modRegion k f).cores = s.cores := rfl
@[simp] theorem modRegion_debugs (s : State) (k : Nat) (f : Region → Region) : (s.modRegion k f).debugs = s.debugs := rfl
@[simp] theorem modRegion_channels (s : State) (k : Nat) (f : Region → Region) : (s.modRegion k f).channels = s.channels := rfl
@[simp] theorem modRegion_reserves (s : State) (k : Nat) (f : Region → Region) : (s.modRegion k f).reserves = s.reserves := rfl
@[simp] theorem modRegion_nextGrid (s : State) (k : Nat) (f : Region → Region) : (s.modRegion k f).nextGrid = s.nextGrid := rfl
@[simp] theorem modRegion_grids (s : State) (k : Nat) (f : Region → Region) : (s.modRegion k f).grids = s.grids := rfl
@[simp] theorem modRegion_gangs (s : State) (k : Nat) (f : Region → Region) : (s.modRegion k f).gangs = s.gangs := rfl
@[simp] theorem modRegion_teams (s : State) (k : Nat) (f : Region → Region) : (s.modRegion k f).teams = s.teams := rfl
@[simp] theorem modRegion_groups (s : State) (k : Nat) (f : Region → Region) : (s.modRegion k f).groups = s.groups := rfl
@[simp] theorem modRegion_seqs (s : State) (k : Nat) (f : Region → Region) : (s.modRegion k f).seqs = s.seqs := rfl
@[simp] theorem modRegion_builtins (s : State) (k : Nat) (f : Region → Region) : (s.modRegion k f).builtins = s.builtins := rfl
@[simp] theorem modRegion_mem (s : State) (k : Nat) (f : Region → Region) : (s.modRegion k f).mem = s.mem := rfl
@[simp] theorem modRegion_far (s : State) (k : Nat) (f : Region → Region) : (s.modRegion k f).far = s.far := rfl
@[simp] theorem modRegion_ledger (s : State) (k : Nat) (f : Region → Region) : (s.modRegion k f).ledger = s.ledger := rfl

@[simp] theorem modDbg_cur (s : State) (k : Nat) (f : DebugCore → DebugCore) : (s.modDbg k f).cur = s.cur := rfl
@[simp] theorem modDbg_agenda (s : State) (k : Nat) (f : DebugCore → DebugCore) : (s.modDbg k f).agenda = s.agenda := rfl
@[simp] theorem modDbg_sel (s : State) (k : Nat) (f : DebugCore → DebugCore) : (s.modDbg k f).sel = s.sel := rfl
@[simp] theorem modDbg_steps (s : State) (k : Nat) (f : DebugCore → DebugCore) : (s.modDbg k f).steps = s.steps := rfl
@[simp] theorem modDbg_free (s : State) (k : Nat) (f : DebugCore → DebugCore) : (s.modDbg k f).free = s.free := rfl
@[simp] theorem modDbg_timer (s : State) (k : Nat) (f : DebugCore → DebugCore) : (s.modDbg k f).timer = s.timer := rfl
@[simp] theorem modDbg_devnum (s : State) (k : Nat) (f : DebugCore → DebugCore) : (s.modDbg k f).devnum = s.devnum := rfl
@[simp] theorem modDbg_devrdy (s : State) (k : Nat) (f : DebugCore → DebugCore) : (s.modDbg k f).devrdy = s.devrdy := rfl
@[simp] theorem modDbg_devfail (s : State) (k : Nat) (f : DebugCore → DebugCore) : (s.modDbg k f).devfail = s.devfail := rfl
@[simp] theorem modDbg_umaps (s : State) (k : Nat) (f : DebugCore → DebugCore) : (s.modDbg k f).umaps = s.umaps := rfl
@[simp] theorem modDbg_ports (s : State) (k : Nat) (f : DebugCore → DebugCore) : (s.modDbg k f).ports = s.ports := rfl
@[simp] theorem modDbg_replies (s : State) (k : Nat) (f : DebugCore → DebugCore) : (s.modDbg k f).replies = s.replies := rfl
@[simp] theorem modDbg_routes (s : State) (k : Nat) (f : DebugCore → DebugCore) : (s.modDbg k f).routes = s.routes := rfl
@[simp] theorem modDbg_heldReqs (s : State) (k : Nat) (f : DebugCore → DebugCore) : (s.modDbg k f).heldReqs = s.heldReqs := rfl
@[simp] theorem modDbg_hostMsgs (s : State) (k : Nat) (f : DebugCore → DebugCore) : (s.modDbg k f).hostMsgs = s.hostMsgs := rfl
@[simp] theorem modDbg_t95 (s : State) (k : Nat) (f : DebugCore → DebugCore) : (s.modDbg k f).t95 = s.t95 := rfl
@[simp] theorem modDbg_t102 (s : State) (k : Nat) (f : DebugCore → DebugCore) : (s.modDbg k f).t102 = s.t102 := rfl
@[simp] theorem modDbg_t108 (s : State) (k : Nat) (f : DebugCore → DebugCore) : (s.modDbg k f).t108 = s.t108 := rfl
@[simp] theorem modDbg_tripped (s : State) (k : Nat) (f : DebugCore → DebugCore) : (s.modDbg k f).tripped = s.tripped := rfl
@[simp] theorem modDbg_plat (s : State) (k : Nat) (f : DebugCore → DebugCore) : (s.modDbg k f).plat = s.plat := rfl
@[simp] theorem modDbg_ident (s : State) (k : Nat) (f : DebugCore → DebugCore) : (s.modDbg k f).ident = s.ident := rfl
@[simp] theorem modDbg_meas (s : State) (k : Nat) (f : DebugCore → DebugCore) : (s.modDbg k f).meas = s.meas := rfl
@[simp] theorem modDbg_reports (s : State) (k : Nat) (f : DebugCore → DebugCore) : (s.modDbg k f).reports = s.reports := rfl
@[simp] theorem modDbg_linked (s : State) (k : Nat) (f : DebugCore → DebugCore) : (s.modDbg k f).linked = s.linked := rfl
@[simp] theorem modDbg_qown (s : State) (k : Nat) (f : DebugCore → DebugCore) : (s.modDbg k f).qown = s.qown := rfl
@[simp] theorem modDbg_fwin (s : State) (k : Nat) (f : DebugCore → DebugCore) : (s.modDbg k f).fwin = s.fwin := rfl
@[simp] theorem modDbg_queues (s : State) (k : Nat) (f : DebugCore → DebugCore) : (s.modDbg k f).queues = s.queues := rfl
@[simp] theorem modDbg_quantum (s : State) (k : Nat) (f : DebugCore → DebugCore) : (s.modDbg k f).quantum = s.quantum := rfl
@[simp] theorem modDbg_nopromo (s : State) (k : Nat) (f : DebugCore → DebugCore) : (s.modDbg k f).nopromo = s.nopromo := rfl
@[simp] theorem modDbg_hquota (s : State) (k : Nat) (f : DebugCore → DebugCore) : (s.modDbg k f).hquota = s.hquota := rfl
@[simp] theorem modDbg_pdeadline (s : State) (k : Nat) (f : DebugCore → DebugCore) : (s.modDbg k f).pdeadline = s.pdeadline := rfl
@[simp] theorem modDbg_interval (s : State) (k : Nat) (f : DebugCore → DebugCore) : (s.modDbg k f).interval = s.interval := rfl
@[simp] theorem modDbg_ctlRaised (s : State) (k : Nat) (f : DebugCore → DebugCore) : (s.modDbg k f).ctlRaised = s.ctlRaised := rfl
@[simp] theorem modDbg_mailboxes (s : State) (k : Nat) (f : DebugCore → DebugCore) : (s.modDbg k f).mailboxes = s.mailboxes := rfl
@[simp] theorem modDbg_irqs (s : State) (k : Nat) (f : DebugCore → DebugCore) : (s.modDbg k f).irqs = s.irqs := rfl
@[simp] theorem modDbg_hostReply (s : State) (k : Nat) (f : DebugCore → DebugCore) : (s.modDbg k f).hostReply = s.hostReply := rfl
@[simp] theorem modDbg_callReply (s : State) (k : Nat) (f : DebugCore → DebugCore) : (s.modDbg k f).callReply = s.callReply := rfl
@[simp] theorem modDbg_contexts (s : State) (k : Nat) (f : DebugCore → DebugCore) : (s.modDbg k f).contexts = s.contexts := rfl
@[simp] theorem modDbg_dies (s : State) (k : Nat) (f : DebugCore → DebugCore) : (s.modDbg k f).dies = s.dies := rfl
@[simp] theorem modDbg_regions (s : State) (k : Nat) (f : DebugCore → DebugCore) : (s.modDbg k f).regions = s.regions := rfl
@[simp] theorem modDbg_cores (s : State) (k : Nat) (f : DebugCore → DebugCore) : (s.modDbg k f).cores = s.cores := rfl
@[simp] theorem modDbg_channels (s : State) (k : Nat) (f : DebugCore → DebugCore) : (s.modDbg k f).channels = s.channels := rfl
@[simp] theorem modDbg_reserves (s : State) (k : Nat) (f : DebugCore → DebugCore) : (s.modDbg k f).reserves = s.reserves := rfl
@[simp] theorem modDbg_nextGrid (s : State) (k : Nat) (f : DebugCore → DebugCore) : (s.modDbg k f).nextGrid = s.nextGrid := rfl
@[simp] theorem modDbg_grids (s : State) (k : Nat) (f : DebugCore → DebugCore) : (s.modDbg k f).grids = s.grids := rfl
@[simp] theorem modDbg_gangs (s : State) (k : Nat) (f : DebugCore → DebugCore) : (s.modDbg k f).gangs = s.gangs := rfl
@[simp] theorem modDbg_teams (s : State) (k : Nat) (f : DebugCore → DebugCore) : (s.modDbg k f).teams = s.teams := rfl
@[simp] theorem modDbg_groups (s : State) (k : Nat) (f : DebugCore → DebugCore) : (s.modDbg k f).groups = s.groups := rfl
@[simp] theorem modDbg_seqs (s : State) (k : Nat) (f : DebugCore → DebugCore) : (s.modDbg k f).seqs = s.seqs := rfl
@[simp] theorem modDbg_builtins (s : State) (k : Nat) (f : DebugCore → DebugCore) : (s.modDbg k f).builtins = s.builtins := rfl
@[simp] theorem modDbg_mem (s : State) (k : Nat) (f : DebugCore → DebugCore) : (s.modDbg k f).mem = s.mem := rfl
@[simp] theorem modDbg_far (s : State) (k : Nat) (f : DebugCore → DebugCore) : (s.modDbg k f).far = s.far := rfl
@[simp] theorem modDbg_ledger (s : State) (k : Nat) (f : DebugCore → DebugCore) : (s.modDbg k f).ledger = s.ledger := rfl

@[simp] theorem modMailbox_cur (s : State) (k : Nat) (f : Mailbox → Mailbox) : (s.modMailbox k f).cur = s.cur := rfl
@[simp] theorem modMailbox_agenda (s : State) (k : Nat) (f : Mailbox → Mailbox) : (s.modMailbox k f).agenda = s.agenda := rfl
@[simp] theorem modMailbox_sel (s : State) (k : Nat) (f : Mailbox → Mailbox) : (s.modMailbox k f).sel = s.sel := rfl
@[simp] theorem modMailbox_steps (s : State) (k : Nat) (f : Mailbox → Mailbox) : (s.modMailbox k f).steps = s.steps := rfl
@[simp] theorem modMailbox_free (s : State) (k : Nat) (f : Mailbox → Mailbox) : (s.modMailbox k f).free = s.free := rfl
@[simp] theorem modMailbox_timer (s : State) (k : Nat) (f : Mailbox → Mailbox) : (s.modMailbox k f).timer = s.timer := rfl
@[simp] theorem modMailbox_devnum (s : State) (k : Nat) (f : Mailbox → Mailbox) : (s.modMailbox k f).devnum = s.devnum := rfl
@[simp] theorem modMailbox_devrdy (s : State) (k : Nat) (f : Mailbox → Mailbox) : (s.modMailbox k f).devrdy = s.devrdy := rfl
@[simp] theorem modMailbox_devfail (s : State) (k : Nat) (f : Mailbox → Mailbox) : (s.modMailbox k f).devfail = s.devfail := rfl
@[simp] theorem modMailbox_umaps (s : State) (k : Nat) (f : Mailbox → Mailbox) : (s.modMailbox k f).umaps = s.umaps := rfl
@[simp] theorem modMailbox_ports (s : State) (k : Nat) (f : Mailbox → Mailbox) : (s.modMailbox k f).ports = s.ports := rfl
@[simp] theorem modMailbox_replies (s : State) (k : Nat) (f : Mailbox → Mailbox) : (s.modMailbox k f).replies = s.replies := rfl
@[simp] theorem modMailbox_routes (s : State) (k : Nat) (f : Mailbox → Mailbox) : (s.modMailbox k f).routes = s.routes := rfl
@[simp] theorem modMailbox_heldReqs (s : State) (k : Nat) (f : Mailbox → Mailbox) : (s.modMailbox k f).heldReqs = s.heldReqs := rfl
@[simp] theorem modMailbox_hostMsgs (s : State) (k : Nat) (f : Mailbox → Mailbox) : (s.modMailbox k f).hostMsgs = s.hostMsgs := rfl
@[simp] theorem modMailbox_t95 (s : State) (k : Nat) (f : Mailbox → Mailbox) : (s.modMailbox k f).t95 = s.t95 := rfl
@[simp] theorem modMailbox_t102 (s : State) (k : Nat) (f : Mailbox → Mailbox) : (s.modMailbox k f).t102 = s.t102 := rfl
@[simp] theorem modMailbox_t108 (s : State) (k : Nat) (f : Mailbox → Mailbox) : (s.modMailbox k f).t108 = s.t108 := rfl
@[simp] theorem modMailbox_tripped (s : State) (k : Nat) (f : Mailbox → Mailbox) : (s.modMailbox k f).tripped = s.tripped := rfl
@[simp] theorem modMailbox_plat (s : State) (k : Nat) (f : Mailbox → Mailbox) : (s.modMailbox k f).plat = s.plat := rfl
@[simp] theorem modMailbox_ident (s : State) (k : Nat) (f : Mailbox → Mailbox) : (s.modMailbox k f).ident = s.ident := rfl
@[simp] theorem modMailbox_meas (s : State) (k : Nat) (f : Mailbox → Mailbox) : (s.modMailbox k f).meas = s.meas := rfl
@[simp] theorem modMailbox_reports (s : State) (k : Nat) (f : Mailbox → Mailbox) : (s.modMailbox k f).reports = s.reports := rfl
@[simp] theorem modMailbox_linked (s : State) (k : Nat) (f : Mailbox → Mailbox) : (s.modMailbox k f).linked = s.linked := rfl
@[simp] theorem modMailbox_qown (s : State) (k : Nat) (f : Mailbox → Mailbox) : (s.modMailbox k f).qown = s.qown := rfl
@[simp] theorem modMailbox_fwin (s : State) (k : Nat) (f : Mailbox → Mailbox) : (s.modMailbox k f).fwin = s.fwin := rfl
@[simp] theorem modMailbox_queues (s : State) (k : Nat) (f : Mailbox → Mailbox) : (s.modMailbox k f).queues = s.queues := rfl
@[simp] theorem modMailbox_quantum (s : State) (k : Nat) (f : Mailbox → Mailbox) : (s.modMailbox k f).quantum = s.quantum := rfl
@[simp] theorem modMailbox_nopromo (s : State) (k : Nat) (f : Mailbox → Mailbox) : (s.modMailbox k f).nopromo = s.nopromo := rfl
@[simp] theorem modMailbox_hquota (s : State) (k : Nat) (f : Mailbox → Mailbox) : (s.modMailbox k f).hquota = s.hquota := rfl
@[simp] theorem modMailbox_pdeadline (s : State) (k : Nat) (f : Mailbox → Mailbox) : (s.modMailbox k f).pdeadline = s.pdeadline := rfl
@[simp] theorem modMailbox_interval (s : State) (k : Nat) (f : Mailbox → Mailbox) : (s.modMailbox k f).interval = s.interval := rfl
@[simp] theorem modMailbox_ctlRaised (s : State) (k : Nat) (f : Mailbox → Mailbox) : (s.modMailbox k f).ctlRaised = s.ctlRaised := rfl
@[simp] theorem modMailbox_irqs (s : State) (k : Nat) (f : Mailbox → Mailbox) : (s.modMailbox k f).irqs = s.irqs := rfl
@[simp] theorem modMailbox_hostReply (s : State) (k : Nat) (f : Mailbox → Mailbox) : (s.modMailbox k f).hostReply = s.hostReply := rfl
@[simp] theorem modMailbox_callReply (s : State) (k : Nat) (f : Mailbox → Mailbox) : (s.modMailbox k f).callReply = s.callReply := rfl
@[simp] theorem modMailbox_contexts (s : State) (k : Nat) (f : Mailbox → Mailbox) : (s.modMailbox k f).contexts = s.contexts := rfl
@[simp] theorem modMailbox_dies (s : State) (k : Nat) (f : Mailbox → Mailbox) : (s.modMailbox k f).dies = s.dies := rfl
@[simp] theorem modMailbox_regions (s : State) (k : Nat) (f : Mailbox → Mailbox) : (s.modMailbox k f).regions = s.regions := rfl
@[simp] theorem modMailbox_cores (s : State) (k : Nat) (f : Mailbox → Mailbox) : (s.modMailbox k f).cores = s.cores := rfl
@[simp] theorem modMailbox_debugs (s : State) (k : Nat) (f : Mailbox → Mailbox) : (s.modMailbox k f).debugs = s.debugs := rfl
@[simp] theorem modMailbox_channels (s : State) (k : Nat) (f : Mailbox → Mailbox) : (s.modMailbox k f).channels = s.channels := rfl
@[simp] theorem modMailbox_reserves (s : State) (k : Nat) (f : Mailbox → Mailbox) : (s.modMailbox k f).reserves = s.reserves := rfl
@[simp] theorem modMailbox_nextGrid (s : State) (k : Nat) (f : Mailbox → Mailbox) : (s.modMailbox k f).nextGrid = s.nextGrid := rfl
@[simp] theorem modMailbox_grids (s : State) (k : Nat) (f : Mailbox → Mailbox) : (s.modMailbox k f).grids = s.grids := rfl
@[simp] theorem modMailbox_gangs (s : State) (k : Nat) (f : Mailbox → Mailbox) : (s.modMailbox k f).gangs = s.gangs := rfl
@[simp] theorem modMailbox_teams (s : State) (k : Nat) (f : Mailbox → Mailbox) : (s.modMailbox k f).teams = s.teams := rfl
@[simp] theorem modMailbox_groups (s : State) (k : Nat) (f : Mailbox → Mailbox) : (s.modMailbox k f).groups = s.groups := rfl
@[simp] theorem modMailbox_seqs (s : State) (k : Nat) (f : Mailbox → Mailbox) : (s.modMailbox k f).seqs = s.seqs := rfl
@[simp] theorem modMailbox_builtins (s : State) (k : Nat) (f : Mailbox → Mailbox) : (s.modMailbox k f).builtins = s.builtins := rfl
@[simp] theorem modMailbox_mem (s : State) (k : Nat) (f : Mailbox → Mailbox) : (s.modMailbox k f).mem = s.mem := rfl
@[simp] theorem modMailbox_far (s : State) (k : Nat) (f : Mailbox → Mailbox) : (s.modMailbox k f).far = s.far := rfl
@[simp] theorem modMailbox_ledger (s : State) (k : Nat) (f : Mailbox → Mailbox) : (s.modMailbox k f).ledger = s.ledger := rfl

@[simp] theorem modQueue_cur (s : State) (k : Nat) (f : Queue → Queue) : (s.modQueue k f).cur = s.cur := rfl
@[simp] theorem modQueue_agenda (s : State) (k : Nat) (f : Queue → Queue) : (s.modQueue k f).agenda = s.agenda := rfl
@[simp] theorem modQueue_sel (s : State) (k : Nat) (f : Queue → Queue) : (s.modQueue k f).sel = s.sel := rfl
@[simp] theorem modQueue_steps (s : State) (k : Nat) (f : Queue → Queue) : (s.modQueue k f).steps = s.steps := rfl
@[simp] theorem modQueue_free (s : State) (k : Nat) (f : Queue → Queue) : (s.modQueue k f).free = s.free := rfl
@[simp] theorem modQueue_timer (s : State) (k : Nat) (f : Queue → Queue) : (s.modQueue k f).timer = s.timer := rfl
@[simp] theorem modQueue_devnum (s : State) (k : Nat) (f : Queue → Queue) : (s.modQueue k f).devnum = s.devnum := rfl
@[simp] theorem modQueue_devrdy (s : State) (k : Nat) (f : Queue → Queue) : (s.modQueue k f).devrdy = s.devrdy := rfl
@[simp] theorem modQueue_devfail (s : State) (k : Nat) (f : Queue → Queue) : (s.modQueue k f).devfail = s.devfail := rfl
@[simp] theorem modQueue_umaps (s : State) (k : Nat) (f : Queue → Queue) : (s.modQueue k f).umaps = s.umaps := rfl
@[simp] theorem modQueue_ports (s : State) (k : Nat) (f : Queue → Queue) : (s.modQueue k f).ports = s.ports := rfl
@[simp] theorem modQueue_replies (s : State) (k : Nat) (f : Queue → Queue) : (s.modQueue k f).replies = s.replies := rfl
@[simp] theorem modQueue_routes (s : State) (k : Nat) (f : Queue → Queue) : (s.modQueue k f).routes = s.routes := rfl
@[simp] theorem modQueue_heldReqs (s : State) (k : Nat) (f : Queue → Queue) : (s.modQueue k f).heldReqs = s.heldReqs := rfl
@[simp] theorem modQueue_hostMsgs (s : State) (k : Nat) (f : Queue → Queue) : (s.modQueue k f).hostMsgs = s.hostMsgs := rfl
@[simp] theorem modQueue_t95 (s : State) (k : Nat) (f : Queue → Queue) : (s.modQueue k f).t95 = s.t95 := rfl
@[simp] theorem modQueue_t102 (s : State) (k : Nat) (f : Queue → Queue) : (s.modQueue k f).t102 = s.t102 := rfl
@[simp] theorem modQueue_t108 (s : State) (k : Nat) (f : Queue → Queue) : (s.modQueue k f).t108 = s.t108 := rfl
@[simp] theorem modQueue_tripped (s : State) (k : Nat) (f : Queue → Queue) : (s.modQueue k f).tripped = s.tripped := rfl
@[simp] theorem modQueue_plat (s : State) (k : Nat) (f : Queue → Queue) : (s.modQueue k f).plat = s.plat := rfl
@[simp] theorem modQueue_ident (s : State) (k : Nat) (f : Queue → Queue) : (s.modQueue k f).ident = s.ident := rfl
@[simp] theorem modQueue_meas (s : State) (k : Nat) (f : Queue → Queue) : (s.modQueue k f).meas = s.meas := rfl
@[simp] theorem modQueue_reports (s : State) (k : Nat) (f : Queue → Queue) : (s.modQueue k f).reports = s.reports := rfl
@[simp] theorem modQueue_linked (s : State) (k : Nat) (f : Queue → Queue) : (s.modQueue k f).linked = s.linked := rfl
@[simp] theorem modQueue_qown (s : State) (k : Nat) (f : Queue → Queue) : (s.modQueue k f).qown = s.qown := rfl
@[simp] theorem modQueue_fwin (s : State) (k : Nat) (f : Queue → Queue) : (s.modQueue k f).fwin = s.fwin := rfl
@[simp] theorem modQueue_quantum (s : State) (k : Nat) (f : Queue → Queue) : (s.modQueue k f).quantum = s.quantum := rfl
@[simp] theorem modQueue_nopromo (s : State) (k : Nat) (f : Queue → Queue) : (s.modQueue k f).nopromo = s.nopromo := rfl
@[simp] theorem modQueue_hquota (s : State) (k : Nat) (f : Queue → Queue) : (s.modQueue k f).hquota = s.hquota := rfl
@[simp] theorem modQueue_pdeadline (s : State) (k : Nat) (f : Queue → Queue) : (s.modQueue k f).pdeadline = s.pdeadline := rfl
@[simp] theorem modQueue_interval (s : State) (k : Nat) (f : Queue → Queue) : (s.modQueue k f).interval = s.interval := rfl
@[simp] theorem modQueue_ctlRaised (s : State) (k : Nat) (f : Queue → Queue) : (s.modQueue k f).ctlRaised = s.ctlRaised := rfl
@[simp] theorem modQueue_mailboxes (s : State) (k : Nat) (f : Queue → Queue) : (s.modQueue k f).mailboxes = s.mailboxes := rfl
@[simp] theorem modQueue_irqs (s : State) (k : Nat) (f : Queue → Queue) : (s.modQueue k f).irqs = s.irqs := rfl
@[simp] theorem modQueue_hostReply (s : State) (k : Nat) (f : Queue → Queue) : (s.modQueue k f).hostReply = s.hostReply := rfl
@[simp] theorem modQueue_callReply (s : State) (k : Nat) (f : Queue → Queue) : (s.modQueue k f).callReply = s.callReply := rfl
@[simp] theorem modQueue_contexts (s : State) (k : Nat) (f : Queue → Queue) : (s.modQueue k f).contexts = s.contexts := rfl
@[simp] theorem modQueue_dies (s : State) (k : Nat) (f : Queue → Queue) : (s.modQueue k f).dies = s.dies := rfl
@[simp] theorem modQueue_regions (s : State) (k : Nat) (f : Queue → Queue) : (s.modQueue k f).regions = s.regions := rfl
@[simp] theorem modQueue_cores (s : State) (k : Nat) (f : Queue → Queue) : (s.modQueue k f).cores = s.cores := rfl
@[simp] theorem modQueue_debugs (s : State) (k : Nat) (f : Queue → Queue) : (s.modQueue k f).debugs = s.debugs := rfl
@[simp] theorem modQueue_channels (s : State) (k : Nat) (f : Queue → Queue) : (s.modQueue k f).channels = s.channels := rfl
@[simp] theorem modQueue_reserves (s : State) (k : Nat) (f : Queue → Queue) : (s.modQueue k f).reserves = s.reserves := rfl
@[simp] theorem modQueue_nextGrid (s : State) (k : Nat) (f : Queue → Queue) : (s.modQueue k f).nextGrid = s.nextGrid := rfl
@[simp] theorem modQueue_grids (s : State) (k : Nat) (f : Queue → Queue) : (s.modQueue k f).grids = s.grids := rfl
@[simp] theorem modQueue_gangs (s : State) (k : Nat) (f : Queue → Queue) : (s.modQueue k f).gangs = s.gangs := rfl
@[simp] theorem modQueue_teams (s : State) (k : Nat) (f : Queue → Queue) : (s.modQueue k f).teams = s.teams := rfl
@[simp] theorem modQueue_groups (s : State) (k : Nat) (f : Queue → Queue) : (s.modQueue k f).groups = s.groups := rfl
@[simp] theorem modQueue_seqs (s : State) (k : Nat) (f : Queue → Queue) : (s.modQueue k f).seqs = s.seqs := rfl
@[simp] theorem modQueue_builtins (s : State) (k : Nat) (f : Queue → Queue) : (s.modQueue k f).builtins = s.builtins := rfl
@[simp] theorem modQueue_mem (s : State) (k : Nat) (f : Queue → Queue) : (s.modQueue k f).mem = s.mem := rfl
@[simp] theorem modQueue_far (s : State) (k : Nat) (f : Queue → Queue) : (s.modQueue k f).far = s.far := rfl
@[simp] theorem modQueue_ledger (s : State) (k : Nat) (f : Queue → Queue) : (s.modQueue k f).ledger = s.ledger := rfl

@[simp] theorem modPort_cur (s : State) (k : Nat) (f : Port → Port) : (s.modPort k f).cur = s.cur := rfl
@[simp] theorem modPort_agenda (s : State) (k : Nat) (f : Port → Port) : (s.modPort k f).agenda = s.agenda := rfl
@[simp] theorem modPort_sel (s : State) (k : Nat) (f : Port → Port) : (s.modPort k f).sel = s.sel := rfl
@[simp] theorem modPort_steps (s : State) (k : Nat) (f : Port → Port) : (s.modPort k f).steps = s.steps := rfl
@[simp] theorem modPort_free (s : State) (k : Nat) (f : Port → Port) : (s.modPort k f).free = s.free := rfl
@[simp] theorem modPort_timer (s : State) (k : Nat) (f : Port → Port) : (s.modPort k f).timer = s.timer := rfl
@[simp] theorem modPort_devnum (s : State) (k : Nat) (f : Port → Port) : (s.modPort k f).devnum = s.devnum := rfl
@[simp] theorem modPort_devrdy (s : State) (k : Nat) (f : Port → Port) : (s.modPort k f).devrdy = s.devrdy := rfl
@[simp] theorem modPort_devfail (s : State) (k : Nat) (f : Port → Port) : (s.modPort k f).devfail = s.devfail := rfl
@[simp] theorem modPort_umaps (s : State) (k : Nat) (f : Port → Port) : (s.modPort k f).umaps = s.umaps := rfl
@[simp] theorem modPort_replies (s : State) (k : Nat) (f : Port → Port) : (s.modPort k f).replies = s.replies := rfl
@[simp] theorem modPort_routes (s : State) (k : Nat) (f : Port → Port) : (s.modPort k f).routes = s.routes := rfl
@[simp] theorem modPort_heldReqs (s : State) (k : Nat) (f : Port → Port) : (s.modPort k f).heldReqs = s.heldReqs := rfl
@[simp] theorem modPort_hostMsgs (s : State) (k : Nat) (f : Port → Port) : (s.modPort k f).hostMsgs = s.hostMsgs := rfl
@[simp] theorem modPort_t95 (s : State) (k : Nat) (f : Port → Port) : (s.modPort k f).t95 = s.t95 := rfl
@[simp] theorem modPort_t102 (s : State) (k : Nat) (f : Port → Port) : (s.modPort k f).t102 = s.t102 := rfl
@[simp] theorem modPort_t108 (s : State) (k : Nat) (f : Port → Port) : (s.modPort k f).t108 = s.t108 := rfl
@[simp] theorem modPort_tripped (s : State) (k : Nat) (f : Port → Port) : (s.modPort k f).tripped = s.tripped := rfl
@[simp] theorem modPort_plat (s : State) (k : Nat) (f : Port → Port) : (s.modPort k f).plat = s.plat := rfl
@[simp] theorem modPort_ident (s : State) (k : Nat) (f : Port → Port) : (s.modPort k f).ident = s.ident := rfl
@[simp] theorem modPort_meas (s : State) (k : Nat) (f : Port → Port) : (s.modPort k f).meas = s.meas := rfl
@[simp] theorem modPort_reports (s : State) (k : Nat) (f : Port → Port) : (s.modPort k f).reports = s.reports := rfl
@[simp] theorem modPort_linked (s : State) (k : Nat) (f : Port → Port) : (s.modPort k f).linked = s.linked := rfl
@[simp] theorem modPort_qown (s : State) (k : Nat) (f : Port → Port) : (s.modPort k f).qown = s.qown := rfl
@[simp] theorem modPort_fwin (s : State) (k : Nat) (f : Port → Port) : (s.modPort k f).fwin = s.fwin := rfl
@[simp] theorem modPort_queues (s : State) (k : Nat) (f : Port → Port) : (s.modPort k f).queues = s.queues := rfl
@[simp] theorem modPort_quantum (s : State) (k : Nat) (f : Port → Port) : (s.modPort k f).quantum = s.quantum := rfl
@[simp] theorem modPort_nopromo (s : State) (k : Nat) (f : Port → Port) : (s.modPort k f).nopromo = s.nopromo := rfl
@[simp] theorem modPort_hquota (s : State) (k : Nat) (f : Port → Port) : (s.modPort k f).hquota = s.hquota := rfl
@[simp] theorem modPort_pdeadline (s : State) (k : Nat) (f : Port → Port) : (s.modPort k f).pdeadline = s.pdeadline := rfl
@[simp] theorem modPort_interval (s : State) (k : Nat) (f : Port → Port) : (s.modPort k f).interval = s.interval := rfl
@[simp] theorem modPort_ctlRaised (s : State) (k : Nat) (f : Port → Port) : (s.modPort k f).ctlRaised = s.ctlRaised := rfl
@[simp] theorem modPort_mailboxes (s : State) (k : Nat) (f : Port → Port) : (s.modPort k f).mailboxes = s.mailboxes := rfl
@[simp] theorem modPort_irqs (s : State) (k : Nat) (f : Port → Port) : (s.modPort k f).irqs = s.irqs := rfl
@[simp] theorem modPort_hostReply (s : State) (k : Nat) (f : Port → Port) : (s.modPort k f).hostReply = s.hostReply := rfl
@[simp] theorem modPort_callReply (s : State) (k : Nat) (f : Port → Port) : (s.modPort k f).callReply = s.callReply := rfl
@[simp] theorem modPort_contexts (s : State) (k : Nat) (f : Port → Port) : (s.modPort k f).contexts = s.contexts := rfl
@[simp] theorem modPort_dies (s : State) (k : Nat) (f : Port → Port) : (s.modPort k f).dies = s.dies := rfl
@[simp] theorem modPort_regions (s : State) (k : Nat) (f : Port → Port) : (s.modPort k f).regions = s.regions := rfl
@[simp] theorem modPort_cores (s : State) (k : Nat) (f : Port → Port) : (s.modPort k f).cores = s.cores := rfl
@[simp] theorem modPort_debugs (s : State) (k : Nat) (f : Port → Port) : (s.modPort k f).debugs = s.debugs := rfl
@[simp] theorem modPort_channels (s : State) (k : Nat) (f : Port → Port) : (s.modPort k f).channels = s.channels := rfl
@[simp] theorem modPort_reserves (s : State) (k : Nat) (f : Port → Port) : (s.modPort k f).reserves = s.reserves := rfl
@[simp] theorem modPort_nextGrid (s : State) (k : Nat) (f : Port → Port) : (s.modPort k f).nextGrid = s.nextGrid := rfl
@[simp] theorem modPort_grids (s : State) (k : Nat) (f : Port → Port) : (s.modPort k f).grids = s.grids := rfl
@[simp] theorem modPort_gangs (s : State) (k : Nat) (f : Port → Port) : (s.modPort k f).gangs = s.gangs := rfl
@[simp] theorem modPort_teams (s : State) (k : Nat) (f : Port → Port) : (s.modPort k f).teams = s.teams := rfl
@[simp] theorem modPort_groups (s : State) (k : Nat) (f : Port → Port) : (s.modPort k f).groups = s.groups := rfl
@[simp] theorem modPort_seqs (s : State) (k : Nat) (f : Port → Port) : (s.modPort k f).seqs = s.seqs := rfl
@[simp] theorem modPort_builtins (s : State) (k : Nat) (f : Port → Port) : (s.modPort k f).builtins = s.builtins := rfl
@[simp] theorem modPort_mem (s : State) (k : Nat) (f : Port → Port) : (s.modPort k f).mem = s.mem := rfl
@[simp] theorem modPort_far (s : State) (k : Nat) (f : Port → Port) : (s.modPort k f).far = s.far := rfl
@[simp] theorem modPort_ledger (s : State) (k : Nat) (f : Port → Port) : (s.modPort k f).ledger = s.ledger := rfl

/-! ### Registers of a group -/

@[simp] theorem writeP_ctx (g : Group) (k : Nat) (m x : Mask) : (g.writeP k m x).ctx = g.ctx := rfl
@[simp] theorem writeP_die (g : Group) (k : Nat) (m x : Mask) : (g.writeP k m x).die = g.die := rfl
@[simp] theorem writeP_core (g : Group) (k : Nat) (m x : Mask) : (g.writeP k m x).core = g.core := rfl
@[simp] theorem writeP_quad (g : Group) (k : Nat) (m x : Mask) : (g.writeP k m x).quad = g.quad := rfl
@[simp] theorem writeP_slotNo (g : Group) (k : Nat) (m x : Mask) : (g.writeP k m x).slotNo = g.slotNo := rfl
@[simp] theorem writeP_vcore (g : Group) (k : Nat) (m x : Mask) : (g.writeP k m x).vcore = g.vcore := rfl
@[simp] theorem writeP_half (g : Group) (k : Nat) (m x : Mask) : (g.writeP k m x).half = g.half := rfl
@[simp] theorem writeP_role (g : Group) (k : Nat) (m x : Mask) : (g.writeP k m x).role = g.role := rfl
@[simp] theorem writeP_width (g : Group) (k : Nat) (m x : Mask) : (g.writeP k m x).width = g.width := rfl
@[simp] theorem writeP_base (g : Group) (k : Nat) (m x : Mask) : (g.writeP k m x).base = g.base := rfl
@[simp] theorem writeP_ext (g : Group) (k : Nat) (m x : Mask) : (g.writeP k m x).ext = g.ext := rfl
@[simp] theorem writeP_spawned (g : Group) (k : Nat) (m x : Mask) : (g.writeP k m x).spawned = g.spawned := rfl
@[simp] theorem writeP_order (g : Group) (k : Nat) (m x : Mask) : (g.writeP k m x).order = g.order := rfl
@[simp] theorem writeP_a (g : Group) (k : Nat) (m x : Mask) : (g.writeP k m x).a = g.a := rfl
@[simp] theorem writeP_b (g : Group) (k : Nat) (m x : Mask) : (g.writeP k m x).b = g.b := rfl
@[simp] theorem writeP_outer (g : Group) (k : Nat) (m x : Mask) : (g.writeP k m x).outer = g.outer := rfl
@[simp] theorem writeP_lastB (g : Group) (k : Nat) (m x : Mask) : (g.writeP k m x).lastB = g.lastB := rfl
@[simp] theorem writeP_h (g : Group) (k : Nat) (m x : Mask) : (g.writeP k m x).h = g.h := rfl
@[simp] theorem writeP_v (g : Group) (k : Nat) (m x : Mask) : (g.writeP k m x).v = g.v := rfl
@[simp] theorem writeP_flags (g : Group) (k : Nat) (m x : Mask) : (g.writeP k m x).flags = g.flags := rfl
@[simp] theorem writeP_dhalt (g : Group) (k : Nat) (m x : Mask) : (g.writeP k m x).dhalt = g.dhalt := rfl
@[simp] theorem writeP_kind (g : Group) (k : Nat) (m x : Mask) : (g.writeP k m x).kind = g.kind := rfl
@[simp] theorem writeP_mrp (g : Group) (k : Nat) (m x : Mask) : (g.writeP k m x).mrp = g.mrp := rfl
@[simp] theorem writeP_haltPc (g : Group) (k : Nat) (m x : Mask) : (g.writeP k m x).haltPc = g.haltPc := rfl
@[simp] theorem writeP_skid (g : Group) (k : Nat) (m x : Mask) : (g.writeP k m x).skid = g.skid := rfl
@[simp] theorem writeP_halted (g : Group) (k : Nat) (m x : Mask) : (g.writeP k m x).halted = g.halted := rfl
@[simp] theorem writeP_skidLeft (g : Group) (k : Nat) (m x : Mask) : (g.writeP k m x).skidLeft = g.skidLeft := rfl
@[simp] theorem writeP_squad (g : Group) (k : Nat) (m x : Mask) : (g.writeP k m x).squad = g.squad := rfl
@[simp] theorem writeP_hw (g : Group) (k : Nat) (m x : Mask) : (g.writeP k m x).hw = g.hw := rfl
@[simp] theorem writeP_spilled (g : Group) (k : Nat) (m x : Mask) : (g.writeP k m x).spilled = g.spilled := rfl
@[simp] theorem writeP_view (g : Group) (k : Nat) (m x : Mask) : (g.writeP k m x).view = g.view := rfl
@[simp] theorem writeP_viewEnd (g : Group) (k : Nat) (m x : Mask) : (g.writeP k m x).viewEnd = g.viewEnd := rfl
@[simp] theorem writeP_read (g : Group) (k : Nat) (m x : Mask) : (g.writeP k m x).read = g.read := rfl
@[simp] theorem writeP_batDiv (g : Group) (k : Nat) (m x : Mask) : (g.writeP k m x).batDiv = g.batDiv := rfl
@[simp] theorem writeP_post (g : Group) (k : Nat) (m x : Mask) : (g.writeP k m x).post = g.post := rfl
@[simp] theorem writeP_issued (g : Group) (k : Nat) (m x : Mask) : (g.writeP k m x).issued = g.issued := rfl
@[simp] theorem writeP_urgent (g : Group) (k : Nat) (m x : Mask) : (g.writeP k m x).urgent = g.urgent := rfl
@[simp] theorem writeP_sprint (g : Group) (k : Nat) (m x : Mask) : (g.writeP k m x).sprint = g.sprint := rfl
@[simp] theorem writeP_skip (g : Group) (k : Nat) (m x : Mask) : (g.writeP k m x).skip = g.skip := rfl
@[simp] theorem writeP_fenced (g : Group) (k : Nat) (m x : Mask) : (g.writeP k m x).fenced = g.fenced := rfl
@[simp] theorem writeP_wb (g : Group) (k : Nat) (m x : Mask) : (g.writeP k m x).wb = g.wb := rfl
@[simp] theorem writeP_wait (g : Group) (k : Nat) (m x : Mask) : (g.writeP k m x).wait = g.wait := rfl

@[simp] theorem writeV_ctx (g : Group) (n : Nat) (m : Mask) (f : Nat → BitVec 32) : (g.writeV n m f).ctx = g.ctx := rfl
@[simp] theorem writeV_die (g : Group) (n : Nat) (m : Mask) (f : Nat → BitVec 32) : (g.writeV n m f).die = g.die := rfl
@[simp] theorem writeV_core (g : Group) (n : Nat) (m : Mask) (f : Nat → BitVec 32) : (g.writeV n m f).core = g.core := rfl
@[simp] theorem writeV_quad (g : Group) (n : Nat) (m : Mask) (f : Nat → BitVec 32) : (g.writeV n m f).quad = g.quad := rfl
@[simp] theorem writeV_slotNo (g : Group) (n : Nat) (m : Mask) (f : Nat → BitVec 32) : (g.writeV n m f).slotNo = g.slotNo := rfl
@[simp] theorem writeV_vcore (g : Group) (n : Nat) (m : Mask) (f : Nat → BitVec 32) : (g.writeV n m f).vcore = g.vcore := rfl
@[simp] theorem writeV_half (g : Group) (n : Nat) (m : Mask) (f : Nat → BitVec 32) : (g.writeV n m f).half = g.half := rfl
@[simp] theorem writeV_role (g : Group) (n : Nat) (m : Mask) (f : Nat → BitVec 32) : (g.writeV n m f).role = g.role := rfl
@[simp] theorem writeV_width (g : Group) (n : Nat) (m : Mask) (f : Nat → BitVec 32) : (g.writeV n m f).width = g.width := rfl
@[simp] theorem writeV_base (g : Group) (n : Nat) (m : Mask) (f : Nat → BitVec 32) : (g.writeV n m f).base = g.base := rfl
@[simp] theorem writeV_ext (g : Group) (n : Nat) (m : Mask) (f : Nat → BitVec 32) : (g.writeV n m f).ext = g.ext := rfl
@[simp] theorem writeV_spawned (g : Group) (n : Nat) (m : Mask) (f : Nat → BitVec 32) : (g.writeV n m f).spawned = g.spawned := rfl
@[simp] theorem writeV_order (g : Group) (n : Nat) (m : Mask) (f : Nat → BitVec 32) : (g.writeV n m f).order = g.order := rfl
@[simp] theorem writeV_a (g : Group) (n : Nat) (m : Mask) (f : Nat → BitVec 32) : (g.writeV n m f).a = g.a := rfl
@[simp] theorem writeV_b (g : Group) (n : Nat) (m : Mask) (f : Nat → BitVec 32) : (g.writeV n m f).b = g.b := rfl
@[simp] theorem writeV_outer (g : Group) (n : Nat) (m : Mask) (f : Nat → BitVec 32) : (g.writeV n m f).outer = g.outer := rfl
@[simp] theorem writeV_lastB (g : Group) (n : Nat) (m : Mask) (f : Nat → BitVec 32) : (g.writeV n m f).lastB = g.lastB := rfl
@[simp] theorem writeV_p (g : Group) (n : Nat) (m : Mask) (f : Nat → BitVec 32) : (g.writeV n m f).p = g.p := rfl
@[simp] theorem writeV_elected (g : Group) (n : Nat) (m : Mask) (f : Nat → BitVec 32) : (g.writeV n m f).elected = g.elected := rfl
@[simp] theorem writeV_h (g : Group) (n : Nat) (m : Mask) (f : Nat → BitVec 32) : (g.writeV n m f).h = g.h := rfl
@[simp] theorem writeV_flags (g : Group) (n : Nat) (m : Mask) (f : Nat → BitVec 32) : (g.writeV n m f).flags = g.flags := rfl
@[simp] theorem writeV_dhalt (g : Group) (n : Nat) (m : Mask) (f : Nat → BitVec 32) : (g.writeV n m f).dhalt = g.dhalt := rfl
@[simp] theorem writeV_kind (g : Group) (n : Nat) (m : Mask) (f : Nat → BitVec 32) : (g.writeV n m f).kind = g.kind := rfl
@[simp] theorem writeV_mrp (g : Group) (n : Nat) (m : Mask) (f : Nat → BitVec 32) : (g.writeV n m f).mrp = g.mrp := rfl
@[simp] theorem writeV_haltPc (g : Group) (n : Nat) (m : Mask) (f : Nat → BitVec 32) : (g.writeV n m f).haltPc = g.haltPc := rfl
@[simp] theorem writeV_skid (g : Group) (n : Nat) (m : Mask) (f : Nat → BitVec 32) : (g.writeV n m f).skid = g.skid := rfl
@[simp] theorem writeV_halted (g : Group) (n : Nat) (m : Mask) (f : Nat → BitVec 32) : (g.writeV n m f).halted = g.halted := rfl
@[simp] theorem writeV_skidLeft (g : Group) (n : Nat) (m : Mask) (f : Nat → BitVec 32) : (g.writeV n m f).skidLeft = g.skidLeft := rfl
@[simp] theorem writeV_squad (g : Group) (n : Nat) (m : Mask) (f : Nat → BitVec 32) : (g.writeV n m f).squad = g.squad := rfl
@[simp] theorem writeV_hw (g : Group) (n : Nat) (m : Mask) (f : Nat → BitVec 32) : (g.writeV n m f).hw = g.hw := rfl
@[simp] theorem writeV_spilled (g : Group) (n : Nat) (m : Mask) (f : Nat → BitVec 32) : (g.writeV n m f).spilled = g.spilled := rfl
@[simp] theorem writeV_view (g : Group) (n : Nat) (m : Mask) (f : Nat → BitVec 32) : (g.writeV n m f).view = g.view := rfl
@[simp] theorem writeV_viewEnd (g : Group) (n : Nat) (m : Mask) (f : Nat → BitVec 32) : (g.writeV n m f).viewEnd = g.viewEnd := rfl
@[simp] theorem writeV_read (g : Group) (n : Nat) (m : Mask) (f : Nat → BitVec 32) : (g.writeV n m f).read = g.read := rfl
@[simp] theorem writeV_batDiv (g : Group) (n : Nat) (m : Mask) (f : Nat → BitVec 32) : (g.writeV n m f).batDiv = g.batDiv := rfl
@[simp] theorem writeV_post (g : Group) (n : Nat) (m : Mask) (f : Nat → BitVec 32) : (g.writeV n m f).post = g.post := rfl
@[simp] theorem writeV_issued (g : Group) (n : Nat) (m : Mask) (f : Nat → BitVec 32) : (g.writeV n m f).issued = g.issued := rfl
@[simp] theorem writeV_urgent (g : Group) (n : Nat) (m : Mask) (f : Nat → BitVec 32) : (g.writeV n m f).urgent = g.urgent := rfl
@[simp] theorem writeV_sprint (g : Group) (n : Nat) (m : Mask) (f : Nat → BitVec 32) : (g.writeV n m f).sprint = g.sprint := rfl
@[simp] theorem writeV_skip (g : Group) (n : Nat) (m : Mask) (f : Nat → BitVec 32) : (g.writeV n m f).skip = g.skip := rfl
@[simp] theorem writeV_fenced (g : Group) (n : Nat) (m : Mask) (f : Nat → BitVec 32) : (g.writeV n m f).fenced = g.fenced := rfl
@[simp] theorem writeV_wb (g : Group) (n : Nat) (m : Mask) (f : Nat → BitVec 32) : (g.writeV n m f).wb = g.wb := rfl
@[simp] theorem writeV_wait (g : Group) (n : Nat) (m : Mask) (f : Nat → BitVec 32) : (g.writeV n m f).wait = g.wait := rfl

@[simp] theorem vacate_ctx (g : Group) (n : Nat) : (g.vacate n).ctx = g.ctx := rfl
@[simp] theorem vacate_die (g : Group) (n : Nat) : (g.vacate n).die = g.die := rfl
@[simp] theorem vacate_core (g : Group) (n : Nat) : (g.vacate n).core = g.core := rfl
@[simp] theorem vacate_quad (g : Group) (n : Nat) : (g.vacate n).quad = g.quad := rfl
@[simp] theorem vacate_slotNo (g : Group) (n : Nat) : (g.vacate n).slotNo = g.slotNo := rfl
@[simp] theorem vacate_vcore (g : Group) (n : Nat) : (g.vacate n).vcore = g.vcore := rfl
@[simp] theorem vacate_half (g : Group) (n : Nat) : (g.vacate n).half = g.half := rfl
@[simp] theorem vacate_role (g : Group) (n : Nat) : (g.vacate n).role = g.role := rfl
@[simp] theorem vacate_width (g : Group) (n : Nat) : (g.vacate n).width = g.width := rfl
@[simp] theorem vacate_base (g : Group) (n : Nat) : (g.vacate n).base = g.base := rfl
@[simp] theorem vacate_ext (g : Group) (n : Nat) : (g.vacate n).ext = g.ext := rfl
@[simp] theorem vacate_spawned (g : Group) (n : Nat) : (g.vacate n).spawned = g.spawned := rfl
@[simp] theorem vacate_order (g : Group) (n : Nat) : (g.vacate n).order = g.order := rfl
@[simp] theorem vacate_a (g : Group) (n : Nat) : (g.vacate n).a = g.a := rfl
@[simp] theorem vacate_b (g : Group) (n : Nat) : (g.vacate n).b = g.b := rfl
@[simp] theorem vacate_outer (g : Group) (n : Nat) : (g.vacate n).outer = g.outer := rfl
@[simp] theorem vacate_lastB (g : Group) (n : Nat) : (g.vacate n).lastB = g.lastB := rfl
@[simp] theorem vacate_p (g : Group) (n : Nat) : (g.vacate n).p = g.p := rfl
@[simp] theorem vacate_elected (g : Group) (n : Nat) : (g.vacate n).elected = g.elected := rfl
@[simp] theorem vacate_h (g : Group) (n : Nat) : (g.vacate n).h = g.h := rfl
@[simp] theorem vacate_flags (g : Group) (n : Nat) : (g.vacate n).flags = g.flags := rfl
@[simp] theorem vacate_dhalt (g : Group) (n : Nat) : (g.vacate n).dhalt = g.dhalt := rfl
@[simp] theorem vacate_kind (g : Group) (n : Nat) : (g.vacate n).kind = g.kind := rfl
@[simp] theorem vacate_mrp (g : Group) (n : Nat) : (g.vacate n).mrp = g.mrp := rfl
@[simp] theorem vacate_haltPc (g : Group) (n : Nat) : (g.vacate n).haltPc = g.haltPc := rfl
@[simp] theorem vacate_skid (g : Group) (n : Nat) : (g.vacate n).skid = g.skid := rfl
@[simp] theorem vacate_halted (g : Group) (n : Nat) : (g.vacate n).halted = g.halted := rfl
@[simp] theorem vacate_skidLeft (g : Group) (n : Nat) : (g.vacate n).skidLeft = g.skidLeft := rfl
@[simp] theorem vacate_squad (g : Group) (n : Nat) : (g.vacate n).squad = g.squad := rfl
@[simp] theorem vacate_hw (g : Group) (n : Nat) : (g.vacate n).hw = g.hw := rfl
@[simp] theorem vacate_spilled (g : Group) (n : Nat) : (g.vacate n).spilled = g.spilled := rfl
@[simp] theorem vacate_view (g : Group) (n : Nat) : (g.vacate n).view = g.view := rfl
@[simp] theorem vacate_viewEnd (g : Group) (n : Nat) : (g.vacate n).viewEnd = g.viewEnd := rfl
@[simp] theorem vacate_read (g : Group) (n : Nat) : (g.vacate n).read = g.read := rfl
@[simp] theorem vacate_batDiv (g : Group) (n : Nat) : (g.vacate n).batDiv = g.batDiv := rfl
@[simp] theorem vacate_post (g : Group) (n : Nat) : (g.vacate n).post = g.post := rfl
@[simp] theorem vacate_issued (g : Group) (n : Nat) : (g.vacate n).issued = g.issued := rfl
@[simp] theorem vacate_urgent (g : Group) (n : Nat) : (g.vacate n).urgent = g.urgent := rfl
@[simp] theorem vacate_sprint (g : Group) (n : Nat) : (g.vacate n).sprint = g.sprint := rfl
@[simp] theorem vacate_skip (g : Group) (n : Nat) : (g.vacate n).skip = g.skip := rfl
@[simp] theorem vacate_fenced (g : Group) (n : Nat) : (g.vacate n).fenced = g.fenced := rfl
@[simp] theorem vacate_wb (g : Group) (n : Nat) : (g.vacate n).wb = g.wb := rfl
@[simp] theorem vacate_wait (g : Group) (n : Nat) : (g.vacate n).wait = g.wait := rfl

@[simp] theorem emptyV_ctx (g : Group) (n : Nat) : (g.emptyV n).ctx = g.ctx := rfl
@[simp] theorem emptyV_die (g : Group) (n : Nat) : (g.emptyV n).die = g.die := rfl
@[simp] theorem emptyV_core (g : Group) (n : Nat) : (g.emptyV n).core = g.core := rfl
@[simp] theorem emptyV_quad (g : Group) (n : Nat) : (g.emptyV n).quad = g.quad := rfl
@[simp] theorem emptyV_slotNo (g : Group) (n : Nat) : (g.emptyV n).slotNo = g.slotNo := rfl
@[simp] theorem emptyV_vcore (g : Group) (n : Nat) : (g.emptyV n).vcore = g.vcore := rfl
@[simp] theorem emptyV_half (g : Group) (n : Nat) : (g.emptyV n).half = g.half := rfl
@[simp] theorem emptyV_role (g : Group) (n : Nat) : (g.emptyV n).role = g.role := rfl
@[simp] theorem emptyV_width (g : Group) (n : Nat) : (g.emptyV n).width = g.width := rfl
@[simp] theorem emptyV_base (g : Group) (n : Nat) : (g.emptyV n).base = g.base := rfl
@[simp] theorem emptyV_ext (g : Group) (n : Nat) : (g.emptyV n).ext = g.ext := rfl
@[simp] theorem emptyV_spawned (g : Group) (n : Nat) : (g.emptyV n).spawned = g.spawned := rfl
@[simp] theorem emptyV_order (g : Group) (n : Nat) : (g.emptyV n).order = g.order := rfl
@[simp] theorem emptyV_a (g : Group) (n : Nat) : (g.emptyV n).a = g.a := rfl
@[simp] theorem emptyV_b (g : Group) (n : Nat) : (g.emptyV n).b = g.b := rfl
@[simp] theorem emptyV_outer (g : Group) (n : Nat) : (g.emptyV n).outer = g.outer := rfl
@[simp] theorem emptyV_lastB (g : Group) (n : Nat) : (g.emptyV n).lastB = g.lastB := rfl
@[simp] theorem emptyV_p (g : Group) (n : Nat) : (g.emptyV n).p = g.p := rfl
@[simp] theorem emptyV_elected (g : Group) (n : Nat) : (g.emptyV n).elected = g.elected := rfl
@[simp] theorem emptyV_h (g : Group) (n : Nat) : (g.emptyV n).h = g.h := rfl
@[simp] theorem emptyV_flags (g : Group) (n : Nat) : (g.emptyV n).flags = g.flags := rfl
@[simp] theorem emptyV_dhalt (g : Group) (n : Nat) : (g.emptyV n).dhalt = g.dhalt := rfl
@[simp] theorem emptyV_kind (g : Group) (n : Nat) : (g.emptyV n).kind = g.kind := rfl
@[simp] theorem emptyV_mrp (g : Group) (n : Nat) : (g.emptyV n).mrp = g.mrp := rfl
@[simp] theorem emptyV_haltPc (g : Group) (n : Nat) : (g.emptyV n).haltPc = g.haltPc := rfl
@[simp] theorem emptyV_skid (g : Group) (n : Nat) : (g.emptyV n).skid = g.skid := rfl
@[simp] theorem emptyV_halted (g : Group) (n : Nat) : (g.emptyV n).halted = g.halted := rfl
@[simp] theorem emptyV_skidLeft (g : Group) (n : Nat) : (g.emptyV n).skidLeft = g.skidLeft := rfl
@[simp] theorem emptyV_squad (g : Group) (n : Nat) : (g.emptyV n).squad = g.squad := rfl
@[simp] theorem emptyV_hw (g : Group) (n : Nat) : (g.emptyV n).hw = g.hw := rfl
@[simp] theorem emptyV_spilled (g : Group) (n : Nat) : (g.emptyV n).spilled = g.spilled := rfl
@[simp] theorem emptyV_view (g : Group) (n : Nat) : (g.emptyV n).view = g.view := rfl
@[simp] theorem emptyV_viewEnd (g : Group) (n : Nat) : (g.emptyV n).viewEnd = g.viewEnd := rfl
@[simp] theorem emptyV_read (g : Group) (n : Nat) : (g.emptyV n).read = g.read := rfl
@[simp] theorem emptyV_batDiv (g : Group) (n : Nat) : (g.emptyV n).batDiv = g.batDiv := rfl
@[simp] theorem emptyV_post (g : Group) (n : Nat) : (g.emptyV n).post = g.post := rfl
@[simp] theorem emptyV_issued (g : Group) (n : Nat) : (g.emptyV n).issued = g.issued := rfl
@[simp] theorem emptyV_urgent (g : Group) (n : Nat) : (g.emptyV n).urgent = g.urgent := rfl
@[simp] theorem emptyV_sprint (g : Group) (n : Nat) : (g.emptyV n).sprint = g.sprint := rfl
@[simp] theorem emptyV_skip (g : Group) (n : Nat) : (g.emptyV n).skip = g.skip := rfl
@[simp] theorem emptyV_fenced (g : Group) (n : Nat) : (g.emptyV n).fenced = g.fenced := rfl
@[simp] theorem emptyV_wb (g : Group) (n : Nat) : (g.emptyV n).wb = g.wb := rfl
@[simp] theorem emptyV_wait (g : Group) (n : Nat) : (g.emptyV n).wait = g.wait := rfl

@[simp] theorem writeH_ctx (g : Group) (k : Nat) (x : BitVec 32) : (g.writeH k x).ctx = g.ctx := rfl
@[simp] theorem writeH_die (g : Group) (k : Nat) (x : BitVec 32) : (g.writeH k x).die = g.die := rfl
@[simp] theorem writeH_core (g : Group) (k : Nat) (x : BitVec 32) : (g.writeH k x).core = g.core := rfl
@[simp] theorem writeH_quad (g : Group) (k : Nat) (x : BitVec 32) : (g.writeH k x).quad = g.quad := rfl
@[simp] theorem writeH_slotNo (g : Group) (k : Nat) (x : BitVec 32) : (g.writeH k x).slotNo = g.slotNo := rfl
@[simp] theorem writeH_vcore (g : Group) (k : Nat) (x : BitVec 32) : (g.writeH k x).vcore = g.vcore := rfl
@[simp] theorem writeH_half (g : Group) (k : Nat) (x : BitVec 32) : (g.writeH k x).half = g.half := rfl
@[simp] theorem writeH_role (g : Group) (k : Nat) (x : BitVec 32) : (g.writeH k x).role = g.role := rfl
@[simp] theorem writeH_width (g : Group) (k : Nat) (x : BitVec 32) : (g.writeH k x).width = g.width := rfl
@[simp] theorem writeH_base (g : Group) (k : Nat) (x : BitVec 32) : (g.writeH k x).base = g.base := rfl
@[simp] theorem writeH_ext (g : Group) (k : Nat) (x : BitVec 32) : (g.writeH k x).ext = g.ext := rfl
@[simp] theorem writeH_spawned (g : Group) (k : Nat) (x : BitVec 32) : (g.writeH k x).spawned = g.spawned := rfl
@[simp] theorem writeH_order (g : Group) (k : Nat) (x : BitVec 32) : (g.writeH k x).order = g.order := rfl
@[simp] theorem writeH_a (g : Group) (k : Nat) (x : BitVec 32) : (g.writeH k x).a = g.a := rfl
@[simp] theorem writeH_b (g : Group) (k : Nat) (x : BitVec 32) : (g.writeH k x).b = g.b := rfl
@[simp] theorem writeH_outer (g : Group) (k : Nat) (x : BitVec 32) : (g.writeH k x).outer = g.outer := rfl
@[simp] theorem writeH_lastB (g : Group) (k : Nat) (x : BitVec 32) : (g.writeH k x).lastB = g.lastB := rfl
@[simp] theorem writeH_p (g : Group) (k : Nat) (x : BitVec 32) : (g.writeH k x).p = g.p := rfl
@[simp] theorem writeH_elected (g : Group) (k : Nat) (x : BitVec 32) : (g.writeH k x).elected = g.elected := rfl
@[simp] theorem writeH_v (g : Group) (k : Nat) (x : BitVec 32) : (g.writeH k x).v = g.v := rfl
@[simp] theorem writeH_flags (g : Group) (k : Nat) (x : BitVec 32) : (g.writeH k x).flags = g.flags := rfl
@[simp] theorem writeH_dhalt (g : Group) (k : Nat) (x : BitVec 32) : (g.writeH k x).dhalt = g.dhalt := rfl
@[simp] theorem writeH_kind (g : Group) (k : Nat) (x : BitVec 32) : (g.writeH k x).kind = g.kind := rfl
@[simp] theorem writeH_mrp (g : Group) (k : Nat) (x : BitVec 32) : (g.writeH k x).mrp = g.mrp := rfl
@[simp] theorem writeH_haltPc (g : Group) (k : Nat) (x : BitVec 32) : (g.writeH k x).haltPc = g.haltPc := rfl
@[simp] theorem writeH_skid (g : Group) (k : Nat) (x : BitVec 32) : (g.writeH k x).skid = g.skid := rfl
@[simp] theorem writeH_halted (g : Group) (k : Nat) (x : BitVec 32) : (g.writeH k x).halted = g.halted := rfl
@[simp] theorem writeH_skidLeft (g : Group) (k : Nat) (x : BitVec 32) : (g.writeH k x).skidLeft = g.skidLeft := rfl
@[simp] theorem writeH_squad (g : Group) (k : Nat) (x : BitVec 32) : (g.writeH k x).squad = g.squad := rfl
@[simp] theorem writeH_hw (g : Group) (k : Nat) (x : BitVec 32) : (g.writeH k x).hw = g.hw := rfl
@[simp] theorem writeH_spilled (g : Group) (k : Nat) (x : BitVec 32) : (g.writeH k x).spilled = g.spilled := rfl
@[simp] theorem writeH_view (g : Group) (k : Nat) (x : BitVec 32) : (g.writeH k x).view = g.view := rfl
@[simp] theorem writeH_viewEnd (g : Group) (k : Nat) (x : BitVec 32) : (g.writeH k x).viewEnd = g.viewEnd := rfl
@[simp] theorem writeH_read (g : Group) (k : Nat) (x : BitVec 32) : (g.writeH k x).read = g.read := rfl
@[simp] theorem writeH_batDiv (g : Group) (k : Nat) (x : BitVec 32) : (g.writeH k x).batDiv = g.batDiv := rfl
@[simp] theorem writeH_post (g : Group) (k : Nat) (x : BitVec 32) : (g.writeH k x).post = g.post := rfl
@[simp] theorem writeH_issued (g : Group) (k : Nat) (x : BitVec 32) : (g.writeH k x).issued = g.issued := rfl
@[simp] theorem writeH_urgent (g : Group) (k : Nat) (x : BitVec 32) : (g.writeH k x).urgent = g.urgent := rfl
@[simp] theorem writeH_sprint (g : Group) (k : Nat) (x : BitVec 32) : (g.writeH k x).sprint = g.sprint := rfl
@[simp] theorem writeH_skip (g : Group) (k : Nat) (x : BitVec 32) : (g.writeH k x).skip = g.skip := rfl
@[simp] theorem writeH_fenced (g : Group) (k : Nat) (x : BitVec 32) : (g.writeH k x).fenced = g.fenced := rfl
@[simp] theorem writeH_wb (g : Group) (k : Nat) (x : BitVec 32) : (g.writeH k x).wb = g.wb := rfl
@[simp] theorem writeH_wait (g : Group) (k : Nat) (x : BitVec 32) : (g.writeH k x).wait = g.wait := rfl

@[simp] theorem raise_ctx (g : Group) (f : BitVec 5) : (g.raise f).ctx = g.ctx := rfl
@[simp] theorem raise_die (g : Group) (f : BitVec 5) : (g.raise f).die = g.die := rfl
@[simp] theorem raise_core (g : Group) (f : BitVec 5) : (g.raise f).core = g.core := rfl
@[simp] theorem raise_quad (g : Group) (f : BitVec 5) : (g.raise f).quad = g.quad := rfl
@[simp] theorem raise_slotNo (g : Group) (f : BitVec 5) : (g.raise f).slotNo = g.slotNo := rfl
@[simp] theorem raise_vcore (g : Group) (f : BitVec 5) : (g.raise f).vcore = g.vcore := rfl
@[simp] theorem raise_half (g : Group) (f : BitVec 5) : (g.raise f).half = g.half := rfl
@[simp] theorem raise_role (g : Group) (f : BitVec 5) : (g.raise f).role = g.role := rfl
@[simp] theorem raise_width (g : Group) (f : BitVec 5) : (g.raise f).width = g.width := rfl
@[simp] theorem raise_base (g : Group) (f : BitVec 5) : (g.raise f).base = g.base := rfl
@[simp] theorem raise_ext (g : Group) (f : BitVec 5) : (g.raise f).ext = g.ext := rfl
@[simp] theorem raise_spawned (g : Group) (f : BitVec 5) : (g.raise f).spawned = g.spawned := rfl
@[simp] theorem raise_order (g : Group) (f : BitVec 5) : (g.raise f).order = g.order := rfl
@[simp] theorem raise_a (g : Group) (f : BitVec 5) : (g.raise f).a = g.a := rfl
@[simp] theorem raise_b (g : Group) (f : BitVec 5) : (g.raise f).b = g.b := rfl
@[simp] theorem raise_outer (g : Group) (f : BitVec 5) : (g.raise f).outer = g.outer := rfl
@[simp] theorem raise_lastB (g : Group) (f : BitVec 5) : (g.raise f).lastB = g.lastB := rfl
@[simp] theorem raise_p (g : Group) (f : BitVec 5) : (g.raise f).p = g.p := rfl
@[simp] theorem raise_elected (g : Group) (f : BitVec 5) : (g.raise f).elected = g.elected := rfl
@[simp] theorem raise_h (g : Group) (f : BitVec 5) : (g.raise f).h = g.h := rfl
@[simp] theorem raise_v (g : Group) (f : BitVec 5) : (g.raise f).v = g.v := rfl
@[simp] theorem raise_dhalt (g : Group) (f : BitVec 5) : (g.raise f).dhalt = g.dhalt := rfl
@[simp] theorem raise_kind (g : Group) (f : BitVec 5) : (g.raise f).kind = g.kind := rfl
@[simp] theorem raise_mrp (g : Group) (f : BitVec 5) : (g.raise f).mrp = g.mrp := rfl
@[simp] theorem raise_haltPc (g : Group) (f : BitVec 5) : (g.raise f).haltPc = g.haltPc := rfl
@[simp] theorem raise_skid (g : Group) (f : BitVec 5) : (g.raise f).skid = g.skid := rfl
@[simp] theorem raise_halted (g : Group) (f : BitVec 5) : (g.raise f).halted = g.halted := rfl
@[simp] theorem raise_skidLeft (g : Group) (f : BitVec 5) : (g.raise f).skidLeft = g.skidLeft := rfl
@[simp] theorem raise_squad (g : Group) (f : BitVec 5) : (g.raise f).squad = g.squad := rfl
@[simp] theorem raise_hw (g : Group) (f : BitVec 5) : (g.raise f).hw = g.hw := rfl
@[simp] theorem raise_spilled (g : Group) (f : BitVec 5) : (g.raise f).spilled = g.spilled := rfl
@[simp] theorem raise_view (g : Group) (f : BitVec 5) : (g.raise f).view = g.view := rfl
@[simp] theorem raise_viewEnd (g : Group) (f : BitVec 5) : (g.raise f).viewEnd = g.viewEnd := rfl
@[simp] theorem raise_read (g : Group) (f : BitVec 5) : (g.raise f).read = g.read := rfl
@[simp] theorem raise_batDiv (g : Group) (f : BitVec 5) : (g.raise f).batDiv = g.batDiv := rfl
@[simp] theorem raise_post (g : Group) (f : BitVec 5) : (g.raise f).post = g.post := rfl
@[simp] theorem raise_issued (g : Group) (f : BitVec 5) : (g.raise f).issued = g.issued := rfl
@[simp] theorem raise_urgent (g : Group) (f : BitVec 5) : (g.raise f).urgent = g.urgent := rfl
@[simp] theorem raise_sprint (g : Group) (f : BitVec 5) : (g.raise f).sprint = g.sprint := rfl
@[simp] theorem raise_skip (g : Group) (f : BitVec 5) : (g.raise f).skip = g.skip := rfl
@[simp] theorem raise_fenced (g : Group) (f : BitVec 5) : (g.raise f).fenced = g.fenced := rfl
@[simp] theorem raise_wb (g : Group) (f : BitVec 5) : (g.raise f).wb = g.wb := rfl
@[simp] theorem raise_wait (g : Group) (f : BitVec 5) : (g.raise f).wait = g.wait := rfl

@[simp] theorem setSlot_ctx (g : Group) (sl : SlotId) (x : Slot) : (g.setSlot sl x).ctx = g.ctx := by cases sl <;> rfl
@[simp] theorem setSlot_die (g : Group) (sl : SlotId) (x : Slot) : (g.setSlot sl x).die = g.die := by cases sl <;> rfl
@[simp] theorem setSlot_core (g : Group) (sl : SlotId) (x : Slot) : (g.setSlot sl x).core = g.core := by cases sl <;> rfl
@[simp] theorem setSlot_quad (g : Group) (sl : SlotId) (x : Slot) : (g.setSlot sl x).quad = g.quad := by cases sl <;> rfl
@[simp] theorem setSlot_slotNo (g : Group) (sl : SlotId) (x : Slot) : (g.setSlot sl x).slotNo = g.slotNo := by cases sl <;> rfl
@[simp] theorem setSlot_vcore (g : Group) (sl : SlotId) (x : Slot) : (g.setSlot sl x).vcore = g.vcore := by cases sl <;> rfl
@[simp] theorem setSlot_half (g : Group) (sl : SlotId) (x : Slot) : (g.setSlot sl x).half = g.half := by cases sl <;> rfl
@[simp] theorem setSlot_role (g : Group) (sl : SlotId) (x : Slot) : (g.setSlot sl x).role = g.role := by cases sl <;> rfl
@[simp] theorem setSlot_width (g : Group) (sl : SlotId) (x : Slot) : (g.setSlot sl x).width = g.width := by cases sl <;> rfl
@[simp] theorem setSlot_base (g : Group) (sl : SlotId) (x : Slot) : (g.setSlot sl x).base = g.base := by cases sl <;> rfl
@[simp] theorem setSlot_ext (g : Group) (sl : SlotId) (x : Slot) : (g.setSlot sl x).ext = g.ext := by cases sl <;> rfl
@[simp] theorem setSlot_spawned (g : Group) (sl : SlotId) (x : Slot) : (g.setSlot sl x).spawned = g.spawned := by cases sl <;> rfl
@[simp] theorem setSlot_order (g : Group) (sl : SlotId) (x : Slot) : (g.setSlot sl x).order = g.order := by cases sl <;> rfl
@[simp] theorem setSlot_outer (g : Group) (sl : SlotId) (x : Slot) : (g.setSlot sl x).outer = g.outer := by cases sl <;> rfl
@[simp] theorem setSlot_lastB (g : Group) (sl : SlotId) (x : Slot) : (g.setSlot sl x).lastB = g.lastB := by cases sl <;> rfl
@[simp] theorem setSlot_p (g : Group) (sl : SlotId) (x : Slot) : (g.setSlot sl x).p = g.p := by cases sl <;> rfl
@[simp] theorem setSlot_elected (g : Group) (sl : SlotId) (x : Slot) : (g.setSlot sl x).elected = g.elected := by cases sl <;> rfl
@[simp] theorem setSlot_h (g : Group) (sl : SlotId) (x : Slot) : (g.setSlot sl x).h = g.h := by cases sl <;> rfl
@[simp] theorem setSlot_v (g : Group) (sl : SlotId) (x : Slot) : (g.setSlot sl x).v = g.v := by cases sl <;> rfl
@[simp] theorem setSlot_flags (g : Group) (sl : SlotId) (x : Slot) : (g.setSlot sl x).flags = g.flags := by cases sl <;> rfl
@[simp] theorem setSlot_dhalt (g : Group) (sl : SlotId) (x : Slot) : (g.setSlot sl x).dhalt = g.dhalt := by cases sl <;> rfl
@[simp] theorem setSlot_kind (g : Group) (sl : SlotId) (x : Slot) : (g.setSlot sl x).kind = g.kind := by cases sl <;> rfl
@[simp] theorem setSlot_mrp (g : Group) (sl : SlotId) (x : Slot) : (g.setSlot sl x).mrp = g.mrp := by cases sl <;> rfl
@[simp] theorem setSlot_haltPc (g : Group) (sl : SlotId) (x : Slot) : (g.setSlot sl x).haltPc = g.haltPc := by cases sl <;> rfl
@[simp] theorem setSlot_skid (g : Group) (sl : SlotId) (x : Slot) : (g.setSlot sl x).skid = g.skid := by cases sl <;> rfl
@[simp] theorem setSlot_halted (g : Group) (sl : SlotId) (x : Slot) : (g.setSlot sl x).halted = g.halted := by cases sl <;> rfl
@[simp] theorem setSlot_skidLeft (g : Group) (sl : SlotId) (x : Slot) : (g.setSlot sl x).skidLeft = g.skidLeft := by cases sl <;> rfl
@[simp] theorem setSlot_squad (g : Group) (sl : SlotId) (x : Slot) : (g.setSlot sl x).squad = g.squad := by cases sl <;> rfl
@[simp] theorem setSlot_hw (g : Group) (sl : SlotId) (x : Slot) : (g.setSlot sl x).hw = g.hw := by cases sl <;> rfl
@[simp] theorem setSlot_spilled (g : Group) (sl : SlotId) (x : Slot) : (g.setSlot sl x).spilled = g.spilled := by cases sl <;> rfl
@[simp] theorem setSlot_view (g : Group) (sl : SlotId) (x : Slot) : (g.setSlot sl x).view = g.view := by cases sl <;> rfl
@[simp] theorem setSlot_viewEnd (g : Group) (sl : SlotId) (x : Slot) : (g.setSlot sl x).viewEnd = g.viewEnd := by cases sl <;> rfl
@[simp] theorem setSlot_read (g : Group) (sl : SlotId) (x : Slot) : (g.setSlot sl x).read = g.read := by cases sl <;> rfl
@[simp] theorem setSlot_batDiv (g : Group) (sl : SlotId) (x : Slot) : (g.setSlot sl x).batDiv = g.batDiv := by cases sl <;> rfl
@[simp] theorem setSlot_post (g : Group) (sl : SlotId) (x : Slot) : (g.setSlot sl x).post = g.post := by cases sl <;> rfl
@[simp] theorem setSlot_issued (g : Group) (sl : SlotId) (x : Slot) : (g.setSlot sl x).issued = g.issued := by cases sl <;> rfl
@[simp] theorem setSlot_urgent (g : Group) (sl : SlotId) (x : Slot) : (g.setSlot sl x).urgent = g.urgent := by cases sl <;> rfl
@[simp] theorem setSlot_sprint (g : Group) (sl : SlotId) (x : Slot) : (g.setSlot sl x).sprint = g.sprint := by cases sl <;> rfl
@[simp] theorem setSlot_skip (g : Group) (sl : SlotId) (x : Slot) : (g.setSlot sl x).skip = g.skip := by cases sl <;> rfl
@[simp] theorem setSlot_fenced (g : Group) (sl : SlotId) (x : Slot) : (g.setSlot sl x).fenced = g.fenced := by cases sl <;> rfl
@[simp] theorem setSlot_wb (g : Group) (sl : SlotId) (x : Slot) : (g.setSlot sl x).wb = g.wb := by cases sl <;> rfl
@[simp] theorem setSlot_wait (g : Group) (sl : SlotId) (x : Slot) : (g.setSlot sl x).wait = g.wait := by cases sl <;> rfl

@[simp] theorem writeSn_ctx (g : Group) (sl : SlotId) (k : Nat) (x : Word) : (g.writeSn sl k x).ctx = g.ctx := by cases sl <;> rfl
@[simp] theorem writeSn_die (g : Group) (sl : SlotId) (k : Nat) (x : Word) : (g.writeSn sl k x).die = g.die := by cases sl <;> rfl
@[simp] theorem writeSn_core (g : Group) (sl : SlotId) (k : Nat) (x : Word) : (g.writeSn sl k x).core = g.core := by cases sl <;> rfl
@[simp] theorem writeSn_quad (g : Group) (sl : SlotId) (k : Nat) (x : Word) : (g.writeSn sl k x).quad = g.quad := by cases sl <;> rfl
@[simp] theorem writeSn_slotNo (g : Group) (sl : SlotId) (k : Nat) (x : Word) : (g.writeSn sl k x).slotNo = g.slotNo := by cases sl <;> rfl
@[simp] theorem writeSn_vcore (g : Group) (sl : SlotId) (k : Nat) (x : Word) : (g.writeSn sl k x).vcore = g.vcore := by cases sl <;> rfl
@[simp] theorem writeSn_half (g : Group) (sl : SlotId) (k : Nat) (x : Word) : (g.writeSn sl k x).half = g.half := by cases sl <;> rfl
@[simp] theorem writeSn_role (g : Group) (sl : SlotId) (k : Nat) (x : Word) : (g.writeSn sl k x).role = g.role := by cases sl <;> rfl
@[simp] theorem writeSn_width (g : Group) (sl : SlotId) (k : Nat) (x : Word) : (g.writeSn sl k x).width = g.width := by cases sl <;> rfl
@[simp] theorem writeSn_base (g : Group) (sl : SlotId) (k : Nat) (x : Word) : (g.writeSn sl k x).base = g.base := by cases sl <;> rfl
@[simp] theorem writeSn_ext (g : Group) (sl : SlotId) (k : Nat) (x : Word) : (g.writeSn sl k x).ext = g.ext := by cases sl <;> rfl
@[simp] theorem writeSn_spawned (g : Group) (sl : SlotId) (k : Nat) (x : Word) : (g.writeSn sl k x).spawned = g.spawned := by cases sl <;> rfl
@[simp] theorem writeSn_order (g : Group) (sl : SlotId) (k : Nat) (x : Word) : (g.writeSn sl k x).order = g.order := by cases sl <;> rfl
@[simp] theorem writeSn_outer (g : Group) (sl : SlotId) (k : Nat) (x : Word) : (g.writeSn sl k x).outer = g.outer := by cases sl <;> rfl
@[simp] theorem writeSn_lastB (g : Group) (sl : SlotId) (k : Nat) (x : Word) : (g.writeSn sl k x).lastB = g.lastB := by cases sl <;> rfl
@[simp] theorem writeSn_p (g : Group) (sl : SlotId) (k : Nat) (x : Word) : (g.writeSn sl k x).p = g.p := by cases sl <;> rfl
@[simp] theorem writeSn_elected (g : Group) (sl : SlotId) (k : Nat) (x : Word) : (g.writeSn sl k x).elected = g.elected := by cases sl <;> rfl
@[simp] theorem writeSn_h (g : Group) (sl : SlotId) (k : Nat) (x : Word) : (g.writeSn sl k x).h = g.h := by cases sl <;> rfl
@[simp] theorem writeSn_v (g : Group) (sl : SlotId) (k : Nat) (x : Word) : (g.writeSn sl k x).v = g.v := by cases sl <;> rfl
@[simp] theorem writeSn_flags (g : Group) (sl : SlotId) (k : Nat) (x : Word) : (g.writeSn sl k x).flags = g.flags := by cases sl <;> rfl
@[simp] theorem writeSn_dhalt (g : Group) (sl : SlotId) (k : Nat) (x : Word) : (g.writeSn sl k x).dhalt = g.dhalt := by cases sl <;> rfl
@[simp] theorem writeSn_kind (g : Group) (sl : SlotId) (k : Nat) (x : Word) : (g.writeSn sl k x).kind = g.kind := by cases sl <;> rfl
@[simp] theorem writeSn_mrp (g : Group) (sl : SlotId) (k : Nat) (x : Word) : (g.writeSn sl k x).mrp = g.mrp := by cases sl <;> rfl
@[simp] theorem writeSn_haltPc (g : Group) (sl : SlotId) (k : Nat) (x : Word) : (g.writeSn sl k x).haltPc = g.haltPc := by cases sl <;> rfl
@[simp] theorem writeSn_skid (g : Group) (sl : SlotId) (k : Nat) (x : Word) : (g.writeSn sl k x).skid = g.skid := by cases sl <;> rfl
@[simp] theorem writeSn_halted (g : Group) (sl : SlotId) (k : Nat) (x : Word) : (g.writeSn sl k x).halted = g.halted := by cases sl <;> rfl
@[simp] theorem writeSn_skidLeft (g : Group) (sl : SlotId) (k : Nat) (x : Word) : (g.writeSn sl k x).skidLeft = g.skidLeft := by cases sl <;> rfl
@[simp] theorem writeSn_squad (g : Group) (sl : SlotId) (k : Nat) (x : Word) : (g.writeSn sl k x).squad = g.squad := by cases sl <;> rfl
@[simp] theorem writeSn_hw (g : Group) (sl : SlotId) (k : Nat) (x : Word) : (g.writeSn sl k x).hw = g.hw := by cases sl <;> rfl
@[simp] theorem writeSn_spilled (g : Group) (sl : SlotId) (k : Nat) (x : Word) : (g.writeSn sl k x).spilled = g.spilled := by cases sl <;> rfl
@[simp] theorem writeSn_view (g : Group) (sl : SlotId) (k : Nat) (x : Word) : (g.writeSn sl k x).view = g.view := by cases sl <;> rfl
@[simp] theorem writeSn_viewEnd (g : Group) (sl : SlotId) (k : Nat) (x : Word) : (g.writeSn sl k x).viewEnd = g.viewEnd := by cases sl <;> rfl
@[simp] theorem writeSn_read (g : Group) (sl : SlotId) (k : Nat) (x : Word) : (g.writeSn sl k x).read = g.read := by cases sl <;> rfl
@[simp] theorem writeSn_batDiv (g : Group) (sl : SlotId) (k : Nat) (x : Word) : (g.writeSn sl k x).batDiv = g.batDiv := by cases sl <;> rfl
@[simp] theorem writeSn_post (g : Group) (sl : SlotId) (k : Nat) (x : Word) : (g.writeSn sl k x).post = g.post := by cases sl <;> rfl
@[simp] theorem writeSn_issued (g : Group) (sl : SlotId) (k : Nat) (x : Word) : (g.writeSn sl k x).issued = g.issued := by cases sl <;> rfl
@[simp] theorem writeSn_urgent (g : Group) (sl : SlotId) (k : Nat) (x : Word) : (g.writeSn sl k x).urgent = g.urgent := by cases sl <;> rfl
@[simp] theorem writeSn_sprint (g : Group) (sl : SlotId) (k : Nat) (x : Word) : (g.writeSn sl k x).sprint = g.sprint := by cases sl <;> rfl
@[simp] theorem writeSn_skip (g : Group) (sl : SlotId) (k : Nat) (x : Word) : (g.writeSn sl k x).skip = g.skip := by cases sl <;> rfl
@[simp] theorem writeSn_fenced (g : Group) (sl : SlotId) (k : Nat) (x : Word) : (g.writeSn sl k x).fenced = g.fenced := by cases sl <;> rfl
@[simp] theorem writeSn_wb (g : Group) (sl : SlotId) (k : Nat) (x : Word) : (g.writeSn sl k x).wb = g.wb := by cases sl <;> rfl
@[simp] theorem writeSn_wait (g : Group) (sl : SlotId) (k : Nat) (x : Word) : (g.writeSn sl k x).wait = g.wait := by cases sl <;> rfl

@[simp] theorem writeS_ctx (g : Group) (sl : SlotId) (k : BitVec 6) (x : Word) : (g.writeS sl k x).ctx = g.ctx := by cases sl <;> rfl
@[simp] theorem writeS_die (g : Group) (sl : SlotId) (k : BitVec 6) (x : Word) : (g.writeS sl k x).die = g.die := by cases sl <;> rfl
@[simp] theorem writeS_core (g : Group) (sl : SlotId) (k : BitVec 6) (x : Word) : (g.writeS sl k x).core = g.core := by cases sl <;> rfl
@[simp] theorem writeS_quad (g : Group) (sl : SlotId) (k : BitVec 6) (x : Word) : (g.writeS sl k x).quad = g.quad := by cases sl <;> rfl
@[simp] theorem writeS_slotNo (g : Group) (sl : SlotId) (k : BitVec 6) (x : Word) : (g.writeS sl k x).slotNo = g.slotNo := by cases sl <;> rfl
@[simp] theorem writeS_vcore (g : Group) (sl : SlotId) (k : BitVec 6) (x : Word) : (g.writeS sl k x).vcore = g.vcore := by cases sl <;> rfl
@[simp] theorem writeS_half (g : Group) (sl : SlotId) (k : BitVec 6) (x : Word) : (g.writeS sl k x).half = g.half := by cases sl <;> rfl
@[simp] theorem writeS_role (g : Group) (sl : SlotId) (k : BitVec 6) (x : Word) : (g.writeS sl k x).role = g.role := by cases sl <;> rfl
@[simp] theorem writeS_width (g : Group) (sl : SlotId) (k : BitVec 6) (x : Word) : (g.writeS sl k x).width = g.width := by cases sl <;> rfl
@[simp] theorem writeS_base (g : Group) (sl : SlotId) (k : BitVec 6) (x : Word) : (g.writeS sl k x).base = g.base := by cases sl <;> rfl
@[simp] theorem writeS_ext (g : Group) (sl : SlotId) (k : BitVec 6) (x : Word) : (g.writeS sl k x).ext = g.ext := by cases sl <;> rfl
@[simp] theorem writeS_spawned (g : Group) (sl : SlotId) (k : BitVec 6) (x : Word) : (g.writeS sl k x).spawned = g.spawned := by cases sl <;> rfl
@[simp] theorem writeS_order (g : Group) (sl : SlotId) (k : BitVec 6) (x : Word) : (g.writeS sl k x).order = g.order := by cases sl <;> rfl
@[simp] theorem writeS_outer (g : Group) (sl : SlotId) (k : BitVec 6) (x : Word) : (g.writeS sl k x).outer = g.outer := by cases sl <;> rfl
@[simp] theorem writeS_lastB (g : Group) (sl : SlotId) (k : BitVec 6) (x : Word) : (g.writeS sl k x).lastB = g.lastB := by cases sl <;> rfl
@[simp] theorem writeS_p (g : Group) (sl : SlotId) (k : BitVec 6) (x : Word) : (g.writeS sl k x).p = g.p := by cases sl <;> rfl
@[simp] theorem writeS_elected (g : Group) (sl : SlotId) (k : BitVec 6) (x : Word) : (g.writeS sl k x).elected = g.elected := by cases sl <;> rfl
@[simp] theorem writeS_h (g : Group) (sl : SlotId) (k : BitVec 6) (x : Word) : (g.writeS sl k x).h = g.h := by cases sl <;> rfl
@[simp] theorem writeS_v (g : Group) (sl : SlotId) (k : BitVec 6) (x : Word) : (g.writeS sl k x).v = g.v := by cases sl <;> rfl
@[simp] theorem writeS_flags (g : Group) (sl : SlotId) (k : BitVec 6) (x : Word) : (g.writeS sl k x).flags = g.flags := by cases sl <;> rfl
@[simp] theorem writeS_dhalt (g : Group) (sl : SlotId) (k : BitVec 6) (x : Word) : (g.writeS sl k x).dhalt = g.dhalt := by cases sl <;> rfl
@[simp] theorem writeS_kind (g : Group) (sl : SlotId) (k : BitVec 6) (x : Word) : (g.writeS sl k x).kind = g.kind := by cases sl <;> rfl
@[simp] theorem writeS_mrp (g : Group) (sl : SlotId) (k : BitVec 6) (x : Word) : (g.writeS sl k x).mrp = g.mrp := by cases sl <;> rfl
@[simp] theorem writeS_haltPc (g : Group) (sl : SlotId) (k : BitVec 6) (x : Word) : (g.writeS sl k x).haltPc = g.haltPc := by cases sl <;> rfl
@[simp] theorem writeS_skid (g : Group) (sl : SlotId) (k : BitVec 6) (x : Word) : (g.writeS sl k x).skid = g.skid := by cases sl <;> rfl
@[simp] theorem writeS_halted (g : Group) (sl : SlotId) (k : BitVec 6) (x : Word) : (g.writeS sl k x).halted = g.halted := by cases sl <;> rfl
@[simp] theorem writeS_skidLeft (g : Group) (sl : SlotId) (k : BitVec 6) (x : Word) : (g.writeS sl k x).skidLeft = g.skidLeft := by cases sl <;> rfl
@[simp] theorem writeS_squad (g : Group) (sl : SlotId) (k : BitVec 6) (x : Word) : (g.writeS sl k x).squad = g.squad := by cases sl <;> rfl
@[simp] theorem writeS_hw (g : Group) (sl : SlotId) (k : BitVec 6) (x : Word) : (g.writeS sl k x).hw = g.hw := by cases sl <;> rfl
@[simp] theorem writeS_spilled (g : Group) (sl : SlotId) (k : BitVec 6) (x : Word) : (g.writeS sl k x).spilled = g.spilled := by cases sl <;> rfl
@[simp] theorem writeS_view (g : Group) (sl : SlotId) (k : BitVec 6) (x : Word) : (g.writeS sl k x).view = g.view := by cases sl <;> rfl
@[simp] theorem writeS_viewEnd (g : Group) (sl : SlotId) (k : BitVec 6) (x : Word) : (g.writeS sl k x).viewEnd = g.viewEnd := by cases sl <;> rfl
@[simp] theorem writeS_read (g : Group) (sl : SlotId) (k : BitVec 6) (x : Word) : (g.writeS sl k x).read = g.read := by cases sl <;> rfl
@[simp] theorem writeS_batDiv (g : Group) (sl : SlotId) (k : BitVec 6) (x : Word) : (g.writeS sl k x).batDiv = g.batDiv := by cases sl <;> rfl
@[simp] theorem writeS_post (g : Group) (sl : SlotId) (k : BitVec 6) (x : Word) : (g.writeS sl k x).post = g.post := by cases sl <;> rfl
@[simp] theorem writeS_issued (g : Group) (sl : SlotId) (k : BitVec 6) (x : Word) : (g.writeS sl k x).issued = g.issued := by cases sl <;> rfl
@[simp] theorem writeS_urgent (g : Group) (sl : SlotId) (k : BitVec 6) (x : Word) : (g.writeS sl k x).urgent = g.urgent := by cases sl <;> rfl
@[simp] theorem writeS_sprint (g : Group) (sl : SlotId) (k : BitVec 6) (x : Word) : (g.writeS sl k x).sprint = g.sprint := by cases sl <;> rfl
@[simp] theorem writeS_skip (g : Group) (sl : SlotId) (k : BitVec 6) (x : Word) : (g.writeS sl k x).skip = g.skip := by cases sl <;> rfl
@[simp] theorem writeS_fenced (g : Group) (sl : SlotId) (k : BitVec 6) (x : Word) : (g.writeS sl k x).fenced = g.fenced := by cases sl <;> rfl
@[simp] theorem writeS_wb (g : Group) (sl : SlotId) (k : BitVec 6) (x : Word) : (g.writeS sl k x).wb = g.wb := by cases sl <;> rfl
@[simp] theorem writeS_wait (g : Group) (sl : SlotId) (k : BitVec 6) (x : Word) : (g.writeS sl k x).wait = g.wait := by cases sl <;> rfl

@[simp] theorem writeC_ctx (g : Group) (sl : SlotId) (k : Nat) (x : Bool) : (g.writeC sl k x).ctx = g.ctx := by cases sl <;> rfl
@[simp] theorem writeC_die (g : Group) (sl : SlotId) (k : Nat) (x : Bool) : (g.writeC sl k x).die = g.die := by cases sl <;> rfl
@[simp] theorem writeC_core (g : Group) (sl : SlotId) (k : Nat) (x : Bool) : (g.writeC sl k x).core = g.core := by cases sl <;> rfl
@[simp] theorem writeC_quad (g : Group) (sl : SlotId) (k : Nat) (x : Bool) : (g.writeC sl k x).quad = g.quad := by cases sl <;> rfl
@[simp] theorem writeC_slotNo (g : Group) (sl : SlotId) (k : Nat) (x : Bool) : (g.writeC sl k x).slotNo = g.slotNo := by cases sl <;> rfl
@[simp] theorem writeC_vcore (g : Group) (sl : SlotId) (k : Nat) (x : Bool) : (g.writeC sl k x).vcore = g.vcore := by cases sl <;> rfl
@[simp] theorem writeC_half (g : Group) (sl : SlotId) (k : Nat) (x : Bool) : (g.writeC sl k x).half = g.half := by cases sl <;> rfl
@[simp] theorem writeC_role (g : Group) (sl : SlotId) (k : Nat) (x : Bool) : (g.writeC sl k x).role = g.role := by cases sl <;> rfl
@[simp] theorem writeC_width (g : Group) (sl : SlotId) (k : Nat) (x : Bool) : (g.writeC sl k x).width = g.width := by cases sl <;> rfl
@[simp] theorem writeC_base (g : Group) (sl : SlotId) (k : Nat) (x : Bool) : (g.writeC sl k x).base = g.base := by cases sl <;> rfl
@[simp] theorem writeC_ext (g : Group) (sl : SlotId) (k : Nat) (x : Bool) : (g.writeC sl k x).ext = g.ext := by cases sl <;> rfl
@[simp] theorem writeC_spawned (g : Group) (sl : SlotId) (k : Nat) (x : Bool) : (g.writeC sl k x).spawned = g.spawned := by cases sl <;> rfl
@[simp] theorem writeC_order (g : Group) (sl : SlotId) (k : Nat) (x : Bool) : (g.writeC sl k x).order = g.order := by cases sl <;> rfl
@[simp] theorem writeC_outer (g : Group) (sl : SlotId) (k : Nat) (x : Bool) : (g.writeC sl k x).outer = g.outer := by cases sl <;> rfl
@[simp] theorem writeC_lastB (g : Group) (sl : SlotId) (k : Nat) (x : Bool) : (g.writeC sl k x).lastB = g.lastB := by cases sl <;> rfl
@[simp] theorem writeC_p (g : Group) (sl : SlotId) (k : Nat) (x : Bool) : (g.writeC sl k x).p = g.p := by cases sl <;> rfl
@[simp] theorem writeC_elected (g : Group) (sl : SlotId) (k : Nat) (x : Bool) : (g.writeC sl k x).elected = g.elected := by cases sl <;> rfl
@[simp] theorem writeC_h (g : Group) (sl : SlotId) (k : Nat) (x : Bool) : (g.writeC sl k x).h = g.h := by cases sl <;> rfl
@[simp] theorem writeC_v (g : Group) (sl : SlotId) (k : Nat) (x : Bool) : (g.writeC sl k x).v = g.v := by cases sl <;> rfl
@[simp] theorem writeC_flags (g : Group) (sl : SlotId) (k : Nat) (x : Bool) : (g.writeC sl k x).flags = g.flags := by cases sl <;> rfl
@[simp] theorem writeC_dhalt (g : Group) (sl : SlotId) (k : Nat) (x : Bool) : (g.writeC sl k x).dhalt = g.dhalt := by cases sl <;> rfl
@[simp] theorem writeC_kind (g : Group) (sl : SlotId) (k : Nat) (x : Bool) : (g.writeC sl k x).kind = g.kind := by cases sl <;> rfl
@[simp] theorem writeC_mrp (g : Group) (sl : SlotId) (k : Nat) (x : Bool) : (g.writeC sl k x).mrp = g.mrp := by cases sl <;> rfl
@[simp] theorem writeC_haltPc (g : Group) (sl : SlotId) (k : Nat) (x : Bool) : (g.writeC sl k x).haltPc = g.haltPc := by cases sl <;> rfl
@[simp] theorem writeC_skid (g : Group) (sl : SlotId) (k : Nat) (x : Bool) : (g.writeC sl k x).skid = g.skid := by cases sl <;> rfl
@[simp] theorem writeC_halted (g : Group) (sl : SlotId) (k : Nat) (x : Bool) : (g.writeC sl k x).halted = g.halted := by cases sl <;> rfl
@[simp] theorem writeC_skidLeft (g : Group) (sl : SlotId) (k : Nat) (x : Bool) : (g.writeC sl k x).skidLeft = g.skidLeft := by cases sl <;> rfl
@[simp] theorem writeC_squad (g : Group) (sl : SlotId) (k : Nat) (x : Bool) : (g.writeC sl k x).squad = g.squad := by cases sl <;> rfl
@[simp] theorem writeC_hw (g : Group) (sl : SlotId) (k : Nat) (x : Bool) : (g.writeC sl k x).hw = g.hw := by cases sl <;> rfl
@[simp] theorem writeC_spilled (g : Group) (sl : SlotId) (k : Nat) (x : Bool) : (g.writeC sl k x).spilled = g.spilled := by cases sl <;> rfl
@[simp] theorem writeC_view (g : Group) (sl : SlotId) (k : Nat) (x : Bool) : (g.writeC sl k x).view = g.view := by cases sl <;> rfl
@[simp] theorem writeC_viewEnd (g : Group) (sl : SlotId) (k : Nat) (x : Bool) : (g.writeC sl k x).viewEnd = g.viewEnd := by cases sl <;> rfl
@[simp] theorem writeC_read (g : Group) (sl : SlotId) (k : Nat) (x : Bool) : (g.writeC sl k x).read = g.read := by cases sl <;> rfl
@[simp] theorem writeC_batDiv (g : Group) (sl : SlotId) (k : Nat) (x : Bool) : (g.writeC sl k x).batDiv = g.batDiv := by cases sl <;> rfl
@[simp] theorem writeC_post (g : Group) (sl : SlotId) (k : Nat) (x : Bool) : (g.writeC sl k x).post = g.post := by cases sl <;> rfl
@[simp] theorem writeC_issued (g : Group) (sl : SlotId) (k : Nat) (x : Bool) : (g.writeC sl k x).issued = g.issued := by cases sl <;> rfl
@[simp] theorem writeC_urgent (g : Group) (sl : SlotId) (k : Nat) (x : Bool) : (g.writeC sl k x).urgent = g.urgent := by cases sl <;> rfl
@[simp] theorem writeC_sprint (g : Group) (sl : SlotId) (k : Nat) (x : Bool) : (g.writeC sl k x).sprint = g.sprint := by cases sl <;> rfl
@[simp] theorem writeC_skip (g : Group) (sl : SlotId) (k : Nat) (x : Bool) : (g.writeC sl k x).skip = g.skip := by cases sl <;> rfl
@[simp] theorem writeC_fenced (g : Group) (sl : SlotId) (k : Nat) (x : Bool) : (g.writeC sl k x).fenced = g.fenced := by cases sl <;> rfl
@[simp] theorem writeC_wb (g : Group) (sl : SlotId) (k : Nat) (x : Bool) : (g.writeC sl k x).wb = g.wb := by cases sl <;> rfl
@[simp] theorem writeC_wait (g : Group) (sl : SlotId) (k : Nat) (x : Bool) : (g.writeC sl k x).wait = g.wait := by cases sl <;> rfl

@[simp] theorem writeMode_ctx (g : Group) (sl : SlotId) (x : BitVec 32) : (g.writeMode sl x).ctx = g.ctx := by cases sl <;> rfl
@[simp] theorem writeMode_die (g : Group) (sl : SlotId) (x : BitVec 32) : (g.writeMode sl x).die = g.die := by cases sl <;> rfl
@[simp] theorem writeMode_core (g : Group) (sl : SlotId) (x : BitVec 32) : (g.writeMode sl x).core = g.core := by cases sl <;> rfl
@[simp] theorem writeMode_quad (g : Group) (sl : SlotId) (x : BitVec 32) : (g.writeMode sl x).quad = g.quad := by cases sl <;> rfl
@[simp] theorem writeMode_slotNo (g : Group) (sl : SlotId) (x : BitVec 32) : (g.writeMode sl x).slotNo = g.slotNo := by cases sl <;> rfl
@[simp] theorem writeMode_vcore (g : Group) (sl : SlotId) (x : BitVec 32) : (g.writeMode sl x).vcore = g.vcore := by cases sl <;> rfl
@[simp] theorem writeMode_half (g : Group) (sl : SlotId) (x : BitVec 32) : (g.writeMode sl x).half = g.half := by cases sl <;> rfl
@[simp] theorem writeMode_role (g : Group) (sl : SlotId) (x : BitVec 32) : (g.writeMode sl x).role = g.role := by cases sl <;> rfl
@[simp] theorem writeMode_width (g : Group) (sl : SlotId) (x : BitVec 32) : (g.writeMode sl x).width = g.width := by cases sl <;> rfl
@[simp] theorem writeMode_base (g : Group) (sl : SlotId) (x : BitVec 32) : (g.writeMode sl x).base = g.base := by cases sl <;> rfl
@[simp] theorem writeMode_ext (g : Group) (sl : SlotId) (x : BitVec 32) : (g.writeMode sl x).ext = g.ext := by cases sl <;> rfl
@[simp] theorem writeMode_spawned (g : Group) (sl : SlotId) (x : BitVec 32) : (g.writeMode sl x).spawned = g.spawned := by cases sl <;> rfl
@[simp] theorem writeMode_order (g : Group) (sl : SlotId) (x : BitVec 32) : (g.writeMode sl x).order = g.order := by cases sl <;> rfl
@[simp] theorem writeMode_outer (g : Group) (sl : SlotId) (x : BitVec 32) : (g.writeMode sl x).outer = g.outer := by cases sl <;> rfl
@[simp] theorem writeMode_lastB (g : Group) (sl : SlotId) (x : BitVec 32) : (g.writeMode sl x).lastB = g.lastB := by cases sl <;> rfl
@[simp] theorem writeMode_p (g : Group) (sl : SlotId) (x : BitVec 32) : (g.writeMode sl x).p = g.p := by cases sl <;> rfl
@[simp] theorem writeMode_elected (g : Group) (sl : SlotId) (x : BitVec 32) : (g.writeMode sl x).elected = g.elected := by cases sl <;> rfl
@[simp] theorem writeMode_h (g : Group) (sl : SlotId) (x : BitVec 32) : (g.writeMode sl x).h = g.h := by cases sl <;> rfl
@[simp] theorem writeMode_v (g : Group) (sl : SlotId) (x : BitVec 32) : (g.writeMode sl x).v = g.v := by cases sl <;> rfl
@[simp] theorem writeMode_flags (g : Group) (sl : SlotId) (x : BitVec 32) : (g.writeMode sl x).flags = g.flags := by cases sl <;> rfl
@[simp] theorem writeMode_dhalt (g : Group) (sl : SlotId) (x : BitVec 32) : (g.writeMode sl x).dhalt = g.dhalt := by cases sl <;> rfl
@[simp] theorem writeMode_kind (g : Group) (sl : SlotId) (x : BitVec 32) : (g.writeMode sl x).kind = g.kind := by cases sl <;> rfl
@[simp] theorem writeMode_mrp (g : Group) (sl : SlotId) (x : BitVec 32) : (g.writeMode sl x).mrp = g.mrp := by cases sl <;> rfl
@[simp] theorem writeMode_haltPc (g : Group) (sl : SlotId) (x : BitVec 32) : (g.writeMode sl x).haltPc = g.haltPc := by cases sl <;> rfl
@[simp] theorem writeMode_skid (g : Group) (sl : SlotId) (x : BitVec 32) : (g.writeMode sl x).skid = g.skid := by cases sl <;> rfl
@[simp] theorem writeMode_halted (g : Group) (sl : SlotId) (x : BitVec 32) : (g.writeMode sl x).halted = g.halted := by cases sl <;> rfl
@[simp] theorem writeMode_skidLeft (g : Group) (sl : SlotId) (x : BitVec 32) : (g.writeMode sl x).skidLeft = g.skidLeft := by cases sl <;> rfl
@[simp] theorem writeMode_squad (g : Group) (sl : SlotId) (x : BitVec 32) : (g.writeMode sl x).squad = g.squad := by cases sl <;> rfl
@[simp] theorem writeMode_hw (g : Group) (sl : SlotId) (x : BitVec 32) : (g.writeMode sl x).hw = g.hw := by cases sl <;> rfl
@[simp] theorem writeMode_spilled (g : Group) (sl : SlotId) (x : BitVec 32) : (g.writeMode sl x).spilled = g.spilled := by cases sl <;> rfl
@[simp] theorem writeMode_view (g : Group) (sl : SlotId) (x : BitVec 32) : (g.writeMode sl x).view = g.view := by cases sl <;> rfl
@[simp] theorem writeMode_viewEnd (g : Group) (sl : SlotId) (x : BitVec 32) : (g.writeMode sl x).viewEnd = g.viewEnd := by cases sl <;> rfl
@[simp] theorem writeMode_read (g : Group) (sl : SlotId) (x : BitVec 32) : (g.writeMode sl x).read = g.read := by cases sl <;> rfl
@[simp] theorem writeMode_batDiv (g : Group) (sl : SlotId) (x : BitVec 32) : (g.writeMode sl x).batDiv = g.batDiv := by cases sl <;> rfl
@[simp] theorem writeMode_post (g : Group) (sl : SlotId) (x : BitVec 32) : (g.writeMode sl x).post = g.post := by cases sl <;> rfl
@[simp] theorem writeMode_issued (g : Group) (sl : SlotId) (x : BitVec 32) : (g.writeMode sl x).issued = g.issued := by cases sl <;> rfl
@[simp] theorem writeMode_urgent (g : Group) (sl : SlotId) (x : BitVec 32) : (g.writeMode sl x).urgent = g.urgent := by cases sl <;> rfl
@[simp] theorem writeMode_sprint (g : Group) (sl : SlotId) (x : BitVec 32) : (g.writeMode sl x).sprint = g.sprint := by cases sl <;> rfl
@[simp] theorem writeMode_skip (g : Group) (sl : SlotId) (x : BitVec 32) : (g.writeMode sl x).skip = g.skip := by cases sl <;> rfl
@[simp] theorem writeMode_fenced (g : Group) (sl : SlotId) (x : BitVec 32) : (g.writeMode sl x).fenced = g.fenced := by cases sl <;> rfl
@[simp] theorem writeMode_wb (g : Group) (sl : SlotId) (x : BitVec 32) : (g.writeMode sl x).wb = g.wb := by cases sl <;> rfl
@[simp] theorem writeMode_wait (g : Group) (sl : SlotId) (x : BitVec 32) : (g.writeMode sl x).wait = g.wait := by cases sl <;> rfl

@[simp] theorem setPc_ctx (g : Group) (sl : SlotId) (x : PC) : (g.setPc sl x).ctx = g.ctx := by cases sl <;> rfl
@[simp] theorem setPc_die (g : Group) (sl : SlotId) (x : PC) : (g.setPc sl x).die = g.die := by cases sl <;> rfl
@[simp] theorem setPc_core (g : Group) (sl : SlotId) (x : PC) : (g.setPc sl x).core = g.core := by cases sl <;> rfl
@[simp] theorem setPc_quad (g : Group) (sl : SlotId) (x : PC) : (g.setPc sl x).quad = g.quad := by cases sl <;> rfl
@[simp] theorem setPc_slotNo (g : Group) (sl : SlotId) (x : PC) : (g.setPc sl x).slotNo = g.slotNo := by cases sl <;> rfl
@[simp] theorem setPc_vcore (g : Group) (sl : SlotId) (x : PC) : (g.setPc sl x).vcore = g.vcore := by cases sl <;> rfl
@[simp] theorem setPc_half (g : Group) (sl : SlotId) (x : PC) : (g.setPc sl x).half = g.half := by cases sl <;> rfl
@[simp] theorem setPc_role (g : Group) (sl : SlotId) (x : PC) : (g.setPc sl x).role = g.role := by cases sl <;> rfl
@[simp] theorem setPc_width (g : Group) (sl : SlotId) (x : PC) : (g.setPc sl x).width = g.width := by cases sl <;> rfl
@[simp] theorem setPc_base (g : Group) (sl : SlotId) (x : PC) : (g.setPc sl x).base = g.base := by cases sl <;> rfl
@[simp] theorem setPc_ext (g : Group) (sl : SlotId) (x : PC) : (g.setPc sl x).ext = g.ext := by cases sl <;> rfl
@[simp] theorem setPc_spawned (g : Group) (sl : SlotId) (x : PC) : (g.setPc sl x).spawned = g.spawned := by cases sl <;> rfl
@[simp] theorem setPc_order (g : Group) (sl : SlotId) (x : PC) : (g.setPc sl x).order = g.order := by cases sl <;> rfl
@[simp] theorem setPc_outer (g : Group) (sl : SlotId) (x : PC) : (g.setPc sl x).outer = g.outer := by cases sl <;> rfl
@[simp] theorem setPc_lastB (g : Group) (sl : SlotId) (x : PC) : (g.setPc sl x).lastB = g.lastB := by cases sl <;> rfl
@[simp] theorem setPc_p (g : Group) (sl : SlotId) (x : PC) : (g.setPc sl x).p = g.p := by cases sl <;> rfl
@[simp] theorem setPc_elected (g : Group) (sl : SlotId) (x : PC) : (g.setPc sl x).elected = g.elected := by cases sl <;> rfl
@[simp] theorem setPc_h (g : Group) (sl : SlotId) (x : PC) : (g.setPc sl x).h = g.h := by cases sl <;> rfl
@[simp] theorem setPc_v (g : Group) (sl : SlotId) (x : PC) : (g.setPc sl x).v = g.v := by cases sl <;> rfl
@[simp] theorem setPc_flags (g : Group) (sl : SlotId) (x : PC) : (g.setPc sl x).flags = g.flags := by cases sl <;> rfl
@[simp] theorem setPc_dhalt (g : Group) (sl : SlotId) (x : PC) : (g.setPc sl x).dhalt = g.dhalt := by cases sl <;> rfl
@[simp] theorem setPc_kind (g : Group) (sl : SlotId) (x : PC) : (g.setPc sl x).kind = g.kind := by cases sl <;> rfl
@[simp] theorem setPc_mrp (g : Group) (sl : SlotId) (x : PC) : (g.setPc sl x).mrp = g.mrp := by cases sl <;> rfl
@[simp] theorem setPc_haltPc (g : Group) (sl : SlotId) (x : PC) : (g.setPc sl x).haltPc = g.haltPc := by cases sl <;> rfl
@[simp] theorem setPc_skid (g : Group) (sl : SlotId) (x : PC) : (g.setPc sl x).skid = g.skid := by cases sl <;> rfl
@[simp] theorem setPc_halted (g : Group) (sl : SlotId) (x : PC) : (g.setPc sl x).halted = g.halted := by cases sl <;> rfl
@[simp] theorem setPc_skidLeft (g : Group) (sl : SlotId) (x : PC) : (g.setPc sl x).skidLeft = g.skidLeft := by cases sl <;> rfl
@[simp] theorem setPc_squad (g : Group) (sl : SlotId) (x : PC) : (g.setPc sl x).squad = g.squad := by cases sl <;> rfl
@[simp] theorem setPc_hw (g : Group) (sl : SlotId) (x : PC) : (g.setPc sl x).hw = g.hw := by cases sl <;> rfl
@[simp] theorem setPc_spilled (g : Group) (sl : SlotId) (x : PC) : (g.setPc sl x).spilled = g.spilled := by cases sl <;> rfl
@[simp] theorem setPc_view (g : Group) (sl : SlotId) (x : PC) : (g.setPc sl x).view = g.view := by cases sl <;> rfl
@[simp] theorem setPc_viewEnd (g : Group) (sl : SlotId) (x : PC) : (g.setPc sl x).viewEnd = g.viewEnd := by cases sl <;> rfl
@[simp] theorem setPc_read (g : Group) (sl : SlotId) (x : PC) : (g.setPc sl x).read = g.read := by cases sl <;> rfl
@[simp] theorem setPc_batDiv (g : Group) (sl : SlotId) (x : PC) : (g.setPc sl x).batDiv = g.batDiv := by cases sl <;> rfl
@[simp] theorem setPc_post (g : Group) (sl : SlotId) (x : PC) : (g.setPc sl x).post = g.post := by cases sl <;> rfl
@[simp] theorem setPc_issued (g : Group) (sl : SlotId) (x : PC) : (g.setPc sl x).issued = g.issued := by cases sl <;> rfl
@[simp] theorem setPc_urgent (g : Group) (sl : SlotId) (x : PC) : (g.setPc sl x).urgent = g.urgent := by cases sl <;> rfl
@[simp] theorem setPc_sprint (g : Group) (sl : SlotId) (x : PC) : (g.setPc sl x).sprint = g.sprint := by cases sl <;> rfl
@[simp] theorem setPc_skip (g : Group) (sl : SlotId) (x : PC) : (g.setPc sl x).skip = g.skip := by cases sl <;> rfl
@[simp] theorem setPc_fenced (g : Group) (sl : SlotId) (x : PC) : (g.setPc sl x).fenced = g.fenced := by cases sl <;> rfl
@[simp] theorem setPc_wb (g : Group) (sl : SlotId) (x : PC) : (g.setPc sl x).wb = g.wb := by cases sl <;> rfl
@[simp] theorem setPc_wait (g : Group) (sl : SlotId) (x : PC) : (g.setPc sl x).wait = g.wait := by cases sl <;> rfl

end Sys2Proof.Machine
end

