-- ==== Sys2Proof/Laws/Group.lean ====
section
/-! SUPPORT. The registers of a group after each write: what was written reads back, and everything else is kept. -/

namespace Sys2Proof.Machine

/-! ### Tables -/

@[simp] theorem Tbl.find_put {κ α : Type} [DecidableEq κ] (t : Tbl κ α) (k : κ) (x : α) : (t.put k x).find k = some x := by
  induction t with
  | nil => simp [Tbl.put, Tbl.find]
  | cons e t ih =>
    obtain ⟨k', y⟩ := e
    by_cases h : k' = k <;> simp [Tbl.put, Tbl.find, h, ih]

theorem Tbl.find_put_ne {κ α : Type} [DecidableEq κ] (t : Tbl κ α) {k j : κ} (x : α) (h : j ≠ k) :
    (t.put k x).find j = t.find j := by
  induction t with
  | nil => simp [Tbl.put, Tbl.find, Ne.symm h]
  | cons e t ih =>
    obtain ⟨k', y⟩ := e
    by_cases hk : k' = k
    · subst hk; simp [Tbl.put, Tbl.find, Ne.symm h]
    · by_cases hj : k' = j
      · subst hj; simp [Tbl.put, Tbl.find, hk]
      · simp [Tbl.put, Tbl.find, hk, hj, ih]

/-! ### Slots -/

@[simp] theorem slot_setSlot (g : Group) (sl : SlotId) (x : Slot) : (g.setSlot sl x).slot sl = x := by cases sl <;> rfl

theorem otherSlot_setSlot (g : Group) (sl : SlotId) (x : Slot) (h : sl = .b → g.b.isSome = true) :
    (g.setSlot sl x).otherSlot sl = g.otherSlot sl := by
  cases sl with
  | a => rfl
  | b => simp [Group.otherSlot, Group.setSlot, h rfl]

theorem setSlot_slot (g : Group) (sl : SlotId) (h : sl = .b → g.b.isSome = true) : g.setSlot sl (g.slot sl) = g := by
  cases sl with
  | a => rfl
  | b =>
    obtain ⟨x, hx⟩ := Option.isSome_iff_exists.mp (h rfl)
    cases g; simp_all [Group.setSlot, Group.slot]

/-! ### What is kept -/

/-- The registers of two lists of writes. -/
def Writes.union (a b : Writes) : Writes :=
  { s := a.s ++ b.s, c := a.c ++ b.c, p := a.p ++ b.p, h := a.h ++ b.h, v := a.v ++ b.v, mode := a.mode || b.mode
    flags := a.flags || b.flags, wb := a.wb || b.wb }

theorem Group.Kept.refl (g : Group) (sl : SlotId) (w : Writes) : g.Kept g sl w :=
  ⟨fun _ _ _ => rfl, fun _ _ _ => rfl, fun _ _ _ => ⟨rfl, rfl⟩, fun _ _ _ => rfl, fun _ _ _ => rfl, fun _ => rfl,
    fun _ => rfl, fun _ => rfl, rfl, rfl, rfl⟩

theorem Group.Kept.trans {g G H : Group} {sl : SlotId} {w w' : Writes} (a : g.Kept G sl w) (b : G.Kept H sl w') :
    g.Kept H sl (w.union w') := by
  refine ⟨fun n hn h => ?_, fun n hn h => ?_, fun n hn h => ?_, fun n hn h => ?_, fun n hn h => ?_, fun h => ?_,
    fun h => ?_, fun h => ?_, ?_, b.other.trans a.other, ?_⟩
  · simp only [Writes.union, List.mem_append, not_or] at h; rw [b.s n hn h.2, a.s n hn h.1]
  · simp only [Writes.union, List.mem_append, not_or] at h; rw [b.c n hn h.2, a.c n hn h.1]
  · simp only [Writes.union, List.mem_append, not_or] at h
    exact ⟨(b.p n hn h.2).1.trans (a.p n hn h.1).1, (b.p n hn h.2).2.trans (a.p n hn h.1).2⟩
  · simp only [Writes.union, List.mem_append, not_or] at h; rw [b.h n hn h.2, a.h n hn h.1]
  · simp only [Writes.union, List.mem_append, not_or] at h; rw [b.v n hn h.2, a.v n hn h.1]
  · simp only [Writes.union, Bool.or_eq_false_iff] at h; rw [b.mode h.2, a.mode h.1]
  · simp only [Writes.union, Bool.or_eq_false_iff] at h; rw [b.flags h.2, a.flags h.1]
  · simp only [Writes.union, Bool.or_eq_false_iff] at h; rw [b.wb h.2, a.wb h.1]
  · have h1 := a.slot
    have h2 := b.slot
    rw [← h1, ← h2]
  · have h1 := a.rest
    have h2 := b.rest
    rw [← h1, ← h2]

theorem Group.Kept.mono {g G : Group} {sl : SlotId} {w w' : Writes} (a : g.Kept G sl w) (hs : ∀ n ∈ w.s, n ∈ w'.s)
    (hc : ∀ n ∈ w.c, n ∈ w'.c) (hp : ∀ n ∈ w.p, n ∈ w'.p) (hh : ∀ n ∈ w.h, n ∈ w'.h) (hv : ∀ n ∈ w.v, n ∈ w'.v)
    (hm : w.mode = true → w'.mode = true) (hf : w.flags = true → w'.flags = true) (hw : w.wb = true → w'.wb = true) :
    g.Kept G sl w' :=
  ⟨fun n hn h => a.s n hn (fun x => h (hs n x)), fun n hn h => a.c n hn (fun x => h (hc n x)),
    fun n hn h => a.p n hn (fun x => h (hp n x)), fun n hn h => a.h n hn (fun x => h (hh n x)),
    fun n hn h => a.v n hn (fun x => h (hv n x)), fun h => a.mode (by cases e : w.mode <;> simp_all),
    fun h => a.flags (by cases e : w.flags <;> simp_all), fun h => a.wb (by cases e : w.wb <;> simp_all),
    a.slot, a.other, a.rest⟩

/-! ### A new fork in a slot -/

/-- A group with another fork in a slot, which differs from the old one in the registers listed only. -/
theorem kept_fork (g : Group) (sl : SlotId) (f : Fork) (w : Writes) (h : sl = .b → g.b.isSome = true)
    (hs : ∀ n < 32, n ∉ w.s → f.s[n]? = (g.slot sl).fork.s[n]?)
    (hc : ∀ n < 4, n ∉ w.c → f.c.getLsbD n = (g.slot sl).fork.c.getLsbD n)
    (hm : w.mode = false → f.mode = (g.slot sl).fork.mode) : g.Kept (g.setSlot sl { g.slot sl with fork := f }) sl w := by
  refine ⟨fun n hn h => ?_, fun n hn h => ?_, fun n _ _ => ?_, fun n _ _ => ?_, fun n _ _ => ?_, fun h => ?_, fun _ => ?_,
    fun _ => ?_, ?_, otherSlot_setSlot g sl _ h, ?_⟩
  · rw [slot_setSlot]; exact hs n hn h
  · unfold Group.readC; rw [slot_setSlot]; exact hc n hn h
  · simp [Group.readP]
  · simp [Group.readH]
  · cases sl <;> rfl
  · unfold Group.mode; rw [slot_setSlot]; exact hm h
  · simp
  · simp
  · rw [slot_setSlot]
  · cases sl <;> rfl

theorem getLsbD_setBit {w : Nat} (x : BitVec w) (i : Nat) (b : Bool) (j : Nat) (hj : j < w) :
    (setBit x i b).getLsbD j = if j = i then b else x.getLsbD j := by
  unfold setBit
  by_cases h : j = i
  · subst h; cases b <;> simp [hj]
  · cases b <;> simp [hj, h] <;> omega

theorem kept_writeSn (g : Group) (sl : SlotId) (k : Nat) (x : Word) (h : sl = .b → g.b.isSome = true) :
    g.Kept (g.writeSn sl k x) sl { s := [k] } := by
  refine kept_fork g sl _ _ h (fun n hn hk => ?_) (fun _ _ _ => rfl) (fun _ => rfl)
  simp only [List.mem_singleton] at hk
  simp [Ne.symm hk]

theorem kept_writeS (g : Group) (sl : SlotId) (d : BitVec 6) (x : Word) (h : sl = .b → g.b.isSome = true) :
    g.Kept (g.writeS sl d x) sl { s := [d.toNat] } := kept_writeSn g sl d.toNat x h

theorem kept_writeC (g : Group) (sl : SlotId) (k : Nat) (x : Bool) (h : sl = .b → g.b.isSome = true) :
    g.Kept (g.writeC sl k x) sl { c := [k] } := by
  refine kept_fork g sl _ _ h (fun _ _ _ => rfl) (fun n hn hk => ?_) (fun _ => rfl)
  simp only [List.mem_singleton] at hk
  rw [getLsbD_setBit _ _ _ _ hn, if_neg hk]

theorem kept_writeMode (g : Group) (sl : SlotId) (m : BitVec 32) (h : sl = .b → g.b.isSome = true) :
    g.Kept (g.writeMode sl m) sl { mode := true } :=
  kept_fork g sl _ _ h (fun _ _ _ => rfl) (fun _ _ _ => rfl) (fun h => by cases h)

theorem kept_writeP (g : Group) (sl : SlotId) (k : Nat) (m x : Mask) : g.Kept (g.writeP k m x) sl { p := [k] } := by
  have hsl : (g.writeP k m x).slot sl = g.slot sl := by cases sl <;> rfl
  refine ⟨fun n _ _ => by rw [hsl], fun n _ _ => by unfold Group.readC; rw [hsl], fun n hn hk => ⟨?_, ?_⟩, fun _ _ _ => rfl,
    fun _ _ _ => rfl, fun _ => by unfold Group.mode; rw [hsl], fun _ => rfl, fun _ => rfl, by rw [hsl],
    by cases sl <;> rfl, rfl⟩
  · simp only [List.mem_singleton] at hk
    simp [Group.readP, Group.writeP, Ne.symm hk]
  · simp only [List.mem_singleton] at hk
    show (setBit g.elected k false).getLsbD n = _
    rw [getLsbD_setBit _ _ _ _ hn, if_neg hk]

theorem kept_writeH (g : Group) (sl : SlotId) (k : Nat) (x : BitVec 32) : g.Kept (g.writeH k x) sl { h := [k] } := by
  have hsl : (g.writeH k x).slot sl = g.slot sl := by cases sl <;> rfl
  refine ⟨fun n _ _ => by rw [hsl], fun n _ _ => by unfold Group.readC; rw [hsl], fun _ _ _ => ⟨rfl, rfl⟩, fun n hn hk => ?_,
    fun _ _ _ => rfl, fun _ => by unfold Group.mode; rw [hsl], fun _ => rfl, fun _ => rfl, by rw [hsl],
    by cases sl <;> rfl, rfl⟩
  simp only [List.mem_singleton] at hk
  simp [Group.readH, Group.writeH, Ne.symm hk]

/-- A group with another table of v registers, which differs from the old one in the registers listed only. -/
theorem kept_v (g : Group) (sl : SlotId) (v : Tbl Nat VReg) (w : Writes) (hv : ∀ n < 64, n ∉ w.v → v.find n = g.v.find n) :
    g.Kept { g with v := v } sl w := by
  have hsl : Group.slot { g with v := v } sl = g.slot sl := by cases sl <;> rfl
  refine ⟨fun n _ _ => by rw [hsl], fun n _ _ => by unfold Group.readC; rw [hsl], fun _ _ _ => ⟨rfl, rfl⟩, fun _ _ _ => rfl,
    fun n hn hk => ?_, fun _ => by unfold Group.mode; rw [hsl], fun _ => rfl, fun _ => rfl, by rw [hsl],
    by cases sl <;> rfl, rfl⟩
  show (if n < g.vLimit then v.find n else none) = _
  rw [hv n hn hk]; rfl

theorem kept_writeV (g : Group) (sl : SlotId) (n : Nat) (m : Mask) (f : Nat → BitVec 32) :
    g.Kept (g.writeV n m f) sl { v := [n] } :=
  kept_v g sl _ _ (fun _ _ hk => Tbl.find_put_ne _ _ (by simpa using hk))

theorem kept_emptyV (g : Group) (sl : SlotId) (n : Nat) : g.Kept (g.emptyV n) sl { v := [n] } :=
  kept_v g sl _ _ (fun _ _ hk => Tbl.find_put_ne _ _ (by simpa using hk))

theorem kept_raise (g : Group) (sl : SlotId) (f : BitVec 5) : g.Kept (g.raise f) sl { flags := true } := by
  have hsl : (g.raise f).slot sl = g.slot sl := by cases sl <;> rfl
  exact ⟨fun n _ _ => by rw [hsl], fun n _ _ => by unfold Group.readC; rw [hsl], fun _ _ _ => ⟨rfl, rfl⟩, fun _ _ _ => rfl,
    fun _ _ _ => rfl, fun _ => by unfold Group.mode; rw [hsl], fun h => by simp at h, fun _ => rfl, by rw [hsl],
    by cases sl <;> rfl, rfl⟩

end Sys2Proof.Machine
end

