-- ==== Sys2Proof/Laws/Words.lean ====
section
/-! SUPPORT. What the wrapper of a word does once its checks pass or fail, and what retiring leaves unchanged: every byte
of every memory. -/

namespace Sys2Proof.Machine

/-! ### The same memory -/

theorem sameMemory_of {s t : State} (hm : t.mem = s.mem) (hf : t.far = s.far) (hd : t.devnum = s.devnum)
    (ht : t.teams = s.teams) (hs : ∀ d, (t.dbg d).store = (s.dbg d).store) : s.SameMemory t := by
  intro q
  cases q with
  | phys pa => unfold readPlace physRead State.ownDev; rw [hm, hf, hd]
  | spad k off => unfold readPlace State.team?; rw [ht]
  | store d off => show memRead (t.dbg d).store off 1 = memRead (s.dbg d).store off 1; rw [hs]
  | aperture e c => rfl

theorem State.SameMemory.refl (s : State) : s.SameMemory s := fun _ => rfl

theorem State.SameMemory.trans {s t u : State} (a : s.SameMemory t) (b : t.SameMemory u) : s.SameMemory u :=
  fun q => (b q).trans (a q)

theorem dbg_modDbg (s : State) (k d : Nat) (f : DebugCore → DebugCore) :
    (s.modDbg k f).dbg d = if d = k then f (s.dbg d) else s.dbg d := by
  by_cases h : d = k
  · subst h; simp [State.modDbg, State.setDbg, State.dbg]
  · simp [State.modDbg, State.setDbg, State.dbg, Tbl.find_put_ne _ _ h, h]

theorem sameMemory_setGroup (s : State) (k : GroupId) (x : Group) : s.SameMemory (s.setGroup k x) :=
  sameMemory_of rfl rfl rfl rfl (fun _ => rfl)

theorem sameMemory_modGroup (s : State) (k : GroupId) (f : Group → Group) : s.SameMemory (s.modGroup k f) := by
  unfold State.modGroup
  split
  · exact sameMemory_setGroup s k _
  · exact State.SameMemory.refl s

theorem sameMemory_modDbg (s : State) (k : Nat) (f : DebugCore → DebugCore) (h : ∀ x, (f x).store = x.store) :
    s.SameMemory (s.modDbg k f) :=
  sameMemory_of rfl rfl rfl rfl (fun d => by rw [dbg_modDbg]; split <;> simp [h])

theorem sameMemory_inboxPut (s : State) (d ctx : Nat) (r : StopRec) : s.SameMemory (s.inboxPut d ctx r) := by
  refine sameMemory_modDbg s d _ (fun x => ?_)
  split
  · rfl
  · split <;> rfl

theorem sameMemory_endStepAt (s : State) (gid : GroupId) (b : Bool) (pc : Option PC) :
    s.SameMemory (s.endStepAt gid b pc) := by
  unfold State.endStepAt
  split
  · dsimp only
    split
    · refine State.SameMemory.trans ?_ (sameMemory_inboxPut _ _ _ _)
      refine State.SameMemory.trans ?_ (sameMemory_modDbg _ _ _ (fun _ => rfl))
      exact sameMemory_setGroup _ _ _
    · refine State.SameMemory.trans ?_ (sameMemory_modDbg _ _ _ (fun _ => rfl))
      exact sameMemory_setGroup _ _ _
  · exact sameMemory_modDbg _ _ _ (fun _ => rfl)
  · exact State.SameMemory.refl s

theorem sameMemory_endStep (s : State) (gid : GroupId) (b : Bool) : s.SameMemory (s.endStep gid b) :=
  sameMemory_endStepAt s gid b none

theorem sameMemory_debugHalt (s : State) (gid : GroupId) (sl : SlotId) (die : Nat) (k : HaltKind) (ty c w : Nat) (x : Word) :
    s.SameMemory (s.debugHalt gid sl die k ty c w x) := by
  unfold State.debugHalt
  split
  · exact State.SameMemory.refl s
  · exact State.SameMemory.trans (sameMemory_setGroup _ _ _) (sameMemory_inboxPut _ _ _ _)

theorem sameMemory_dropGroup (s : State) (k : GroupId) : s.SameMemory { s with groups := s.groups.drop k } :=
  sameMemory_of rfl rfl rfl rfl (fun _ => rfl)

theorem sameMemory_startDebug (s : State) (die : Nat) : s.SameMemory (s.startDebug die) := by
  have h : s.SameMemory (s.modDbg die (fun d => { d with started := true, due := false })) :=
    sameMemory_modDbg s die _ (fun _ => rfl)
  exact h.trans (sameMemory_setGroup _ _ _)

theorem sameMemory_leaveProg (s : State) (die : Nat) (p : ProgSave) : s.SameMemory (s.leaveProg die p) := by
  have h0 : s.SameMemory (s.modDbg die (fun d => { d with step := p.step })) := sameMemory_modDbg s die _ (fun _ => rfl)
  unfold State.leaveProg
  dsimp only
  split
  · rename_i g _
    have h := h0.trans (sameMemory_modDbg _ die (fun d => { d with rest := some (g.unsave p) }) (fun _ => rfl))
    split
    · exact fun q => h q
    · exact h0.trans (sameMemory_setGroup _ _ _)
  · exact h0

theorem sameMemory_endProg (s : State) (die : Nat) (b : Bool) : s.SameMemory (s.endProg die b) := by
  unfold State.endProg
  split
  · exact State.SameMemory.refl s
  · rename_i p _
    have h1 : s.SameMemory (s.modDbg die (fun d => { d with prog := none })) := sameMemory_modDbg s die _ (fun _ => rfl)
    have h2 := h1.trans (sameMemory_leaveProg _ die p)
    have h3 (t : State) (h : s.SameMemory t) : s.SameMemory (if p.idle && (t.dbg die).due then t.startDebug die else t) := by
      split
      · exact h.trans (sameMemory_startDebug _ _)
      · exact h
    have h4 := (h3 _ h2).trans (sameMemory_modGroup _ p.hit.group
      (fun g => { g with wait := if g.wait = some .watch then none else g.wait }))
    dsimp only
    split
    · exact h4.trans (sameMemory_debugHalt _ _ _ _ _ _ _ _ _)
    · exact h4

theorem sameMemory_endStepOf (s : State) (gid : GroupId) (sl : SlotId) : s.SameMemory (s.endStepOf gid sl) := by
  unfold State.endStepOf
  split
  · exact sameMemory_endStep _ _ _
  · exact State.SameMemory.refl s

theorem sameMemory_retire (s : State) (gid : GroupId) (sl : SlotId) (pc : PC) : s.SameMemory (s.retire gid sl pc) := by
  unfold State.retire
  dsimp only
  refine State.SameMemory.trans (sameMemory_modGroup s gid (fun g => g.retire sl pc)) ?_
  split
  · split
    · split
      · refine State.SameMemory.trans ?_ (sameMemory_endProg _ _ _)
        exact sameMemory_modDbg _ _ _ (fun _ => rfl)
      · exact sameMemory_modDbg _ _ _ (fun _ => rfl)
    · exact sameMemory_endStepOf _ _ _
  · exact sameMemory_endStepOf _ _ _

/-! ### The wrapper -/

theorem word_pass {i : Instr} {s : State} {gid : GroupId} {sl : SlotId} {g : Group} (h : Issues i s gid sl g)
    (hd : SeqId → State) (body : GroupId → SlotId → Group → Eff) :
    word i s hd body = .next ((body gid sl g).finish s gid sl (g.slot sl).pc) := by
  simp [word, h.cur, h.group, h.ok]

theorem word_stop {i : Instr} {s : State} {gid : GroupId} {sl : SlotId} {g : Group} {c : Cause}
    (h : Stopped i s gid sl g c) (hd : SeqId → State) (body : GroupId → SlotId → Group → Eff) :
    word i s hd body = .next (s.takeStop gid sl (c.atScope i) (g.slot sl).pc) := by
  simp [word, h.cur, h.group, h.bad]

/-- A word whose body changes its group only completes with those registers. -/
theorem completes_of {i : Instr} {s : State} {gid : GroupId} {sl : SlotId} {g G : Group} {hd : SeqId → State}
    {body : GroupId → SlotId → Group → Eff} (h : Issues i s gid sl g) (he : exec i s = word i s hd body)
    (hb : body gid sl g = onGroup s gid G) : Completes i s gid sl g G := by
  refine ⟨_, ?_, rfl, (sameMemory_setGroup s gid G).trans (sameMemory_retire _ _ _ _)⟩
  rw [he, word_pass h, hb]
  rfl

theorem jumps_of {i : Instr} {s : State} {gid : GroupId} {sl : SlotId} {g G : Group} {hd : SeqId → State} {dest : PC}
    {body : GroupId → SlotId → Group → Eff} (h : Issues i s gid sl g) (he : exec i s = word i s hd body)
    (hb : body gid sl g = .goto (s.setGroup gid G) dest) : Jumps i s gid sl G dest := by
  refine ⟨_, ?_, rfl, (sameMemory_setGroup s gid G).trans (sameMemory_retire _ _ _ _)⟩
  rw [he, word_pass h, hb]
  rfl

theorem setGroup_self (s : State) (gid : GroupId) (g : Group) (h : s.group? gid = some g) : s.setGroup gid g = s := by
  unfold State.setGroup
  have : s.groups.put gid g = s.groups := by
    have h' : s.groups.find gid = some g := h
    generalize s.groups = t at h' ⊢
    induction t with
    | nil => simp [Tbl.find] at h'
    | cons e t ih =>
      obtain ⟨k, y⟩ := e
      by_cases hk : k = gid
      · simp [Tbl.find, hk] at h'; simp [Tbl.put, hk, h']
      · simp [Tbl.find, hk] at h'; simp [Tbl.put, hk, ih h']
  rw [this]

end Sys2Proof.Machine
end

