-- ==== Sys2Proof/Laws/Memory.lean ====
section
/-! SUPPORT. Memory: every operation on bytes keeps the canonical form, a byte reads as it was last written, and a write
leaves every other byte alone. -/

namespace Sys2Proof.Machine

/-! ### The canonical form -/

theorem memWfFrom_mono {lo lo' : Nat} {m : Mem} (h : memWfFrom lo m = true) (hl : lo' ≤ lo) : memWfFrom lo' m = true := by
  cases m with
  | nil => rfl
  | cons e t =>
    simp only [memWfFrom, Bool.and_eq_true, decide_eq_true_eq] at h ⊢
    exact ⟨⟨by omega, h.1.2⟩, h.2⟩

theorem memWfFrom_memSet {m : Mem} {lo a : Nat} (v : Byte) (h : memWfFrom lo m = true) (ha : lo ≤ a) :
    memWfFrom lo (memSet m a v) = true := by
  induction m generalizing lo with
  | nil =>
    unfold memSet
    split
    · rfl
    · next hv => simp [memWfFrom, ha, hv]
  | cons e t ih =>
    obtain ⟨k, b⟩ := e
    simp only [memWfFrom, Bool.and_eq_true, decide_eq_true_eq] at h
    unfold memSet
    split
    · next hlt =>
      split
      · simp [memWfFrom, h.1.1, h.1.2, h.2]
      · next hv => simp [memWfFrom, ha, hv, memWfFrom, h.1.2, h.2]; omega
    · split
      · next hk =>
        subst hk
        split
        · exact memWfFrom_mono h.2 (by omega)
        · next hv => simp [memWfFrom, ha, hv, h.2]
      · simp only [memWfFrom, Bool.and_eq_true, decide_eq_true_eq]
        exact ⟨h.1, ih h.2 (by omega)⟩

/-- Writing one byte keeps the canonical form. -/
theorem wf_memSet {m : Mem} (a : Nat) (v : Byte) (h : Memory.wf m = true) : Memory.wf (memSet m a v) = true :=
  memWfFrom_memSet v h (Nat.zero_le a)

/-- Writing bytes keeps the canonical form. -/
theorem wf_memWrite {m : Mem} (a : Nat) (bs : List Byte) (h : Memory.wf m = true) : Memory.wf (memWrite m a bs) = true := by
  induction bs generalizing m a with
  | nil => exact h
  | cons b bs ih => exact ih (a + 1) (wf_memSet a b h)

/-! ### Reading back -/

theorem memGet_below {m : Mem} {lo a : Nat} (h : memWfFrom lo m = true) (ha : a < lo) : memGet m a = unlisted := by
  induction m generalizing lo with
  | nil => rfl
  | cons e t ih =>
    simp only [memWfFrom, Bool.and_eq_true, decide_eq_true_eq] at h
    unfold memGet
    rw [if_neg (by omega)]
    exact ih h.2 (by omega)

theorem memGet_cons (k : Nat) (x : Byte) (t : Mem) (b : Nat) : memGet ((k, x) :: t) b = if k = b then x else memGet t b := rfl

/-- Above the last byte that a memory lists it reads as nothing was written. -/
theorem memGet_above {m : Mem} {a : Nat} (h : ∀ e ∈ m, e.1 < a) : memGet m a = unlisted := by
  induction m with
  | nil => rfl
  | cons e t ih =>
    rw [memGet_cons, if_neg (by have := h e (.head _); omega), ih (fun x hx => h x (.tail _ hx))]

/-- Byte `i` of what is read upward from an address. -/
theorem memRead_get (m : Mem) (a n i : Nat) : (memRead m a n)[i]? = if i < n then some (memGet m (a + i)) else none := by
  induction n generalizing a i with
  | zero => simp [memRead]
  | succ n ih =>
    cases i with
    | zero => simp [memRead]
    | succ i =>
      simp only [memRead, List.getElem?_cons_succ, ih, Nat.succ_lt_succ_iff]
      rw [show a + 1 + i = a + (i + 1) by omega]

/-- A byte of a canonical memory reads as it was last written, and every other byte as before. -/
theorem memGet_memSet {m : Mem} {lo : Nat} (h : memWfFrom lo m = true) (a b : Nat) (v : Byte) :
    memGet (memSet m a v) b = if b = a then v else memGet m b := by
  induction m generalizing lo with
  | nil => unfold memSet; split <;> split <;> simp_all [memGet] <;> omega
  | cons e t ih =>
    obtain ⟨k, x⟩ := e
    simp only [memWfFrom, Bool.and_eq_true, decide_eq_true_eq] at h
    unfold memSet
    split
    · next hlt =>
      split
      · next hv =>
        split
        · next hb =>
          subst hb
          unfold memGet
          rw [if_neg (by omega), memGet_below h.2 (by omega), hv]
        · rfl
      · unfold memGet
        by_cases hb : b = a
        · simp [hb]
        · rw [if_neg (by omega), if_neg hb]; rfl
    · split
      · next hk =>
        subst hk
        split
        · next hv =>
          by_cases hb : b = a
          · rw [if_pos hb, hb, memGet_below h.2 (by omega), hv]
          · rw [if_neg hb, memGet_cons, if_neg (by omega)]
        · unfold memGet
          by_cases hb : b = a
          · simp [hb]
          · rw [if_neg (by omega), if_neg hb, if_neg (by omega)]
      · next hk =>
        unfold memGet
        by_cases hkb : k = b
        · rw [if_pos hkb, if_pos hkb, if_neg (by omega)]
        · rw [if_neg hkb, if_neg hkb, ih h.2]

/-- Bytes of a canonical memory read as they were last written, and every other byte as before. -/
theorem memGet_memWrite {m : Mem} (h : Memory.wf m = true) (a : Nat) (bs : List Byte) (b : Nat) :
    memGet (memWrite m a bs) b = if a ≤ b ∧ b < a + bs.length then bs[b - a]?.getD 0 else memGet m b := by
  induction bs generalizing m a with
  | nil => rw [if_neg (by simp)]; rfl
  | cons x bs ih =>
    simp only [memWrite]
    rw [ih (wf_memSet a x h), memGet_memSet (lo := 0) h]
    by_cases h1 : a + 1 ≤ b ∧ b < a + 1 + bs.length
    · rw [if_pos h1, if_pos (by simp; omega), show b - a = (b - (a + 1)) + 1 by omega, List.getElem?_cons_succ]
    · rw [if_neg h1]
      by_cases h2 : b = a
      · subst h2; simp
      · rw [if_neg h2, if_neg (by simp; omega)]

/-! ### Places -/

theorem Tbl.mem_of_find {κ α : Type} [DecidableEq κ] {t : Tbl κ α} {k : κ} {x : α} (h : t.find k = some x) : (k, x) ∈ t := by
  induction t with
  | nil => cases h
  | cons e t ih =>
    obtain ⟨j, y⟩ := e
    unfold Tbl.find at h
    split at h
    · next hj => subst hj; cases h; exact List.mem_cons_self
    · exact List.mem_cons_of_mem _ (ih h)

/-- A place that accesses can write: a scratchpad of a team that is present, the local store of a debug core, or physical
memory that does not end among the `n` bytes. -/
def Place.writable (s : State) (p : Place) (n : Nat) : Prop :=
  match p with
  | .phys pa => pa % 2 ^ 43 + n ≤ 2 ^ 43
  | .spad t _ => (s.team? t).isSome = true
  | .store _ _ => True
  | .aperture _ _ => False

@[simp] theorem memRead_one (m : Mem) (a : Nat) : memRead m a 1 = [memGet m a] := rfl

/-- A write of bytes leaves every byte outside them alone. -/
theorem readPlace_writePlace_ne {s : State} (hs : s.memOk) (p q : Place) (bs : List Byte) (h : ¬ p.covers bs.length q) :
    readPlace (writePlace s p bs) q 1 = readPlace s q 1 := by
  have hn : ∀ k < bs.length, q ≠ p.add k := fun k hk e => h ⟨k, hk, e⟩
  obtain ⟨hm, hf, ht, hd⟩ := hs
  cases p with
  | phys pa =>
    have hown : (physWrite s pa bs).ownDev = s.ownDev := by unfold physWrite; split <;> rfl
    cases q with
    | phys pb =>
      simp only [readPlace, writePlace, physRead, hown, memRead_one]
      unfold physWrite
      by_cases ha : pa / 2 ^ 43 = s.ownDev <;> by_cases hb : pb / 2 ^ 43 = s.ownDev <;>
        simp only [ha, hb, if_true, if_false]
      · rw [memGet_memWrite hm, if_neg]
        rintro ⟨h1, h2⟩
        refine hn (pb % 2 ^ 43 - pa % 2 ^ 43) (by omega) ?_
        simp only [Place.add, Place.phys.injEq]
        have e1 := Nat.div_add_mod pa (2 ^ 43)
        have e2 := Nat.div_add_mod pb (2 ^ 43)
        rw [ha] at e1
        rw [hb] at e2
        omega
      · rw [memGet_memWrite hf, if_neg]
        rintro ⟨h1, h2⟩
        refine hn (pb - pa) (by omega) ?_
        simp only [Place.add, Place.phys.injEq]
        omega
    | spad t off => simp only [readPlace, writePlace]; unfold physWrite; split <;> rfl
    | store d off => simp only [readPlace, writePlace]; unfold physWrite; split <;> rfl
    | aperture e c => rfl
  | spad t off =>
    simp only [writePlace, State.modTeam]
    split
    · next x hx =>
      cases q with
      | spad t' off' =>
        simp only [readPlace]
        by_cases e : t' = t
        · subst e
          simp only [State.team?, State.setTeam, Tbl.find_put, Option.map_some, Option.getD_some]
          simp only [State.team?] at hx
          rw [hx]
          simp only [Option.map_some, Option.getD_some, memRead_one]
          rw [memGet_memWrite (ht _ (Tbl.mem_of_find hx)), if_neg]
          rintro ⟨h1, h2⟩
          refine hn (off' - off) (by omega) ?_
          simp only [Place.add, Place.spad.injEq, true_and]
          omega
        · simp [State.team?, State.setTeam, Tbl.find_put_ne _ _ e]
      | phys pb => rfl
      | store d off => rfl
      | aperture e c => rfl
    · rfl
  | store d off =>
    simp only [writePlace]
    cases q with
    | store d' off' =>
      simp only [readPlace]
      rw [dbg_modDbg]
      by_cases e : d' = d
      · subst e
        simp only [if_true, memRead_one]
        have hw : Memory.wf (s.dbg d').store = true := by
          unfold State.dbg
          cases hx : s.debugs.find d' with
          | none => rfl
          | some x => exact hd _ (Tbl.mem_of_find hx)
        rw [memGet_memWrite hw, if_neg]
        rintro ⟨h1, h2⟩
        refine hn (off' - off) (by omega) ?_
        simp only [Place.add, Place.store.injEq, true_and]
        omega
      · simp [e]
    | phys pb => rfl
    | spad t o => rfl
    | aperture e c => rfl
  | aperture e c => rfl

/-- A write of bytes is read back. -/
theorem readPlace_writePlace_up {s : State} (hs : s.memOk) (p : Place) (bs : List Byte) (hp : p.writable s bs.length) {k : Nat}
    (hk : k < bs.length) : readPlace (writePlace s p bs) (p.add k) 1 = [bs[k]?.getD 0] := by
  obtain ⟨hm, hf, ht, hd⟩ := hs
  cases p with
  | phys pa =>
    have hown : (physWrite s pa bs).ownDev = s.ownDev := by unfold physWrite; split <;> rfl
    simp only [Place.writable] at hp
    have hdiv : (pa + k) / 2 ^ 43 = pa / 2 ^ 43 := by omega
    simp only [readPlace, writePlace, Place.add, physRead, hown, hdiv, memRead_one]
    unfold physWrite
    split
    · rw [memGet_memWrite hm, if_pos (by omega), show (pa + k) % 2 ^ 43 - pa % 2 ^ 43 = k by omega]
    · rw [memGet_memWrite hf, if_pos (by omega), show pa + k - pa = k by omega]
  | spad t off =>
    simp only [Place.writable] at hp
    obtain ⟨x, hx⟩ := Option.isSome_iff_exists.mp hp
    simp only [writePlace, State.modTeam, hx, readPlace, Place.add]
    simp only [State.team?, State.setTeam, Tbl.find_put, Option.map_some, Option.getD_some, memRead_one]
    simp only [State.team?] at hx
    rw [memGet_memWrite (ht _ (Tbl.mem_of_find hx)), if_pos (by omega), show off + k - off = k by omega]
  | store d off =>
    simp only [writePlace, readPlace, Place.add]
    rw [dbg_modDbg]
    have hw : Memory.wf (s.dbg d).store = true := by
      unfold State.dbg
      cases hx : s.debugs.find d with
      | none => rfl
      | some x => exact hd _ (Tbl.mem_of_find hx)
    simp only [if_true, memRead_one]
    rw [memGet_memWrite hw, if_pos (by omega), show off + k - off = k by omega]
  | aperture e c => exact hp.elim

/-! ### Every write keeps every memory in canonical form -/

theorem Tbl.mem_put {κ α : Type} [DecidableEq κ] (t : Tbl κ α) (k : κ) (x : α) (e : κ × α) (h : e ∈ t.put k x) :
    e = (k, x) ∨ e ∈ t := by
  induction t with
  | nil => simp [Tbl.put] at h; exact .inl h
  | cons f t ih =>
    obtain ⟨j, y⟩ := f
    unfold Tbl.put at h
    split at h
    · next hj => subst hj; rcases List.mem_cons.mp h with h | h
                 · exact .inl h
                 · exact .inr (List.mem_cons_of_mem _ h)
    · rcases List.mem_cons.mp h with h | h
      · exact .inr (h ▸ List.mem_cons_self)
      · exact (ih h).imp_right (List.mem_cons_of_mem _)

/-- A write at a place keeps every memory in canonical form. -/
theorem memOk_writePlace {s : State} (hs : s.memOk) (p : Place) (bs : List Byte) : (writePlace s p bs).memOk := by
  obtain ⟨hm, hf, ht, hd⟩ := hs
  cases p with
  | phys pa =>
    simp only [writePlace, physWrite]
    split
    · exact ⟨wf_memWrite _ _ hm, hf, ht, hd⟩
    · exact ⟨hm, wf_memWrite _ _ hf, ht, hd⟩
  | spad t off =>
    simp only [writePlace, State.modTeam]
    split
    · next x hx =>
      refine ⟨hm, hf, fun e he => ?_, hd⟩
      rcases Tbl.mem_put _ _ _ _ he with rfl | he
      · exact wf_memWrite _ _ (ht _ (Tbl.mem_of_find hx))
      · exact ht e he
    · exact ⟨hm, hf, ht, hd⟩
  | store d off =>
    refine ⟨hm, hf, ht, fun e he => ?_⟩
    rcases Tbl.mem_put _ _ _ _ he with rfl | he
    · refine wf_memWrite _ _ ?_
      unfold State.dbg
      cases hx : s.debugs.find d with
      | none => rfl
      | some x => exact hd _ (Tbl.mem_of_find hx)
    · exact hd e he
  | aperture e c => exact ⟨hm, hf, ht, hd⟩

/-- A write at a physical address keeps every memory in canonical form. -/
theorem memOk_physWrite {s : State} (hs : s.memOk) (pa : Nat) (bs : List Byte) : (physWrite s pa bs).memOk :=
  memOk_writePlace hs (.phys pa) bs

end Sys2Proof.Machine
end

