-- ==== Sys2Proof/Laws/Order.lean ====
section
/-! SUPPORT. The order of memory events: which lines a list names, what each operation on the ledger leaves unchanged, and
that a write part by part keeps the memories in canonical form and leaves every byte outside alone. -/

namespace Sys2Proof.Machine

/-! ### Lines -/

theorem Lines.at_name (l : Lines) (x y : Line) (sc k : Nat) : (Lines.name sc l y).At x k ↔ l.At x k ∨ (x = y ∧ k ≤ sc) := by
  unfold Lines.name Lines.At
  split
  · next h =>
    simp only [List.any_eq_true, Bool.and_eq_true, beq_iff_eq, decide_eq_true_eq] at h
    obtain ⟨⟨z, m⟩, hm, rfl, hs⟩ := h
    constructor
    · exact .inl
    · rintro (h | ⟨rfl, h⟩)
      · exact h
      · exact ⟨m, hm, Nat.le_trans h hs⟩
  · next h =>
    simp only [List.any_eq_true, Bool.and_eq_true, beq_iff_eq, decide_eq_true_eq, not_exists, not_and] at h
    constructor
    · rintro ⟨j, hj, hk⟩
      rcases List.mem_cons.mp hj with hj | hj
      · cases hj; exact .inr ⟨rfl, hk⟩
      · exact .inl ⟨j, (List.mem_filter.mp hj).1, hk⟩
    · rintro (⟨j, hj, hk⟩ | ⟨rfl, hk⟩)
      · by_cases hx : x = y
        · subst hx
          have := h (x, j) hj rfl
          exact ⟨sc, List.mem_cons_self, by omega⟩
        · exact ⟨j, List.mem_cons_of_mem _ (List.mem_filter.mpr ⟨hj, by simpa using hx⟩), hk⟩
      · exact ⟨sc, List.mem_cons_self, hk⟩

/-- Naming some lines at a scope names them that widely and changes no other. -/
theorem Lines.at_nameAll (l : Lines) (ls : List Line) (x : Line) (sc k : Nat) :
    (l.nameAll ls sc).At x k ↔ l.At x k ∨ (x ∈ ls ∧ k ≤ sc) := by
  unfold Lines.nameAll
  induction ls generalizing l with
  | nil => simp
  | cons y ls ih => rw [List.foldl_cons, ih, Lines.at_name, List.mem_cons, or_and_right, or_assoc]

/-- The reach of a list is the widest scope at which it names a line. -/
theorem Lines.reach_at (l : Lines) (f : Line → Bool) (k : Nat) :
    (∃ j, l.reach f = some j ∧ k ≤ j) ↔ ∃ x, f x = true ∧ l.At x k := by
  unfold Lines.reach Lines.At
  constructor
  · rintro ⟨j, hj, hk⟩
    have := List.max?_mem hj
    simp only [List.mem_map, List.mem_filter] at this
    obtain ⟨⟨x, m⟩, ⟨hm, hf⟩, rfl⟩ := this
    exact ⟨x, hf, m, hm, hk⟩
  · rintro ⟨x, hf, m, hm, hk⟩
    have hmem : m ∈ (l.filter (fun y => f y.1)).map (·.2) := List.mem_map.mpr ⟨(x, m), List.mem_filter.mpr ⟨hm, hf⟩, rfl⟩
    cases hj : ((l.filter (fun y => f y.1)).map (·.2)).max? with
    | none => rw [List.max?_eq_none_iff] at hj; simp [hj] at hmem
    | some j => exact ⟨j, rfl, Nat.le_trans hk ((List.max?_eq_some_iff.mp hj).2 m hmem)⟩

/-! ### Frames: nothing but the ledger and the count of free values changes -/

theorem State.ReadsOnly.refl (s : State) : s.ReadsOnly s := rfl

theorem State.ReadsOnly.trans {s t u : State} (h : s.ReadsOnly t) (k : t.ReadsOnly u) : s.ReadsOnly u := by
  unfold State.ReadsOnly at h k
  have k' := congrArg (fun x : State => { x with ledger := s.ledger, free := s.free }) k
  exact k'.trans h

theorem ledger_readsOnly (s : State) (l : Ledger) : s.ReadsOnly { s with ledger := l } := rfl
theorem mapAfter_readsOnly (s : State) (f : Follows → Follows) : s.ReadsOnly (s.mapAfter f) := rfl
theorem happen_readsOnly (s : State) (e : Event) (p : Place) (n : Nat) : s.ReadsOnly (s.happen e p n) := rfl
theorem carry_readsOnly (s : State) (f : Line → Bool) (sc : Nat) (d : List Line) : s.ReadsOnly (s.carry f sc d) := rfl
theorem order_readsOnly (s : State) (f : Line → Bool) (sc : Nat) (d : List Line) : s.ReadsOnly (s.order f sc d) := rfl
theorem unmark_readsOnly (s : State) (ks : List Nat) : s.ReadsOnly (s.unmark ks) := rfl
theorem relay_readsOnly (s : State) (src : List Line) (dst : Line) : s.ReadsOnly (s.relay src dst) := rfl
theorem drawWord_readsOnly (s : State) : s.ReadsOnly s.drawWord.2 := rfl
theorem absorb_readsOnly (s : State) (e : Event) (xs : List Part) : s.ReadsOnly (s.absorb e xs) := rfl
theorem pend_readsOnly (s : State) (e : Event) (d : Option (GroupId × SlotId × BitVec 6)) (xs : List Part) :
    s.ReadsOnly (s.pend e d xs) := rfl
theorem perform_readsOnly (s : State) (f : Loading → Bool) : s.ReadsOnly (s.perform f) := rfl
theorem settleScalars_readsOnly (s : State) (gid : GroupId) (sl : SlotId) (w : BitVec 32) : s.ReadsOnly (s.settleScalars gid sl w) := rfl
theorem newest_readsOnly (s : State) (e : Event) (p : Place) (n : Nat) : s.ReadsOnly (s.newest e p n) := rfl
theorem viewed_readsOnly (s : State) (e : Event) (gone : List Nat) (ps : List (Place × Nat)) : s.ReadsOnly (s.viewed e gone ps) := rfl
theorem passBy_readsOnly (s : State) (k n : Nat) : s.ReadsOnly (s.passBy k n) := rfl
theorem take_readsOnly (s : State) (l : Loading) (ws : List Written) (seen new : List Nat) : s.ReadsOnly (s.take l ws seen new) := rfl
theorem tileEvent_readsOnly (s : State) (ms : List (GroupId × SlotId)) (h : Nat) (r w : List Nat) : s.ReadsOnly (s.tileEvent ms h r w) :=
  (((unmark_readsOnly s _).trans (happen_readsOnly _ _ _ _)).trans (carry_readsOnly _ _ _ _)).trans (carry_readsOnly _ _ _ _)

theorem fence_readsOnly (s : State) (gid : GroupId) (sl : SlotId) (b : List Nat) (sc : Nat) (a : List Nat) :
    s.ReadsOnly (s.fence gid sl b sc a) := rfl

theorem syncRelease_readsOnly (s : State) (gid : GroupId) (sl : SlotId) (r : List Nat) (sc : Nat) (d : List Line) :
    s.ReadsOnly (s.syncRelease gid sl r sc d) :=
  (((unmark_readsOnly s _).trans (happen_readsOnly _ _ _ _)).trans (carry_readsOnly _ _ _ _)).trans (carry_readsOnly _ _ _ _)

theorem syncAcquire_readsOnly (s : State) (gid : GroupId) (sl : SlotId) (c : List Line) (r : List Nat) (sc : Nat) (d : List Line) :
    s.ReadsOnly (s.syncAcquire gid sl c r sc d) :=
  ((((unmark_readsOnly s _).trans (happen_readsOnly _ _ _ _)).trans (carry_readsOnly _ _ _ _)).trans
    (order_readsOnly _ _ _ _)).trans (carry_readsOnly _ _ _ _)

/-- Free values name writes, and nothing else happens. -/
theorem draws_readsOnly (ws : List Written) (s : State) : s.ReadsOnly (State.draws ws s).2 := by
  induction ws generalizing s with
  | nil => exact State.ReadsOnly.refl s
  | cons r ws ih => exact (drawWord_readsOnly s).trans (ih _)

/-- The choice of the writes that an event sees draws free values and does nothing else. -/
theorem choose_readsOnly (need : Nat) (must : Written → Bool) (ws : List Written) (s : State) :
    s.ReadsOnly (State.choose need must ws s).2 := draws_readsOnly _ s

theorem readParts_readsOnly (e : Event) (l : List (Nat × Nat × Place × Nat)) (s : State) : s.ReadsOnly (State.readParts e s l).2 := by
  induction l generalizing s with
  | nil => exact State.ReadsOnly.refl s
  | cons q l ih => exact (choose_readsOnly e.need (fun r => !r.ownedBy e || r.knownTo e q.2.2.1 q.2.2.2) _ s).trans (ih _)

theorem reads_readsOnly (s : State) (e : Event) (n : Nat) (d : Option (GroupId × SlotId × BitVec 6)) (ps : List (Nat × Place)) :
    s.ReadsOnly (s.reads e n d ps).2 := by
  have h := readParts_readsOnly e (ps.flatMap (laneParts n)) s
  unfold State.reads
  dsimp only
  split
  · exact h.trans (absorb_readsOnly _ _ _)
  · exact (h.trans (absorb_readsOnly _ _ _)).trans (pend_readsOnly _ _ _ _)

/-- A read changes nothing but the ledger and the count of free values. -/
theorem readBy_readsOnly (s : State) (e : Event) (p : Place) (n : Nat) : s.ReadsOnly (s.readBy e p n).2 := reads_readsOnly _ _ _ _ _

theorem readLanes_readsOnly (s : State) (e : Event) (n : Nat) (d : Option (GroupId × SlotId × BitVec 6)) (ps : List (Nat × Place)) :
    s.ReadsOnly (s.readLanes e n d ps).2 := reads_readsOnly _ _ _ _ _

theorem viewBy_readsOnly (s : State) (e : Event) : s.ReadsOnly (s.viewBy e).2 :=
  choose_readsOnly e.need (fun r => r.knownTo e r.place r.old.length) _ s

theorem offerTo_readsOnly (w : Nat) (s : State) (l : Nat) : s.ReadsOnly (State.offerTo w s l) := by
  unfold State.offerTo
  split
  · split
    · exact State.ReadsOnly.refl s
    · dsimp only
      split
      · exact passBy_readsOnly _ _ _
      · split
        · exact (drawWord_readsOnly s).trans (take_readsOnly _ _ _ _ _)
        · exact (drawWord_readsOnly s).trans (passBy_readsOnly _ _ _)
  · exact State.ReadsOnly.refl s

/-- The offer of a write to pending loads changes nothing but the ledger and the count of free values. -/
theorem offer_readsOnly (s : State) (w : Written) : s.ReadsOnly (s.offer w) := by
  have main : ∀ (ls : List Nat) (t : State), t.ReadsOnly (ls.foldl (State.offerTo w.id) t) := by
    intro ls
    induction ls with
    | nil => exact State.ReadsOnly.refl
    | cons k ls ih => exact fun t => (offerTo_readsOnly _ t k).trans (ih _)
  exact State.ReadsOnly.trans (by exact rfl) (main _ _)

/-! ### Writes -/

theorem besides_length (later : List Written) (p : Place) (bs now : List Byte) : (besides later p bs now).length = bs.length := by
  simp [besides]

theorem placed_readsOnly (s : State) (e : Event) (o : Option GroupId) (a : Bool) (p : Place) (n : Nat) :
    s.ReadsOnly (s.placed e o a p n).2 := by
  unfold State.placed
  exact choose_readsOnly _ _ _ s

/-- One part of a write: bytes of its length at its place, and nothing else but the ledger and the count of free values. -/
theorem writeAtom_bytes (s : State) (e : Event) (o : Option GroupId) (a : Bool) (src : List Line) (p : Place) (bs : List Byte) :
    ∃ t bs', s.ReadsOnly t ∧ bs'.length = bs.length ∧ (writePlace t p bs').ReadsOnly (s.writeAtom e o a src p bs) := by
  unfold State.writeAtom
  dsimp only
  generalize hs : State.carry _ _ _ _ = s1
  have h1 : s.ReadsOnly s1 := hs ▸ (happen_readsOnly s _ p bs.length).trans (carry_readsOnly _ _ _ _)
  generalize hx : State.placed _ _ _ _ _ _ = x
  have h2 : s1.ReadsOnly x.2 := hx ▸ placed_readsOnly s1 _ o a p bs.length
  exact ⟨x.2, _, h1.trans h2, besides_length _ _ _ _, (ledger_readsOnly _ _).trans (offer_readsOnly _ _)⟩

theorem State.ReadsOnly.memOk {s t : State} (h : s.ReadsOnly t) (hs : s.memOk) : t.memOk := by
  have h1 := congrArg State.mem h
  have h2 := congrArg State.far h
  have h3 := congrArg State.teams h
  have h4 := congrArg State.debugs h
  dsimp only at h1 h2 h3 h4
  unfold State.memOk
  rw [h1, h2, h3, h4]
  exact hs

theorem State.ReadsOnly.read {s t : State} (h : s.ReadsOnly t) (p : Place) (n : Nat) : readPlace t p n = readPlace s p n := by
  rw [← h]
  cases p <;> rfl

theorem memOk_writeAtom {s : State} (hs : s.memOk) (e : Event) (o : Option GroupId) (a : Bool) (src : List Line) (p : Place)
    (bs : List Byte) : (s.writeAtom e o a src p bs).memOk := by
  obtain ⟨t, bs', h, -, k⟩ := writeAtom_bytes s e o a src p bs
  exact k.memOk (memOk_writePlace (h.memOk hs) p bs')

/-- A write part by part keeps every memory in canonical form. -/
theorem memOk_writeBy {s : State} (hs : s.memOk) (e : Event) (o : Option GroupId) (a : Bool) (src : List Line) (p : Place)
    (bs : List Byte) : (s.writeBy e o a src p bs).memOk := by
  unfold State.writeBy
  generalize p.split bs.length = l
  induction l generalizing s with
  | nil => exact hs
  | cons q l ih => exact ih (memOk_writeAtom hs e o a src q.1 _)

/-- A write of another agent keeps every memory in canonical form. -/
theorem memOk_put {s : State} (hs : s.memOk) (p : Place) (bs : List Byte) : (s.put p bs).memOk := by
  obtain ⟨t, h, k⟩ : ∃ t, s.ReadsOnly t ∧ s.put p bs = writePlace t p bs :=
    ⟨{ s with ledger := s.ledger.under p bs.length }, rfl, rfl⟩
  rw [k]
  exact memOk_writePlace (h.memOk hs) p bs

theorem memOk_writeAs {s : State} (hs : s.memOk) (gid : GroupId) (sl : SlotId) (cls : Nat) (src : List Line) (p : Place)
    (bs : List Byte) : (s.writeAs gid sl cls src p bs).memOk := by
  unfold State.writeAs
  split
  · exact memOk_put hs p bs
  · exact memOk_writeBy hs _ _ _ _ p bs

/-- A part of an access covers only bytes of the access. -/
theorem parts_covers (p : Place) (fuel n : Nat) (q : Place × Nat) (hq : q ∈ p.parts fuel n) (x : Place) (hx : q.1.covers q.2 x) :
    p.covers n x := by
  induction fuel generalizing p n with
  | zero => simp [Place.parts] at hq
  | succ fuel ih =>
    unfold Place.parts at hq
    dsimp only at hq
    split at hq
    · simp at hq
    · rename_i hn
      have hk : (if p.off % 16 = 0 ∧ 16 ≤ n then 16 else 1) ≤ n := by split <;> omega
      generalize (if p.off % 16 = 0 ∧ 16 ≤ n then 16 else 1) = m at hq hk
      rcases List.mem_cons.mp hq with rfl | hq
      · obtain ⟨k, hk', rfl⟩ := hx
        exact ⟨k, by dsimp only at hk'; omega, rfl⟩
      · obtain ⟨k, hk', rfl⟩ := ih _ _ hq
        refine ⟨m + k, by omega, ?_⟩
        cases p <;> simp [Place.add, Nat.add_assoc]

/-- The single-copy atomic parts of an access cover only bytes of it (R177). -/
theorem split_covers (p : Place) (n : Nat) (q : Place × Nat) (hq : q ∈ p.split n) (x : Place) (hx : q.1.covers q.2 x) :
    p.covers n x := by
  unfold Place.split at hq
  split at hq
  · rcases List.mem_singleton.mp hq with rfl
    exact hx
  · exact parts_covers p _ _ q hq x hx

/-- A write part by part leaves every byte outside alone. -/
theorem readPlace_writeBy_ne {s : State} (hs : s.memOk) (e : Event) (o : Option GroupId) (a : Bool) (src : List Line)
    (p q : Place) (bs : List Byte) (h : ¬ p.covers bs.length q) : readPlace (s.writeBy e o a src p bs) q 1 = readPlace s q 1 := by
  have main : ∀ (l : List (Place × Nat)) (t : State), t.memOk → (∀ x ∈ l, ¬ x.1.covers x.2 q) →
      readPlace (l.foldl (fun s (x, n) => s.writeAtom e o a src x ((bs.drop (x.off - p.off)).take n)) t) q 1 = readPlace t q 1 := by
    intro l
    induction l with
    | nil => intro t _ _; rfl
    | cons x l ih =>
      intro t ht hl
      rw [List.foldl_cons, ih _ (memOk_writeAtom ht e o a src x.1 _) (fun y hy => hl y (List.mem_cons_of_mem _ hy))]
      obtain ⟨u, bs', hu, hl', hk⟩ := writeAtom_bytes t e o a src x.1 ((bs.drop (x.1.off - p.off)).take x.2)
      rw [hk.read, readPlace_writePlace_ne (hu.memOk ht), hu.read]
      rintro ⟨k, hk', rfl⟩
      exact hl x List.mem_cons_self ⟨k, by rw [hl', List.length_take] at hk'; omega, rfl⟩
  exact main _ s hs (fun x hx hc => h (split_covers p _ x hx q hc))

end Sys2Proof.Machine
end

