-- ==== Sys2Proof/Laws/Vector.lean ====
section
/-! SUPPORT. What the shared operations of the vector words do: writes of lanes, results under a type, flags of lanes,
results on their way, last reads, and the checks of registers. -/

namespace Sys2Proof.Machine

/-! ### One register -/

theorem vreg_writeV (g : Group) (n : Nat) (m : Mask) (f : Nat → BitVec 32) (k : Nat) :
    (g.writeV n m f).vreg k =
      if k = n then (if n < g.vLimit then some ⟨true, vecOf (fun l => if m.getLsbD l then f l else g.readV n l)⟩ else none)
      else g.vreg k := by
  unfold Group.vreg Group.vLimit Group.writeV
  by_cases h : k = n
  · subst h; simp
  · simp [h, Tbl.find_put_ne]

theorem vreg_emptyV (g : Group) (n k : Nat) :
    (g.emptyV n).vreg k =
      if k = n then (if n < g.vLimit then some ⟨false, vecOf (fun l => g.readV n l)⟩ else none) else g.vreg k := by
  unfold Group.vreg Group.vLimit Group.emptyV
  by_cases h : k = n
  · subst h; simp
  · simp [h, Tbl.find_put_ne]

theorem Tbl.find_drop {κ α : Type} [DecidableEq κ] (t : Tbl κ α) (k : κ) : (t.drop k).find k = none := by
  induction t with
  | nil => rfl
  | cons e t ih =>
    obtain ⟨k', y⟩ := e
    by_cases h : k' = k <;> simp [Tbl.drop, Tbl.find, h, ih]

theorem Tbl.find_drop_ne {κ α : Type} [DecidableEq κ] (t : Tbl κ α) {k j : κ} (h : j ≠ k) :
    (t.drop k).find j = t.find j := by
  induction t with
  | nil => rfl
  | cons e t ih =>
    obtain ⟨k', y⟩ := e
    by_cases hk : k' = k
    · subst hk; simp [Tbl.drop, Tbl.find, Ne.symm h, ih]
    · by_cases hj : k' = j
      · subst hj; simp [Tbl.drop, Tbl.find, hk]
      · simp [Tbl.drop, Tbl.find, hk, hj, ih]

theorem vreg_vacate (g : Group) (n k : Nat) : (g.vacate n).vreg k = if k = n then none else g.vreg k := by
  unfold Group.vreg Group.vLimit Group.vacate
  by_cases h : k = n
  · subst h; simp [Tbl.find_drop]
  · simp [h, Tbl.find_drop_ne]

theorem getElem_vecOf (f : Nat → BitVec 32) (l : Nat) (h : l < 64) : (vecOf f)[l]? = some (f l) := by
  simp [vecOf, h]

theorem readV_writeV (g : Group) (n : Nat) (m : Mask) (f : Nat → BitVec 32) (k l : Nat) (hl : l < 64) (hn : n < g.vLimit) :
    (g.writeV n m f).readV k l = if k = n then (if m.getLsbD l then f l else g.readV n l) else g.readV k l := by
  unfold Group.readV
  rw [vreg_writeV]
  by_cases h : k = n
  · subst h; simp [hn, getElem_vecOf _ _ hl]; rfl
  · simp [h]

theorem vLimit_writeV (g : Group) (n : Nat) (m : Mask) (f : Nat → BitVec 32) : (g.writeV n m f).vLimit = g.vLimit := rfl

@[simp] theorem active_writeV (g : Group) (sl : SlotId) (n : Nat) (m : Mask) (f : Nat → BitVec 32) :
    (g.writeV n m f).active sl = g.active sl := by cases sl <;> rfl

/-! ### Results under a type -/

theorem occupies_lo (ty n : Nat) : n ∈ occupies ty n := by unfold occupies; split <;> simp

theorem occupies_hi {ty : Nat} (n : Nat) (h : isPair ty = true) : n + 1 ∈ occupies ty n := by simp [occupies, h]

/-- A result of a type in the lanes of a mask. -/
theorem result_putV (g : Group) (sl : SlotId) (ty d : Nat) (f : Nat → Nat) (h : g.Writable (occupies ty d)) :
    g.Result (g.putV ty d (g.active sl) f) sl ty d f := by
  have h0 : d < g.vLimit := (h d (occupies_lo ty d)).1
  unfold Group.putV
  by_cases hp : isPair ty = true
  · have h1 : d + 1 < g.vLimit := (h (d + 1) (occupies_hi d hp)).1
    refine ⟨fun l hl => ?_, fun _ l hl => ?_, fun n hn => ?_⟩
    · simp only [hp, if_true]
      rw [readV_writeV _ _ _ _ _ _ hl (by rw [vLimit_writeV]; exact h1), if_neg (show ¬ d = d + 1 by omega), readV_writeV _ _ _ _ _ _ hl h0,
        if_pos rfl]
    · simp only [hp, if_true]
      rw [readV_writeV _ _ _ _ _ _ hl (by rw [vLimit_writeV]; exact h1), if_pos rfl, readV_writeV _ _ _ _ _ _ hl h0,
        if_neg (show ¬ d + 1 = d by omega)]
    · simp only [occupies, hp, if_true, List.mem_cons, List.not_mem_nil, or_false] at hn ⊢
      rcases hn with rfl | rfl
      · rw [vreg_writeV, vreg_writeV]; simp [h0]
      · rw [vreg_writeV]; simp [vLimit_writeV, h1]
  · refine ⟨fun l hl => ?_, fun hq => absurd hq hp, fun n hn => ?_⟩
    · rw [if_neg hp, readV_writeV _ _ _ _ _ _ hl h0, if_pos rfl]
    · rw [occupies, if_neg hp, List.mem_singleton] at hn
      subst hn
      rw [if_neg hp, vreg_writeV]; simp [h0]

theorem kept_putV (g : Group) (sl : SlotId) (ty d : Nat) (m : Mask) (f : Nat → Nat) :
    g.Kept (g.putV ty d m f) sl { v := occupies ty d } := by
  unfold Group.putV
  by_cases hp : isPair ty = true
  · simp only [hp, if_true]
    refine ((kept_writeV g sl d m _).trans (kept_writeV _ sl (d + 1) m _)).mono ?_ ?_ ?_ ?_ ?_ ?_ ?_ ?_ <;>
      simp [Writes.union, occupies, hp]
  · simp only [hp]
    exact (kept_writeV g sl d m _).mono (by simp) (by simp) (by simp) (by simp) (by simp [occupies, hp]) (by simp) (by simp)
      (by simp)

@[simp] theorem vreg_raise (g : Group) (f : BitVec 5) (n : Nat) : (g.raise f).vreg n = g.vreg n := rfl

@[simp] theorem readV_raise (g : Group) (f : BitVec 5) (n l : Nat) : (g.raise f).readV n l = g.readV n l := rfl

theorem Group.Result.raise {g G : Group} {sl : SlotId} {ty d : Nat} {f : Nat → Nat} (h : g.Result G sl ty d f) (x : Flags) :
    g.Result (G.raise x) sl ty d f := ⟨h.lo, h.hi, h.full⟩

theorem Group.Result.congr {g G : Group} {sl : SlotId} {ty d : Nat} {f f' : Nat → Nat} (h : g.Result G sl ty d f)
    (e : ∀ l < 64, (g.active sl).getLsbD l = true → f l = f' l) : g.Result G sl ty d f' := by
  refine ⟨fun l hl => ?_, fun hp l hl => ?_, h.full⟩
  · rw [h.lo l hl]; split
    · rename_i ha; rw [e l hl ha]
    · rfl
  · rw [h.hi hp l hl]; split
    · rename_i ha; rw [e l hl ha]
    · rfl

/-! ### Flags of lanes -/

theorem getElem_laneTable (m : Mask) (f : Nat → Nat × Flags) (l : Nat) (h : l < 64) :
    (laneTable m f)[l]? = some (if m.getLsbD l then f l else (0, 0)) := by
  simp [laneTable, h]

theorem foldl_flags (xs : List (Nat × Flags)) (a : Flags) (k : Nat) :
    (xs.foldl (fun a x => a ||| x.2) a).getLsbD k = true ↔ a.getLsbD k = true ∨ ∃ x ∈ xs, x.2.getLsbD k = true := by
  induction xs generalizing a with
  | nil => simp
  | cons x xs ih =>
    rw [List.foldl_cons, ih]
    simp only [BitVec.getLsbD_or, Bool.or_eq_true, List.mem_cons, exists_eq_or_imp, or_assoc]

theorem tableFlags_iff (m : Mask) (f : Nat → Nat × Flags) (k : Nat) :
    (tableFlags (laneTable m f)).getLsbD k = true ↔ ∃ l < 64, m.getLsbD l = true ∧ (f l).2.getLsbD k = true := by
  unfold tableFlags
  rw [foldl_flags]
  constructor
  · rintro (h | ⟨x, hx, hk⟩)
    · simp at h
    · simp only [laneTable, Vector.toList_ofFn, List.mem_ofFn] at hx
      obtain ⟨i, rfl⟩ := hx
      refine ⟨i.val, i.isLt, ?_⟩
      by_cases hm : m.getLsbD i.val = true
      · exact ⟨hm, by rw [if_pos hm] at hk; exact hk⟩
      · rw [if_neg hm] at hk; simp at hk
  · rintro ⟨l, hl, hm, hk⟩
    refine .inr ⟨f l, ?_, hk⟩
    simp only [laneTable, Vector.toList_ofFn, List.mem_ofFn]
    exact ⟨⟨l, hl⟩, by simp [hm]⟩

theorem raised_raise (g G : Group) (sl : SlotId) (f : Nat → Nat × Flags) (h : G.flags = g.flags) :
    g.Raised (G.raise (tableFlags (laneTable (g.active sl) f))) sl (fun l => (f l).2) := by
  intro k _
  show (G.flags ||| _).getLsbD k = true ↔ _
  rw [BitVec.getLsbD_or, Bool.or_eq_true, tableFlags_iff, h]

/-! ### Whole results -/

theorem result_putAll (g : Group) (sl : SlotId) (ty : Nat) (d : BitVec 6) (f : Nat → Nat × Flags)
    (h : g.Writable (occupies ty d.toNat)) : g.Result (g.putAll sl ty d f) sl ty d.toNat (fun l => (f l).1) := by
  refine Group.Result.raise ((result_putV g sl ty d.toNat _ h).congr fun l hl ha => ?_) _
  rw [getElem_laneTable _ _ _ hl]; simp [ha]

theorem flags_putV (g : Group) (ty d : Nat) (m : Mask) (f : Nat → Nat) : (g.putV ty d m f).flags = g.flags := by
  unfold Group.putV; split <;> rfl

theorem raised_putAll (g : Group) (sl : SlotId) (ty : Nat) (d : BitVec 6) (f : Nat → Nat × Flags) :
    g.Raised (g.putAll sl ty d f) sl (fun l => (f l).2) := raised_raise g _ sl f (flags_putV g ty d.toNat _ _)

theorem kept_putAll (g : Group) (sl : SlotId) (ty : Nat) (d : BitVec 6) (f : Nat → Nat × Flags) :
    g.Kept (g.putAll sl ty d f) sl { v := occupies ty d.toNat, flags := true } :=
  ((kept_putV g sl ty d.toNat _ _).trans (kept_raise _ sl _)).mono (by simp [Writes.union]) (by simp [Writes.union])
    (by simp [Writes.union]) (by simp [Writes.union]) (by simp [Writes.union]) (by simp [Writes.union]) (by simp)
    (by simp [Writes.union])

/-- A result that raises no flag keeps FLAGS. -/
theorem tableFlags_quiet (m : Mask) (f : Nat → Nat × Flags) (h : ∀ l, (f l).2 = 0) : tableFlags (laneTable m f) = 0 := by
  apply BitVec.eq_of_getLsbD_eq
  intro k hk
  rw [Bool.eq_iff_iff, tableFlags_iff]
  simp [h]

theorem raise_zero (g : Group) : g.raise 0 = g := by simp [Group.raise]

theorem putAll_quiet (g : Group) (sl : SlotId) (ty : Nat) (d : BitVec 6) (f : Nat → Nat × Flags) (h : ∀ l, (f l).2 = 0) :
    g.putAll sl ty d f = g.putV ty d.toNat (g.active sl) (fun l => ((laneTable (g.active sl) f)[l]?.getD (0, 0)).1) := by
  show Group.raise _ (tableFlags (laneTable (g.active sl) f)) = _
  rw [tableFlags_quiet _ _ h, raise_zero]

theorem kept_putAll_quiet (g : Group) (sl : SlotId) (ty : Nat) (d : BitVec 6) (f : Nat → Nat × Flags) (h : ∀ l, (f l).2 = 0) :
    g.Kept (g.putAll sl ty d f) sl { v := occupies ty d.toNat } := by
  rw [putAll_quiet g sl ty d f h]; exact kept_putV _ _ _ _ _ _

/-! ### Last reads -/

theorem vreg_vacateAll (g : Group) (ns : List Nat) (k : Nat) :
    (ns.foldl Group.vacate g).vreg k = if k ∈ ns then none else g.vreg k := by
  induction ns generalizing g with
  | nil => simp
  | cons n ns ih =>
    rw [List.foldl_cons, ih, vreg_vacate]
    by_cases h : k ∈ ns <;> by_cases h2 : k = n <;> simp [h, h2]

theorem vreg_lastRead (g : Group) (h : BitVec 2) (b d : List Nat) (k : Nat) :
    (g.lastRead h b d).vreg k = if h = 3#2 ∧ k ∈ b ∧ k ∉ d then none else g.vreg k := by
  unfold Group.lastRead
  by_cases hh : h = 3#2
  · simp only [hh, if_true, vreg_vacateAll, List.mem_filter, true_and, Bool.not_eq_true', List.contains_eq_mem,
      decide_eq_false_iff_not]
  · simp [hh]

theorem lastRead_lastRead (g : Group) (h : BitVec 2) (b d : List Nat) : (g.lastRead h b d).LastRead h b d := by
  intro hh n hn hd
  rw [vreg_lastRead]; simp [hh, hn, hd]

theorem readV_lastRead (g : Group) (h : BitVec 2) (b d : List Nat) (k l : Nat) (hk : k ∈ d) :
    (g.lastRead h b d).readV k l = g.readV k l := by
  unfold Group.readV; rw [vreg_lastRead]; simp [hk]

theorem kept_vacate (g : Group) (sl : SlotId) (n : Nat) : g.Kept (g.vacate n) sl { v := [n] } :=
  kept_v g sl _ _ (fun _ _ hk => Tbl.find_drop_ne _ (by simpa using hk))

theorem kept_vacateAll (g : Group) (sl : SlotId) (ns : List Nat) : g.Kept (ns.foldl Group.vacate g) sl { v := ns } := by
  induction ns generalizing g with
  | nil => exact Group.Kept.refl g sl _
  | cons n ns ih =>
    rw [List.foldl_cons]
    exact ((kept_vacate g sl n).trans (ih _)).mono (by simp [Writes.union]) (by simp [Writes.union])
      (by simp [Writes.union]) (by simp [Writes.union]) (by simp [Writes.union]) (by simp [Writes.union])
      (by simp [Writes.union]) (by simp [Writes.union])

theorem kept_lastRead (g : Group) (sl : SlotId) (h : BitVec 2) (b d : List Nat) :
    g.Kept (g.lastRead h b d) sl { v := if h = 3#2 then b else [] } := by
  unfold Group.lastRead
  by_cases hh : h = 3#2
  · simp only [hh, if_true]
    refine (kept_vacateAll g sl _).mono (by simp) (by simp) (by simp) (by simp) ?_ (by simp) (by simp) (by simp)
    intro n hn; exact (List.mem_filter.mp hn).1
  · simp only [hh, if_false]; exact Group.Kept.refl g sl _

theorem Group.Result.lastRead {g G : Group} {sl : SlotId} {ty d : Nat} {f : Nat → Nat} (r : g.Result G sl ty d f)
    (h : BitVec 2) (b : List Nat) : g.Result (G.lastRead h b (occupies ty d)) sl ty d f := by
  refine ⟨fun l hl => ?_, fun hp l hl => ?_, fun n hn => ?_⟩
  · rw [readV_lastRead _ _ _ _ _ _ (occupies_lo ty d)]; exact r.lo l hl
  · rw [readV_lastRead _ _ _ _ _ _ (occupies_hi d hp)]; exact r.hi hp l hl
  · obtain ⟨x, hx, hf⟩ := r.full n hn
    exact ⟨x, by rw [vreg_lastRead]; simp [hn, hx], hf⟩

@[simp] theorem flags_lastRead (g : Group) (h : BitVec 2) (b d : List Nat) : (g.lastRead h b d).flags = g.flags :=
  (kept_lastRead g .a h b d).flags rfl

/-! ### Checks of registers -/

theorem checkSrcs_ready (g : Group) (l : List (Nat × Bool)) (h : g.Ready (l.map (·.1))) : g.checkSrcs l = none := by
  induction l with
  | nil => rfl
  | cons e l ih =>
    obtain ⟨n, t⟩ := e
    obtain ⟨r, hr, hf⟩ := h n (by simp)
    simp only [Group.checkSrcs, hr, hf, if_true]
    exact ih (fun k hk => h k (by simp at hk ⊢; exact .inr hk))

theorem checkDsts_writable (g : Group) (l : List Nat) (h : g.Writable l) : g.checkDsts l = none := by
  induction l with
  | nil => rfl
  | cons n l ih =>
    have hn := h n (by simp)
    have ih := ih (fun k hk => h k (by simp [hk]))
    simp only [Group.checkDsts, Nat.not_le.mpr hn.1, if_false]
    split
    · rename_i r hr; simp [hn.2 r hr, ih]
    · exact ih

theorem hurdle_none (g : Group) (s : List (Nat × Bool)) (d : List Nat) (hs : g.Ready (s.map (·.1))) (hd : g.Writable d) :
    g.hurdle s d = none := by
  simp [Group.hurdle, checkSrcs_ready g s hs, checkDsts_writable g d hd]

theorem src_map (ty : Nat) (n : BitVec 6) (t : Bool) : (src ty n t).map (·.1) = occupies ty n.toNat := by
  simp [src, List.map_map, Function.comp_def]

/-- The codes of a lane lie within the type. -/
theorem rawV_lt (g : Group) (ty n l : Nat) : g.rawV ty n l < 2 ^ tyBits ty := by
  unfold Group.rawV
  dsimp only
  split <;> exact Nat.mod_lt _ (Nat.two_pow_pos _)

/-! ### Bodies of words -/

/-- A word of two sources whose registers stop nothing writes its results, and vacates a b that it reads last. -/
theorem binary_body (s : State) (gid : GroupId) (sl : SlotId) (g : Group) (d a b : BitVec 6) (x y : Bool) (h : BitVec 2)
    (rd : Bool) (f : Nat → Nat → Nat → Nat × Flags)
    (hr : g.Ready (occupies (g.ty sl) a.toNat ++ occupies (g.ty sl) b.toNat ++ if rd then occupies (g.ty sl) d.toNat else []))
    (hw : g.Writable (occupies (g.ty sl) d.toNat)) :
    binary s gid sl g d a b x y h rd f = onGroup s gid ((g.putAll sl (g.ty sl) d (fun l =>
      f (g.rawV (g.ty sl) a.toNat l) (g.rawV (g.ty sl) b.toNat l) (g.rawV (g.ty sl) d.toNat l))).lastRead h
        (occupies (g.ty sl) b.toNat) (occupies (g.ty sl) d.toNat)) := by
  unfold binary
  simp only []
  rw [hurdle_none]
  · rfl
  · simp only [List.map_append, src_map]; cases rd <;> simpa [src_map] using hr
  · exact hw

/-- A word of one source whose registers stop nothing writes its results. -/
theorem unary_body (s : State) (gid : GroupId) (sl : SlotId) (g : Group) (d a : BitVec 6) (x : Bool) (f : Nat → Nat × Flags)
    (hr : g.Ready (occupies (g.ty sl) a.toNat)) (hw : g.Writable (occupies (g.ty sl) d.toNat)) :
    unary s gid sl g d a x f = onGroup s gid (g.putAll sl (g.ty sl) d (fun l => f (g.rawV (g.ty sl) a.toNat l))) := by
  unfold unary
  simp only []
  rw [hurdle_none _ _ _ (by rw [src_map]; exact hr) hw]
  rfl

theorem mem_touched {h : BitVec 2} {b d : List Nat} {n : Nat} : n ∈ touched h b d ↔ n ∈ d ∨ (h = 3#2 ∧ n ∈ b) := by
  unfold touched; split <;> simp_all

theorem kept_results (g : Group) (sl : SlotId) (ty : Nat) (d : BitVec 6) (f : Nat → Nat × Flags) (h : BitVec 2) (b : List Nat) :
    g.Kept ((g.putAll sl ty d f).lastRead h b (occupies ty d.toNat)) sl
      { v := touched h b (occupies ty d.toNat), flags := true } := by
  refine ((kept_putAll g sl ty d f).trans (kept_lastRead _ sl _ _ _)).mono (by simp [Writes.union]) (by simp [Writes.union])
    (by simp [Writes.union]) (by simp [Writes.union]) (fun n hn => ?_) (by simp [Writes.union]) (by simp) (by simp [Writes.union])
  simp only [Writes.union, List.mem_append] at hn
  rw [mem_touched]
  rcases hn with hn | hn
  · exact .inl hn
  · split at hn
    · rename_i hh; exact .inr ⟨hh, hn⟩
    · simp at hn

end Sys2Proof.Machine
end

