-- ==== Sys2Proof/Tests/Slice0.lean ====
section
/-! SUPPORT. Tests of the model: words written out from the encodings of the specification, ill-formed terms, one step
of some words on a small state, and for each statement a state and operands that meet its hypotheses together. -/

namespace Sys2Proof.Tests

open Sys2Proof.Machine

/-! ### A small state -/

/-- A group: team group 0 of grid 1, gang 0, team 0. -/
def tId : GroupId := ⟨1, 0, 0, 0⟩

/-- Page tables that map two pages, 0x1000 and 0x2000, to 0x20000 and 0x21000 with W and X (R153); a counter of 5. -/
def tMem : Mem :=
  [(0x10000, 1), (0x10001, 0x10), (0x10002, 1), (0x11000, 1), (0x11001, 0x20), (0x11002, 1), (0x12000, 1),
   (0x12001, 0x30), (0x12002, 1), (0x13000, 1), (0x13001, 0x40), (0x13002, 1), (0x14008, 0x0F), (0x1400A, 2),
   (0x14010, 0x0F), (0x14011, 0x10), (0x14012, 2), (0x20000, 5)]

/-- A context with its root at 0x10000, templates and trace buffer in the second page. -/
def tCtx : Context :=
  { pasid := 1, fn := 0, root := 0x10000, pvbase := 0, tmbase := 0x2000, mcbase := 0x2800, trbase := 0x2C00, trctl := 0,
    digest := [], kernels := [], heapBase := 0x8000000000, heapSize := 0x10000, heapNext := 0, fns := [], frames := 0,
    a0 := 0, logged := [], ended := false, cwait := none, stage := .running, preAt := 0, save := none, parkedE := [], susp := [],
    savedQ := [], ovf := 0x2000, ovfn := 4, ovfUsed := [], bells := [], bptSet := [], wptSet := [] }

/-- A team of one core with a handler, rings and scratchpad. -/
def tTeam : Team :=
  { ctx := 1, core := 0, pair := false, vcores := [0], seqs := [0], handle := builtinHandle 1 0 0 1, width := 16, groups := 1,
    spad := 64, spadAt := [0], tiles := 4, slots := 4, rings := 4, stages := 4, tvec := 0x2000, nextId := 32, bytes := [],
    full := [], tags := [], ringF := .replicate 4 0, ringP := .replicate 4 0, tileT := [], slotT := [], marks := [],
    live := 1 }

/-- A register whose lane l holds a number. -/
def tReg (f : Nat → Nat) : VReg := ⟨true, vecOf (fun l => BitVec.ofNat 32 (f l))⟩

/-- A group of 16 lanes and 64 registers, of which the first 24 are full, at 0x1000; s1 names the counter. -/
def tG : Group :=
  let g := Group.new 1 0 0 0 0 0 .none 16 64 0
  { g with
    a := { g.a with pc := 0x1000, fork := { g.a.fork with s := (g.a.fork.s.set 1 0x1000).set 2 3 } }
    v := (List.range 24).map (fun n => (n, tReg (fun l => if n = 0 then l else n)))
    viewEnd := some 0x2000 }

/-- The group with another mode word. -/
def tMode (g : Group) (m : BitVec 32) : Group := { g with a := { g.a with fork := { g.a.fork with mode := m } } }

/-- TYPE of a mode word (R256). -/
def tType (t : Nat) : BitVec 32 := BitVec.ofNat 32 (t * 2 ^ 15)

/-- The group split: slot B stands at 0x1010 with the upper eight lanes. -/
def tSplit (g : Group) : Group :=
  { g with a := { g.a with mask := 0x00FF }, b := some { g.a with pc := 0x1010, mask := 0xFF00 } }

/-- The package with one context, one team and nothing else. -/
def tBase : State :=
  { State.reset with
    timer := 2000000, devrdy := 0x3FFFFFF, contexts := [(1, tCtx)], teams := [((1, 0, 0), tTeam)], mem := tMem
    umaps := (List.range 4).map (fun d => (d, ⟨BitVec.allOnes 96, 15, 511, true, 0⟩)) }

/-- A slot of a group issues. -/
def tOn (g : Group) (sl : SlotId) : State := { tBase with cur := .group tId sl, groups := [(tId, g)] }

/-- The debug core of die 0 issues. -/
def tDbg (g : Group) : State := { tBase with cur := .group (debugId 0) .a, groups := [(debugId 0, g), (tId, tG)] }

/-- A word that passes the checks of R269 issues. -/
theorem issues_of_check {i : Instr} {g : Group} (h : groupCheck (tOn g .a) tId .a g i = none) :
    Issues i (tOn g .a) tId .a g := ⟨rfl, rfl, nofun, h⟩

theorem issues_of_checkB {i : Instr} {g : Group} (hb : g.b.isSome = true) (h : groupCheck (tOn g .b) tId .b g i = none) :
    Issues i (tOn g .b) tId .b g := ⟨rfl, rfl, fun _ => hb, h⟩

theorem issues_debug {i : Instr} {g : Group} (h : groupCheck (tDbg g) (debugId 0) .a g i = none) :
    Issues i (tDbg g) (debugId 0) .a g := ⟨rfl, rfl, nofun, h⟩

/-- A write of the group, of core class, that nothing has ordered before another class yet (R171), and one that an ordering
operation has put before its atomics. -/
def tOld (knows : Lines) : Written :=
  { id := 0, group := some tId, place := .phys 0x20000, old := [4], need := 0, atom := false, mixed := false
    after := ⟨[⟨.path tId .a 0, .phys 0x20000, 1, scopeAll⟩], knows, [(.path tId .a 0, scopeAll)]⟩ }

def tLedger (knows : Lines) : Ledger := ⟨[tOld knows], [], 1⟩

/-- Registers are full when the table says so. -/
theorem ready_of {g : Group} {ns : List Nat} (h : (ns.all (fun n => (g.vreg n).any (·.full))) = true) : g.Ready ns := by
  intro n hn
  have h1 := List.all_eq_true.mp h n hn
  cases hr : g.vreg n with
  | none => rw [hr] at h1; cases h1
  | some r => rw [hr] at h1; exact ⟨r, rfl, h1⟩

theorem writable_of {g : Group} {ns : List Nat}
    (h : (ns.all (fun n => decide (n < g.vLimit) && (g.v.find n).all (·.full))) = true) : g.Writable ns := by
  intro n hn
  have := List.all_eq_true.mp h n hn
  simp only [Bool.and_eq_true, decide_eq_true_eq] at this
  refine ⟨this.1, fun r hr => ?_⟩
  have h2 := this.2
  rw [hr] at h2
  simpa using h2

theorem witness_memOk (g : Group) (sl : SlotId) : (tOn g sl).memOk := by
  refine ⟨?_, ?_, ?_, ?_⟩
  · show Memory.wf tMem = true
    decide
  · rfl
  · intro e he
    simp only [tOn, tBase, List.mem_singleton] at he
    rw [he]
    rfl
  · intro e he
    cases he


/-! ### Reset, memory, words and the step -/

theorem test_read_p : checkAddr (tOn tG .a) tId .read false 8 0x1000 = .ok (.phys 0x20000) := rfl

/-- Does an outcome go on? -/
def goesOn (o : Out) : Bool :=
  match o with
  | .next _ => true
  | _ => false

theorem next_of {o : Out} (h : goesOn o = true) : ∃ t, o = .next t := by
  cases o with
  | next t => exact ⟨t, rfl⟩
  | _ => cases h

theorem witness_StepKeepsMemory :
    (tOn tG .a).memOk ∧ ∃ t, step { tOn tG .a with agenda := [.issue (.group tId .a)] } = .next t :=
  ⟨witness_memOk tG .a, next_of (by decide)⟩

theorem witness_DecodeEncode :
    (Instr.sadd 4 1 36).wellFormed = true ∧ encodeWord (.sadd 4 1 36) = some 0x20101900#32 := by decide

/-- A group at a word of zeros. -/
def tG4 : Group := { tG with a := { tG.a with pc := 0x1004 } }

theorem witness_StepRunsWord :
    let s : State := { tOn tG4 .a with agenda := [.issue (.group tId .a)] }
    let s1 : State := { s.tick with agenda := [] }
    s.tripped = false ∧ s1.group? tId = some tG4 ∧ s1.mayIssue tId tG4 .a = true ∧ s1.occupied tId tG4 .a = none ∧
      s1.bptHit tG4 .a = false ∧ stubAt s1 1 0x1004 = none ∧
      (fetchWord { s1 with cur := .group tId .a } tId 0x1004).toOption = some 0#32 ∧ tG4.atEnd .a = false :=
  ⟨rfl, rfl, by decide, by decide, by decide, by decide, by decide, by decide⟩

/-- A scalar load of eight bytes into a register, of which a later write of the group has replaced the lowest byte. -/
def tLoading (t : BitVec 6) : Loading :=
  { id := 1, lines := [.path tId .a 0, .path tId .b 0], since := 0, dest := some (tId, .a, t), lane := 0, start := 0
    place := .phys 0x20000, bytes := 8, need := 0, value := some (0x55 :: List.replicate 7 0), gone := [], bars := [], shut := []
    done := false, after := .none }

/-- `sadd s4, s1, s2` depends on s4 and s2, not on s5; `xfence` on none. A load that has returned a later write holds it. -/
theorem witness_StepRunsWord_scalars :
    let s : State := { tOn tG .a with ledger := ⟨[], [tLoading 4, tLoading 5, tLoading 2], 2⟩ }
    let w : BitVec 32 := 0x20101080
    (decodeWord w = .sadd 4 1 2 ∧ (s.settleScalars tId .a w).ledger.loads.map (·.dest) = [some (tId, .a, 5)]) ∧
      (s.settleScalars tId .a 0xD2000043).ledger.loads = s.ledger.loads ∧
      ((s.tick.group? tId).map (fun g => (g.readS .a 2).toNat % 256)) = some 0x55 ∧
      (∀ l ∈ (tOn tG .a).ledger.loads, l.dest = none ∨ l.value = none) := by decide

/-- A stream of a grid at the same word. -/
def tSeq : Seq :=
  { own := ⟨0x1004, .replicate 16 0, 0, []⟩, ctx := 1, queue := [], nextSeq := 0, stopped := false, ended := false
    view := none, viewEnd := none, read := 0, inChain := false, lastEnd := none, trail := []
    entry := ⟨⟨0x1004, .replicate 16 0, 0, []⟩, none, none, 0⟩ }

def tQ (l : Level) : SeqId := ⟨l, 1, 0, 0, .none⟩

/-- A stream of a level issues. -/
def tSt (l : Level) (x : Seq) : State := { tBase with cur := .seq (tQ l), seqs := [(tQ l, x)] }

theorem witness_StepRunsOthers :
    let s : State := { tSt .grid tSeq with agenda := [.issue (.seq (tQ .grid))] }
    let s2 : State := { s.tick with agenda := [], cur := .seq (tQ .grid) }
    s.tripped = false ∧ s2.seq? (tQ .grid) = some tSeq ∧
      ((ownerOf (.seq (tQ .grid))).bind (fun p => s2.nextBaton p tSeq.read)) = none ∧ stubAt s2 1 0x1004 = none ∧
      (fetchIn s2 1 0x1004).toOption = some 0#32 :=
  ⟨rfl, rfl, by decide, by decide, by decide⟩

theorem witness_ThermalTripStops :
    { tBase with tripped := true }.tripped = true ∧ (∀ n rest, tBase.agenda ≠ .event .reset n :: rest) ∧
      ({ tBase with agenda := [.event .reset 0] } : State).agenda = .event .reset 0 :: [] :=
  ⟨rfl, nofun, rfl⟩

/-- An urgent group goes before one that has issued fewer instructions; the quadrant chooses it, and issues it. With no group
the quadrant chooses none. -/
theorem witness_IssueOrder :
    let u : Group := { tG with urgent := [7], issued := 9 }
    let k : GroupId := ⟨1, 0, 0, 1⟩
    let s : State := { tBase with groups := [(tId, tG), (k, u)], agenda := [.slot 0 0] }
    s.Before k u tId tG ∧ lexLt (s.rank k u) (s.rank tId tG) = true ∧ s.chosen 0 0 = some (k, .a) ∧
      goesOn (s.issueGroup k .a) = true ∧ s.tripped = false ∧ s.absentCore 0 = false ∧
      ({ s with groups := [] } : State).chosen 0 0 = none :=
  ⟨.inl ⟨by decide, rfl⟩, by decide, by decide, by decide, rfl, by decide, by decide⟩

/-- Under a float TYPE an integer word is stopped. -/
def tGf : Group := tMode tG (tType 8)

theorem stopped_of {i : Instr} {g : Group} (h : (groupCheck (tOn g .a) tId .a g i).isSome = true) :
    ∃ c, Stopped i (tOn g .a) tId .a g c := by
  obtain ⟨c, hc⟩ := Option.isSome_iff_exists.mp h
  exact ⟨c, rfl, rfl, hc⟩

theorem witness_ChecksStop_field :
    (encodeWord (.add 2 0 1 false false 0)).isSome = true ∧ upperScope (.add 2 0 1 false false 0) = none ∧
      ∃ c, Stopped (.add 2 0 1 false false 0) (tOn tGf .a) tId .a tGf c :=
  ⟨by decide, by decide, stopped_of (by decide)⟩

theorem witness_ChecksStop_unassigned :
    decodeWord 0xFF123456#32 = .unassignedOpcode 0xFF123456#32 ∧ wordScope 0xFF123456#32 = none ∧
      (tOn tG .a).cur = .group tId .a ∧ (tOn tG .a).group? tId = some tG :=
  ⟨by decide, by decide, rfl, rfl⟩

/-! ### Faults, traps and returns -/

/-- The record of an access violation. -/
def tRec : Record := (Cause.record ⟨0x05, 6⟩)

/-- A trap entry that came from 0x1000 with 16 lanes. -/
def tTrap (st : BitVec 32) : Entry := .trap 0x1000 0xFFFF 0 false 0 .a st tRec ⟨0, 0, false⟩ none

/-- A group in its handler. -/
def tGh : Group := { tG with hw := [tTrap 0] }

theorem witness_TakeFault :
    tId.isDebug = false ∧ (tOn tG .a).group? tId = some tG ∧ (tOn tG .a).team? tId.teamKey = some tTeam ∧
      (tOn tG .a).stepper tId = none ∧ tG.hw.length < 8 ∧ tG.spilled = [] ∧ tG.tdepth < 3 ∧ tTeam.tvec ≠ 0 ∧ tTeam.marks = [] ∧
      ((tOn tG .a).core tG.core).frozen = none ∧ (tOn tG .a).Landed tId :=
  ⟨rfl, rfl, rfl, rfl, by decide, rfl, by decide, by decide, rfl, rfl, nofun⟩

theorem witness_TakeFault_slotB :
    (tOn (tSplit tG) .b).group? tId = some (tSplit tG) ∧ (tSplit tG).b.isSome = true ∧ (tOn (tSplit tG) .b).stepper tId = none :=
  ⟨rfl, rfl, rfl⟩

theorem depth_of {n : Nat} {g : Group} {x : Hidden} (h : 256 ≤ n) : 256 ≤ ({ g with spilled := .replicate n x } : Group).depth := by
  show 256 ≤ g.hw.length + (List.replicate n x).length
  rw [List.length_replicate]
  omega

/-- A fault kills in each of the three cases. -/
theorem witness_FaultEnds :
    (let g : Group := { tG with hw := [tTrap 0, tTrap 0, tTrap 0] }
     (tOn g .a).group? tId = some g ∧ (tOn g .a).team? tId.teamKey = some tTeam ∧ 3 ≤ g.tdepth) ∧
    (let g : Group := { tG with spilled := .replicate 256 ⟨1, ⟨0, 0, false⟩, none⟩ }
     (tOn g .a).group? tId = some g ∧ 256 ≤ g.depth) ∧
    (let s : State := { tOn tG .a with teams := [((1, 0, 0), { tTeam with tvec := 0 })] }
     s.group? tId = some tG ∧ s.team? tId.teamKey = some { tTeam with tvec := 0 }) ∧
    ((tOn tG .a).core tG.core).frozen = none ∧ (debugId 0).isDebug = true :=
  ⟨⟨rfl, rfl, by decide⟩, ⟨rfl, depth_of (by decide)⟩, ⟨rfl, rfl⟩, rfl, rfl⟩

theorem witness_TrapReturn :
    Issues .tret (tOn tGh .a) tId .a tGh ∧ tGh.hw = [tTrap 0] ∧ 0#32 &&& 0xFFFFFE00#32 = 0#32 ∧ tGh.spilled = [] ∧
      (tOn tGh .a).stepper tId = none ∧ (tOn tGh .a).Landed tId :=
  ⟨issues_of_check (by decide), rfl, by decide, rfl, rfl, nofun⟩

theorem witness_TrapReturn_reserved :
    let g : Group := { tG with hw := [tTrap 0x200] }
    Issues .tret (tOn g .a) tId .a g ∧ 0x200#32 &&& 0xFFFFFE00#32 ≠ 0#32 := ⟨issues_of_check (by decide), by decide⟩

theorem witness_TrapReturn_empty : Issues .tret (tOn tG .a) tId .a tG ∧ tG.hw = [] := ⟨issues_of_check (by decide), rfl⟩

theorem witness_TrapReturn_call :
    let g : Group := { tG with hw := [.call 0x1004 0xFFFF .a] }
    Issues .tret (tOn g .a) tId .a g ∧ (Entry.call 0x1004 0xFFFF .a).kind = 1 := ⟨issues_of_check (by decide), rfl⟩

theorem witness_FaultThenReturn :
    let s1 : State := { (tOn tG .a).takeStop tId .a tRec 0x1000 with cur := .group tId .a }
    ∃ G, s1.group? tId = some G ∧ groupCheck s1 tId .a G .tret = none ∧ ∃ u, exec .tret s1 = .next u :=
  ⟨_, rfl, by decide, next_of (by decide)⟩

theorem witness_TrapWords :
    Issues (.trap 3) (tOn tG .a) tId .a tG ∧ tG.tdepth = 0 ∧ Issues (.trap 0xFF) (tOn tGh .a) tId .a tGh ∧ 0 < tGh.tdepth ∧
      Issues .brk (tOn tG .a) tId .a tG ∧ ((tOn tG .a).dbg (dieOfCore tG.core)).dctx.toNat ≠ tG.ctx :=
  ⟨issues_of_check (by decide), by decide, issues_of_check (by decide), by decide, issues_of_check (by decide), by decide⟩

/-- A debug core attached to context 1. -/
def tDebug : DebugCore := { DebugCore.reset with dctx := 1 }

theorem witness_TrapWords_attached :
    let s : State := { tOn tG .a with debugs := [(0, tDebug)] }
    Issues .brk s tId .a tG ∧ tG.ctx ≠ 0 ∧ (s.dbg (dieOfCore tG.core)).dctx.toNat = tG.ctx ∧ s.stepper tId = none :=
  ⟨⟨rfl, rfl, nofun, by decide⟩, by decide, by decide, by decide⟩

/-- A debug core that steps the group. -/
theorem witness_TrapWords_step :
    let s : State := { tOn tG .a with debugs := [(0, { tDebug with step := some (tId, .a) })] }
    Issues .brk s tId .a tG ∧ tG.ctx ≠ 0 ∧ s.stepper tId = some (0, .a) ∧ (s.dbg 0).dctx.toNat = tG.ctx ∧
      stopsIn (s.dbg 0).inbox < 32 :=
  ⟨⟨rfl, rfl, nofun, by decide⟩, by decide, by decide, by decide, by decide⟩

/-- A group that its team's broadcast has not struck, and one that has one word left. -/
theorem witness_RetireEffect :
    (tOn tG .a).group? tId = some tG ∧ (tOn tG .a).stepper tId = none ∧ tG.skidLeft = none ∧
      (let g : Group := { tG with skidLeft := some 1 }
       (tOn g .a).group? tId = some g ∧ (tOn g .a).stepper tId = none) := ⟨rfl, rfl, rfl, rfl, rfl⟩

/-! ### Scalar words -/

theorem witness_ScalarArithmetic :
    ∀ i ∈ [Instr.sadd 4 1 36, .ssub 4 1 2, .smul 4 1 2, .sand 4 1 2, .sor 4 1 2, .sxor 4 1 2, .sandn 4 1 2, .sshl 4 1 2,
        .sshr 4 1 2, .ssar 4 1 2, .srol 4 1 2],
      (scalarForm i).isSome = true ∧ groupCheck (tOn tG .a) tId .a tG i = none := by decide

theorem witness_ScalarArithmetic_immediate :
    ∀ i ∈ [Instr.saddi 4 1 5, .li 4 5, .lcat 4 5], groupCheck (tOn tG .a) tId .a tG i = none := by decide

theorem witness_ScalarDivision :
    (∀ i ∈ [Instr.sdiv 4 1 2, .sdivu 4 1 2, .srem 4 1 2, .sremu 4 1 2],
      (divisionForm i).isSome = true ∧ groupCheck (tOn tG .a) tId .a tG i = none) ∧
    tG.readS .a 2 ≠ 0 ∧ tG.readS .a 3 = 0 ∧
    (let g := (tG.writeS .a 1 0x8000000000000000).writeS .a 2 0xFFFFFFFFFFFFFFFF
     (g.readS .a 1).toInt = -2 ^ 63 ∧ (g.readS .a 2).toInt = -1) := by decide

theorem witness_ScalarCompares :
    (∀ i ∈ [Instr.sseq 3 1 2, .sslt 3 1 2, .ssltu 3 1 2, .ssle 3 1 2],
      (compareForm i).isSome = true ∧ groupCheck (tOn tG .a) tId .a tG i = none) ∧
    (compareForm (.sseq 4 1 2)).isSome = true ∧ (compareForm (.ssle 63 1 2)).isSome = true := by decide

/-! ### Words of the upper scopes -/

theorem owns_of {i : Instr} {l : Level} {x : Seq} (hr : x.runs (tQ l) = true) (hf : (tSt l x).seqHeld (tQ l) = false)
    (ho : ownerStop x i = none) (hs : (tSt l x).seq? (tQ l) = some x) : Owns i (tSt l x) (tQ l) x :=
  ⟨rfl, hs, hr, hf, ho⟩

/-- A stream with a call address and a flag. -/
def tSeqC : Seq := { tSeq with own := ⟨0x1004, .replicate 16 1, 1, [0x2000]⟩ }

theorem witness_ScopeArithmetic :
    (∀ i ∈ [Instr.kadd 3 1 2 true 5, .ksub 3 1 2 false 5, .kmul 3 1 2 true 5, .kand 3 1 2 true 5, .kor 3 1 2 true 5,
        .kxor 3 1 2 true 5, .kshl 3 1 2 true 5, .kshr 3 1 2 true 5, .kmov 3 1 true 5],
      (scopeForm i).isSome = true ∧ ownerStop tSeqC i = none) ∧
    (∀ i ∈ [Instr.kseq 3 1 2 true 5, .kslt 3 1 2 true 5, .ksltu 3 1 2 true 5],
      (scopeTest i).isSome = true ∧ ownerStop tSeqC i = none) ∧
    kLevel 3 = some .grid ∧ tSeqC.runs (tQ .grid) = true ∧ (tSt .grid tSeqC).seqHeld (tQ .grid) = false := by decide

theorem witness_ScopeArithmetic_owns : Owns (.kadd 3 1 2 true 5) (tSt .grid tSeqC) (tQ .grid) tSeqC :=
  owns_of (by decide) (by decide) (by decide) rfl

/-- A stream whose relay queue is full (R97). -/
def tSeqFull : Seq :=
  { tSeqC with queue := .replicate 8 ⟨.blank 0x1000 .grid, tSeqC.own, [], [], none, none, none, 0⟩ }

theorem witness_ScopeControl_full :
    Owns (.kadd 3 1 2 true 5) (tSt .grid tSeqFull) (tQ .grid) tSeqFull ∧
      Owns (.ret 4) (tSt .grid tSeqFull) (tQ .grid) tSeqFull ∧ 8 ≤ tSeqFull.queue.length ∧ tSeqC.queue.length < 8 :=
  ⟨owns_of (by decide) (by decide) (by decide) rfl, owns_of (by decide) (by decide) (by decide) rfl, by decide, by decide⟩

theorem witness_ScopeControl :
    bLevel 4 = some .grid ∧ Owns (.br 4 false 15 2) (tSt .grid tSeqC) (tQ .grid) tSeqC ∧
      Owns (.br 4 false 8 2) (tSt .grid tSeqC) (tQ .grid) tSeqC ∧ Owns (.call 4 2) (tSt .grid tSeqC) (tQ .grid) tSeqC ∧
      Owns (.ret 4) (tSt .grid tSeqC) (tQ .grid) tSeqC ∧ Owns (.loop 4 1 2) (tSt .grid tSeqC) (tQ .grid) tSeqC :=
  ⟨by decide, owns_of (by decide) (by decide) (by decide) rfl, owns_of (by decide) (by decide) (by decide) rfl,
    owns_of (by decide) (by decide) (by decide) rfl, owns_of (by decide) (by decide) (by decide) rfl,
    owns_of (by decide) (by decide) (by decide) rfl⟩

/-- The group has posted `t` true lanes of 16 at the stream's word. -/
def tPosted (t : Nat) : Group := { tG4 with post := some ⟨0x1004, 16, t, true, 7⟩, wait := some .post }

/-- The team's stream and its posted group. -/
def tPost (t : Nat) : State :=
  { tBase with
    cur := .seq (tQ .team), groups := [(tId, tPosted t)], seqs := [(tQ .team, { tSeq with view := some (.blank 0 .gang) })] }

def tSeqT : Seq := { tSeq with view := some (.blank 0 .gang) }

/-- Agreement, no agreement, and as many true lanes as false ones. -/
theorem witness_ScopeBranch :
    bLevel 2 = some .team ∧
    (∀ n ∈ [0, 16, 5, 8], ownerStop tSeqT (.br 2 false 0 2) = none ∧ tSeqT.runs (tQ .team) = true ∧
      (tPost n).seqHeld (tQ .team) = false ∧
      ((tPost n).posted (tQ .team) 0x1004).map (fun ps => ps.map (fun p => p.2.2)) = some [⟨0x1004, 16, n, true, 7⟩]) := by
  decide

theorem witness_ScopeBranch_owns : Owns (.br 2 false 0 2) (tPost 16) (tQ .team) tSeqT := ⟨rfl, rfl, rfl, rfl, rfl⟩

theorem witness_ScopeReductions :
    Owns (.wred 4 0 0 0 false 0) (tPost 16) (tQ .team) tSeqT ∧ ((tPost 16).posted (tQ .team) 0x1004).isSome = true ∧
      (tQ .team).level = .team := ⟨⟨rfl, rfl, rfl, rfl, by decide⟩, by decide, rfl⟩

theorem witness_ScopeReductions_upper :
    ownerStop tSeqC (.gred 4 0 0 0 false 0) = none ∧ ownerStop tSeqC (.dred 4 0 0 0 false 0) = none ∧
      (tQ .gang).level = .gang ∧ (tQ .grid).level = .grid := by decide

theorem witness_GroupAtUpperWord :
    (encodeWord (.kadd 1 1 2 true 5)).isSome = true ∧ upperScope (.kadd 1 1 2 true 5) = some .team ∧
    (tDbg tG).cur = .group (debugId 0) .a ∧ (debugId 0).isDebug = true ∧ (tOn { tG with spawned := true } .a).cur = .group tId .a ∧
    tG.viewEnd = some 0x2000 ∧ (0x2000 : PC) ≠ (tG.slot .a).pc ∧
    (let g : Group := { tSplit tG with viewEnd := some 0x1000 }
     g.viewEnd = some (g.slot .a).pc ∧ g.split = true) ∧
    (let g : Group := { tG with viewEnd := some 0x1000, hw := [.div 0x1008 0xFF 0xFFFF .a false .reset ⟨0, 0, false⟩] }
     g.viewEnd = some (g.slot .a).pc ∧ g.batDiv < g.divDepth) := by decide

/-- The group at the end of its baton, where its team's stream stands. -/
def tGe : Group := { tG4 with viewEnd := some 0x1004 }

def tEnd : State :=
  { tOn tGe .a with seqs := [(tQ .team, { tSeqT with lastEnd := some 0x1004 })] }

theorem witness_GroupAtUpperWord_post :
    bLevel 2 = some .team ∧ tGe.viewEnd = some (tGe.slot .a).pc ∧ tGe.split = false ∧ tGe.divDepth ≤ tGe.batDiv ∧
      tGe.post = none ∧ (tEnd.nextBaton (streamOf tId tGe) tGe.read).isSome = false ∧
      reach tEnd 0x1004 .team (chainUp (streamOf tId tGe) .team) =
        .here (tQ .team) { tSeqT with lastEnd := some 0x1004 } ∧
      allEnd tEnd 0x1004 (chainUp (streamOf tId tGe) .team) = true ∧
      ownerStop { tSeqT with lastEnd := some 0x1004 } (.br 2 false 0 2) = none := by decide

/-! ### Control words of a group -/

/-- P0 is true in lanes 0 to 3; P1 in all lanes and P2 in none. -/
def tGp : Group := { tG with p := ((tG.p.set 0 0x000F).set 1 0xFFFF) }

theorem witness_LaneBranch :
    Issues (.br 0 false 2 2) (tOn tGp .a) tId .a tGp ∧ Issues (.br 0 false 1 2) (tOn tGp .a) tId .a tGp ∧
      Issues (.br 0 false 0 2) (tOn tGp .a) tId .a tGp ∧ tGp.split = false ∧
      Issues (.br 0 false 0 2) (tOn (tSplit tGp) .a) tId .a (tSplit tGp) ∧ (tSplit tGp).split = true ∧ tGp.hw.length < 8 ∧
      (∀ l < 64, ((tGp.lanes .a).getLsbD l && ((tGp.readP 2).getLsbD l != false)) = false) ∧
      (∀ l < 64, ((tGp.lanes .a).getLsbD l && ((tGp.readP 1).getLsbD l == false)) = false) ∧
      ((tGp.readP 0).getLsbD 0 = true ∧ (tGp.readP 0).getLsbD 4 = false) :=
  ⟨issues_of_check (by decide), issues_of_check (by decide), issues_of_check (by decide), rfl,
    issues_of_check (by decide), rfl, by decide, by decide, by decide, by decide⟩

theorem witness_GroupBranch :
    (∀ i ∈ [Instr.br 1 false 15 2, .br 1 false 8 2, .br 1 true 8 2, .br 1 false 0 2, .br 1 false 1 2, .br 1 true 1 2],
      groupCheck (tOn tGp .a) tId .a tGp i = none) ∧
    tGp.readC .a 0 = false ∧ tGp.lanes .a &&& tGp.readP 1 = tGp.lanes .a ∧ tGp.lanes .a &&& tGp.readP 0 ≠ 0 ∧
    tGp.lanes .a &&& tGp.readP 0 ≠ tGp.lanes .a ∧ { tGp with a := { tGp.a with mask := 0 } }.lanes .a = 0 := by decide

theorem witness_GroupCalls :
    (∀ i ∈ [Instr.call 1 2, .ret 1, .loop 1 2 2], groupCheck (tOn tG .a) tId .a tG i = none) ∧ tG.hw = [] ∧
    tG.split = false ∧ (tG.readS .a 2 = 3 ∧ (tG.writeS .a 2 1).readS .a 2 = 1) ∧
    (let g : Group := { tG with hw := [.call 0x1004 0xFFFF .a] }
     groupCheck (tOn g .a) tId .a g (.ret 1) = none) ∧
    (let g : Group := { tG with hw := [.call 0x1004 0xFFFF .b] }
     groupCheck (tOn g .a) tId .a g (.ret 1) = none) ∧
    groupCheck (tOn tGh .a) tId .a tGh (.ret 1) = none ∧ (tTrap 0).kind ≠ 1 ∧
    groupCheck (tOn (tSplit tG) .a) tId .a (tSplit tG) (.ret 1) = none := by decide

theorem witness_JoinMerges :
    Issues .join (tOn tG .a) tId .a tG ∧ Issues .join (tOn (tSplit tG) .a) tId .a (tSplit tG) ∧
      ((tSplit tG).otherSlot .a).map (·.atJoin) = some false ∧
      (let g : Group := { tSplit tG with b := some { tG.a with pc := 0x1000, mask := 0xFF00, atJoin := true } }
       Issues .join (tOn g .a) tId .a g ∧ (g.otherSlot .a).map (fun o => (o.atJoin, o.pc)) = some (true, (g.slot .a).pc)) ∧
      (let g : Group := { tSplit tG with b := some { tG.a with pc := 0x1010, mask := 0xFF00, atJoin := true } }
       Issues .join (tOn g .a) tId .a g ∧ (g.otherSlot .a).map (fun o => (o.atJoin, o.pc)) = some (true, 0x1010)) ∧
      (let g : Group := { tG with hw := [.div 0x1008 0xFF 0xFFFF .a false .reset ⟨0, 0, false⟩] }
       Issues .join (tOn g .a) tId .a g) ∧
      (let g : Group := { tG with hw := [.div 0x1008 0xFF 0xFFFF .a true .reset ⟨0, 0, false⟩] }
       Issues .join (tOn g .a) tId .a g ∧ g.spilled = []) :=
  ⟨issues_of_check (by decide), issues_of_check (by decide), rfl, ⟨issues_of_check (by decide), rfl⟩,
    ⟨issues_of_check (by decide), rfl⟩, issues_of_check (by decide), ⟨issues_of_check (by decide), rfl⟩⟩

/-! ### Vector words -/

theorem witness_VectorIntegers :
    (∀ i ∈ [Instr.add 2 0 1 false false 0, .sub 2 0 1 false false 0, .mul 2 0 1 false false 0, .mulh 2 0 1 false false 0,
        .and 2 0 1 false false 0, .or 2 0 1 false false 0, .xor 2 0 1 false false 0, .andn 2 0 1 false false 0,
        .shl 2 0 1 false false 0, .shr 2 0 1 false false 0, .sar 2 0 1 false false 0, .rol 2 0 1 false false 0,
        .imin 2 0 1 false false 0, .imax 2 0 1 false false 0, .iabsd 2 0 1 false false 0, .imad 2 0 1 false false 3],
      (intForm (tG.ty .a) (modeSat (tG.mode .a)) i).isSome = true ∧ groupCheck (tOn tG .a) tId .a tG i = none) := by decide

theorem witness_VectorIntegers_all :
    Issues (.imad 2 0 1 false false 3) (tOn tG .a) tId .a tG ∧
      tG.Ready (occupies 0 0 ++ occupies 0 1 ++ if readsD (.imad 2 0 1 false false 3) then occupies 0 2 else []) ∧
      tG.Writable (occupies 0 2) :=
  ⟨issues_of_check (by decide), ready_of (by decide), writable_of (by decide)⟩

theorem witness_VectorDivision :
    (∀ i ∈ [Instr.idiv 2 0 1 false false 0, .irem 2 0 1 false false 0],
      (intDivForm (tG.ty .a) (modeSat (tG.mode .a)) i).isSome = true ∧ groupCheck (tOn tG .a) tId .a tG i = none) ∧
    tySigned 0 = true ∧ tG.rawV 0 0 0 = 0 ∧ tG.rawV 0 1 0 ≠ 0 := by decide

theorem witness_VectorDivision_ready :
    Issues (.idiv 2 1 0 false false 0) (tOn tG .a) tId .a tG ∧ tG.Ready (occupies 0 1 ++ occupies 0 0) ∧ tG.Writable (occupies 0 2) :=
  ⟨issues_of_check (by decide), ready_of (by decide), writable_of (by decide)⟩

/-- −2^31 divided by −1 under SAT 0. -/
theorem witness_VectorDivision_corner :
    let g : Group := { tG with v := [(0, tReg (fun _ => 2 ^ 31)), (1, tReg (fun _ => 2 ^ 32 - 1))] }
    (g.active .a).getLsbD 3 = true ∧ intOf 0 (g.rawV 0 0 3) = -(2 ^ (tyBits 0 - 1) : Int) ∧ intOf 0 (g.rawV 0 1 3) = -1 := by
  decide

theorem witness_VectorFloats :
    (∀ i ∈ [Instr.fadd 2 0 1 false false 0, .fsub 2 0 1 false false 0, .fmul 2 0 1 false false 0, .ffma 2 0 1 false false 0,
        .ffms 2 0 1 false false 0, .fnma 2 0 1 false false 0, .fmin 2 0 1 false false 0, .fmax 2 0 1 false false 0],
      (floatForm 8 (tType 8) i).isSome = true ∧ groupCheck (tOn tGf .a) tId .a tGf i = none) ∧
    tGf.ty .a = 8 ∧ tGf.mode .a = tType 8 := by decide

theorem witness_VectorFloats_ready :
    Issues (.ffma 2 0 1 false false 0) (tOn tGf .a) tId .a tGf ∧
      tGf.Ready (occupies 8 0 ++ occupies 8 1 ++ if readsD (.ffma 2 0 1 false false 0) then occupies 8 2 else []) ∧
      tGf.Writable (occupies 8 2) :=
  ⟨issues_of_check (by decide), ready_of (by decide), writable_of (by decide)⟩

theorem witness_VectorUnary :
    (∀ i ∈ [Instr.popc 2 0 false 0, .clz 2 0 false 0, .brev 2 0 false 0, .addi 2 0 false 5, .andi 2 0 false 5,
        .shli 2 0 false 5],
      (vecForm1 0 false i).isSome = true ∧ groupCheck (tOn tG .a) tId .a tG i = none) ∧
    (∀ i ∈ [Instr.fabs 2 0 false 0, .fneg 2 0 false 0],
      (vecForm1 8 false i).isSome = true ∧ groupCheck (tOn tGf .a) tId .a tGf i = none) := by decide

theorem witness_VectorUnary_ready :
    Issues (.popc 2 0 false 0) (tOn tG .a) tId .a tG ∧ Issues (.vli 2 5) (tOn tG .a) tId .a tG ∧
      Issues (.mov 2 0 false 0) (tOn tG .a) tId .a tG ∧ tG.Ready (occupies 0 0) ∧ tG.Writable (occupies 0 2) :=
  ⟨issues_of_check (by decide), issues_of_check (by decide), issues_of_check (by decide), ready_of (by decide),
    writable_of (by decide)⟩

/-- A register that is vacant, and one that is empty, with the t bit clear and set. -/
theorem witness_SourceChecks :
    let g : Group := { tG with v := [(0, tReg id), (3, ⟨false, .replicate 64 0⟩)] }
    Issues (.add 2 0 1 false false 0) (tOn g .a) tId .a g ∧ g.vreg 1 = none ∧ g.Ready [0] ∧
      Issues (.add 2 0 3 false true 0) (tOn g .a) tId .a g ∧ Issues (.add 2 0 3 false false 0) (tOn g .a) tId .a g ∧
      (g.vreg 3).map (·.full) = some false :=
  ⟨issues_of_check (by decide), by decide, ready_of (by decide), issues_of_check (by decide), issues_of_check (by decide),
    by decide⟩

theorem witness_LongLatency :
    Issues (.fdiv 2 0 1 false false 0) (tOn tGf .a) tId .a tGf ∧ tGf.Ready (occupies 8 0 ++ occupies 8 1) ∧
      tGf.Writable (occupies 8 2) ∧
      (∀ i ∈ [Instr.fsqrt 2 0 false 0, .frcp 2 0 false 0, .frsq 2 0 false 0, .fexp2 2 0 false 0, .flog2 2 0 false 0,
          .fsin 2 0 false 0, .fcos 2 0 false 0],
        (slowForm1 8 (tType 8) i).isSome = true ∧ groupCheck (tOn tGf .a) tId .a tGf i = none) :=
  ⟨issues_of_check (by decide), ready_of (by decide), writable_of (by decide), by decide⟩

theorem witness_LaneWords :
    (∀ i ∈ [Instr.shfl 2 0 1 false false 0, .shxor 2 0 1 false 0, .bcast 2 0 1 false 0, .vrd 2 0 1 false 0, .vwr 2 1 2],
      groupCheck (tOn tG .a) tId .a tG i = none) ∧
    (tG.active .a &&& laneBit 3) ≠ 0 ∧ (tG.active .a &&& laneBit 20) = 0 := by decide

theorem witness_LaneWords_ready :
    Issues (.shfl 2 0 1 false false 0) (tOn tG .a) tId .a tG ∧ tG.Ready (occupies 0 0 ++ [1]) ∧ tG.Writable (occupies 0 2) :=
  ⟨issues_of_check (by decide), ready_of (by decide), writable_of (by decide)⟩

/-- A group whose register 2 waits for a producer. -/
def tGw : Group :=
  { tG with v := [(2, ⟨false, .replicate 64 0⟩)], wb := [⟨[(2, .replicate 64 7)], 0xFFFF, 0, 0, false⟩] }

theorem witness_WritebackArrives :
    (tOn tGw .a).group? tId = some tGw ∧ tGw.wb = [⟨[(2, .replicate 64 7)], 0xFFFF, 0, 0, false⟩] ∧
      ((tOn tGw .a).core tGw.core).frozen = none ∧ ([(2, Vector.replicate 64 (7 : BitVec 32))].map (·.1)).Nodup ∧
      (tGw.vreg 2).isSome = true := ⟨rfl, rfl, rfl, by decide, by decide⟩

/-- A group of 16 registers. -/
def tGs : Group := { tG with base := 16 }

theorem witness_ExtendedRegisters :
    Issues .vacq (tOn tG .a) tId .a tG ∧ 64 ≤ tG.vLimit ∧
      Issues .vacq (tOn tGs .a) tId .a tGs ∧ tGs.vLimit < 64 ∧ ((tOn tGs .a).core tGs.core).vacq = [] ∧
      (tOn tGs .a).blockFree tGs = true ∧ Issues .vrel (tOn tG .a) tId .a tG ∧ tG.ext = 0 ∧
      (let g : Group := { tGs with ext := 1 }
       Issues .vrel (tOn g .a) tId .a g ∧ 0 < g.ext ∧ g.wb = []) :=
  ⟨issues_of_check (by decide), by decide, issues_of_check (by decide), by decide, rfl, by decide,
    issues_of_check (by decide), rfl, issues_of_check (by decide), by decide, rfl⟩

/-- A quadrant whose register bytes another group of 64 lanes holds. -/
theorem witness_ExtendedRegisters_full :
    let s : State := { tOn tGs .a with groups := (tId, tGs) :: (List.range 16).map (fun k =>
      ((⟨2, 0, 0, k⟩ : GroupId), { tG with width := 64, base := 64 })) }
    Issues .vacq s tId .a tGs ∧ s.blockFree tGs = false := ⟨⟨rfl, rfl, nofun, by decide⟩, by decide⟩

theorem witness_ExtendedRegisters_grant :
    let s : State := (tOn tGs .a).setCore 0 { Core.reset with vacq := [(0, tId, .a)] }
    s.group? tId = some tGs ∧ (s.core 0).vacq = [(0, tId, .a)] ∧ s.blockFree tGs = true ∧ (s.core 0).frozen = none :=
  ⟨rfl, rfl, by decide, rfl⟩

/-- A group that waits for a block although its registers reach v63 by now. -/
theorem witness_ExtendedRegisters_late :
    let s : State := (tOn tG .a).setCore 0 { Core.reset with vacq := [(0, tId, .a)] }
    s.group? tId = some tG ∧ (s.core 0).vacq = [(0, tId, .a)] ∧ 64 ≤ tG.vLimit ∧ (s.core 0).frozen = none :=
  ⟨rfl, rfl, by decide, rfl⟩

theorem witness_Conversions :
    Issues (.cvt 2 0 13 false 0) (tOn tG .a) tId .a tG ∧ Issues (.cvt 2 1 8 false 0) (tOn tG .a) tId .a tG ∧
      Issues (.cvt 2 1 0 false 0) (tOn tGf .a) tId .a tGf ∧ tG.Ready (occupies 8 1) ∧ tG.Writable (occupies 0 2) :=
  ⟨issues_of_check (by decide), issues_of_check (by decide), issues_of_check (by decide), ready_of (by decide),
    writable_of (by decide)⟩

/-- A loaded slot with a format word. -/
def tSlot (fmt : BitVec 32) : TSlot := ⟨0x1F0000000000000, 64, 4, 0, false, 16, 16, fmt, 0, 0, 0, 0⟩

def tSlots (fmt : BitVec 32) : State :=
  { tOn tGf .a with teams := [((1, 0, 0), { tTeam with slotT := [((0, 1), tSlot fmt)] })] }

/-- An unloaded slot, a slot of format 0 and one of format 5. -/
theorem witness_Conversions_narrow :
    Issues (.npack 2 0 1 false 0) (tSlots 5) tId .a tGf ∧ Issues (.nunpk 2 0 1 false 0) (tSlots 5) tId .a tGf ∧
      tGf.Ready (occupies 8 0) ∧ tGf.Writable [2] ∧ ((tSlots 5).team? tId.teamKey).isSome = true ∧
      (tSlot 5).fmt.toNat % 16 = 5 ∧ (tSlot 0).fmt.toNat % 16 ≠ 5 ∧ tTeam.slotT.find (0, 1) = none :=
  ⟨⟨rfl, rfl, nofun, by decide⟩, ⟨rfl, rfl, nofun, by decide⟩, ready_of (by decide), writable_of (by decide), rfl,
    by decide, by decide, rfl⟩

theorem witness_VectorCompares :
    (∀ i ∈ [Instr.ceq 2 0 1 false false 0, .clt 2 0 1 false false 0, .cle 2 0 1 false false 0, .cne 2 0 1 false false 0],
      (laneTest 0 i).isSome = true ∧ groupCheck (tOn tG .a) tId .a tG i = none) ∧
    (∀ i ∈ [Instr.pand 2 0 1, .por 2 0 1, .pxor 2 0 1, .pandn 2 0 1],
      (predForm i).isSome = true ∧ groupCheck (tOn tG .a) tId .a tG i = none) ∧
    (∀ i ∈ [Instr.pset 2 1, .pget 2 1, .pcnt 2 1, .elect 2, .nop], groupCheck (tOn tG .a) tId .a tG i = none) := by decide

theorem witness_VectorCompares_ready :
    Issues (.ceq 2 0 1 false false 0) (tOn tG .a) tId .a tG ∧ tG.Ready (occupies 0 0 ++ occupies 0 1) :=
  ⟨issues_of_check (by decide), ready_of (by decide)⟩

/-! ### Memory words -/

/-- What a check of an address answers: its place, or its failure. -/
def placeIs (x : Except Bad Place) (p : Place) : Bool :=
  match x with
  | .ok q => q == p
  | .error _ => false

def failsWith (x : Except Bad Place) (b : Bad) : Bool :=
  match x with
  | .ok _ => false
  | .error c => c == b

theorem ok_of {x : Except Bad Place} {p : Place} (h : placeIs x p = true) : x = .ok p := by
  cases x with
  | ok q => simp only [placeIs, beq_iff_eq] at h; rw [h]
  | error _ => cases h

theorem error_of {x : Except Bad Place} {b : Bad} (h : failsWith x b = true) : x = .error b := by
  cases x with
  | ok _ => cases h
  | error c => simp only [failsWith, beq_iff_eq] at h; rw [h]

/-- The clauses at the boundaries of their ranges: the last byte below 2^57 and the first above, the first and the last
address of the reserved range, the last address in the allocation of the scratchpad and the first outside. -/
theorem witness_Addresses :
    (failsWith (checkAddr (tOn tG .a) tId .read false 1 (2 ^ 57)) (.viol 5) = true) ∧
    (failsWith (checkAddr (tOn tG .a) tId .read false 8 (2 ^ 57 - 1)) .misaligned = true) ∧
    (failsWith (checkAddr (tOn tG .a) tId .read false 4 0x01F0000010000000) (.viol 4) = true) ∧
    (failsWith (checkAddr (tOn tG .a) tId .read false 4 (0x0200000000000000 - 4)) (.viol 5) = true ∨
      failsWith (checkAddr (tOn tG .a) tId .read false 4 (0x0200000000000000 - 4)) (.viol 4) = true) ∧
    (placeIs (checkAddr (tOn tG .a) tId .read false 4 (0x01F0000000000000 + 65532)) (.spad (1, 0, 0) 65532) = true) ∧
    (failsWith (checkAddr (tOn tG .a) tId .read false 4 (0x01F0000000000000 + 65536)) .bound = true) ∧
    0x01F0000000000000 % 16 = 0 ∧ tTeam.live ≠ 0 := by decide

/-- A table entry, a leaf, and an entry that is not valid. -/
theorem witness_Addresses_walk :
    localBad tBase 0x10000 = none ∧ (leNat (memRead tMem 0x10000 8)).testBit 0 = true ∧
      (leNat (memRead tMem 0x10000 8)).testBit 1 = false ∧ leNat (memRead tMem 0x14008 8) = 0x2000F ∧
      sizeAllowed 5 0 = true ∧ leNat (memRead tMem 0x14018 8) = 0 := by decide

/-- Do the places of a word's lanes pass, or does one fail? -/
def passes (x : Except (Bad × Nat × Word) (List (Nat × Place))) : Bool :=
  match x with
  | .ok _ => true
  | .error _ => false

theorem passes_of {x : Except (Bad × Nat × Word) (List (Nat × Place))} (h : passes x = true) : ∃ ps, x = .ok ps := by
  cases x with
  | ok ps => exact ⟨ps, rfl⟩
  | error _ => cases h

theorem fails_of {x : Except (Bad × Nat × Word) (List (Nat × Place))} (h : passes x = false) : ∃ e, x = .error e := by
  cases x with
  | ok _ => cases h
  | error e => exact ⟨e, rfl⟩

/-- The group with no active lane, and one whose base is not mapped. -/
def tG0 : Group := { tG with a := { tG.a with mask := 0 } }
def tGbad : Group := tG.writeSn .a 1 0x100000

theorem witness_VectorLoads :
    (∀ i ∈ [Instr.ldB 4 1 0 0, .ldH 4 1 0 0, .ldWV 4 1 0 0, .ldDV 4 1 0 0, .ldQ 4 1 0 0, .ldAcqV 4 1 0 0 0, .ldsW 4 3 0 0,
        .ldsQ 4 3 0 0],
      groupCheck (tOn tG .a) tId .a tG i = none ∧
      ∃ f, loadForm i = some f ∧ passes (f.places (tOn tG .a) tId .a tG .read) = true) := by
  intro i hi
  simp only [List.mem_cons, List.not_mem_nil, or_false] at hi
  rcases hi with h | h | h | h | h | h | h | h <;> subst h <;> exact ⟨by decide, _, rfl, by decide⟩

theorem witness_VectorLoads_all :
    Issues (.ldWV 4 1 0 0) (tOn tG .a) tId .a tG ∧ tG.Ready [0] ∧ tG.Writable [4] ∧
      (∃ ps, (MemWord.mk 4 1 0 4 0 false).places (tOn tG .a) tId .a tG .read = .ok ps) ∧ tG.active .a ≠ 0 ∧
      Issues (.ldWV 4 1 0 0) (tOn tG0 .a) tId .a tG0 ∧ tG0.active .a = 0 ∧
      (∃ ps, (MemWord.mk 4 1 0 4 0 false).places (tOn tG0 .a) tId .a tG0 .read = .ok ps) ∧
      Issues (.ldWV 4 1 0 0) (tOn tGbad .a) tId .a tGbad ∧
      ∃ e, (MemWord.mk 4 1 0 4 0 false).places (tOn tGbad .a) tId .a tGbad .read = .error e :=
  ⟨issues_of_check (by decide), ready_of (by decide), writable_of (by decide), passes_of (by decide), by decide,
    issues_of_check (by decide), by decide, passes_of (by decide), issues_of_check (by decide), fails_of (by decide)⟩

theorem witness_VectorStores :
    (∀ i ∈ [Instr.stB 4 1 0 0, .stH 4 1 0 0, .stWV 4 1 0 0, .stDV 4 1 0 0, .stQ 4 1 0 0, .stRelV 4 1 0 0 0, .stsW 4 3 0 0,
        .stsQ 4 3 0 0, .stsF 4 3 0 0],
      groupCheck (tOn tG .a) tId .a tG i = none ∧
      ∃ f full, storeForm i = some (f, full) ∧ passes (f.places (tOn tG .a) tId .a tG .write) = true) := by
  intro i hi
  simp only [List.mem_cons, List.not_mem_nil, or_false] at hi
  rcases hi with h | h | h | h | h | h | h | h | h <;> subst h <;> exact ⟨by decide, _, _, rfl, by decide⟩

theorem witness_VectorStores_all :
    Issues (.stsF 4 3 0 0) (tOn tG .a) tId .a tG ∧ (tOn tG .a).memOk ∧ tG.Ready ([0] ++ [4, 5, 6, 7]) ∧
      (∃ ps, (MemWord.mk 4 3 0 16 0 true).places (tOn tG .a) tId .a tG .write = .ok ps) ∧
      Issues (.stWV 4 1 0 0) (tOn tGbad .a) tId .a tGbad ∧
      ∃ e, (MemWord.mk 4 1 0 4 0 false).places (tOn tGbad .a) tId .a tGbad .write = .error e :=
  ⟨issues_of_check (by decide), witness_memOk tG .a, ready_of (by decide), passes_of (by decide),
    issues_of_check (by decide), fails_of (by decide)⟩

theorem witness_ScalarMemory :
    (∀ i ∈ [Instr.ldWS 4 1 0, .ldDS 4 1 0, .ldAcqS 4 1 0 0, .stWS 4 1 0, .stDS 4 1 0, .stRelS 4 1 0 0],
      (scalarMem i).isSome = true ∧ groupCheck (tOn tG .a) tId .a tG i = none) ∧
    placeIs (checkAddr (tOn tG .a) tId .read false 8 (laneAddr tG .a 1 63 8 0 0)) (.phys 0x20000) = true ∧
    placeIs (checkAddr (tOn tG .a) tId .write true 8 (laneAddr tG .a 1 63 8 0 0)) (.phys 0x20000) = true ∧
    failsWith (checkAddr (tOn tGbad .a) tId .read false 8 (laneAddr tGbad .a 1 63 8 0 0)) .page = true := by decide

/-- WRX of a queue after an instruction. -/
def wrxIs (o : Out) (n : Nat) (w : BitVec 32) : Bool :=
  match o with
  | .next s => (s.queue n).wrx == w
  | _ => false

/-- Page 1 is the doorbell of queue 7 (R30). -/
def tBell : State := { tOn tG .a with contexts := [(1, { tCtx with bells := [(1, 7)] })] }

theorem witness_ScalarMemory_bell :
    tBell.memOk ∧ scalarMem (.stRelS 2 1 4 0) = some (2, 1, 8, 0, true, false) ∧ groupCheck tBell tId .a tG (.stRelS 2 1 4 0) = none ∧
      placeIs (checkAddr tBell tId .write false 8 (laneAddr tG .a 1 63 8 0 0)) (.phys 0x20000) = true ∧
      tBell.bellOf tId 4 (laneAddr tG .a 1 63 8 0 0) = some 7 ∧ tBell.bellOf tId 3 (laneAddr tG .a 1 63 8 0 0) = none :=
  ⟨witness_memOk tG .a, by decide, by decide, by decide, by decide, by decide⟩

/-- R30: s2 is 3, so WRX of queue 7 becomes 3, with the release store at package scope and not at die scope. -/
theorem test_doorbell_page :
    wrxIs (execStRelS 2 1 4 0 tBell) 7 3 = true ∧ wrxIs (execStRelS 2 1 3 0 tBell) 7 0 = true := by decide

/-- A group whose s1 names the aperture of engine 0, channel 0 (R160). -/
def tGa : Group := tG.writeSn .a 1 0x01F0000100000000

def aperturePlace (x : Except Bad Place) : Option (Nat × Nat) :=
  match x with
  | .ok (.aperture e c) => some (e, c)
  | _ => none

/-- A template that is accepted, one that is rejected (R162), and a full channel. -/
def tCopying (ctl rowb : Byte) : State :=
  { tOn tGa .a with mem := tMem.filter (fun c => c.1 < 0x20000) ++
      [(0x21001, 0x10), (0x21009, 0x20), (0x21018, rowb), (0x21020, ctl)] }

/-- The copy that slot A starts with template 0. -/
def tNew : Copy := (tCopying 0 15).newCopy tId .a 0 1 0

def accepts (x : CopyAnswer) : Bool :=
  match x with
  | .accepted _ => true
  | _ => false

theorem witness_ScalarMemory_copy :
    Issues (.stDS 4 1 0) (tCopying 0 15) tId .a tGa ∧
      aperturePlace (checkAddr (tCopying 0 15) tId .write true 8 (laneAddr tGa .a 1 63 8 0 0)) = some (0, 0) ∧
      ((tCopying 0 15).umap 0).copy.getLsbD 0 = true ∧ ((tCopying 0 15).channel (0, 0)).length < 16 ∧
      (translate (tCopying 0 15) tCtx 0x2000 needRead).toOption = some 0x21000 ∧
      accepts (acceptCopy (tCopying 0 15) tCtx tNew (physRead (tCopying 0 15) 0x21000 64) 0 0).1 = true ∧
      accepts (acceptCopy (tCopying 3 15) tCtx tNew (physRead (tCopying 3 15) 0x21000 64) 0 0).1 = false ∧
      (({ tCopying 0 15 with umaps := [] } : State).umap 0).copy.getLsbD 0 = false :=
  ⟨⟨rfl, rfl, nofun, by decide⟩, by decide, by decide, by decide, by decide, by decide, by decide, by decide⟩

/-- Watchpoint 2 watches the eight bytes at 0x1000. -/
def tWatch : State :=
  (tOn tG .a).setCore 0 { Core.reset with wpt := Core.reset.wpt.set 2 (0xE600000000001000#128) }

theorem witness_Watchpoints :
    tWatch.group? tId = some tG ∧ tId.isDebug = false ∧
      (let w := (tWatch.core 0).wpt[2]?.getD 0
       w.getLsbD 63 = true ∧ w.getLsbD 62 = true ∧ w.getLsbD 61 = true ∧ (w.extractLsb' 0 57).toNat = 0x1000 ∧
       (w.extractLsb' 57 4).toNat = 3) ∧
      ∀ k < 16, (((tOn tG .a).core 0).wpt[k]?.getD 0).getLsbD 63 = false := ⟨rfl, rfl, by decide, by decide⟩

theorem witness_Atomics :
    (∀ i ∈ [Instr.aadd 4 1 0 0 0 true, .amin 4 1 0 0 0 true, .amax 4 1 0 0 0 false, .aand 4 1 0 0 0 true,
        .aor 4 1 0 0 0 true, .axor 4 1 0 0 0 true, .axchg 4 1 0 0 0 true, .acas 4 1 0 0 0 true, .axchgQ 4 1 0 0 0 true,
        .acasQ 8 1 0 0 0 true],
      (atomForm 0 i).isSome = true ∧ groupCheck (tOn tG .a) tId .a tG i = none) := by decide

def distinct (x : Except (Bad × Nat × Word) (List (Nat × Place))) : Bool :=
  match x with
  | .ok ps => decide (ps.map (·.2)).Nodup
  | .error _ => false

theorem witness_Atomics_all :
    Issues (.aadd 4 1 0 0 0 true) (tOn tG .a) tId .a tG ∧ (tOn tG .a).memOk ∧ tG.Ready ([0] ++ [4]) ∧
      distinct ((MemWord.mk 4 1 0 4 0 false).places (tOn tG .a) tId .a tG .write) = true ∧ tG.active .a ≠ 0 ∧
      Issues (.aadd 4 1 0 0 0 true) (tOn tG0 .a) tId .a tG0 ∧ tG0.active .a = 0 ∧
      Issues (.aadd 4 1 0 0 0 true) (tOn tGbad .a) tId .a tGbad ∧
      ∃ e, (MemWord.mk 4 1 0 4 0 false).places (tOn tGbad .a) tId .a tGbad .write = .error e :=
  ⟨issues_of_check (by decide), witness_memOk tG .a, ready_of (by decide), by decide, by decide, issues_of_check (by decide),
    by decide, issues_of_check (by decide), fails_of (by decide)⟩

/-- The granules 0 to 15 of the team's scratchpad are full. -/
def tFull : State := { tOn tG .a with teams := [((1, 0, 0), { tTeam with full := List.range 16 })] }

theorem witness_ConsumingLoads :
    (∀ i ∈ [Instr.ldfK 4 3 0 0, .ldfC 4 3 0 0, .ldfKT 4 3 0 0, .ldfCT 4 3 0 0],
      (consumeForm i).isSome = true ∧ groupCheck tFull tId .a tG i = none ∧ groupCheck (tOn tG .a) tId .a tG i = none) ∧
    (tFull.team? (1, 0, 0)).map (·.full) = some (List.range 16) ∧
    ((tOn tG .a).team? (1, 0, 0)).map (·.full) = some [] := by decide

theorem witness_ConsumingLoads_places :
    Issues (.ldfC 4 3 0 0) tFull tId .a tG ∧ tG.Ready [0] ∧ tG.Writable [4, 5, 6, 7] ∧
      (∃ ps, (MemWord.mk 4 3 0 16 0 true).places tFull tId .a tG .read = .ok ps) ∧
      (let g : Group := tG.writeSn .a 3 0x100000
       ∃ e, (MemWord.mk 4 3 0 16 0 true).places (tOn g .a) tId .a g .read = .error e) :=
  ⟨⟨rfl, rfl, nofun, by decide⟩, ready_of (by decide), writable_of (by decide), passes_of (by decide), fails_of (by decide)⟩

/-- A tag table whose entry 3 holds the key 3. -/
def tTags : State := { tOn tG .a with teams := [((1, 0, 0), { tTeam with tags := [(3, 0x1000000000003)] })] }

theorem witness_TagTable :
    (∀ i ∈ [Instr.tlook 4 2, .tset 2 1, .tget 4 2, .tinv 2], groupCheck tTags tId .a tG i = none) ∧
    tTags.group? tId = some tG ∧ (tTags.team? tId.teamKey).isSome = true ∧ tG.readS .a 2 = 3 ∧ (tG.readS .a 1).toNat ≥ 128 := by
  decide

theorem witness_FencesCounters :
    (∀ i ∈ [Instr.fence 2, .xfence 1 0 3, .cwait 2 1 2, .ctest 2 1 2], groupCheck (tOn tG .a) tId .a tG i = none) ∧
    placeIs (checkAddr (tOn tG .a) tId .read false 8 (tG.readS .a 1)) (.phys 0x20000) = true ∧
    failsWith (checkAddr (tOn tGbad .a) tId .read false 8 (tGbad.readS .a 1)) .page = true ∧
    leNat (readPlace (tOn tG .a) (.phys 0x20000) 8) = 5 ∧ (tG.readS .a 2).toNat = 3 ∧ 5 < (tG.readS .a 1).toNat := by decide

/-- A copy of the group that is not performed: an `xfence` behind it waits. -/
theorem witness_FencesCounters_copies :
    let s : State := { tOn tG .a with channels := [((0, 0), [(tOn tG .a).newCopy tId .a 0 1 0])] }
    Issues (.xfence 0 1 3) s tId .a tG ∧ s.copiesPending tId .a = true ∧ (tOn tG .a).copiesPending tId .a = false ∧
      Issues (.xfence 0 1 3) (tOn tG .a) tId .a tG ∧ Issues (.xfence 1 0 3) (tOn tG .a) tId .a tG :=
  ⟨⟨rfl, rfl, nofun, by decide⟩, by decide, by decide, issues_of_check (by decide), issues_of_check (by decide)⟩

/-- A write that the group's atomics have not seen, and one that they have: what a read may return (R171, R174). -/
theorem witness_FencesCounters_settled :
    (tOn tG .a).Settled tId .a 4 (.phys 0x20000) 8 ∧
      ({ tOn tG .a with ledger := tLedger [(.path tId .a 4, 3)] } : State).Settled tId .a 4 (.phys 0x20000) 1 ∧
      ¬ ({ tOn tG .a with ledger := tLedger [(.path tId .a 4, 3)] } : State).Settled tId .a 1 (.phys 0x20000) 1 :=
  ⟨nofun, fun r h _ k hk _ => (by rw [List.mem_singleton.mp h]; obtain rfl : k = 0 := (by omega); decide), fun h =>
    absurd (h (tOld [(.path tId .a 4, 3)]) (List.mem_singleton.mpr rfl) rfl 0 (by decide) ⟨0, by decide, rfl⟩) (by decide)⟩

/-- The debug core's group, attached to context 1. -/
def tD : Group := { debugGroup 0 0 with
  a := { (debugGroup 0 0).a with fork := { (debugGroup 0 0).a.fork with s := (Vector.replicate 32 (0 : Word)).set 2 7 } } }

def tAtt (d : DebugCore) (g : Group) : State := { tDbg g with debugs := [(0, d)] }

theorem witness_FencesCounters_ivr :
    Issues (.ivr 1 1 2) (tAtt tDebug tD) (debugId 0) .a tD ∧ ((tAtt tDebug tD).dbg 0).dctx ≠ 0 :=
  ⟨⟨rfl, rfl, nofun, by decide⟩, by decide⟩

/-! ### Handles, stage rings -/

/-- Another group of the team. -/
def tId2 : GroupId := ⟨1, 0, 0, 1⟩

/-- An entry of key 3 with two members, whose handle names slot 1 of die 3. -/
def tEntry : SEntry :=
  { SEntry.reset with key := 3, ctx := 1, valid := true, members := [tId, tId2] }

def tHv : BitVec 32 := userHandle 3 1 0

/-- The group with that handle in h0. -/
def tGn : Group := { tG with h := tG.h.set 0 tHv }

/-- The entry of the key, on the key's home die. -/
def tEnt (e : SEntry) (g : Group) : State := { tOn g .a with dies := [(3, { Die.reset with entries := [(1, e)] })] }

theorem issues_entry {i : Instr} {e : SEntry} {g : Group} (h : groupCheck (tEnt e g) tId .a g i = none) :
    Issues i (tEnt e g) tId .a g := ⟨rfl, rfl, nofun, h⟩

/-- A name that is free, one of the same operator and type, one of another operator, and a handle that is not null. -/
theorem witness_HandleNames :
    Issues (.hnew 0 2 1 4) (tOn tG .a) tId .a tG ∧ Issues (.hnewT 0 2 1 4) (tOn tG .a) tId .a tG ∧
      tG.readS .a 2 = 3 ∧ tG.diverged = false ∧ tG.readH 0 = 0 ∧ (tOn tG .a).findKey 3 1 3 = none ∧ (tOn tG .a).freeSlot 3 = some 0 ∧
      ((tOn tG .a).ctx? tG.ctx).map (·.fn) = some 0 ∧ (tOn tG .a).heldBy 3 0 < (tOn tG .a).quota 0 ∧ tGn.readH 0 ≠ 0 ∧
      Issues (.hnew 0 2 1 4) (tEnt tEntry tGn) tId .a tGn :=
  ⟨issues_of_check (by decide), issues_of_check (by decide), by decide, by decide, by decide, by decide, by decide, by decide,
    by decide, by decide, issues_entry (by decide)⟩

theorem witness_HandleNames_known :
    let e : SEntry := { tEntry with members := [tId2] }
    Issues (.hnew 0 2 0 0) (tEnt e tG) tId .a tG ∧ (tEnt e tG).findKey 3 1 3 = some 1 ∧ e.isMember tId = false ∧ tId ∉ e.pjoin ∧
      e.members.length + e.pjoin.length < 1048575 ∧ e.op = 0 ∧ e.ty = 0 ∧ Issues (.hnew 0 2 0 1) (tEnt e tG) tId .a tG ∧
      e.op ≠ 1 ∧ Issues (.hnewT 0 2 0 1) (tEnt e tG) tId .a tG :=
  ⟨issues_entry (by decide), by decide, by decide, by decide, by decide, rfl, rfl, issues_entry (by decide), by decide,
    issues_entry (by decide)⟩

/-- No slot of the key's home die is free: every one holds an entry; and a function whose quota is 0. -/
theorem witness_HandleNames_refused :
    Issues (.hnewT 0 2 1 4) (tOn tG .a) tId .a tG ∧ (tOn tG .a).findKey 3 1 3 = none ∧
      (let s : State := { tOn tG .a with hquota := [(0, 0)] }
       Issues (.hnew 0 2 1 4) s tId .a tG ∧ s.findKey 3 1 3 = none ∧ (s.ctx? tG.ctx).map (·.fn) = some 0 ∧
         s.quota 0 ≤ s.heldBy 3 0) :=
  ⟨issues_of_check (by decide), by decide, ⟨rfl, rfl, nofun, by decide⟩, by decide, by decide, by decide⟩

/-- s4 holds the handle's value. -/
def tGj : Group := tG.writeS .a 4 tHv.toNat

theorem witness_HandleNames_join :
    Issues (.hjoin 0 2) (tEnt tEntry tG) tId .a tG ∧ homeDie (tG.readS .a 2) = 3 ∧
      Issues (.hjoin 0 1) (tEnt tEntry tG) tId .a tG ∧ (tEnt tEntry tG).findKey (homeDie (tG.readS .a 1)) 1 (tG.readS .a 1) = none ∧
      Issues (.hjoinH 0 4) (tEnt tEntry tGj) tId .a tGj ∧ BitVec.ofNat 32 (tGj.readS .a 4).toNat = tHv ∧ handleKind tHv = 0 ∧
      tHv ≠ 0 ∧ ((tEnt tEntry tGj).entryOf tHv).valid = true ∧ ((tEnt tEntry tGj).entryOf tHv).gen = handleGen tHv ∧
      ((tEnt tEntry tGj).entryOf tHv).ctx = BitVec.ofNat 20 tGj.ctx ∧
      Issues (.hjoinH 0 5) (tEnt tEntry tGj) tId .a tGj ∧ tGj.readS .a 5 = 0 ∧
      (let g : Group := tG.writeS .a 4 1
       Issues (.hjoinH 0 4) (tEnt tEntry g) tId .a g ∧ handleKind (BitVec.ofNat 32 (g.readS .a 4).toNat) = 1) ∧
      (let g : Group := tG.writeS .a 4 3
       Issues (.hjoinH 0 4) (tEnt tEntry g) tId .a g ∧ 3 ≤ handleKind (BitVec.ofNat 32 (g.readS .a 4).toNat)) :=
  ⟨issues_entry (by decide), by decide, issues_entry (by decide), by decide, issues_entry (by decide), by decide, by decide,
    by decide, by decide, by decide, by decide, issues_entry (by decide), by decide, ⟨issues_entry (by decide), by decide⟩,
    ⟨issues_entry (by decide), by decide⟩⟩

/-- h6 and h7 are not left (R135). -/
theorem witness_HandleNames_leave :
    Issues (.hleave 0) (tEnt tEntry tGn) tId .a tGn ∧ tGn.readH 0 ≠ 0 ∧ (tEnt tEntry tGn).handleOk (tGn.readH 0) = true ∧
      Issues (.hleave 1) (tEnt tEntry tGn) tId .a tGn ∧ tGn.readH 1 = 0 ∧
      (let g : Group := { tG with h := tG.h.set 7 tHv }
       Issues (.hleave 7) (tEnt tEntry g) tId .a g ∧ g.readH 7 ≠ 0) :=
  ⟨issues_entry (by decide), by decide, by decide, issues_entry (by decide), by decide, ⟨issues_entry (by decide), by decide⟩⟩

/-- A join, a leave before the boundary, a leave of a member, an arrival that leaves the phase open and one that closes it. -/
theorem witness_Phases :
    let e : SEntry := { tEntry with members := [tId2] }
    let e2 : SEntry := { tEntry with pjoin := [⟨1, 0, 0, 2⟩] }
    let e3 : SEntry := { tEntry with arrived := [tId2] }
    ((tEnt e tG).entryOf tHv = e ∧ e.isMember tId = false ∧ tId ∉ e.pjoin) ∧
    (⟨1, 0, 0, 2⟩ ∈ e2.pjoin) ∧ (tId ∉ tEntry.pjoin ∧ tEntry.isMember tId = true ∧ tId ∉ tEntry.arrived ∧
      tEntry.arrived.length + 1 ≠ tEntry.members.length) ∧
    (tEntry.arrived ++ [tId]).length ≠ tEntry.members.length ∧ (e3.arrived ++ [tId]).length = e3.members.length ∧
    (let e4 : SEntry := { tEntry with members := [tId], pleave := [tId] }
     (e4.arrived ++ [tId]).length = e4.members.length ∧ handleKind tHv = 0 ∧
     e4.members.filter (fun k => !e4.pleave.contains k) ++ e4.pjoin = []) := by decide

/-- A member that waits for the phase. -/
theorem witness_Phases_waiter :
    let g : Group := { tGn with wait := some (.phase tHv 0 .bar .a) }
    let e : SEntry := { tEntry with arrived := [tId], waiters := [tId] }
    (tEnt e g).group? tId = some g ∧ tId ∈ e.waiters ∧ (e.arrived ++ [tId2]).length = e.members.length := ⟨rfl, by decide⟩

theorem witness_HandleArrivals :
    tGn.diverged = false ∧ tGn.readH 0 ≠ 0 ∧ (tEnt tEntry tGn).handleOk (tGn.readH 0) = true ∧ tEntry.admits tId = true ∧
    (∀ i ∈ [Instr.harv 0 4, .hbar 0, .hvote 0 0 4, .hred 0 0 4 0 0, .hwait 0 2, .hinfo 0 4 0, .hred 0 0 4 0 1],
      groupCheck (tEnt tEntry tGn) tId .a tGn i = none) ∧
    (let e : SEntry := { tEntry with arrived := [tId] }
     e.admits tId = false ∧ (tEnt e tGn).handleOk (tGn.readH 0) = true ∧ groupCheck (tEnt e tGn) tId .a tGn (.hbar 0) = none) ∧
    tEntry.op ≠ 1 ∧ tEntry.phase.toNat ≠ (tGn.readS .a 2).toNat % 4 ∧ tEntry.phase.toNat = (tGn.readS .a 4).toNat % 4 ∧
    handleKind (tGn.readH 0) = 0 := by decide

theorem witness_HandleArrivals_ready : tGn.Ready (if tEntry.ty = 2 then [0, 1] else [0]) := ready_of (by decide)

/-- An arrival held at its core, and a result on its way. -/
theorem witness_HandleArrivals_events :
    (let g : Group := { tGn with wait := some (.held tHv none (some .bar) .a) }
     let e : SEntry := { tEntry with held := [(tId, ⟨none, none⟩)] }
     (tEnt e g).group? tId = some g ∧ (e.held.find? (fun x => decide (x.1 = tId))) = some (tId, ⟨none, none⟩) ∧ e.admits tId = true) ∧
    (let g : Group := { tGn with wait := some (.held tHv (some 4) none .a) }
     let e : SEntry := { tEntry with held := [(tId, ⟨none, none⟩)] }
     (tEnt e g).group? tId = some g ∧ (tEnt e g).entryOf tHv = e) ∧
    ((tEnt tEntry tG).entry 3 1).valid = true ∧ ((tEnt tEntry tG).entry 3 1).ctx = BitVec.ofNat 20 tG.ctx ∧
    (let g : Group := { tGn with wait := some (.result tHv (.vote 4) .a 0 7 true false false) }
     (tEnt tEntry g).group? tId = some g ∧ ((tEnt tEntry g).core g.core).frozen = none ∧ (tEnt tEntry g).runnable g = true) :=
  ⟨⟨rfl, by decide⟩, ⟨rfl, by decide⟩, by decide, by decide, rfl, by decide⟩

/-- Rings with an empty stage, a full stage, a stage out of range, and a diverged group. -/
theorem witness_StageRings :
    (∀ i ∈ [Instr.qfill 0 2, .qdrain 0 2, .qwait 0 2 true, .qwait 0 2 false, .qfill 0 1],
      groupCheck (tOn tG .a) tId .a tG i = none) ∧
    (tOn tG .a).team? tId.teamKey = some tTeam ∧ (tG.readS .a 2).toNat = 3 ∧ 3 < tTeam.stages ∧
    tTeam.stages ≤ (tG.readS .a 1).toNat ∧ tTeam.stageFull 0 3 = false ∧ tTeam.stagePhase 0 3 = false ∧
    ({ tTeam with ringF := .replicate 4 0xFF }).stageFull 0 3 = true ∧
    (let g := tSplit tG
     g.diverged = true ∧ groupCheck (tOn g .a) tId .a g (.qfill 0 2) = none) := by decide

theorem witness_StageRings_null :
    (∀ i ∈ [Instr.hbar 1, .hvote 1 0 4, .hwait 1 2, .harv 1 4, .hinfo 1 4 0], groupCheck (tOn tG .a) tId .a tG i = none) ∧
    tG.readH 1 = 0 ∧ (tSplit tG).diverged = true ∧ groupCheck (tOn (tSplit tG) .a) tId .a (tSplit tG) (.hbar 1) = none := by decide

/-! ### The matrix unit -/

/-- s4 and s5 place a window of rows 0 and 1, columns 0 and 1 and depth 0 (R351). -/
def tGx : Group := tG.writeS .a 5 0x0000000100030003

/-- The same window without a depth. -/
def tGy : Group := tG.writeS .a 5 0x0000000000030003

def tAcc : Tile := .floating (.replicate 256 0)

/-- The team's slot 0 is loaded with a format, tile 2 holds floats, and the unit has a state of leave. -/
def tMat (g : Group) (z : TSlot) (l : Leave) : State :=
  { tOn g .a with
    teams := [((1, 0, 0), { tTeam with slotT := [((0, 0), z)], tileT := [((0, 2), tAcc)] })]
    cores := [(0, { Core.reset with leave := l })] }

def okM {α : Type} (x : MOut α) : Bool :=
  match x with
  | .ok _ => true
  | .error _ => false

/-- Do the checks of R352 pass, and do all operands read? -/
def reads (s : State) (g : Group) (m : BitVec 6) (a b c : BitVec 5) : Bool :=
  match s.team? tId.teamKey with
  | some t =>
    let w := g.coords .a c
    match mmaReady s tId g t m a b w with
    | .ok (x, y, tile) =>
      okM (fetchB s tId y w) && (List.range 16).all (fun n => okM (fetchElems s tId x true (w.aElems n))) &&
        (match tile with
          | .floating l => decide (l.length = 256)
          | _ => false)
    | .error _ => false
  | none => false

set_option maxRecDepth 4000 in
theorem witness_DepthSteps :
    groupCheck (tMat tGx (tSlot 0) .idle) tId .a tGx (.mma 2 0 0 4) = none ∧
    ((tMat tGx (tSlot 0) .idle).core 0).mayStep 2000000 = false ∧
    groupCheck (tMat tGx (tSlot 0) (.granted false)) tId .a tGx (.mma 2 0 0 4) = none ∧
    ((tMat tGx (tSlot 0) (.granted false)).core 0).mayStep 2000000 = true ∧
    reads (tMat tGx (tSlot 0) (.granted false)) tGx 2 0 0 4 = true ∧
    (tGx.coords .a 4).dm ≠ 0 ∧ (tGy.coords .a 4).dm = 0 ∧ reads (tMat tGy (tSlot 0) (.granted false)) tGy 2 0 0 4 = true := by decide

set_option maxRecDepth 4000 in
/-- A squad of one, a squad that waits for another member, and a squad without the issuer. -/
theorem witness_DepthSteps_joint :
    let ok (m : BitVec 32) (b : Bool) : Prop :=
      let g : Group := { tGx with squad := m }
      let s : State := { tMat g (tSlot 0) (.granted false) with
        groups := [(tId, g), (tId2, { tG with squad := m })] }
      groupCheck s tId .a g (.mmaJ 2 0 0 4) = none ∧ reads s g 2 0 0 4 = true ∧ squadOk s tId g = b
    ok 1 true ∧ ok 3 true ∧ ok 2 false := by decide

/-- A descriptor of 64 bytes at 0x20000 that R349 accepts: rows and columns 16, element stride 1. -/
def tZld (cstride : Byte) : State :=
  { tOn tG .a with mem := tMem.filter (fun c => c.1 < 0x20000) ++ (0x20008, 64) :: (if cstride = 0 then [] else [(0x2000C, cstride)]) ++
      [(0x20010, 16), (0x20014, 16)] }

theorem witness_SlotsTiles :
    Issues (.zld 1 1 0) (tZld 1) tId .a tG ∧ (tZld 1).memOk ∧
      placeIs (checkAddr (tZld 1) tId .read false 64 (tG.readS .a 1)) (.phys 0x20000) = true ∧
      descriptorBad (readPlace (tZld 1) (.phys 0x20000) 64) = false ∧ descriptorBad (readPlace (tZld 0) (.phys 0x20000) 64) = true ∧
      Issues (.zld 1 2 0) (tZld 1) tId .a tG ∧ failsWith (checkAddr (tZld 1) tId .read false 64 (tG.readS .a 2)) .misaligned = true :=
  ⟨⟨rfl, rfl, nofun, by decide⟩, ⟨by show Memory.wf (tZld 1).mem = true; decide, rfl, (witness_memOk tG .a).2.2.1,
    (witness_memOk tG .a).2.2.2⟩, by decide, by decide, by decide, ⟨rfl, rfl, nofun, by decide⟩, by decide⟩

theorem witness_SlotsTiles_moves :
    (∀ i ∈ [Instr.mzero 2, .sqset 2, .sqget 4, .leave], groupCheck (tMat tG (tSlot 0) .idle) tId .a tG i = none) ∧
    (∀ i ∈ [Instr.mrd 2 4 2, .mwr 2 4 2],
      groupCheck (tMat (tMode tG (tType 12)) (tSlot 0) .idle) tId .a (tMode tG (tType 12)) i = none ∧
      groupCheck (tMat tG (tSlot 0) .idle) tId .a tG i = none) ∧
    tAcc.accepts ((tMode tG (tType 12)).ty .a == 12) = true ∧ tAcc.accepts (tG.ty .a == 12) = false ∧ tG.active .a ≠ 0 ∧
    tG0.active .a = 0 ∧ (∃ x, ((tMat tG (tSlot 0) (.granted true)).core 0).leave = .granted x) ∧
    ((tMat tG (tSlot 0) .idle).core 0).stepping 2000000 = false :=
  ⟨by decide, by decide, by decide, by decide, by decide, by decide, ⟨true, rfl⟩, by decide⟩

theorem witness_SlotsTiles_ready :
    (tMode tG (tType 12)).Writable (occupies 12 4) ∧ (tMode tG (tType 12)).Ready (occupies 12 4) :=
  ⟨writable_of (by decide), ready_of (by decide)⟩

theorem witness_SlotsTiles_leave :
    (let s : State := { tBase with dies := [(0, { Die.reset with leaveQ := [0, 5] })], cores := [(0, { Core.reset with leave := .asked false })] }
     (s.die (s.sel % 4)).leaveQ = 0 :: [5] ∧ (s.core 0).leave = .asked false) ∧
    (tMat tG (tSlot 0) (.granted true)).sel < 384 ∧ ((tMat tG (tSlot 0) (.granted true)).core 0).leave = .granted true ∧
    ((tMat tG (tSlot 0) .half).core 0).leave = .half := by decide

/-- The addresses of the window's elements of 8 bytes and their places in the scratchpad. -/
def tElem (x y : Nat) : Word := 0x01F0000000000000 + BitVec.ofNat 64 (64 * x + 32 * y)

/-- Is every element of the window aligned, in range and reached, at its place? -/
def windowOk (s : State) (w : Coords) : Bool :=
  (List.range 16).all (fun x => (List.range 16).all (fun y => !w.rm.getLsbD x || !w.cm.getLsbD y ||
    (decide (w.row0 + x < 16 ∧ w.col0 + y < 16 ∧ (tElem x y).toNat % 8 = 0) &&
      (match elemAddr s tId (tSlot 0) (w.row0 + x) (w.col0 + y) 64 with
        | .ok p => p == (tElem x y, 0)
        | .error _ => false) &&
      (match matPlace s tId .read 8 (tElem x y), matPlace s tId .write 8 (tElem x y) with
        | .ok p, .ok q => p == .spad (1, 0, 0) (64 * x + 32 * y) && q == p
        | _, _ => false))))

theorem witness_SlotsTiles_memory :
    let w := tGy.coords .a 4
    let s := tMat tGy (tSlot 0) .idle
    (w.rsv = 0 ∧ w.k0 = 0 ∧ w.dm = 0 ∧ w.fl.extractLsb' 1 15 = 0 ∧ w.fl.getLsbD 0 = false ∧ w.fl.toNat % 8 = 0 ∧
      w.fl.extractLsb' 4 12 = 0) ∧
    groupCheck s tId .a tGy (.mld 2 0 4) = none ∧ groupCheck s tId .a tGy (.mst 2 0 0 4 0) = none ∧ tAcc.accepts true = true ∧
    tGy.mrp.getLsbD 4 = false ∧ (tSlot 0).mce = false ∧ (tSlot 0).ind = 0 ∧ (tSlot 0).rsbase = 0 ∧ windowOk s w = true := by
  decide

/-! ### System and debug words -/

/-- The numbers of R299 that a group reads, and one that is not assigned; values at the limits of the fields that it writes. -/
theorem witness_ControlRegisters :
    (∀ i ∈ [0x000, 0x001, 0x002, 0x006, 0x007, 0x010, 0x011, 0x012, 0x013, 0x014, 0x015, 0x016, 0x017, 0x018, 0x01B, 0x020,
        0x021, 0x022, 0x023, 0x024, 0x025, 0x026, 0x100, 0x112, 0x120, 0x132, 0x200, 0x008, 0x113, 0x027].map (Instr.getc 4),
      groupCheck (tOn tG .a) tId .a tG i = none) ∧
    (∀ i ∈ [0x000, 0x001, 0x007, 0x020, 0x025, 0x026, 0x002, 0x200].map (Instr.setc 4), groupCheck (tOn tG .a) tId .a tG i = none) ∧
    groupCheck (tOn tG .a) tId .a tG (.mode true false 0 0 0 true) = none ∧ groupCheck (tOn tG .a) tId .a tG (.sprint 2) = none ∧
    (let g : Group := { tG with hw := [tTrap 0] }
     groupCheck (tOn g .a) tId .a g (.getc 4 0x003) = none ∧ tG.tdepth = 0) ∧
    tG.readS .a 4 = 0 ∧ tTeam.rings = 4 ∧ tTeam.stages < 2 ^ 8 ∧ (tOn tG .a).ctx? tG.ctx = some tCtx := by decide

/-- Values that are accepted and refused, at the edges. -/
theorem witness_ControlRegisters_edges :
    (∀ v ∈ [0x800, 0x4000 + 0x800, 0x60000, 0x7FFF * 0 + 0xF80000],
      v % 2 ^ 11 = 0 ∧ v < 2 ^ 24 ∧ v / 2 ^ 15 % 16 < 13 ∧ v / 2 ^ 12 % 8 < 5) ∧
    (∀ v ∈ [1, 2 ^ 24, 13 * 2 ^ 15, 5 * 2 ^ 12], ¬ (v % 2 ^ 11 = 0 ∧ v < 2 ^ 24 ∧ v / 2 ^ 15 % 16 < 13 ∧ v / 2 ^ 12 % 8 < 5)) ∧
    (∀ v ∈ [2 * 6 + 1, 2 * 20 + 1], v % 2 = 1 ∧ 6 ≤ v / 2 % 32 ∧ v / 2 % 32 ≤ 20) ∧
    (∀ v ∈ [2 * 5 + 1, 2 * 21 + 1], v % 2 = 1 ∧ ¬ (6 ≤ v / 2 % 32 ∧ v / 2 % 32 ≤ 20)) ∧
    (∀ v ∈ [0x1000 + 3 * 2 ^ 57, 2 ^ 63], v / 2 ^ 57 % 16 < 13 ∧ v % 2 ^ 57 % 2 ^ (v / 2 ^ 57 % 16) = 0) ∧
    (∀ v ∈ [0x1004 + 3 * 2 ^ 57, 13 * 2 ^ 57], ¬ (v / 2 ^ 57 % 16 < 13 ∧ v % 2 ^ 57 % 2 ^ (v / 2 ^ 57 % 16) = 0)) := by decide

/-- The debug core reads and writes its own numbers (R216, R299, R300). -/
theorem witness_ControlRegisters_debug :
    (∀ i ∈ [0x200, 0x201, 0x210, 0x217, 0x220, 0x221, 0x23F, 0x020].map (Instr.getc 4) ++
        [0x200, 0x201, 0x210, 0x217, 0x220, 0x221, 0x23F, 0x020].map (Instr.setc 4),
      groupCheck (tAtt tDebug tD) (debugId 0) .a tD i = none) ∧
    (debugId 0).isDebug = true ∧ tD.readS .a 4 = 0 := by decide

/-- A context whose overflow area is full, and one with a spilled record. -/
def tOvf (used : List Nat) : State := { tOn tG .a with contexts := [(1, { tCtx with ovfUsed := used })] }

theorem witness_SpawnTasksTrace :
    (∀ i ∈ [Instr.spawn 4 2, .cpost 4, .ctake 4, .trace 4], groupCheck (tOn tG .a) tId .a tG i = none) ∧
    (tOn tG .a).team? tId.teamKey = some tTeam ∧ ((tOn tG .a).spawnPlace tG.core tG.quad tG.base tG.width).isSome = true ∧
    tTeam.nextId < 2 ^ 32 ∧ tId.grp ≠ tTeam.nextId ∧ ((tOn tG .a).die 0).tasks.length < 4096 ∧ tG.readS .a 4 = 0 ∧
    (tOn tG .a).taskAt 0 1 = none ∧ (tOn tG .a).ctx? tG.ctx = some tCtx ∧ tCtx.ovfUsed.isEmpty = true ∧
    tCtx.trctl.getLsbD 0 = false := by decide

/-- No room: 60 groups of 64 lanes hold the register bytes of every quadrant. -/
theorem witness_SpawnTasksTrace_full :
    let s : State := { tOn tG .a with groups := (tId, tG) :: (List.range 64).map (fun k =>
      ((⟨2, 0, 0, k⟩ : GroupId), { tG with width := 64, base := 64, quad := k % 4 })) }
    s.spawnPlace tG.core tG.quad tG.base tG.width = none ∧ groupCheck s tId .a tG (.spawn 4 2) = none := by decide

theorem witness_SpawnTasksTrace_tasks :
    (let s : State := { tOn tG .a with dies := [(2, { Die.reset with tasks := [⟨1, .replicate 4 7⟩] })] }
     s.taskAt (tG.core / 96) tG.ctx = some (2, ⟨1, .replicate 4 7⟩) ∧ groupCheck s tId .a tG (.ctake 4) = none) ∧
    ({ tCtx with ovfUsed := [] }.ovfFree = some 0x2000) ∧
    ({ tCtx with ovfUsed := [0x2000, 0x2020, 0x2040, 0x2060] }.ovfFree = none) ∧
    placeIs (placeOf (tOvf []) tId .write false 32 0x2000) (.phys 0x21000) = true ∧
    placeIs (placeOf (tOvf [0x2020]) tId .read false 32 0x2020) (.phys 0x21020) = true ∧ (tOvf [0x2020]).taskAt 0 1 = none := by decide

theorem tasks_full : 4096 ≤ (({ tOn tG .a with dies := [(0, { Die.reset with tasks := .replicate 4096 ⟨1, .replicate 4 7⟩ })] } : State).die
    0).tasks.length := by
  exact Nat.le_of_eq (List.length_replicate (n := 4096) (a := (⟨1, .replicate 4 7⟩ : Task))).symm

/-- A context with tracing on and a period, whose buffer is mapped. -/
def tTracing : State := { tOn tG .a with contexts := [(1, { tCtx with trctl := 0x14D })] }

def physIs (x : Except Bad Nat) (a : Nat) : Bool :=
  match x with
  | .ok p => p == a
  | .error _ => false

theorem witness_SpawnTasksTrace_on :
    let c : Context := { tCtx with trctl := 0x14D }
    tTracing.ctx? 1 = some c ∧ c.trctl.getLsbD 0 = true ∧ groupCheck tTracing tId .a tG (.trace 4) = none ∧
    c.trctl.toNat / 2 ^ 6 % 2 ^ 26 ≠ 0 ∧
    physIs (translate tTracing c c.trbase.toNat needWrite) 0x21C00 = true ∧ leNat (physRead tTracing 0x21C00 8) = 0 ∧
    physIs (translate (physWrite tTracing 0x21C00 (leBytes 8 1)) c (c.trbase.toNat + 64) needWrite) 0x21C40 = true := by decide

/-- A grid of context 1. -/
def tGrid : Grid := gridOf 0 0 0 1 (.replicate 8 0) none []

/-- The debug core of die 0 is attached, the group stands at it, and the target word 0 names the group. -/
def tTgt (g : Group) (d : DebugCore) : State :=
  { tBase with
    cur := .group (debugId 0) .a, groups := [(debugId 0, tD), (tId, g)], grids := [(1, tGrid)], debugs := [(0, d)] }

def tHalted : Group := { tG with dhalt := true, kind := .breakpoint, haltPc := 0x1000 }

/-- The word names the group while it runs, while it is halted, while its tile is frozen; a word that is not well formed and one
that names no group. -/
theorem witness_DebugWords :
    (∀ i ∈ [Instr.dhalt 4 5, .dres 4 5, .dstep 4 5 6], groupCheck (tTgt tG tDebug) (debugId 0) .a tD i = none) ∧
    tD.readS .a 5 = 0 ∧ (tTgt tG tDebug).target 0 0 = .groups [tId] ∧ (tTgt tG tDebug).isHalted tId = false ∧
    (tTgt tHalted tDebug).isHalted tId = true ∧ (tTgt tG tDebug).away tId = false ∧ (tTgt tG tDebug).target 0 0x1000000000000000 = .bad ∧
    (tTgt tG tDebug).target 0 7 = .none ∧ (0x1000000000000000 : Word).toNat / 2 ^ 60 ≠ 0 ∧
    (tTgt tG DebugCore.reset).target 0 0 = .none ∧ (DebugCore.reset).dctx = 0 ∧
    tDebug.step = none ∧ tD.wait ≠ some .debug ∧ tD.readS .a 6 = 0 ∧ tHalted.dhalt = true ∧ tHalted.selected 0 = some .a ∧
    tHalted.selected 1 = none ∧ tId ≠ debugId 0 ∧ ({ tTgt tG tDebug with contexts := [(1, { tCtx with stage := .out })] }).away tId = true := by decide

/-- The region of the tile is held: a request wakes it (R83). -/
theorem witness_DebugWords_gate :
    let s : State := { tTgt tG tDebug with regions := [(0, { Region.reset with gate := .hold })] }
    s.target 0 0 = .groups [tId] ∧ (s.region (tG.core / 8)).gate = .hold ∧ s.tilesOf 0 1 (some 0) = [0] := by decide

theorem witness_DebugWords_stepped :
    let d : Group := { tD with wait := some .debug }
    groupCheck { tTgt tG tDebug with groups := [(debugId 0, d), (tId, tG)] } (debugId 0) .a d (.dstep 4 5 6) = none ∧
    d.wait = some .debug := by decide

theorem witness_DebugWords_tiles :
    (∀ i ∈ [Instr.dbpt 4 5, .dwpt 4 5], groupCheck (tTgt tG tDebug) (debugId 0) .a tD i = none) ∧ tDebug.dctx ≠ 0 ∧
    (tTgt tG tDebug).tilesOf 0 1 (some 0) = [0] ∧ (tTgt tG tDebug).tilesOf 0 1 (some 7) = [] ∧
    (tTgt tG tDebug).tilesOf 0 1 none = [0] := by decide

/-- The debug core whose s5 holds a number. -/
def tNum (n : Nat) : Group := tD.writeS .a 5 (BitVec.ofNat 64 n)

/-- The mailbox's words 7, 8, 15, 16 and 17; OUTV clear and set. -/
theorem witness_DebugWords_mailbox :
    (∀ n ∈ [0, 7, 8, 15, 16, 17], (tNum n).readS .a 5 = BitVec.ofNat 64 n ∧
      groupCheck (tDbg (tNum n)) (debugId 0) .a (tNum n) (.mbrd 4 5) = none ∧
      groupCheck (tDbg (tNum n)) (debugId 0) .a (tNum n) (.mbwr 5 4) = none) ∧
    groupCheck (tDbg tD) (debugId 0) .a tD .mbpost = none ∧ groupCheck (tDbg tD) (debugId 0) .a tD (.mbtake 4 5) = none ∧
    ((tDbg tD).mailbox 0).outv = false ∧
    (({ tDbg tD with mailboxes := [(0, { Mailbox.reset with outv := true })] }).mailbox 0).outv = true ∧
    ((tDbg tD).dbg 0).inbox = [] := by decide

/-- An item waits, and s5 names 64 bytes of the store (R210). -/
theorem witness_DebugWords_take :
    let s : State := tAtt { tDebug with inbox := [.hostIn] } (tNum 0x100)
    (s.dbg 0).inbox = [.hostIn] ∧ (s.dbg 0).overflow = [] ∧ groupCheck s (debugId 0) .a (tNum 0x100) (.mbtake 4 5) = none ∧
    (∀ k ∈ List.range 4, placeIs (checkAddr s (debugId 0) .write false 16 ((tNum 0x100).readS .a 5 + BitVec.ofNat 64 (16 * k)))
      (.store 0 (0x100 + 16 * k)) = true) ∧ (s.group? (debugId 0)).isSome = true := by decide

/-! ### Events of cores and of the debug unit -/

/-- Breakpoint 1 names the group's PC. -/
theorem witness_DebugWords_breakpoint :
    let s : State := (tOn tG .a).setCore 0 { Core.reset with bpt := Core.reset.bpt.set 1 0x0200000000001000 }
    s.group? tId = some tG ∧ tId.isDebug = false ∧ s.runnable tG = true ∧ tG.mayStep .a = true ∧ tG.skip ≠ some (tG.slot .a).pc ∧
    (tG.slot .a).hold = none ∧ (s.dbg (tG.core / 96)).dctx.toNat ≠ tG.ctx ∧
    (({ s with debugs := [(0, tDebug)] } : State).dbg (tG.core / 96)).dctx.toNat = tG.ctx ∧ s.stepper tId = none ∧ ((s.core tG.core).bpt[1]?.getD 0).getLsbD 57 = true ∧
    ((s.core tG.core).bpt[1]?.getD 0).toNat % 2 ^ 57 = (tG.slot .a).pc.toNat ∧ stopsIn (s.dbg 0).inbox < 32 := ⟨rfl, by decide⟩

/-- A hit of watchpoint 2 at 0x1000, with a program or without one. -/
def tHit (prog : Word) : State :=
  { tOn tG .a with debugs := [(0, { tDebug with hits := [⟨tId, .a, 2, 0x1000, prog⟩] })] }

theorem witness_DebugWords_hit :
    (tHit 0).group? tId = some tG ∧ tId.isDebug = false ∧
    (tHit 0).sel < 4 ∧ ((tHit 0).dbg 0).hits.find? (tHit 0).hitReady = some ⟨tId, .a, 2, 0x1000, 0⟩ ∧ ((tHit 0).dbg 0).prog = none ∧
    ((tHit 0).mailbox 0).derr = false ∧
    ((tHit 0x40).dbg 0).hits.find? (tHit 0x40).hitReady = some ⟨tId, .a, 2, 0x1000, 0x40⟩ ∧
    placeIs (placeOf (tHit 0x40) tId .read false 8 0x1000) (.phys 0x20000) = true ∧
    failsWith (placeOf (tHit 0) tId .read false 8 0x100000) .page = true := ⟨rfl, by decide⟩

/-- A sample of the group that its quadrant has taken. -/
theorem witness_DebugWords_sample :
    let x : Sample := ⟨0, tId, .a, 1, 0x14D, .replicate 8 0⟩
    let c : Context := { tCtx with trctl := 0x14D }
    let s : State := tTracing.setCore 0 { Core.reset with sampled := [x] }
    let t : State := s.modCore 0 (fun c => { c with sampled := c.sampled.erase x })
    ((s.core (0 : Fin 384).val).sampled.find? (fun x => x.quad == (0 : Fin 4).val && some (x.group, x.slot) == some (tId, .a))) = some x ∧
      s.group? tId = some tG ∧ s.ctx? x.ctx = some c ∧ physIs (translate t c c.trbase.toNat needWrite) 0x21C00 = true ∧
      0x21C00 % 8 = 0 ∧ 0x21C40 % 64 = 0 ∧ leNat (physRead t 0x21C00 8) = 0 ∧ physIs (translate t c (c.trbase.toNat + 64) needWrite) 0x21C40 = true ∧
      failsWith ((translate { t with devrdy := 0 } c c.trbase.toNat needWrite).map .phys) (.hold (.stack 0)) = true :=
  ⟨by decide, rfl, by decide, by decide, by decide, by decide, by decide, by decide, by decide⟩

/-- INV clear and set, while the core idles, while its program runs, and while a PROG runs on the idle core. -/
theorem witness_DebugWords_post :
    (tBase.mailbox tBase.sel).inv = false ∧ (tBase.mailbox tBase.sel).derr = false ∧ tBase.group? (debugId tBase.sel) = none ∧
    (({ tBase with mailboxes := [(0, { Mailbox.reset with inv := true })] } : State).mailbox 0).inv = true ∧
    (let p : ProgSave := ⟨true, tG.a, 0, false, none, none, ⟨tId, .a, 2, 0x1000, 0x40⟩, 16⟩
     let s : State := tAtt { tDebug with prog := some p } tD
     s.sel < 4 ∧ (s.mailbox s.sel).inv = false ∧ (s.group? (debugId s.sel)).isSome = true ∧ (s.dbg s.sel).prog = some p ∧
       p.idle = true ∧ (s.mailbox s.sel).derr = false) := ⟨by decide, by decide, rfl, by decide, by decide⟩

/-- A team's stream at a word of the group, with a word of the team after it. -/
def tIssue : State :=
  { tSt .team tSeqT with mem := tMem ++ [(0x2000A, 0x40), (0x2000B, 0x10)] }

def wordIs (x : Except Bad (BitVec 32)) (w : BitVec 32) : Bool :=
  match x with
  | .ok y => y == w
  | .error _ => false

theorem witness_CoreEvents :
    tIssue.seq? (tQ .team) = some tSeqT ∧ tSeqT.runs (tQ .team) = true ∧ tIssue.seqHeld (tQ .team) = false ∧ tSeqT.queue.length < 8 ∧
    stubAt tIssue 1 0x1004 = none ∧ wordIs (fetchIn tIssue 1 0x1004) 0 = true ∧ wordIs (fetchIn tIssue 1 0x1008) 0x10400000 = true ∧
    wordScope 0#32 = none ∧ wordScope 0x10400000#32 = some .team ∧ Level.team.ge .team = true := by decide

/-- The group at the end of its baton, and the next one in the queue of its stream. -/
theorem witness_CoreEvents_take :
    let b : Queued := ⟨{ Baton.blank 0x1004 .team with len := 1, empty := false, seq := 0 }, tSeqT.own, [], [], none, none, none, 0⟩
    let s : State := { tOn tGe .a with seqs := [(tQ .team, { tSeqT with queue := [b], nextSeq := 1 })] }
    s.group? tId = some tGe ∧ s.nextBaton (streamOf tId tGe) tGe.read = some b ∧ s.runnable tGe = true ∧ tGe.spawned = false ∧
    tGe.viewEnd = some tGe.a.pc ∧ tGe.split = false ∧ tGe.divDepth ≤ tGe.batDiv ∧ tGe.post = none :=
  ⟨rfl, by decide⟩

/-- A decision: the word of the team at 0x1004 is a reduction, and its group has posted there. -/
theorem witness_CoreEvents_decide :
    let s : State := { tPost 16 with mem := tMem ++ [(0x20007, 0x1C)] }
    (match fetchIn s 1 0x1004 with
      | .ok w => upperScope (decodeWord w) == some .team && needsPosts (decodeWord w) && (ownerStop tSeqT (decodeWord w)).isNone
      | .error _ => false) = true ∧ s.seq? (tQ .team) = some tSeqT ∧ tSeqT.runs (tQ .team) = true ∧ s.seqHeld (tQ .team) = false ∧
    stubAt s 1 0x1004 = none ∧ (s.posted (tQ .team) 0x1004).isSome = true := by decide

/-- A decision of a branch whose group has posted no true lane, or all of its lanes. -/
theorem witness_CoreEvents_decideBr :
    ∀ n ∈ [0, 16],
      let s : State := { tPost n with mem := tMem ++ [(0x20004, 2), (0x20006, 0x40), (0x20007, 1)] }
      wordIs (fetchIn s 1 0x1004) 0x01400002 = true ∧ decodeWord 0x01400002 = .br 2 false 0 2 ∧
      upperScope (.br 2 false 0 2) = some .team ∧ needsPosts (.br 2 false 0 2) = true ∧ ownerStop tSeqT (.br 2 false 0 2) = none ∧
      s.seq? (tQ .team) = some tSeqT ∧ tSeqT.runs (tQ .team) = true ∧ s.seqHeld (tQ .team) = false ∧ stubAt s 1 0x1004 = none ∧
      (s.posted (tQ .team) 0x1004).map (fun ps => ((ps.map (fun p => p.2.2.active)).sum, (ps.map (fun p => p.2.2.true_)).sum)) =
        some (16, n) := by decide

/-- A word that is not mapped, and an access that was answered "absent, retry". -/
theorem witness_CoreEvents_fetch :
    (let g : Group := { tG with a := { tG.a with pc := 0x100000 } }
     (match fetchWord (tOn g .a) tId 0x100000 with
      | .ok _ => false
      | .error b => b == .page) = true ∧ g.viewEnd ≠ some (g.slot .a).pc) ∧
    (let g : Group := { tG with wait := some (.absent 0) }
     (tOn g .a).group? tId = some g ∧ (tOn g .a).absentCore 0 = false) := ⟨by decide, rfl, by decide⟩

/-- A copy of 16 bytes from 0x1000 into the team's scratchpad with its granule's mark, whose granule is empty, and full. -/
def tCopy (fe : BitVec 2) (dst : Word) (caddr : Word) (parts : Nat) : Copy :=
  { ctx := 1, group := some tId, tmpl := 0, src := ⟨0x1000, 16⟩, dst := ⟨dst, 16⟩, rowb := 16, nrows := 1, fe := fe, teams := none,
    cinc := 1, caddr := caddr, parts := parts, kept := [], waiting := false, pkt := none, started := 3, slots := [.a], scope := 3, fenced := false, granule := [] }

def tChan (full : List Nat) (cp : Copy) : State :=
  { tOn tG .a with teams := [((1, 0, 0), { tTeam with full := full })], channels := [((0, 3), [cp])] }

theorem witness_CoreEvents_granule :
    let cp := tCopy 2 0x01F0000000000020 0 0
    (tChan [] cp).channel (0, 3) = [cp] ∧ (tChan [] cp).ctx? cp.ctx = some tCtx ∧ cp.parts < cp.nrows * (cp.rowb / 16) ∧
    cp.dst.row 0 = 0x01F0000000000000 + 32 ∧ (32 : Nat) % 16 = 0 ∧ cp.src.row 0 % 16 = 0 ∧ cp.src.row 0 < 0x01F0000000000000 ∧
    physIs (translate (tChan [] cp) tCtx (cp.src.row 0) needRead) 0x20000 = true ∧ (tChan [] cp).absentCore (spadCore tTeam 32) = false ∧
    (tChan [2] cp).team? tId.teamKey = some { tTeam with full := [2] } ∧ 2 ∈ ({ tTeam with full := [2] }).full ∧
    2 ∉ ({ tTeam with full := [] }).full := by decide

/-- A write of the copy's group that an `xfence` has put before it, and one that nothing has (R171). -/
theorem witness_CoreEvents_settled :
    let cp : Copy := tCopy 0 0x2000 0 0
    (tChan [] cp).CopySettled cp (.phys 0x21000) 16 ∧
      ({ tChan [] cp with ledger := tLedger [(.copy 3, 3)] } : State).CopySettled cp (.phys 0x20000) 1 ∧
      ¬ ({ tChan [] cp with ledger := tLedger [] } : State).CopySettled cp (.phys 0x20000) 1 :=
  ⟨nofun, fun r h _ k hk _ => (by rw [List.mem_singleton.mp h]; obtain rfl : k = 0 := (by omega); decide), fun h =>
    absurd (h (tOld []) (List.mem_singleton.mpr rfl) (by decide) 0 (by decide) ⟨0, by decide, rfl⟩) (by decide)⟩

/-- The core that was absent answers again; a slot that waits alone. -/
theorem witness_CoreEvents_retry :
    let g : Group := { tG with a := { tG.a with hold := some (.absent 0) } }
    (tOn g .a).group? tId = some g ∧ (tOn g .a).absentCore 0 = false ∧
      ((tOn g .a).setCore 0 { Core.reset with frozen := some ⟨.closed, 0, 1, 0, 0, 0, [], [], [], false, none, false, 0⟩ }).absentCore 0 = true :=
  ⟨rfl, by decide, by decide⟩

/-- A copy between two pages, and one that is to signal its counter. -/
theorem witness_CoreEvents_complete :
    (let cp := tCopy 0 0x2000 0 0
     (tChan [] cp).channel (0, 3) = [cp] ∧ cp.src.row 0 % 4096 + cp.rowb ≤ 4096 ∧ cp.dst.row 0 % 4096 + cp.rowb ≤ 4096 ∧
     physIs (translate (tChan [] cp) tCtx (cp.src.row 0) needRead) 0x20000 = true ∧
     physIs (translate (tChan [] cp) tCtx (cp.dst.row 0) needWrite) 0x21000 = true ∧ 0 < cp.rowb ∧ cp.dst.row 0 < 0x01F0000000000000) ∧
    (let cp := tCopy 2 0x01F0000000000020 0x1000 1
     (if cp.fe = 2 then cp.nrows * (cp.rowb / 16) * cp.keys.length else cp.nrows) ≤ cp.parts ∧ cp.caddr ≠ 0 ∧ cp.caddr.toNat % 8 = 0 ∧
     physIs (translate (tChan [] cp) tCtx 0x1000 needWrite) 0x20000 = true) := by decide

/-! ### Queues, the scheduler, power, tiles -/

/-- Queue 5 of die 0 with one packet in a ring at 0x1000, whose bytes the page 0x20000 holds. -/
def tQueue : Queue := { Queue.reset with base := 0x1000, en := true, state := 1, wrx := 1, pasid := 1, evec := 3 }

def tRing (q : Queue) (bytes : List Host.Cell) : State :=
  { tBase with
    queues := [(5, q)], qown := [(5, ⟨0, true, 0⟩)], grids := [(1, tGrid)], nextGrid := 2,
    mem := tMem.filter (fun c => c.1 < 0x20000) ++ bytes }

def slotIs (x : Except Bad Packet) (p : Packet) : Bool :=
  match x with
  | .ok q => q == p
  | .error _ => false

/-- States 0 to 3 of a queue, a write past the ring, a held disable, an owner. -/
theorem witness_ServiceTiles_record :
    (tRing Queue.reset []).queue 5 = Queue.reset ∧ Queue.reset.state = 0 ∧ Queue.reset.held = false ∧ tQueue.state = 1 ∧
    tQueue.en = true ∧ tQueue.inflight = [] ∧ tQueue.stop = false ∧
    ({ tQueue with state := 2, stop := true }).state = 2 ∧ ({ tQueue with held := true }).held = true ∧
    (decide ((64 - tQueue.rdx).toNat ≤ 2 ^ (tQueue.size.toNat + 6)) = true) ∧
    (decide ((65 - tQueue.rdx).toNat ≤ 2 ^ (tQueue.size.toNat + 6)) = false) ∧
    (let s := { tRing tQueue [] with sel := 5 }
     s.sel = 5 ∧ (s.queue 5).held = false) ∧
    ({ tRing tQueue [] with devrdy := 0 }).ready (1 + (0 : Fin 4).val) = false := by decide

/-- What a packet's bytes read as, and that its lane is the only active one of its round. -/
def served (bytes : List Host.Cell) (p : Packet) : Bool :=
  let s := tRing tQueue bytes
  Memory.wf s.mem && s.ready 1 && ((List.range 32).map (fun l => 256 * 0 + 32 * 0 + l)).filter s.laneActive == [5] &&
    ((s.ctxOfQueue 5).map (·.1)) == some 1 && slotIs (s.readSlot 5 tCtx 0) p

set_option maxRecDepth 8000 in
/-- A wait on the counter at 0x2000 that is satisfied and one that is not, a signal, a time stamp, an invalidation, a barrier. -/
theorem witness_ServiceTiles_packets :
    (served [(0x20000, 0x11), (0x20009, 0x20)] #v[0x11, 0x2000, 0, 0, 0, 0, 0, 0] = true ∧
      served [(0x20000, 0x11), (0x20009, 0x20), (0x20010, 1)] #v[0x11, 0x2000, 1, 0, 0, 0, 0, 0] = true ∧
      served [(0x20000, 0x12), (0x20009, 0x20), (0x20010, 1)] #v[0x12, 0x2000, 1, 0, 0, 0, 0, 0] = true ∧
      served [(0x20000, 0x17), (0x20009, 0x20)] #v[0x17, 0x2000, 0, 0, 0, 0, 0, 0] = true ∧
      served [(0x20000, 0x13), (0x20010, 1), (0x20018, 1)] #v[0x13, 0, 1, 1, 0, 0, 0, 0] = true ∧
      served [(0x20000, 0x10)] #v[0x10, 0, 0, 0, 0, 0, 0, 0] = true ∧
      served [(0x20000, 0x0F)] #v[0x0F, 0, 0, 0, 0, 0, 0, 0] = true ∧ served [(0x20000, 0x15)] #v[0x15, 0, 0, 0, 0, 0, 0, 0] = true ∧
      served [(0x20000, 0x11), (0x20001, 4)] #v[0x411, 0, 0, 0, 0, 0, 0, 0] = true ∧
      served [(0x20000, 0x12), (0x2000A, 0x10)] #v[0x12, 0x100000, 0, 0, 0, 0, 0, 0] = true) ∧
    [(#v[0x11, 0x2000, 1, 0, 0, 0, 0, 0] : Packet), #v[0x12, 0x2000, 1, 0, 0, 0, 0, 0], #v[0x17, 0x2000, 0, 0, 0, 0, 0, 0],
        #v[0x13, 0, 1, 1, 0, 0, 0, 0], #v[0x10, 0, 0, 0, 0, 0, 0, 0], #v[0x12, 0x100000, 0, 0, 0, 0, 0, 0]].all (fun p => (Packet.error p).isNone) = true ∧
    Packet.error #v[0x411, 0, 0, 0, 0, 0, 0, 0] = some 2 ∧
    physIs (translate (tRing tQueue []) tCtx 0x2000 needRead) 0x21000 = true ∧
    (match translate (tRing tQueue []) tCtx 0x100000 needWrite with
      | .error b => b == .page
      | .ok _ => false) = true := by decide

/-- A launch of one gang of one team of one group, with its argument block at 0x2000. -/
def tLaunch : Packet := #v[0x14, 0x1000, 0x1100000001, 0, 0x2000, 0, 0, 0]

theorem witness_ServiceTiles_launch :
    served [(0x20000, 0x14), (0x20009, 0x10), (0x20010, 1), (0x20014, 0x11), (0x20021, 0x20)] tLaunch = true ∧ tLaunch.error = none ∧
    tLaunch.roles = false ∧ (gridOf 5 0 0 1 tLaunch none []).fitsEmpty = true ∧
    physIs (translate (tRing tQueue []) tCtx tLaunch[4].toNat needRead) 0x21000 = true := by decide

/-- An invalidation and a grid in flight. -/
theorem witness_ServiceTiles_done :
    (let f : Served := ⟨0, 0x13, 0, true, false, .inval 0 1 1 0x2000⟩
     let q : Queue := { tQueue with inflight := [f] }
     (((tRing q []).queue 5).inflight.find? (fun x => x.idx == 0)) = some f ∧ ((tRing q []).ctxOfQueue 5).map (·.1) = some 1 ∧
       q.held = false ∧ (0x2000 : Word) ≠ 0) ∧
    (let f : Served := ⟨0, 0x14, 0, false, false, .grid 1⟩
     let x : Grid := { tGrid with queue := 5, caddr := 0x2000, cinc := 1, gangs := 1, ended := 1 }
     let s : State := { tRing { tQueue with inflight := [f] } [] with grids := [(1, x)], sel := 1 }
     s.grid? s.sel = some x ∧ x.killed = false ∧ x.gangs ≤ x.ended ∧
       ((s.queue x.queue).inflight.find? (fun f => f.work == .grid s.sel)) = some f ∧ s.ctx? x.ctx = some tCtx ∧ x.caddr ≠ 0 ∧
       physIs (translate s tCtx x.caddr.toNat needWrite) 0x21000 = true ∧ (s.queue x.queue).held = false ∧ (s.queue x.queue).state = 1) := by
  decide

/-- A head whose grid has one gang left, on an empty die. -/
def tHead : Grid := gridOf 5 0 0 1 tLaunch none []

def tSched (q : Queue) : State :=
  { tBase with queues := [(5, { q with grids := [1] })], qown := [(5, ⟨0, true, 0⟩)], grids := [(1, tHead)], nextGrid := 2, teams := [] }

set_option maxRecDepth 4000 in
theorem witness_ServiceTiles_pass :
    (tSched tQueue).sel = 0 ∧ (tSched tQueue).ready 1 = true ∧ ((tSched tQueue).queue 5).grids = [1] ∧
    ((tSched tQueue).queue 5).blk = false ∧ (tSched tQueue).grid? 1 = some tHead ∧ tHead.gangs = tHead.placed + 1 ∧
    (tSched tQueue).placeable 1 = true ∧ (∀ j < 256, (tSched tQueue).claiming (256 * 0 + j) = false) ∧
    5 ∉ ((tSched tQueue).die 0).refused ∧
    ((tSched tQueue).die 0).gridSeqs.length + tHead.roleList.length ≤ 16 ∧
    (tHead.windows 0).find? ((tSched tQueue).windowFits 5 tHead 0) = some 0 ∧ (tSched tQueue).headOf 5 = some (1, tHead) := by decide

set_option maxRecDepth 4000 in
theorem witness_ServiceTiles_claim :
    (let g : Grid := { tHead with gangs := 2, placed := 1 }
     let s : State := (tSched tQueue).setDie 1 { Die.reset with claims := [⟨5, 1, 96, 0⟩] }
     let s1 : State := { s with sel := 1, grids := [(1, g)] }
     let t : State := (s1.setDie 1 { s1.die 1 with claims := [] }).fetchRecord 1 5 0
     s1.sel < 4 ∧ (s1.die 1).claims = [⟨5, 1, 96, 0⟩] ∧ t.headOf 5 = some (1, g) ∧ t.placeable 1 = true ∧
     t.windowFits 5 g 0 96 = true ∧ t.short 5 g = false ∧ t.heldBack 5 0 g.cores = false ∧
     ({ t with devrdy := 0 }).windowFits 5 g 0 96 = false) ∧
    (let s : State := { tSched { tQueue with blk := true, since := 0 } with sel := 5 }
     s.headOf 5 = some (1, tHead) ∧ (s.queue 5).blk = true ∧ (s.queue 5).rsv = false ∧ s.short 5 tHead = false ∧
     (s.queue 5).since + 1000000 ≤ s.timer ∧ (s.bestWindow 0 tHead).isSome = true ∧ s.due 4 = false) ∧
    (let s : State := { tSched tQueue with sel := 5 }
     s.nopromo = false ∧ (s.queue 5).grids ≠ [] ∧ (s.queue 5).elev ≠ 3) := by decide

set_option maxRecDepth 4000 in
/-- A claim whose head another blocked head of its level holds back (R69), and one of a grid that is head no more. -/
theorem witness_ServiceTiles_claimHeld :
    let g : Grid := { tHead with gangs := 2, placed := 1 }
    let q : Queue := { tQueue with grids := [1] }
    let s : State := { tSched tQueue with
      sel := 1, grids := [(1, g)], queues := [(5, q), (6, { q with blk := true })]
      dies := [(1, { Die.reset with claims := [⟨5, 1, 96, 0⟩] })] }
    let t : State := (s.setDie 1 { s.die 1 with claims := [] }).fetchRecord 1 5 0
    s.sel < 4 ∧ (s.die 1).claims = [⟨5, 1, 96, 0⟩] ∧ t.headOf 5 = some (1, g) ∧ t.placeable 1 = true ∧ t.short 5 g = false ∧
      t.heldBack 5 0 g.cores = true ∧ (2 : Nat) ≠ (⟨5, 1, 96, 0⟩ : Claim).grid := by decide

/-- A write of BASE and SIZE in one access, and one that is refused for its SIZE. -/
theorem witness_ServiceTiles_wide :
    (0x5000 : BitVec 64).toNat % 4096 = 0 ∧ (0x28 : BitVec 32).toNat / 4 % 16 = 10 ∧ (0x28 : BitVec 32).getLsbD 0 = false ∧
      (0x2C : BitVec 32).toNat / 4 % 16 = 11 ∧ (tBase.queue 5).state = 0 ∧ (tBase.queue 5).held = false := by decide

/-- No other queue is due a reservation: the others hold their reset values. -/
theorem witness_ServiceTiles_due :
    ∀ j, j ≠ 5 → ({ tSched { tQueue with blk := true, since := 0 } with sel := 5 } : State).due j = false := by
  intro j h
  have hq : ({ tSched { tQueue with blk := true, since := 0 } with sel := 5 } : State).queue j = Queue.reset := by
    simp [State.queue, tSched, Tbl.find, Ne.symm h]
  simp [State.due, State.blocked, hq, Queue.reset]

/-- Drawn powers of which die 1 draws the most first, an entry into near-threshold mode, a region that idles, a ramp, an interval. -/
theorem witness_ServiceTiles_power :
    (let w : Fin 4 → Nat := fun d => if d = 1 then 900 else 600
     (∀ j, j < (1 : Fin 4) → w j < w 1) ∧ (∀ j, (1 : Fin 4) < j → w j ≤ w 1) ∧ 2150 < w 0 + w 1 + w 2 + w 3) ∧
    tBase.ctlRaised = none ∧ 20 ≤ (List.replicate 20 13).length ∧ (∀ x ∈ List.replicate 20 13, (tBase.region 0).ntt.toNat < x) ∧
    (let s : State := { tBase with sel := 3 }
     (s.region 3).nogate = false ∧ s.reservedRegion 3 = false ∧ (s.region 3).gate = .running ∧
     (∀ k < 8, s.teamsOn (8 * 3 + k) = [] ∧ (s.core (8 * 3 + k)).frozen = none) ∧
     ((s.setRegion 3 { Region.reset with gate := .hold }).region 3).gate = .hold) ∧
    (let s : State := { tBase with dies := [(0, { Die.reset with rampQueue := [3], ramping := [4] })] }
     (s.die 0).rampQueue = [3] ∧ (s.die 0).ramping.length < 4 ∧ ({ s with sel := 4 }).sel / 12 = 0 ∧ 4 ∈ (s.die 0).ramping) ∧
    10000 * tBase.interval ≤ tBase.timer ∧ tBase.t95 = false ∧ tBase.requested 0 = 0 := by decide

/-- A region whose group asks for 3.0 GHz, at the balances where the rules meet. -/
theorem witness_ServiceTiles_sprint :
    (∀ k ∈ [1, 2], ({ tOn { tG with sprint := BitVec.ofNat 2 k } .a with sel := 0 } : State).requested 0 = k) ∧
    (tOn { tG with sprint := 2 } .a).requested 1 = 0 ∧ (∀ b ∈ [(0 : Int), 1, 2], 0 ≤ b ∧ b ≠ -1) ∧
    ((if (0 : Nat) % 2 = 0 then 0 + 1 else 0 - 1) = 1) := by decide

/-- A frozen tile of core 0 at its stages. -/
def tFrozen (st : FreezeStage) : Frozen :=
  { stage := st, vcore := 0, ctx := 1, rev := 0, lhash := 0, units := 0, landed := [], held := [], wakes := [], due := true,
    target := none, portable := false, home := 0 }

def tIce (st : FreezeStage) : State := (tOn tG .a).setCore 0 { Core.reset with frozen := some (tFrozen st) }

theorem witness_ServiceTiles_freeze :
    (tOn tG .a).sel = 0 ∧ (tOn tG .a).teamsOn 0 ≠ [] ∧ ((tOn tG .a).core 0).frozen = none ∧ (tOn tG .a).tileCores 0 = [0] ∧
    (∀ st ∈ [FreezeStage.landing, .closed], ((tIce st).core 0).frozen = some (tFrozen st) ∧ (tIce st).tileCores 0 = [0] ∧
      (tIce st).releases (tFrozen st) = false) := by decide

/-- An image that is not complete is not restorable; a complete one waits for its core; a save area (R203). -/
theorem witness_ServiceTiles_images :
    (tIce .complete).imageOf 0 = some 0 ∧ (tIce .complete).tileCores 0 = [0] ∧
    ((tIce .complete).core 0).frozen = some (tFrozen .complete) ∧ (tIce .complete).imageOk (tFrozen .complete) = true ∧
    (tFrozen .complete).due = true ∧ (tFrozen .complete).home = 0 ∧ (tIce .landing).restorable 0 5 = false ∧
    (tIce .landing).imageOf 0 = some 0 ∧ (tFrozen .complete).target = none ∧ (tFrozen .complete).wakes = [] ∧
    (let s : State := { tIce .complete with contexts := [(1, { tCtx with save := some 0x800000 })] }
     Memory.wf s.mem = true ∧ s.ctx? (tFrozen .complete).ctx = some { tCtx with save := some 0x800000 } ∧
       localBad s (0x800000 + 2201728 * (tFrozen .complete).vcore) = none) := by decide

/-- A member awaited at an entry whose other member's tile is frozen: the arrival asks for it (R143). -/
theorem witness_Phases_absent :
    let g : Group := { tGn with urgent := [tHv] }
    let e : SEntry := { tEntry with absent := [(0, 1)] }
    let s : State := (tEnt e g).setCore 0 { Core.reset with frozen := some (tFrozen .complete) }
    s.group? tId = some g ∧ s.entryOf tHv = e ∧ (0, 1) ∈ e.absent ∧ (s.core 0).frozen = some (tFrozen .complete) ∧
      tId ∉ e.pjoin ∧ e.isMember tId = true ∧ tId ∉ e.arrived := ⟨rfl, by decide⟩

/-- A portable image goes to any enabled core that is free (R205). -/
theorem witness_ServiceTiles_restorable :
    let s : State := (tOn tG .a).setCore 0 { Core.reset with frozen := some { tFrozen .complete with portable := true } }
    s.restorable 0 0 = true ∧ s.restorable 0 5 = true ∧ s.imageOf 0 = some 0 ∧ s.tileCores 0 = [0] ∧
      (∃ e ∈ s.teams, e.2.core = 0) :=
  ⟨by decide, by decide, by decide, by decide, _, .head _, rfl⟩

theorem witness_ServiceTiles_contexts :
    tBase.sel = 0 ∧
    (let s : State := { tBase with contexts := [(0, { tCtx with stage := .soft, preAt := 0 })], teams := [((1, 0, 0), { tTeam with ctx := 0 })] }
     s.ctx? s.sel = some { tCtx with stage := .soft, preAt := 0 } ∧ 0 + 1000 * s.pdeadline.toNat ≤ s.timer ∧ s.teamsOfCtx s.sel ≠ []) ∧
    (let s : State := { tBase with contexts := [(0, { tCtx with stage := .soft })] }
     s.ctx? s.sel = some { tCtx with stage := .soft } ∧ s.teamsOfCtx s.sel = [] ∧ s.copiesOf s.sel = []) ∧
    (let c : Context := { tCtx with stage := .out, parkedE := [(3, 1, tEntry)] }
     ({ tBase with contexts := [(0, c)] } : State).ctx? 0 = some c ∧ (c.parkedE.map (fun x => (x.1, x.2.1))).Nodup) := by decide

theorem witness_ServiceTiles_migrate :
    let s := tOn tG .a
    s.tileCores 0 = [0] ∧ (s.core 0).frozen = none ∧ s.reservedRegion (1 / 8) = false ∧ s.enabled 1 = true ∧ s.teamsOn 1 = [] ∧
    (s.core 1).frozen = none ∧ s.teamsOn 0 = [((1, 0, 0), tTeam, 0)] ∧ s.placeable tTeam.ctx = true ∧ (0 : Fin 384) ≠ 1 := by decide

/-! ### Isacor and the package -/

/-- A context with one kernel and its function. -/
def tFn (body : Option PC) : HeapFn := ⟨0, [(0x8000000000, 0)], body, 64, false, false⟩

def tKernel : Kernel := ⟨[0], [], 0, 0, 0, 0, 0, 0, 0⟩

def tApp (body : Option PC) : Context := { tCtx with kernels := [tKernel], fns := [tFn body] }

set_option maxRecDepth 8000 in
theorem witness_IsacorPackage :
    tBase.ctx? 1 = some tCtx ∧ tCtx.ended = false ∧ tBase.sel < 8 ∧ 8 ≤ ({ tBase with sel := 8 } : State).sel ∧
    (tRing { tQueue with pasid := 2 } []).queueAt 0 0 = some 5 ∧ ((tRing { tQueue with pasid := 2 } []).queue 5).pasid ≠ tCtx.pasid ∧
    tBase.ctx? 2 = none ∧ tBase.readRange tCtx 0x1000 0 = some [] ∧ (tBase.readRange tCtx 0x100000 8) = none ∧
    ((List.range 1024).find? (fun n => !((tBase.qown.find n).map (·.val)).getD false && (tBase.queue n).state == 0#2) = some 0) ∧
    ((List.range 1024).find? (fun l => !(tBase.queueAt tCtx.fn l).isSome) = some 0) ∧ (tBase.queue 0).held = false ∧
    rangeOk 0x1000 4096 = true ∧ rangeOk 0x1001 4096 = false ∧ tBase.anyMapped tCtx 1 0x1000 = true ∧ tBase.anyMapped tCtx 1 0x5000 = false ∧
    (tBase.giveFrames 1 4096 4096).isSome = true ∧ tBase.allMapped tCtx 1 0x1000 = true ∧ tBase.allMapped tCtx 1 0x5000 = false ∧
    (tBase.mapEntry 1 0x1000 5 0 5 0x10000).isSome = true := by decide

set_option maxRecDepth 8000 in
/-- The ring and the doorbell page of a fresh queue are mapped by two pages of 1 GiB (R153). -/
theorem witness_IsacorPackage_ring :
    let s : State := { tBase with mem := [(0x10000, 1), (0x10001, 0x10), (0x10002, 1), (0x11008, 1), (0x11009, 0x50),
      (0x1100A, 1), (0x15200, 0x9F), (0x15203, 0x40), (0x15A00, 0x9F), (0x15A03, 0x40)] }
    s.allMapped tCtx 1 (0x9000000000 + 4096 * 0) = true ∧ s.allMapped tCtx 1 (0xD000000000 + 4096 * 0) = true ∧
      s.ctx? 1 = some tCtx ∧ (s.queue 0).held = false ∧
      ((List.range 1024).find? (fun n => !((s.qown.find n).map (·.val)).getD false && (s.queue n).state == 0#2) = some 0) ∧
      ((List.range 1024).find? (fun l => !(s.queueAt tCtx.fn l).isSome) = some 0) := by decide

theorem witness_IsacorPackage_map :
    ((tBase.giveFrames 1 4096 4096).bind (fun x => (x.2.mapPages 1 tCtx.root.toNat 5 0 4096 true false 1 0x5000 x.1).bind (fun s2 =>
      s2.ctx? 1))).isSome = true := by decide

theorem witness_IsacorPackage_launch :
    let s := tRing tQueue [(0x20000, 0x14), (0x20009, 0x10), (0x20010, 1), (0x20014, 0x11), (0x20021, 0x20)]
    let bs := physRead s 0x20000 64
    (0 : Word).toNat < 1024 ∧ s.queueAt 0 0 = some 5 ∧ s.readRange tCtx 0x1000 64 = some bs ∧ bs.length = 64 ∧ (Packet.ofBytes bs).typ = 0x14 ∧
    (s.queue 5).pasid = tCtx.pasid ∧ (s.queue 5).en = true ∧ tCtx.stubKnown (Packet.ofBytes bs)[1] = false ∧
    (Packet.ofBytes bs).roles = false ∧
    (let c : Context := { tApp (some 0x8000000100) with fns := [⟨0, [(0x1000, 0)], some 0x8000000100, 64, false, true⟩] }
     c.stubKnown (Packet.ofBytes bs)[1] = true ∧ ((s.queue 5).wrx - (s.queue 5).rdx).toNat < 2 ^ ((s.queue 5).size.toNat + 6) ∧
     physIs (translate s c ((s.queue 5).base.toNat + 64 * ((s.queue 5).wrx.toNat % 2 ^ ((s.queue 5).size.toNat + 6))) needWrite) 0x20040 = true) ∧
    2 ^ (6 : Nat) ≤ ((64 : BitVec 32) - 0).toNat := by decide

theorem witness_IsacorPackage_calls :
    (0x1000 : Word).toNat % 8 = 0 ∧ counterValue tBase tCtx 0x1000 = some 5 ∧ (5 : Word).toNat ≤ 5 ∧ 5 < (6 : Word).toNat ∧
    tCtx.cwait = none ∧ (1 : Word).toNat % 8 ≠ 0 ∧
    (tApp none).fns.find? (fun f => f.kernel == 0) = some (tFn none) ∧ (tApp none).kernels[0]? = some tKernel ∧
    (tApp none).fns.find? (fun f => f.kernel == 7) = none ∧ (tFn none).body = none ∧
    ((tApp none).heapNext + 63) / 64 * 64 + (tFn none).bytes ≤ (tApp none).heapSize ∧ (tFn (some 0)).body.isSome = true ∧
    ((tOn tG .a).groups.map (·.1)).Nodup := by decide

/-- Memory that is not ready, that has failed, and that is all given away: what the calls wait for (R16). -/
theorem witness_IsacorPackage_held :
    (let s : State := { tBase with devrdy := 0 }
     s.heldAt tCtx needRead (pieceStarts 0x1000 8) = true ∧ s.heldAt tCtx needRead [0x1000] = true ∧
       s.heldAt tCtx needRead [0x1000, 0x1000 + 63] = true ∧ s.heldWalk tCtx 1 0x1000 = true ∧
       (let c : Context := { tApp none with heapSize := 2 ^ 21 }
        s.heapHeld 1 c = true ∧ tBase.heapHeld 1 c = false ∧
          ({ s with devfail := 0x3FFFFFF } : State).heapHeld 1 c = false ∧ ({ s with devfail := 0x3FFFFFF } : State).heapFailed c = true)) ∧
    tBase.heldAt tCtx needRead (pieceStarts 0x1000 8) = false ∧ tBase.heldAt tCtx needRead [0x1000, 0x1000 + 63] = false ∧
    tBase.heldWalk tCtx 1 0x1000 = false ∧ tBase.heldWalk tCtx 1 0x5000 = false ∧
    (let c : Context := { tCtx with frames := hbmEnd }
     let s : State := { tBase with contexts := [(1, c)] }
     s.giveFrames 1 4096 4096 = none ∧ s.roomHeld = false ∧ ({ s with devrdy := 0x3FFFFFF - 2 ^ 12 } : State).roomHeld = true ∧
       ({ s with devrdy := 0x3FFFFFF - 2 ^ 12 } : State).giveFrames 1 4096 4096 = none ∧ s.heldWalk c 1 0x5000 = false ∧
       s.anyMapped c 1 0x5000 = false) ∧
    (tBase.heapHeld 1 (tApp none) = false ∧ tBase.heapFailed (tApp none) = false) := by decide

set_option maxRecDepth 8000 in
/-- A launch with roles, whose second packet lies on a page of a stack that is not ready. -/
theorem witness_IsacorPackage_heldRoles :
    let s : State := { tRing tQueue [(0x20FC0, 0x14), (0x20FD5, 0x20)] with devrdy := 0x3FFFFFF - 2 ^ 12 }
    let t : State := { s with mem := memWrite s.mem 0x14010 (leBytes 8 (0xF + 560 * 2 ^ 30)) }
    t.heldAt tCtx needRead [0x1FC0, 0x1FC0 + 63] = false ∧ (t.readRange tCtx 0x1FC0 64).map (·.length) = some 64 ∧
      (t.readRange tCtx 0x1FC0 64).map (fun bs => (Packet.ofBytes bs).roles) = some true ∧
      t.heldAt tCtx needRead [0x1FC0 + 64, 0x1FC0 + 127] = true := by decide

theorem witness_IsacorPackage_expired :
    let c : Context := { tCtx with cwait := some ⟨0x1000, 6, 100⟩ }
    let s : State := { tBase with contexts := [(0, c)] }
    s.ctx? s.sel = some c ∧ c.cwait = some ⟨0x1000, 6, 100⟩ ∧ 100 ≤ s.timer ∧ counterValue s c 0x1000 = some 5 := by decide

/-- SHA-256 of no bytes, the value that is published beside FIPS 180-4 (log 27). -/
def tDigest : List Byte :=
  [0xe3, 0xb0, 0xc4, 0x42, 0x98, 0xfc, 0x1c, 0x14, 0x9a, 0xfb, 0xf4, 0xc8, 0x99, 0x6f, 0xb9, 0x24, 0x27, 0xae, 0x41, 0xe4, 0x64,
   0x9b, 0x93, 0x4c, 0xa4, 0x95, 0x99, 0x1b, 0x78, 0x52, 0xb8, 0x55]

theorem test_sha256 : sha256 [] = tDigest := by decide +kernel

/-- An image of a header alone: SWAP, ABI 0, kernel section at 0, one kernel (R263). -/
def tImage (n : Byte) : List Byte :=
  [0x50, 0x41, 0x57, 0x53] ++ List.replicate 20 0 ++ [n] ++ List.replicate 7 0 ++ tDigest

theorem witness_IsacorPackage_image :
    imageBad [] = true ∧ imageBad (tImage 1) = false ∧ field (tImage 1) 16 8 % 4 = 0 ∧ field (tImage 1) 24 4 = 1 ∧
    field (tImage 0) 24 4 = 0 := by decide +kernel

theorem witness_IsacorPackage_package :
    (tBase.umap 0).done = true ∧ (({ tBase with umaps := [] } : State).umap 0).done = false ∧ tBase.devfail.getLsbD (devBit .host) = false ∧
    (let s : State := { tBase with sel := 0, ports := [(0, { Port.reset with up := true })], devnum := some 1,
                                   umaps := [(0, ⟨0, 0, 1, true, 0⟩)] }
     s.enabledPorts 0 = [0] ∧ (s.port 0).up = true ∧ s.portEnabled 0 = true ∧ (s.port 0).fail = false ∧ (s.port 0).replays < 8 ∧
     devBit (.lnk 0) = 21 ∧ s.devnum.isSome = true ∧ ∀ p ∈ s.enabledPorts 0, (s.port p).up = true ∨ (s.port p).fail = true) ∧
    (let s : State := { tBase with umaps := [(0, ⟨0, 0, 1, true, 0⟩)] }
     0 ∈ s.enabledPorts 0 ∧ (s.port 0).fail = false) ∧
    (let s : State := { tBase with umaps := [(0, ⟨0, 0, 1, true, 0⟩)], ports := [(0, { Port.reset with fail := true })] }
     ∀ p ∈ s.enabledPorts 0, (s.port p).fail = true) ∧
    (({ tBase with meas := [(0, [])] } : State).meas.find (0 : Fin 4).val).isSome = true ∧
    tBase.devrdy.getLsbD (5 + 3) = true ∧ tBase.ready 13 = true ∧ (8 : Nat) ≤ ({ Port.reset with replays := 8 }).replays ∧ tBase.t95 = false := by decide

theorem witness_IsacorPackage_stack : ∀ e ∈ tBase.groups, ∀ n sl x pc, e.2.wait ≠ some (.stop n sl x pc) :=
  fun _ h => absurd h List.not_mem_nil

set_option maxRecDepth 4000 in
/-- A port that has failed and one of the same die that is up: where a route moves (R24). -/
theorem witness_IsacorPackage_routes :
    let s : State := { tBase with routes := [(7, 1)], ports := [(1, { Port.reset with fail := true }), (2, { Port.reset with up := true })] }
    s.routes.find 7 = some 1 ∧ (s.port 1).up = false ∧ (∃ j < 9, (s.port (9 * (1 / 9) + j)).up = true) ∧
      ({ s with ports := [] } : State).routes.find 7 = some 1 ∧ (∀ j < 36, (({ s with ports := [] } : State).port j).up = false) ∧
      (List.replicate 224 (0 : Byte)).length = 224 ∧ (s.port 2).up = true := by decide

/-- Lane widths and times at which R23 narrows and does not. -/
theorem witness_IsacorPackage_lanes :
    Port.reset.lanes = 4 ∧ Port.reset.since + 10000 ≤ tBase.timer ∧ ({ Port.reset with lanes := 2 }).lanes = 2 ∧
      ({ Port.reset with lanes := 1 }).lanes = 1 ∧ (tBase.timer < ({ Port.reset with since := 2000000 } : Port).since + 10000) := by decide

/-- A cached kernel whose own digest holds, and one whose does not (R52). -/
theorem witness_IsacorPackage_cache :
    let same (l : Linked) : Bool := l.digest == tCtx.digest && l.kernel == 0
    (∀ d, ({ tBase with linked := [⟨[], 0, [0], [], d⟩] } : State).linked.find? same = some ⟨[], 0, [0], [], d⟩) ∧
      (∀ l : Linked, ∃ m : Linked, m = { l with sum := m.sum } ∧ m.sum = m.digestOf) ∧ tBase.linked.find? same = none :=
  ⟨fun _ => rfl, fun l => ⟨{ l with sum := l.digestOf }, rfl, rfl⟩, rfl⟩

/-- Requests of another device: to an address that answers, to one that is held, to one whose range passes the end of HBM. -/
theorem witness_IsacorPackage_remote :
    localBad (tBase.takeFlit 1) 0x20000 = none ∧ localBad (tBase.takeFlit 1) (0x20000 + 4 - 1) = none ∧
      localBad ({ tBase with devrdy := 0 }.takeFlit 1) 0x20000 = some (.hold (.stack 0)) ∧
      localBad (tBase.takeFlit 1) 0x9FFFFFFFFC = none ∧ localBad (tBase.takeFlit 1) (0x9FFFFFFFFC + 8 - 1) = some (.viol 2) := by decide

/-- Local addresses that answer, are held, have failed and do not exist; a window of function 0. -/
theorem witness_IsacorPackage_accesses :
    localBad tBase 0x20000 = none ∧ localBad { tBase with devrdy := 0 } 0x20000 = some (.hold (.stack 0)) ∧
    localBad { tBase with devfail := 0x20 } 0x20000 = some (.viol 8) ∧ localBad tBase 0xA000000000 = some (.viol 2) ∧
    (let w := 1 + 2 ^ 13 + 2 ^ 20
     w / 2 ^ 13 % 2 ^ 7 * 2 ^ 30 = 2 ^ 30 ∧ (2 ^ 30 - 4) + 4 ≤ 2 ^ 30 ∧ 2 ^ 30 < (2 ^ 30 - 3) + 4 ∧
     w % 2 ^ 13 * 2 ^ 30 + 2 ^ 30 ≤ hbmEnd ∧ localBad tBase (w % 2 ^ 13 * 2 ^ 30) = none) ∧
    (let s : State := { tBase with ident := [(0, ([], []))] }
     s.ident.find 0 = some ([], []) ∧ (List.replicate 32 (0 : Byte)).length = 32) := by decide

/-! ### Slots, stops, waits and faults of further words -/

/-- Two slots that would issue: the one that has issued less recently goes, and the other where its word waits (R109). -/
theorem witness_IssueOrder_slots :
    let g := tSplit tG4
    let h : Group := { g with b := g.b.map (fun b => { b with parked := true }) }
    g.split = true ∧ (tOn g .a).stepper tId = none ∧ (tOn g .a).goes tId g .b = true ∧ h.split = true ∧
      (tOn h .a).goes tId h .b = false ∧ (tOn h .a).goes tId h .a = true := by decide

/-- A group of a frozen tile, and one whose fault the freeze has captured (R200). -/
theorem witness_FaultEnds_frozen :
    (let s : State := (tOn tG .a).setCore 0 { Core.reset with frozen := some (tFrozen .closed) }
     s.group? tId = some tG ∧ s.team? tId.teamKey = some tTeam ∧ (s.core tG.core).frozen ≠ none) ∧
    (let g : Group := { tG with wait := some (.stop none .a tRec 0x1000) }
     (tOn g .a).group? tId = some g ∧ (tOn g .a).team? tId.teamKey = some tTeam) :=
  ⟨⟨rfl, rfl, by decide⟩, rfl, rfl⟩

/-- A word that has issued already, in a group that is to stop; a wait in which a word tries again, and one for an answer. -/
theorem witness_RetireEffect_sent :
    (let g : Group := { tG with skidLeft := some 1, a := { tG.a with sent := true } }
     (tOn g .a).group? tId = some g ∧ (g.slot .a).sent = true) ∧ (tG.slot .a).sent = false ∧
    Wait.retries .aperture = true ∧ Wait.retries .vacq = false := ⟨⟨rfl, rfl⟩, rfl, rfl, rfl⟩

/-- A stream that stands at a `ret` of its scope with no call address. -/
def tStuck : State := { tSt .grid tSeq with mem := tMem ++ [(0x20006, 0x80), (0x20007, 4)] }

theorem witness_ScopeControl_stop :
    upperScope (.ret 4) = some .grid ∧ bLevel 4 = some .grid ∧ tStuck.cur = .seq (tQ .grid) ∧ tStuck.seq? (tQ .grid) = some tSeq ∧
      tSeq.runs (tQ .grid) = true ∧ tStuck.seqHeld (tQ .grid) = false ∧ (ownerStop tSeq (.ret 4)).isSome = true ∧ tSeq.own.stack = [] ∧
      stubAt tStuck 1 0x1004 = none ∧ wordIs (fetchIn tStuck 1 0x1004) 0x04800000 = true ∧ decodeWord 0x04800000 = .ret 4 ∧
      32 ≤ ({ tSeq.own with stack := .replicate 32 0 }).stack.length := by decide

/-- The team's stream at the group's word, with this call stack. -/
def tStack (l : List PC) : Seq := { tSeqT with own := { tSeqT.own with stack := l }, lastEnd := some 0x1004 }

theorem witness_GroupAtUpperWord_stop :
    (∀ l, ({ tOn tGe .a with seqs := [(tQ .team, tStack l)] } : State).group? tId = some tGe) ∧
    (∀ l ∈ [[], List.replicate 32 0x2000],
      let s : State := { tOn tGe .a with seqs := [(tQ .team, tStack l)] }
      (s.nextBaton (streamOf tId tGe) tGe.read).isSome = false ∧
        reach s 0x1004 .team (chainUp (streamOf tId tGe) .team) = .here (tQ .team) (tStack l)) ∧
    upperScope (.call 2 5) = some .team ∧ upperScope (.ret 2) = some .team ∧ upperScope (.kseq 1 4 1 true 0) = some .team ∧
    (scopeTest (.kseq 1 4 1 true 0)).isSome = true := ⟨fun _ => rfl, by decide⟩

/-- In a handler the group posts nothing. -/
theorem witness_GroupAtUpperWord_handler :
    let g : Group := { tGe with hw := [tTrap 0] }
    let s : State := { tEnd with groups := [(tId, g)] }
    s.group? tId = some g ∧ 0 < g.tdepth ∧ g.divDepth ≤ g.batDiv ∧ (s.nextBaton (streamOf tId g) g.read).isSome = false ∧
      reach s 0x1004 .team (chainUp (streamOf tId g) .team) = .here (tQ .team) { tSeqT with lastEnd := some 0x1004 } :=
  ⟨rfl, by decide⟩

/-- A `join` that waits in a group that is to stop. -/
theorem witness_JoinMerges_skid :
    let g : Group := { tSplit tG with skidLeft := some 1 }
    Issues .join (tOn g .a) tId .a g ∧ (g.otherSlot .a).map (·.atJoin) = some false := ⟨issues_of_check (by decide), rfl⟩

/-- A group behind another one of its quadrant that waits for a block, one whose own word waits, and a block into which a
result is on its way. -/
theorem witness_ExtendedRegisters_waits :
    (let s : State := (tOn tGs .a).setCore 0 { Core.reset with vacq := [(0, tId2, .a)] }
     Issues .vacq s tId .a tGs ∧ tGs.quad = 0 ∧ (s.core 0).vacq = [(0, tId2, .a)] ∧ (∀ w ∈ (s.core 0).vacq, w.2 ≠ (tId, .a))) ∧
    (let s : State := (tOn tGs .a).setCore 0 { Core.reset with vacq := [(0, tId, .a)] }
     Issues .vacq s tId .a tGs ∧ (0, tId, .a) ∈ (s.core 0).vacq) ∧
    (let g : Group := { tGs with ext := 1, wb := [⟨[(20, .replicate 64 7)], 0xFFFF, 0, 0, false⟩] }
     Issues .vrel (tOn g .a) tId .a g ∧ 0 < g.ext ∧ g.base + 16 * (g.ext - 1) = 16) :=
  ⟨⟨⟨rfl, rfl, nofun, by decide⟩, rfl, rfl, by decide⟩, ⟨⟨rfl, rfl, nofun, by decide⟩, by decide⟩,
    issues_of_check (by decide), by decide, rfl⟩

/-- Misaligned scratchpad addresses, a debug core at the scratchpad, and the aperture's first and last channel. -/
theorem witness_Addresses_spad :
    failsWith (checkSpad (tOn tG .a) tId 4 0x01F0000000000002) .misaligned = true ∧
    failsWith (checkSpad (tAtt tDebug tD) (debugId 0) 4 0x01F0000000000002) .misaligned = true ∧
    failsWith (checkSpad (tAtt tDebug tD) (debugId 0) 4 0x01F0000000000004) (.viol 4) = true ∧
    ((tOn tG .a).spaceOf tId).isSome = true ∧ ((tAtt tDebug tD).spaceOf (debugId 0)).isSome = true ∧
    placeIs (checkAddr (tAtt tDebug tD) (debugId 0) .write true 8 0x01F0000100000000) (.aperture 0 0) = true ∧
    placeIs (checkAddr (tOn tG .a) tId .write true 8 0x01F000010000FFC0) (.aperture 15 63) = true := by decide

/-- The handle words in a diverged group, at a null handle, and at one whose entry has gone. -/
theorem witness_HandleArrivals_faults :
    (∀ i ∈ [Instr.hnew 1 2 0 0, .hnewT 1 2 0 0, .hjoin 1 2, .hjoinH 1 2, .hleave 1, .hred 0 1 4 0 0],
      groupCheck (tOn (tSplit tG) .a) tId .a (tSplit tG) i = none) ∧ (tSplit tG).diverged = true ∧
    (∀ i ∈ [Instr.hleave 1, .hred 0 1 4 0 0], groupCheck (tOn tG .a) tId .a tG i = none) ∧ tG.readH 1 = 0 ∧
    (∀ i ∈ [Instr.hbar 0, .hvote 0 0 4, .hwait 0 2, .harv 0 4, .hinfo 0 4 0, .hleave 0, .hred 0 0 4 0 0],
      groupCheck (tOn tGn .a) tId .a tGn i = none) ∧ tGn.readH 0 ≠ 0 ∧ (tOn tGn .a).handleOk (tGn.readH 0) = false := by decide

set_option maxRecDepth 4000 in
/-- A group that ends while the latch holds a word that names it (R117). -/
theorem witness_DepthSteps_ended :
    let l : Latched := ⟨tId2, .a, 2, 0, 0, 0, 0, 3⟩
    let s : State := { tMat tGx (tSlot 0) .idle with groups := [(tId, tGx), (tId2, tG)], cores := [(0, { Core.reset with latch := [l] })] }
    s.group? tId = some tGx ∧ (s.core (s.homeCore tId tGx)).latch = [l] ∧
      (l.group.teamKey == tId.teamKey && l.group != tId && l.memb.getLsbD tId.grp) = true := ⟨rfl, by decide⟩

/-! ### What acquires and releases order (R172) -/

/-- A write of the group to the word at 0x1000 which is known to its core events and atomics: what acquires take (R172). -/
def tAcq : State := { tOn tG .a with ledger := tLedger [(.path tId .a 0, 3), (.path tId .a 4, 3)] }

theorem newest_acq (n : Nat) (h : 0 < n) : tAcq.Newest (tOld [(.path tId .a 0, 3), (.path tId .a 4, 3)]) (.phys 0x20000) n :=
  ⟨⟨0, h, by decide⟩, [], [], rfl, nofun, nofun⟩

theorem known_acq (cls : Nat) (h : cls = 0 ∨ cls = 4) : ∀ k < 8, (tOld [(.path tId .a 0, 3), (.path tId .a 4, 3)]).knownTo
    (tAcq.eventOf tId .a cls) ((Place.phys 0x20000).add k) 1 = true := by
  rcases h with rfl | rfl <;> decide

theorem settled_acq (cls : Nat) (h : cls = 0 ∨ cls = 4) (n : Nat) (hn : n ≤ 8) : tAcq.Settled tId .a cls (.phys 0x20000) n :=
  fun r hr _ k hk _ => by rw [List.mem_singleton.mp hr]; exact known_acq cls h k (by omega)

theorem witness_VectorLoads_acquire :
    Issues (.ldAcqV 4 1 63 1 0) tAcq tId .a tG ∧ tG.Writable [4] ∧
      (∃ ps, (MemWord.mk 4 1 63 4 0 false).places tAcq tId .a tG .read = .ok ps ∧ (0, .phys 0x20000) ∈ ps) ∧
      tAcq.Settled tId .a 0 (.phys 0x20000) 4 ∧ tAcq.Newest (tOld [(.path tId .a 0, 3), (.path tId .a 4, 3)]) (.phys 0x20000) 4 :=
  ⟨⟨rfl, rfl, nofun, by decide⟩, writable_of (by decide), ⟨_, rfl, by decide⟩, settled_acq 0 (.inl rfl) 4 (by decide),
    newest_acq 4 (by decide)⟩

/-- A release store, and stores behind the group's earlier writes. -/
theorem witness_VectorStores_release :
    Issues (.stRelV 4 1 63 1 0) tAcq tId .a tG ∧ tG.Ready [4] ∧
      (∃ ps, (MemWord.mk 4 1 63 4 0 false).places tAcq tId .a tG .write = .ok ps ∧ ∀ e ∈ ps, e.2 = .phys 0x20000) ∧
      tAcq.Settled tId .a 0 (.phys 0x20000) 4 :=
  ⟨⟨rfl, rfl, nofun, by decide⟩, ready_of (by decide), ⟨_, rfl, by decide⟩, settled_acq 0 (.inl rfl) 4 (by decide)⟩

theorem witness_ScalarMemory_orders :
    Issues (.ldAcqS 4 1 1 0) tAcq tId .a tG ∧ Issues (.stRelS 4 1 1 0) tAcq tId .a tG ∧
      placeIs (checkAddr tAcq tId .read false 8 (laneAddr tG .a 1 63 8 0 0)) (.phys 0x20000) = true ∧
      tAcq.Settled tId .a 0 (.phys 0x20000) 8 ∧ tAcq.Newest (tOld [(.path tId .a 0, 3), (.path tId .a 4, 3)]) (.phys 0x20000) 8 :=
  ⟨⟨rfl, rfl, nofun, by decide⟩, ⟨rfl, rfl, nofun, by decide⟩, by decide, settled_acq 0 (.inl rfl) 8 (by decide),
    newest_acq 8 (by decide)⟩

/-- An atomic that acquires and releases, whose lanes name different words: the write of the first meets no other one. -/
theorem witness_Atomics_orders :
    let i : Instr := .aadd 4 1 0 3 1 false
    Issues i tAcq tId .a tG ∧ orderForm i = some (3, 1) ∧ (3 : BitVec 2).getLsbD 0 = true ∧ (3 : BitVec 2).getLsbD 1 = true ∧
      tAcq.Newest (tOld [(.path tId .a 0, 3), (.path tId .a 4, 3)]) (.phys 0x20000) 4 ∧
      (∃ ps, (MemWord.mk 4 1 0 4 0 false).places tAcq tId .a tG .write = .ok ps ∧ (0, .phys 0x20000) ∈ ps ∧
        ∀ e ∈ ps, e.2 ≠ .phys 0x20000 → (tOld [(.path tId .a 0, 3), (.path tId .a 4, 3)]).meets e.2 4 = false) :=
  ⟨⟨rfl, rfl, nofun, by decide⟩, rfl, by decide, by decide, newest_acq 4 (by decide), ⟨_, rfl, by decide, by decide⟩⟩

/-- A counter that has reached its target, and whose newest write the group's atomics have seen. -/
theorem witness_FencesCounters_acquire :
    Issues (.cwait 2 1 2) tAcq tId .a tG ∧ tAcq.Settled tId .a 4 (.phys 0x20000) 8 ∧
      tAcq.Newest (tOld [(.path tId .a 0, 3), (.path tId .a 4, 3)]) (.phys 0x20000) 8 ∧ (tG.readS .a 2).toNat = 3 :=
  ⟨⟨rfl, rfl, nofun, by decide⟩, settled_acq 4 (.inr rfl) 8 (by decide), newest_acq 8 (by decide), by decide⟩

/-! ### A joint word, a long chain, an empty baton, images -/

/-- The word of the second member of a squad of two, with its coordinates' first word. -/
def tLatched (cs : Word) : Latched := ⟨tId2, .a, 3, 0, 0, cs, tGx.readS .a 5, 3⟩

def tGq : Group := { tGx with squad := 3 }

/-- The second member waits in the latch; its tile 3 holds floats. -/
def tSquad (l : Latched) : State :=
  { tMat tGq (tSlot 0) (.granted false) with
    groups := [(tId, tGq), (tId2, tGq)]
    teams := [((1, 0, 0), { tTeam with slotT := [((0, 0), tSlot 0)], tileT := [((0, 2), tAcc), ((0, 3), tAcc)] })]
    cores := [(0, { Core.reset with leave := .granted false, latch := [l] })] }

set_option maxRecDepth 4000 in
/-- A squad of two that fires, and one whose members do not agree (R356). -/
theorem witness_DepthSteps_fire :
    let me : Latched := ⟨tId, .a, 2, 0, 0, tGq.readS .a 4, tGq.readS .a 5, 3⟩
    let s := tSquad (tLatched 0)
    let fired : State := ((s.viewFor tId .a 2).2.setGroup tId (tGq.waitIn .a .latch)).modCore 0 (fun k => { k with latch := [] })
    let seen := (fired.viewBy (fired.jointEvent [me, tLatched 0])).1.mem
    let w := Coords.of me.cs me.ct
    groupCheck s tId .a tGq (.mmaJ 2 0 0 4) = none ∧ squadOk s tId tGq = true ∧ ((s.core 0).mayStep s.timer) = true ∧
      reads s tGq 2 0 0 4 = true ∧ readySquad ([tLatched 0] ++ [me]) tId.teamKey = some [me, tLatched 0] ∧
      me.agrees (tLatched 0) 0 0 = true ∧ readySquad ([tLatched 1] ++ [me]) tId.teamKey = some [me, tLatched 1] ∧
      me.agrees (tLatched 1) 0 0 = false ∧ (fired.group? tId2).isSome = true ∧
      ((List.range 16).all (fun n => okM (fetchElems seen tId (tSlot 0) true (w.aElems n)))) = true ∧
      okM (fetchB seen tId (tSlot 0) w) = true ∧ okM (fetchB seen tId2 (tSlot 0) w) = true ∧ tAcc.accepts (tSlot 0).floating = true := by
  decide

/-- With no write in the ledger every byte is settled. -/
theorem witness_settled (g : Group) (sl : SlotId) (z : TSlot) (l : Leave) (p : Place) (n : Nat) :
    (tMat g z l).Settled tId sl 2 p n ∧ tTracing.Settled tId sl 0 p n ∧ 0x21C00 / 64 ≠ 0x21C40 / 64 :=
  ⟨fun r hr => (nomatch hr), fun r hr => (nomatch hr), by decide⟩

/-- A stream at a word of its own that it cannot execute, to which it brings its members once. -/
theorem witness_CoreEvents_empty :
    (({ tSt .grid tSeq with mem := tMem ++ [(0x20006, 0x80), (0x20007, 4)] } : State)).seq? (tQ .grid) = some tSeq ∧ tSeq.queue.length < 8 ∧ wordScope 0x04800000#32 = some .grid ∧
      tSeq.lastEnd ≠ some tSeq.own.pc := by decide

/-- A complete image on a stack that answers, that is not ready, and that has failed; parked entries likewise (R16). -/
theorem witness_ServiceTiles_stacks :
    let f (st : FreezeStage) : Frozen := tFrozen st
    let s (st : FreezeStage) : State := { tIce st with contexts := [(1, { tCtx with save := some 0x800000 })] }
    (s .closed).imageBad (f .closed) = none ∧ localBad (s .closed) (0x800000 + 2201728 * 0 + 2201727) = none ∧
      ({ s .closed with devrdy := 0 } : State).imageBad (f .closed) = some (.hold (.stack 0)) ∧
      ({ s .closed with devfail := 0x20 } : State).imageBad (f .closed) = some (.viol 8) ∧
    (let t : State := { tBase with
       contexts := [(0, { tCtx with stage := .soft, save := some 0x800000 })]
       teams := [], dies := [(3, { Die.reset with entries := [(1, { tEntry with ctx := 0 })] })] }
     t.teamsOfCtx 0 = [] ∧ t.copiesOf 0 = [] ∧ t.parkedBad 0 (t.toPark 0) = none ∧
       ({ t with devrdy := 0 } : State).parkedBad 0 (t.toPark 0) = some (.hold (.stack 0)) ∧
       ({ t with devfail := 0x20 } : State).parkedBad 0 (t.toPark 0) = some (.viol 8)) := by decide

theorem witness_ServiceTiles_noStops :
    (tIce .complete).NoStops ∧ (∀ v, (tIce .complete).imageBad { tFrozen .complete with vcore := v } = none) ∧
      ∀ e ∈ (tIce .complete).teams, e.2.core = 0 → e.2.ctx = (tFrozen .complete).ctx := by
  refine ⟨?_, fun _ => rfl, ?_⟩
  · intro e he
    obtain rfl : e = (tId, tG) := List.mem_singleton.mp he
    nofun
  · intro e he _
    obtain rfl : e = ((1, 0, 0), tTeam) := List.mem_singleton.mp he
    rfl

/-- The first two MiB of addresses are zeros of one page, at whose word 0x1004 a team's stream stands. -/
def tLong : State :=
  { tSt .team tSeqT with
    mem := tMem.filter (fun c => c.1 < 0x13000) ++ [(0x13000, 0x5F), (0x13002, 0x40)] }

/-- An entry 0 that points to a table. -/
theorem walk_down {va fuel table next : Nat} (h : va < 2 ^ 21) (hf : 1 < fuel) (hl : localBad tLong table = none)
    (he : BitVec.ofNat 64 (leNat (memRead tLong.mem table 8)) = BitVec.ofNat 64 (4096 * next + 1)) (hn : next < 2 ^ 20) :
    walk tLong va (fuel + 1) table = walk tLong va fuel (4096 * next) := by
  have hi : va / 2 ^ levelShift (5 - fuel) % 512 = 0 := by
    rw [Nat.div_eq_of_lt (Nat.lt_of_lt_of_le h (Nat.pow_le_pow_right (by decide) (by unfold levelShift; omega)))]
  have hb : ∀ (n : Nat), n < 2 ^ 20 → (BitVec.ofNat 64 (4096 * n + 1)).getLsbD 0 = true ∧
      (BitVec.ofNat 64 (4096 * n + 1)).extractLsb' 8 4 = 0#4 ∧ (BitVec.ofNat 64 (4096 * n + 1)).getLsbD 1 = false ∧
      ((BitVec.ofNat 64 (4096 * n + 1)).extractLsb' 4 4).toNat = 0 ∧ ((BitVec.ofNat 64 (4096 * n + 1)).extractLsb' 43 21).toNat = 0 ∧
      ((BitVec.ofNat 64 (4096 * n + 1)).extractLsb' 12 31).toNat = n := by
    intro n hn
    refine ⟨?_, ?_, ?_, ?_, ?_, ?_⟩
    · rw [BitVec.getLsbD_ofNat]; simp [Nat.testBit_zero]; omega
    · apply BitVec.eq_of_toNat_eq; simp [BitVec.extractLsb'_toNat, Nat.shiftRight_eq_div_pow]; omega
    · rw [BitVec.getLsbD_ofNat]; simp [Nat.testBit_succ]; omega
    · simp [BitVec.extractLsb'_toNat, Nat.shiftRight_eq_div_pow]; omega
    · simp [BitVec.extractLsb'_toNat, Nat.shiftRight_eq_div_pow]; omega
    · simp [BitVec.extractLsb'_toNat, Nat.shiftRight_eq_div_pow]; omega
  obtain ⟨b0, b8, b1, b4, b43, b12⟩ := hb next hn
  have hv : ¬ 5 - fuel = 5 := by omega
  simp only [walk, hi, Nat.mul_zero, Nat.add_zero, hl, he, b0, b8, b1, b4, b43, b12, hv]
  simp [Nat.mul_comm]

theorem walk_long {va : Nat} (h : va < 2 ^ 21) : walk tLong va 5 0x10000 = .ok ⟨0x400000 + va, true, true⟩ := by
  have h5 : va % pageSize 5 = va := Nat.mod_eq_of_lt (Nat.lt_of_lt_of_le h (by decide))
  have hi : va / 2 ^ levelShift 4 % 512 = 0 := by show va / 2 ^ 21 % 512 = 0; rw [Nat.div_eq_of_lt h]
  rw [walk_down (next := 0x11) h (by decide) (by decide) (by decide) (by decide),
    walk_down (next := 0x12) h (by decide) (by decide) (by decide) (by decide),
    walk_down (next := 0x13) h (by decide) (by decide) (by decide) (by decide)]
  have he : BitVec.ofNat 64 (leNat (memRead tLong.mem (4096 * 0x13) 8)) = 0x40005F#64 := by decide
  have hl : localBad tLong (4096 * 0x13) = none := by decide
  simp only [walk, hi, Nat.mul_zero, Nat.add_zero, hl, he]
  simp [h5, show sizeAllowed 4 5 = true by decide, show 4194304 % pageSize 5 = 0 by decide]

theorem fetch_long {k : Nat} (h : k ≤ 4096) : fetchIn tLong 1 (0x1004 + BitVec.ofNat 57 (4 * k)) = .ok 0 := by
  have hp : ((0x1004 : PC) + BitVec.ofNat 57 (4 * k)).toNat = 0x1004 + 4 * k := by
    rw [BitVec.toNat_add, BitVec.toNat_ofNat]; simp; omega
  have hw := walk_long (va := 0x1004 + 4 * k) (by omega)
  have hm : ∀ a, 0x400000 ≤ a → memGet tLong.mem a = 0 := fun a ha => memGet_above (fun e he => by
    have : tLong.mem.all (fun e => decide (e.1 < 0x400000)) = true := by decide
    have := List.all_eq_true.mp this e he
    simp at this; omega)
  have hd : (0x400000 + (0x1004 + 4 * k)) / 2 ^ 43 = 0 := Nat.div_eq_of_lt (by omega)
  have hr : (0x400000 + (0x1004 + 4 * k)) % 2 ^ 43 = 0x400000 + (0x1004 + 4 * k) := Nat.mod_eq_of_lt (by omega)
  have hs : stackOf (0x400000 + (0x1004 + 4 * k)) = 0 := by unfold stackOf; omega
  have hb : physBad tLong (0x400000 + (0x1004 + 4 * k)) = none := by
    unfold physBad
    rw [hd, hr, if_pos (show 0 = tLong.ownDev from rfl)]
    unfold localBad
    rw [hs, if_neg (by unfold hbmEnd; omega)]
    rfl
  have ht : translate tLong tCtx (0x1004 + 4 * k) needFetch = .ok (0x400000 + (0x1004 + 4 * k)) := by
    simp only [Sys2Proof.Machine.translate, show tCtx.root.toNat = 0x10000 from rfl, hw, needFetch, if_true, hb]
  have hq : physRead tLong (0x400000 + (0x1004 + 4 * k)) 4 = [0, 0, 0, 0] := by
    unfold physRead
    rw [hd, hr, if_pos (show 0 = tLong.ownDev from rfl)]
    simp only [memRead]
    rw [hm _ (by omega), hm _ (by omega), hm _ (by omega), hm _ (by omega)]
  have hc : tLong.ctx? 1 = some tCtx := rfl
  have hx : (decide (windowBase ≤ 0x1004 + 4 * k) && decide (0x1004 + 4 * k < reservedEnd)) = false := by
    rw [decide_eq_false (by unfold windowBase; omega), Bool.false_and]
  simp only [fetchIn, hp, hx, hc, ht, hq]
  rfl

/-- The words at 0x1004 and the 4096 that follow are scalar words, of no scope (R102). -/
theorem witness_CoreEvents_chain :
    tLong.seq? (tQ .team) = some tSeqT ∧ tSeqT.runs (tQ .team) = true ∧ tLong.seqHeld (tQ .team) = false ∧ tSeqT.queue.length < 8 ∧
      stubAt tLong 1 0x1004 = none ∧ wordScope 0#32 = none ∧
      ∀ k ≤ 4096, fetchIn tLong 1 (0x1004 + BitVec.ofNat 57 (4 * k)) = .ok 0 :=
  ⟨by decide, by decide, by decide, by decide, by decide, by decide, fun _ => fetch_long⟩

/-- An image whose context saves at 0x800000, with a memory. -/
def tSaved (m : Mem) : State :=
  { (tOn tG .a).setCore 0 { Core.reset with frozen := some { tFrozen .complete with portable := true } } with
    contexts := [(1, { tCtx with save := some 0x800000 })], mem := m }

/-- Of two images that differ in one byte of the digest, one at least has a digest that does not match (R205). -/
theorem witness_ServiceTiles_digest :
    let f : Frozen := { tFrozen .complete with portable := true }
    ∃ m : Mem, (tSaved m).restorable 0 0 = true ∧ (tSaved m).imageBad f = none ∧ (tSaved m).imageOk f = false := by
  intro f
  cases h : (tSaved []).imageOk f with
  | false => exact ⟨[], by decide, by decide, h⟩
  | true =>
    refine ⟨[(0x800000 + 64, 1)], by decide, by decide, ?_⟩
    have hb : ∀ m, (tSaved m).imageBase f = some 0x800000 := fun _ => rfl
    have hg : ∀ i, i ≠ 64 → memGet [(0x800000 + 64, (1 : Byte))] (0x800000 + i) = memGet [] (0x800000 + i) := fun i hi => by
      rw [memGet_cons, if_neg (by omega)]
    have h1 : (memRead [(0x800000 + 64, (1 : Byte))] 0x800000 imageSize).take 64 = (memRead [] 0x800000 imageSize).take 64 := by
      apply List.ext_getElem?
      intro i
      rw [List.getElem?_take, List.getElem?_take]
      split
      · rw [memRead_get, memRead_get, hg i (by omega)]
      · rfl
    have h2 : (memRead [(0x800000 + 64, (1 : Byte))] 0x800000 imageSize).drop 128 = (memRead [] 0x800000 imageSize).drop 128 := by
      apply List.ext_getElem?
      intro i
      rw [List.getElem?_drop, List.getElem?_drop, memRead_get, memRead_get, hg _ (by omega)]
    have h3 : ∀ m, (((memRead m 0x800000 imageSize).drop 64).take 32)[0]? = some (memGet m (0x800000 + 64)) := fun m => by
      rw [List.getElem?_take, if_pos (by decide), List.getElem?_drop, memRead_get, if_pos (by decide)]
    simp only [State.imageOk, hb] at h ⊢
    have h := eq_of_beq h
    apply beq_eq_false_iff_ne.mpr
    intro e
    rw [show (tSaved [(0x800000 + 64, (1 : Byte))]).mem = [(0x800000 + 64, (1 : Byte))] from rfl, h1, h2] at e
    rw [show (tSaved []).mem = [] from rfl] at h
    have := (h3 _).symm.trans ((congrArg (·[0]?) (e.trans h.symm)).trans (h3 _))
    exact absurd (Option.some.inj this) (by decide)

/-! ### Words from the encodings of the specification (R244, R265) -/

/-- The formats of R244, each from its fields' places. -/
def wT (op d a b ta tb hold sub : Nat) : BitVec 32 :=
  BitVec.ofNat 32 (op * 2 ^ 24 + d * 2 ^ 18 + a * 2 ^ 12 + b * 2 ^ 6 + ta * 2 ^ 5 + tb * 2 ^ 4 + hold * 2 ^ 2 + sub)
def wU (op d imm : Nat) : BitVec 32 := BitVec.ofNat 32 (op * 2 ^ 24 + d * 2 ^ 18 + imm)
def wK (op s d a f b : Nat) : BitVec 32 := BitVec.ofNat 32 (op * 2 ^ 24 + s * 2 ^ 22 + d * 2 ^ 18 + a * 2 ^ 14 + f * 2 ^ 13 + b)
def wM (op t b i m : Nat) : BitVec 32 := BitVec.ofNat 32 (op * 2 ^ 24 + t * 2 ^ 18 + b * 2 ^ 13 + i * 2 ^ 7 + m)

/-- The examples of 14_formats_syntax and 15_opcode_map. -/
theorem test_words_formats :
    decodeWord 0x400C_10AC#32 = .fadd 3 1 2 true false 3 ∧ decodeWord 0x3114_47F4#32 = .addi 5 4 false 0x7F4 ∧
    decodeWord 0x281B_FFFD#32 = .li 6 0x3FFFD ∧ decodeWord 0xE094_0000#32 = .mode true false 2 8 0 false ∧
    decodeWord 0xE001_1800#32 = .mode false false 0 2 1 true ∧ decodeWord 0x0162_0010#32 = .br 3 false 2 0x10 ∧
    decodeWord 0x0642_FFFA#32 = .loop 2 2 0xFFFA ∧ decodeWord 0x108C_6005#32 = .kadd 2 3 1 true 5 ∧
    decodeWord 0x711C_8120#32 = .ldH 7 4 2 32 ∧ decodeWord 0xC014_4340#32 = .mma 5 2 3 8 ∧
    decodeWord 0xB460_0000#32 = .hbar 3 ∧ decodeWord 0x0182_0010#32 = .br 4 false 2 0x10 ∧
    decodeWord 0x018A_0010#32 = .br 4 false 10 0x10 := by
  decide

/-- The examples of 16_isa_control, and the W words of that chapter. -/
theorem test_words_control :
    decodeWord 0x0149_0004#32 = .br 2 false 9 4 ∧ decodeWord 0x0112_0002#32 = .br 0 true 2 2 ∧
    decodeWord 0x018F_000E#32 = .br 4 false 15 14 ∧ decodeWord 0x0360_003D#32 = .call 3 61 ∧
    decodeWord 0x0460_0000#32 = .ret 3 ∧ decodeWord 0x0420_0000#32 = .ret 1 ∧
    decodeWord 0x0625_FFF4#32 = .loop 1 5 0xFFF4 ∧ decodeWord 0x0508_0000#32 = .elect 2 ∧
    decodeWord 0x0700_0041#32 = .trap 0x41 ∧ decodeWord 0xE224_03F0#32 = .spawn 9 0x3F0 ∧
    decodeWord 0xE300_8000#32 = .cpost 8 ∧ decodeWord 0xE430_0000#32 = .ctake 12 ∧
    decodeWord 0x0200_0000#32 = .join ∧ decodeWord 0x0800_0000#32 = .brk ∧ decodeWord 0x0900_0000#32 = .tret ∧
    decodeWord 0x0A00_0000#32 = .nop := by
  decide

/-- Each scalar and scope word. -/
theorem test_words_scalar :
    decodeWord (wT 0x20 9 10 43 0 0 0 0) = .sadd 9 10 43 ∧ decodeWord (wT 0x20 9 10 43 0 0 0 1) = .ssub 9 10 43 ∧
    decodeWord (wT 0x20 9 10 43 0 0 0 2) = .smul 9 10 43 ∧ decodeWord (wT 0x21 9 10 43 0 0 0 0) = .sand 9 10 43 ∧
    decodeWord (wT 0x21 9 10 43 0 0 0 1) = .sor 9 10 43 ∧ decodeWord (wT 0x21 9 10 43 0 0 0 2) = .sxor 9 10 43 ∧
    decodeWord (wT 0x21 9 10 43 0 0 0 3) = .sandn 9 10 43 ∧ decodeWord (wT 0x22 9 10 43 0 0 0 0) = .sshl 9 10 43 ∧
    decodeWord (wT 0x22 9 10 43 0 0 0 1) = .sshr 9 10 43 ∧ decodeWord (wT 0x22 9 10 43 0 0 0 2) = .ssar 9 10 43 ∧
    decodeWord (wT 0x22 9 10 43 0 0 0 3) = .srol 9 10 43 ∧ decodeWord (wT 0x24 9 10 43 0 0 0 0) = .sdiv 9 10 43 ∧
    decodeWord (wT 0x24 9 10 43 0 0 0 1) = .sdivu 9 10 43 ∧ decodeWord (wT 0x24 9 10 43 0 0 0 2) = .srem 9 10 43 ∧
    decodeWord (wT 0x24 9 10 43 0 0 0 3) = .sremu 9 10 43 ∧ decodeWord (wT 0x23 3 10 43 0 0 0 0) = .sseq 3 10 43 ∧
    decodeWord (wT 0x23 3 10 43 0 0 0 1) = .sslt 3 10 43 ∧ decodeWord (wT 0x23 3 10 43 0 0 0 2) = .ssltu 3 10 43 ∧
    decodeWord (wT 0x23 3 10 43 0 0 0 3) = .ssle 3 10 43 ∧ decodeWord (wU 0x28 6 0x3FFFD) = .li 6 0x3FFFD ∧
    decodeWord (wU 0x26 2 0x30000) = .lcat 2 0x30000 ∧ decodeWord (wU 0x29 5 0x10) = .getc 5 0x10 ∧
    decodeWord 0x2A18_0020#32 = .setc 6 0x20 := by
  decide

theorem test_words_scope :
    decodeWord (wK 0x10 2 3 1 1 5) = .kadd 2 3 1 true 5 ∧ decodeWord (wK 0x11 2 3 1 1 5) = .ksub 2 3 1 true 5 ∧
    decodeWord (wK 0x12 2 3 1 1 5) = .kmul 2 3 1 true 5 ∧ decodeWord (wK 0x13 2 3 1 1 5) = .kand 2 3 1 true 5 ∧
    decodeWord (wK 0x14 2 3 1 1 5) = .kor 2 3 1 true 5 ∧ decodeWord (wK 0x15 2 3 1 1 5) = .kxor 2 3 1 true 5 ∧
    decodeWord (wK 0x16 2 3 1 1 5) = .kshl 2 3 1 true 5 ∧ decodeWord (wK 0x17 2 3 1 1 5) = .kshr 2 3 1 true 5 ∧
    decodeWord (wK 0x18 3 2 0 1 100) = .kmov 3 2 true 100 ∧
    decodeWord (wK 0x19 1 2 3 0 14) = .kseq 1 2 3 false 14 ∧
    decodeWord (wK 0x1A 1 2 3 0 14) = .kslt 1 2 3 false 14 ∧
    decodeWord (wK 0x1B 1 2 3 0 14) = .ksltu 1 2 3 false 14 ∧
    decodeWord (wT 0x1C 4 7 (2 * 8 + 4) 1 0 1 0) = .wred 4 7 2 4 true 1 ∧
    decodeWord (wT 0x1D 4 7 (2 * 8 + 4) 1 0 1 0) = .gred 4 7 2 4 true 1 ∧
    decodeWord (wT 0x1E 4 7 (2 * 8 + 4) 1 0 1 0) = .dred 4 7 2 4 true 1 := by
  decide

/-- Each vector word of two sources. -/
theorem test_words_vector :
    decodeWord (wT 0x30 5 33 2 1 0 3 0) = .add 5 33 2 true false 3 ∧
    decodeWord (wT 0x30 5 33 2 1 0 3 1) = .sub 5 33 2 true false 3 ∧
    decodeWord (wT 0x30 5 33 2 1 0 3 2) = .mul 5 33 2 true false 3 ∧
    decodeWord (wT 0x30 5 33 2 1 0 3 3) = .mulh 5 33 2 true false 3 ∧
    decodeWord (wT 0x32 5 33 2 1 0 3 0) = .and 5 33 2 true false 3 ∧
    decodeWord (wT 0x32 5 33 2 1 0 3 1) = .or 5 33 2 true false 3 ∧
    decodeWord (wT 0x32 5 33 2 1 0 3 2) = .xor 5 33 2 true false 3 ∧
    decodeWord (wT 0x32 5 33 2 1 0 3 3) = .andn 5 33 2 true false 3 ∧
    decodeWord (wT 0x33 5 33 2 1 0 3 0) = .shl 5 33 2 true false 3 ∧
    decodeWord (wT 0x33 5 33 2 1 0 3 1) = .shr 5 33 2 true false 3 ∧
    decodeWord (wT 0x33 5 33 2 1 0 3 2) = .sar 5 33 2 true false 3 ∧
    decodeWord (wT 0x33 5 33 2 1 0 3 3) = .rol 5 33 2 true false 3 ∧
    decodeWord (wT 0x34 5 33 2 1 0 3 0) = .imin 5 33 2 true false 3 ∧
    decodeWord (wT 0x34 5 33 2 1 0 3 1) = .imax 5 33 2 true false 3 ∧
    decodeWord (wT 0x34 5 33 2 1 0 3 2) = .iabsd 5 33 2 true false 3 ∧
    decodeWord (wT 0x35 5 33 2 1 0 3 0) = .imad 5 33 2 true false 3 ∧
    decodeWord (wT 0x36 5 33 2 1 0 3 0) = .idiv 5 33 2 true false 3 ∧
    decodeWord (wT 0x36 5 33 2 1 0 3 1) = .irem 5 33 2 true false 3 ∧
    decodeWord (wT 0x40 5 33 2 1 0 3 0) = .fadd 5 33 2 true false 3 ∧
    decodeWord (wT 0x40 5 33 2 1 0 3 1) = .fsub 5 33 2 true false 3 ∧
    decodeWord (wT 0x40 5 33 2 1 0 3 2) = .fmul 5 33 2 true false 3 ∧
    decodeWord (wT 0x41 5 33 2 1 0 3 0) = .ffma 5 33 2 true false 3 ∧
    decodeWord (wT 0x41 5 33 2 1 0 3 1) = .ffms 5 33 2 true false 3 ∧
    decodeWord (wT 0x41 5 33 2 1 0 3 2) = .fnma 5 33 2 true false 3 ∧
    decodeWord (wT 0x42 5 33 2 1 0 3 0) = .fmin 5 33 2 true false 3 ∧
    decodeWord (wT 0x42 5 33 2 1 0 3 1) = .fmax 5 33 2 true false 3 ∧
    decodeWord (wT 0x43 5 33 2 1 0 3 0) = .fdiv 5 33 2 true false 3 ∧
    decodeWord (wT 0x60 5 33 2 1 0 3 0) = .ceq 5 33 2 true false 3 ∧
    decodeWord (wT 0x60 5 33 2 1 0 3 1) = .clt 5 33 2 true false 3 ∧
    decodeWord (wT 0x60 5 33 2 1 0 3 2) = .cle 5 33 2 true false 3 ∧
    decodeWord (wT 0x60 5 33 2 1 0 3 3) = .cne 5 33 2 true false 3 ∧
    decodeWord (wT 0x63 5 33 2 0 1 2 0) = .shfl 5 33 2 false true 2 := by
  decide

/-- Each vector word of one source, and those with a scalar or a predicate. -/
theorem test_words_vector_one :
    decodeWord (wT 0x37 5 33 0 1 0 1 0) = .popc 5 33 true 1 ∧
    decodeWord (wT 0x37 5 33 0 1 0 1 1) = .clz 5 33 true 1 ∧
    decodeWord (wT 0x37 5 33 0 1 0 1 2) = .brev 5 33 true 1 ∧
    decodeWord (wT 0x42 5 33 0 1 0 1 2) = .fabs 5 33 true 1 ∧
    decodeWord (wT 0x42 5 33 0 1 0 1 3) = .fneg 5 33 true 1 ∧
    decodeWord (wT 0x43 5 33 0 1 0 1 1) = .fsqrt 5 33 true 1 ∧
    decodeWord (wT 0x44 5 33 0 1 0 1 0) = .frcp 5 33 true 1 ∧
    decodeWord (wT 0x44 5 33 0 1 0 1 1) = .frsq 5 33 true 1 ∧
    decodeWord (wT 0x44 5 33 0 1 0 1 2) = .fexp2 5 33 true 1 ∧
    decodeWord (wT 0x44 5 33 0 1 0 1 3) = .flog2 5 33 true 1 ∧
    decodeWord (wT 0x45 5 33 0 1 0 1 0) = .fsin 5 33 true 1 ∧
    decodeWord (wT 0x45 5 33 0 1 0 1 1) = .fcos 5 33 true 1 ∧
    decodeWord (wT 0x52 5 33 0 1 0 1 0) = .mov 5 33 true 1 ∧
    decodeWord (wT 0x51 5 33 17 1 0 1 0) = .npack 5 33 17 true 1 ∧
    decodeWord (wT 0x51 5 33 17 1 0 1 1) = .nunpk 5 33 17 true 1 ∧ decodeWord 0x5014_4240#32 = .cvt 5 4 9 false 0 ∧
    decodeWord 0x5004_0340#32 = .cvt 1 0 13 false 0 ∧ decodeWord (wT 0x61 2 0 1 0 0 0 0) = .pand 2 0 1 ∧
    decodeWord (wT 0x61 2 0 1 0 0 0 1) = .por 2 0 1 ∧ decodeWord (wT 0x61 2 0 1 0 0 0 2) = .pxor 2 0 1 ∧
    decodeWord (wT 0x61 2 0 1 0 0 0 3) = .pandn 2 0 1 ∧ decodeWord (wT 0x62 2 4 0 0 0 0 0) = .pset 2 4 ∧
    decodeWord (wT 0x62 2 4 0 0 0 0 1) = .pget 2 4 ∧ decodeWord 0x6210_1002#32 = .pcnt 4 1 ∧
    decodeWord 0x630C_10C1#32 = .shxor 3 1 3 false 0 ∧ decodeWord (wT 0x63 3 1 3 0 0 0 2) = .bcast 3 1 3 false 0 ∧
    decodeWord 0x641C_3080#32 = .vrd 7 3 2 false 0 ∧ decodeWord (wT 0x64 7 3 2 0 0 0 1) = .vwr 7 3 2 ∧
    decodeWord 0x3808_FE00#32 = .vli 2 0xFE00 ∧ decodeWord 0x3A0C_3004#32 = .shli 3 3 false 4 ∧
    decodeWord (BitVec.ofNat 32 (0x39 * 2 ^ 24 + 5 * 2 ^ 18 + 4 * 2 ^ 12 + 2 ^ 11 + 0x7F4)) = .andi 5 4 true 0x7F4 ∧
    decodeWord 0x6500_0000#32 = .vacq ∧ decodeWord 0x6600_0000#32 = .vrel ∧
    decodeWord 0x4120_1088#32 = .ffma 8 1 2 false false 2 ∧ decodeWord 0x3018_1083#32 = .mulh 6 1 2 false false 0 := by
  decide

/-- Each load and store, and the examples of 19_isa_memory. -/
theorem test_words_memory :
    decodeWord (wM 0x70 8 4 2 32) = .ldB 8 4 2 32 ∧ decodeWord (wM 0x71 8 4 2 32) = .ldH 8 4 2 32 ∧
    decodeWord (wM 0x72 8 4 2 32) = .ldWV 8 4 2 32 ∧ decodeWord (wM 0x73 8 4 2 32) = .ldDV 8 4 2 32 ∧
    decodeWord (wM 0x74 8 4 2 32) = .ldQ 8 4 2 32 ∧ decodeWord (wM 0x80 8 4 2 32) = .stB 8 4 2 32 ∧
    decodeWord (wM 0x81 8 4 2 32) = .stH 8 4 2 32 ∧ decodeWord (wM 0x82 8 4 2 32) = .stWV 8 4 2 32 ∧
    decodeWord (wM 0x83 8 4 2 32) = .stDV 8 4 2 32 ∧ decodeWord (wM 0x84 8 4 2 32) = .stQ 8 4 2 32 ∧
    decodeWord (wM 0xA0 8 4 2 32) = .ldsW 8 4 2 32 ∧ decodeWord (wM 0xA1 8 4 2 32) = .ldsQ 8 4 2 32 ∧
    decodeWord (wM 0xA2 8 4 2 32) = .stsW 8 4 2 32 ∧ decodeWord (wM 0xA3 8 4 2 32) = .stsQ 8 4 2 32 ∧
    decodeWord (wM 0xA4 8 4 2 32) = .stsF 8 4 2 32 ∧ decodeWord (wM 0xA5 8 4 2 32) = .ldfK 8 4 2 32 ∧
    decodeWord (wM 0xA6 8 4 2 32) = .ldfC 8 4 2 32 ∧ decodeWord (wM 0xA7 8 4 2 32) = .ldfKT 8 4 2 32 ∧
    decodeWord (wM 0xA8 8 4 2 32) = .ldfCT 8 4 2 32 ∧ decodeWord (wM 0x75 6 2 63 2) = .ldWS 6 2 2 ∧
    decodeWord (wM 0x76 6 2 63 2) = .ldDS 6 2 2 ∧ decodeWord (wM 0x85 6 2 63 2) = .stWS 6 2 2 ∧
    decodeWord (wM 0x86 6 2 63 2) = .stDS 6 2 2 ∧ decodeWord (wM 0x77 3 5 63 (3 * 16 + 1)) = .ldAcqV 3 5 63 3 1 ∧
    decodeWord 0x780C_BFB1#32 = .ldAcqS 3 5 3 1 ∧ decodeWord (wM 0x87 3 5 2 (4 * 16 + 15)) = .stRelV 3 5 2 4 15 ∧
    decodeWord 0x880C_BFC0#32 = .stRelS 3 5 4 0 ∧ decodeWord 0x721C_8102#32 = .ldWV 7 4 2 2 ∧
    decodeWord 0x8114_2180#32 = .stH 5 1 3 0 ∧ decodeWord 0x7618_5F82#32 = .ldDS 6 2 2 := by
  decide

theorem test_words_atomics :
    decodeWord (wM 0x90 8 2 1 (1 * 32 + 4 * 4 + 2)) = .aadd 8 2 1 1 4 true ∧
    decodeWord (wM 0x91 8 2 1 (1 * 32 + 4 * 4 + 2)) = .amin 8 2 1 1 4 true ∧
    decodeWord (wM 0x92 8 2 1 (1 * 32 + 4 * 4 + 2)) = .amax 8 2 1 1 4 true ∧
    decodeWord (wM 0x93 8 2 1 (1 * 32 + 4 * 4 + 2)) = .aand 8 2 1 1 4 true ∧
    decodeWord (wM 0x94 8 2 1 (1 * 32 + 4 * 4 + 2)) = .aor 8 2 1 1 4 true ∧
    decodeWord (wM 0x95 8 2 1 (1 * 32 + 4 * 4 + 2)) = .axor 8 2 1 1 4 true ∧
    decodeWord (wM 0x96 8 2 1 (1 * 32 + 4 * 4 + 2)) = .axchg 8 2 1 1 4 true ∧
    decodeWord (wM 0x97 8 2 1 (1 * 32 + 4 * 4 + 2)) = .acas 8 2 1 1 4 true ∧
    decodeWord (wM 0x98 8 2 1 (1 * 32 + 4 * 4 + 2)) = .axchgQ 8 2 1 1 4 true ∧
    decodeWord (wM 0x99 8 2 1 (1 * 32 + 4 * 4 + 2)) = .acasQ 8 2 1 1 4 true ∧
    decodeWord 0x9010_4082#32 = .aadd 4 2 1 0 0 true ∧ decodeWord 0x9418_5FB2#32 = .aor 6 2 63 1 4 true ∧
    decodeWord 0x9618_5FC8#32 = .axchg 6 2 63 2 2 false ∧ decodeWord 0xA120_6080#32 = .ldsQ 8 3 1 0 ∧
    decodeWord 0xA430_7F82#32 = .stsF 12 3 63 2 ∧ decodeWord 0xA914_6000#32 = .tlook 5 6 ∧
    decodeWord 0xAA00_61C0#32 = .tset 6 7 ∧ decodeWord (wT 0xAB 5 6 0 0 0 0 0) = .tget 5 6 ∧
    decodeWord (wT 0xAC 0 6 0 0 0 0 0) = .tinv 6 ∧ decodeWord 0xD100_0004#32 = .fence 4 ∧
    decodeWord 0xD200_00D4#32 = .xfence 3 2 4 := by
  decide

/-- The examples of 20_isa_sync. -/
theorem test_words_sync :
    decodeWord 0xB022_0000#32 = .hnew 1 4 0 0 ∧ decodeWord 0xB042_001A#32 = .hnew 2 4 3 2 ∧
    decodeWord 0xBC22_0000#32 = .hnewT 1 4 0 0 ∧ decodeWord 0xB122_0000#32 = .hjoin 1 4 ∧
    decodeWord 0xBD64_8000#32 = .hjoinH 3 9 ∧ decodeWord 0xB220_0000#32 = .hleave 1 ∧
    decodeWord 0xB3E0_0C00#32 = .harv 7 6 ∧ decodeWord 0xB5E3_0000#32 = .hwait 7 6 ∧
    decodeWord 0xB6C0_8A00#32 = .hvote 6 1 5 ∧ decodeWord 0xB7C4_0A10#32 = .hred 6 8 5 2 0 ∧
    decodeWord 0xB820_0601#32 = .hinfo 1 3 1 ∧ decodeWord 0xB900_0E00#32 = .qfill 0 7 ∧
    decodeWord 0xBA00_8E00#32 = .qdrain 1 7 ∧ decodeWord 0xBB00_8E01#32 = .qwait 1 7 true := by
  decide

/-- The examples of 21_isa_matrix. -/
theorem test_words_matrix :
    decodeWord 0xC110_DF82#32 = .zld 4 6 2 ∧ decodeWord 0xC014_4341#32 = .mmaJ 5 2 3 8 ∧
    decodeWord 0xC214_0000#32 = .mzero 5 ∧ decodeWord 0xC318_8050#32 = .mld 6 4 10 ∧
    decodeWord 0xC414_8450#32 = .mst 5 4 4 10 0 ∧ decodeWord 0xC414_8451#32 = .mst 5 4 4 10 1 ∧
    decodeWord 0xC414_4344#32 = .mst 5 2 3 8 4 ∧ decodeWord 0xC514_4010#32 = .mrd 5 4 2 ∧
    decodeWord 0xC514_4011#32 = .mwr 5 4 2 ∧ decodeWord 0xC600_3000#32 = .sqset 3 ∧
    decodeWord 0xC610_0001#32 = .sqget 4 ∧ decodeWord 0xC700_0000#32 = .leave := by
  decide

/-- The examples of 22_isa_system. -/
theorem test_words_system :
    decodeWord 0xD00C_4140#32 = .cwait 3 4 5 ∧ decodeWord 0xD010_4141#32 = .ctest 4 4 5 ∧
    decodeWord 0xE100_0002#32 = .sprint 2 ∧ decodeWord 0xE500_3000#32 = .trace 3 ∧
    decodeWord 0xD304_4140#32 = .ivr 1 4 5 ∧ decodeWord 0xE614_6000#32 = .dhalt 5 6 ∧
    decodeWord 0xE614_61C1#32 = .dstep 5 6 7 ∧ decodeWord 0xE614_6002#32 = .dres 5 6 ∧
    decodeWord 0xE714_6000#32 = .dbpt 5 6 ∧ decodeWord 0xE814_6000#32 = .dwpt 5 6 ∧
    decodeWord 0xE914_6000#32 = .mbrd 5 6 ∧ decodeWord 0xE900_61C1#32 = .mbwr 6 7 ∧
    decodeWord 0xE900_0002#32 = .mbpost ∧ decodeWord 0xE914_6003#32 = .mbtake 5 6 := by
  decide

/-- A word is stored little-endian (R243), and a table row lays it out so. -/
theorem test_bytes : bytesOfWord 0x400C_10AC = [0xAC, 0x10, 0x0C, 0x40] ∧ decodeTableWord 32 0x400C10AC = some (.fadd 3 1 2 true false 3) := by
  decide

/-! ### Words that fault (R269), and terms that are not well-formed -/

/-- The cause that a word raises when it issues in a group. -/
def raises (g : Group) (w : BitVec 32) (c : Cause) : Prop :=
  (match decodeWord w with
    | .unassignedOpcode w => some (wordCause false w)
    | i => groupCheck (tOn g .a) tId .a g i) = some c

def passesCheck (g : Group) (w : BitVec 32) : Prop := groupCheck (tOn g .a) tId .a g (decodeWord w) = none

/-- The words of 14_formats_syntax, 15_opcode_map and 16_isa_control that fault. -/
theorem test_faults_map :
    raises tG 0x420C_1042#32 ⟨0x01, 2⟩ ∧ raises tG 0x4003_F003#32 ⟨0x01, 1⟩ ∧ raises tG 0xC014_4345#32 ⟨0x01, 1⟩ ∧
    raises tG 0xC414_4345#32 ⟨0x01, 1⟩ ∧ raises tG 0x1000_2005#32 ⟨0x01, 2⟩ ∧ raises tG 0xE600_0000#32 ⟨0x01, 1⟩ ∧
    raises tG 0xF000_0000#32 ⟨0x01, 1⟩ ∧ raises tG 0xFF12_3456#32 ⟨0x01, 1⟩ ∧ raises tG 0x000A_0010#32 ⟨0x01, 1⟩ ∧
    raises tG 0xC014_4348#32 ⟨0x01, 2⟩ ∧ raises tG 0xE300_6000#32 ⟨0x01, 2⟩ ∧ raises tG 0x011F_0004#32 ⟨0x01, 2⟩ := by
  unfold raises; decide

/-- The words of 17_isa_scalar to 22_isa_system that fault. -/
theorem test_faults_isa :
    raises tG 0x2088_1000#32 ⟨0x02, 1⟩ ∧ raises tG 0x2010_1020#32 ⟨0x01, 2⟩ ∧ raises tG 0x3410_20C3#32 ⟨0x01, 1⟩ ∧
    raises tG 0x3700_2040#32 ⟨0x01, 2⟩ ∧ raises tGf 0x3010_20C0#32 ⟨0x01, 2⟩ ∧
    raises (tMode tG (tType 11)) 0x4010_3180#32 ⟨0x01, 2⟩ ∧ raises tG 0x6024_20C1#32 ⟨0x01, 2⟩ ∧
    raises tG 0x630C_10D1#32 ⟨0x01, 2⟩ ∧ raises tG 0x5014_4380#32 ⟨0x01, 2⟩ ∧ raises tG 0x770C_BFF1#32 ⟨0x01, 2⟩ ∧
    raises tG 0x9010_4090#32 ⟨0x01, 2⟩ ∧ raises tG 0x9010_4083#32 ⟨0x01, 2⟩ ∧ raises tG 0x731C_8100#32 ⟨0x01, 2⟩ ∧
    raises tG 0x7518_4100#32 ⟨0x01, 2⟩ ∧ raises (tMode tG (tType 2)) 0x9010_4082#32 ⟨0x01, 2⟩ ∧
    raises tG 0xD200_0143#32 ⟨0x01, 2⟩ ∧ raises tG 0xAA00_61C1#32 ⟨0x01, 1⟩ ∧ raises tG 0xB7C4_0A15#32 ⟨0x01, 9⟩ ∧
    raises tG 0xB7C2_8A10#32 ⟨0x01, 2⟩ ∧ raises tG 0xB920_0E00#32 ⟨0x01, 2⟩ ∧ raises tG 0xB902_8E00#32 ⟨0x01, 2⟩ ∧
    raises tG 0xC014_4342#32 ⟨0x01, 1⟩ ∧ raises tG 0xC110_C102#32 ⟨0x01, 2⟩ ∧ raises tG 0xC214_0040#32 ⟨0x01, 2⟩ ∧
    raises tG 0xC514_4110#32 ⟨0x01, 2⟩ ∧ raises tG 0xD018_4140#32 ⟨0x01, 2⟩ ∧ raises tG 0xD000_4142#32 ⟨0x01, 1⟩ ∧
    raises tG 0xE100_0003#32 ⟨0x01, 2⟩ ∧ raises tG 0xE904_61C1#32 ⟨0x01, 1⟩ ∧ raises tG 0xE614_6003#32 ⟨0x01, 1⟩ := by
  unfold raises; decide

/-- R114, R268, R269: a role that the class may not issue in, and the order of the checks. -/
theorem test_faults_role :
    raises { tGf with role := .copy } 0x400C_1080#32 ⟨0x01, 3⟩ ∧
    raises { tG with role := .copy } 0x400C_1080#32 ⟨0x01, 2⟩ ∧
    raises { tG with role := .matrix } 0xA914_6000#32 ⟨0x01, 3⟩ ∧ passesCheck tGf 0x400C_1080 ∧
    passesCheck tG 0x0320_0005 := by
  unfold raises passesCheck; decide

/-- One ill-formed term for each kind of coding check. -/
theorem test_illFormed :
    (∀ i ∈ [Instr.br 5 false 0 0, .br 1 true 15 0, .br 1 false 12 0, .br 0 false 8 0, .call 0 0, .ret 6, .loop 2 16 0, .loop 3 8 0,
        .elect 8, .kadd 0 0 0 true 0, .kadd 2 8 0 true 0, .kadd 2 0 8 true 0, .kadd 2 0 0 false 8, .kadd 1 0 0 false 16,
        .kmov 3 8 true 0, .kseq 1 4 0 true 0, .wred 16 0 0 0 false 0, .gred 8 0 0 0 false 0, .wred 0 1 0 2 false 0,
        .wred 0 0 5 0 false 0, .wred 0 0 3 4 false 0, .wred 0 0 0 5 false 0, .wred 0 0 0 0 false 2],
      i.wellFormed = false) ∧
    (∀ i ∈ [Instr.sadd 32 0 0, .sseq 4 0 0, .li 32 0, .lcat 33 0, .getc 63 0, .saddi 32 0 0, .shli 0 0 false 0x400, .popc 0 0 false 2,
        .cvt 0 1 13 false 0, .cvt 0 0 12 false 0, .cvt 0 0 13 true 0, .cvt 0 0 13 false 1, .cvt 0 0 0 false 2, .npack 0 0 0 false 2,
        .ceq 8 0 0 false false 0, .pand 8 0 0, .pand 0 8 0, .pand 0 0 8, .pset 8 0, .pget 32 0, .pget 0 8, .shxor 0 0 0 false 2,
        .vrd 32 0 0 false 0, .vrd 0 0 0 false 2],
      i.wellFormed = false) ∧
    (∀ i ∈ [Instr.ldDV 1 0 0 0, .stQ 2 0 0 0, .ldWS 32 0 0, .ldAcqV 0 0 0 6 0, .ldAcqS 32 0 0 0, .ldAcqS 0 0 7 0, .stRelS 0 0 6 0,
        .aadd 0 0 0 1 6 false, .aadd 0 0 0 0 1 false, .axchgQ 2 0 0 0 0 false, .acasQ 4 0 0 0 0 false, .tlook 32 0, .hnew 0 0 0 5,
        .hnew 0 0 3 3, .harv 0 32, .hvote 0 8 0, .hvote 0 0 32, .hred 0 1 0 2 0, .hred 0 0 0 0 5, .qfill 4 0],
      i.wellFormed = false) ∧
    (∀ i ∈ [Instr.mma 0 0 0 1, .zld 32 0 0, .mld 0 0 3, .mst 0 0 0 1 0, .mst 0 0 0 0 5, .mrd 0 0 1, .sqget 32, .cwait 6 0 0, .fence 6,
        .xfence 5 0 0, .xfence 0 5 0, .xfence 0 0 6, .ivr 0 0 0, .mode false false 0 13 0 false, .mode false false 0 0 5 false,
        .sprint 3, .spawn 32 0, .cpost 32, .cpost 6, .ctake 2, .ctake 36, .dhalt 32 0, .unassignedOpcode 0x0A000000],
      i.wellFormed = false) := by decide

/-- Terms at the last value that each coding admits. -/
theorem test_wellFormed :
    ∀ i ∈ [Instr.br 4 true 11 0xFFFF, .loop 1 31 0, .loop 2 15 0, .loop 4 7 0, .elect 7, .kadd 1 15 15 false 15, .kadd 3 7 7 false 7,
        .kseq 3 3 7 true 0x1FFF, .wred 15 62 2 3 true 1, .dred 7 63 2 4 true 1, .sadd 31 63 63, .sseq 3 63 63, .cvt 63 0 13 false 0,
        .pand 7 7 7, .ldDV 62 31 63 127, .stQ 60 31 63 127, .axchgQ 60 0 0 3 5 true, .acasQ 56 0 0 3 5 true, .hnew 7 63 2 4, .qwait 3 63 true,
        .mst 63 31 31 30 4, .zld 31 31 127, .xfence 4 4 5, .mode true true 7 12 4 true, .sprint 2, .cpost 28, .ctake 28,
        .unassignedOpcode 0xFF000000], i.wellFormed = true := by decide

/-! ### Registers as the host reads them after reset -/

/-- DRAINED of a record, NTT of PWRCTL, BAL of PERMIT, MAX of HQUOTA, QUANTUM and PDEADLINE (R28, R80, R91, R130, R67, R201). -/
theorem test_reset_registers :
    State.reset.hostRead 0 0x14000C = 4 ∧ State.reset.hostRead 0 0x30BC = 0x300 ∧ State.reset.hostRead 0 0x31BC = 64 ∧
    State.reset.hostRead 0 0x40FC = 4096 ∧ State.reset.hostRead 0 0x2000 = 500 ∧ State.reset.hostRead 0 0x5000 = 500 := by decide

/-! ### One step of some words, with results from the specification -/

/-- A scalar of the group after one word. -/
def sAfter (i : Instr) (g : Group) (n : Nat) : Option Word :=
  match exec i (tOn g .a) with
  | .next s => ((s.group? tId).bind (fun x => (x.slot .a).fork.s[n]?))
  | _ => none

/-- The constant of 17_isa_scalar (R289). -/
theorem test_lcat :
    sAfter (.li 2 7) tG 2 = some 7 ∧ sAfter (.lcat 2 0x30000) (tG.writeS .a 2 7) 2 = some 0x1F0000 ∧
    sAfter (.lcat 2 0x5080) (tG.writeS .a 2 0x0000007C00004000) 2 = some 0x01F0000100005080 ∧
    sAfter (.li 6 0x3FFFD) tG 6 = some 0xFFFFFFFFFFFFFFFD := by decide

/-- The two cases of R290, and a truncated quotient whose remainder takes the dividend's sign. -/
theorem test_division :
    sAfter (.sdiv 4 2 3) tG 4 = some 0xFFFFFFFFFFFFFFFF ∧ sAfter (.srem 4 2 3) tG 4 = some 3 ∧
    (let g := (tG.writeS .a 5 0x8000000000000000).writeS .a 6 0xFFFFFFFFFFFFFFFF
     sAfter (.sdiv 4 5 6) g 4 = some 0x8000000000000000 ∧ sAfter (.srem 4 5 6) g 4 = some 0) ∧
    (let g := (tG.writeS .a 5 0xFFFFFFFFFFFFFFF9).writeS .a 6 2
     sAfter (.sdiv 4 5 6) g 4 = some 0xFFFFFFFFFFFFFFFD ∧ sAfter (.srem 4 5 6) g 4 = some 0xFFFFFFFFFFFFFFFF) := by decide

/-- A scalar load reads the eight bytes at 0x20000, whose first is 5. -/
theorem test_load : sAfter (.ldDS 4 1 0) tG 4 = some 5 := by decide

/-- A trap saves the PC and the lanes, enters slot A with all lanes at the handler, and `tret` returns (R191, R195). -/
theorem test_trap :
    (match exec (.trap 0x41) (tOn tG .a) with
      | .next s => (s.group? tId).map (fun g => (g.a.pc, g.a.mask, g.hw.map (·.kind), g.tdepth))
      | _ => none) = some (0x2000, 0xFFFF, [2], 1) := by decide

/-- The worked element of 13_number_formats, 0x4B for 5.5, and NaN; and the four lanes of the `npack` example of 18_isa_vector.
The format word is the sum of the fields that the text names, which 0x0040E645 is not (log 32). -/
theorem test_narrow :
    let f := Narrow.ofWord 0x0040EE45
    fmtF32.round 0 false (f.decode 0x4B) = (0x40B00000, 0) ∧ fmtF32.round 0 false (f.decode 0xFF) = (0x7FC00000, 0) ∧
    f.pack 0 false (fmtF32.decode 0x40B00000) = (0x4B, 0) ∧ f.pack 0 false (fmtF32.decode 0x447A0000) = (0x7F, 0x14) ∧
    f.pack 0 false (fmtF32.decode 0x3C23D70A) = (0x05, 0x18) ∧ f.pack 0 false (fmtF32.decode 0xBEA00000) = (0xAA, 0) := by decide

/-- The drain of the worked tile element 1 + 2^−34 with r = 3.0 and c = 0.5, and as acc48. -/
theorem test_drain :
    let t : Tile := .floating [0x3FE000000008]
    let r := fmtF32.decode 0x40400000
    let c := fmtF32.decode 0x3F000000
    drainElem t 0 1 0 false r c = (0x3E00, 0x10) ∧ drainElem t 0 1 3 false r c = (0x3E01, 0x10) ∧
    drainElem t 0 3 0 false r c = (0x3FE000000008, 0) := by decide

/-- The single rounding of the worked depth step. -/
theorem test_depth :
    floatStep (some (fmtAcc48.decode 0x3FE000000000)) (.replicate 16 (fmtF16.decode 0x0020)) (.replicate 16 (fmtF16.decode 0x0020)) =
      0x3FE000000008 := by decide

end Sys2Proof.Tests
end

section
/-! SUPPORT. Scalar division and the scalar compares (R290, R291): what the checks of R269 say of a word that issues and of
one that they stop, the group after a write to S or to a group flag, the arithmetic, and the two obligations. -/

namespace Sys2Proof.Machine

/-! ### The checks of R269 -/

theorem firstBad_eq_none {cs : List Chk} : firstBad cs = none ↔ ∀ c ∈ cs, c.bad = false := by
  induction cs with
  | nil => simp [firstBad]
  | cons c cs ih => cases hc : c.bad <;> simp [firstBad, hc, ih]

/-- No coding check stops a word that issues. -/
theorem Issues.coding {i : Instr} {s : State} {gid : GroupId} {sl : SlotId} {g : Group} (h : Issues i s gid sl g) :
    ∀ c ∈ codingChecks i, c.bad = false := by
  have hn : firstBad (varChecks i ++ codingChecks i ++ typeChecks (g.ty sl) i) = none := by
    have hok := h.ok
    unfold groupCheck at hok
    split at hok
    · cases hok
    · split at hok
      · cases hok
      · assumption
  intro c hc
  exact firstBad_eq_none.mp hn c (by simp [hc])

/-- A word that its issuer may issue stops at the first check of its fields that fails. -/
theorem groupCheck_of_firstBad {i : Instr} {s : State} {gid : GroupId} {sl : SlotId} {g : Group} {c : Cause}
    (hi : issuerAllows gid.isDebug (opOf i) (scopeField i) = true)
    (hc : firstBad (varChecks i ++ codingChecks i ++ typeChecks (g.ty sl) i) = some c) :
    groupCheck s gid sl g i = some c := by
  simp only [groupCheck, hi, hc, Bool.not_true, Bool.false_eq_true, if_false]

/-- A group and a debug core may both issue the words of the scalar class below 0x2B (R210, R265). -/
theorem issuerAllows_scalar {op : Nat} (dbg : Bool) (scope : Nat) (hlo : 0x20 ≤ op) (hhi : op ≤ 0x2A) :
    issuerAllows dbg op scope = true := by
  cases dbg with
  | true =>
    have hc : ¬(op = 0x01 ∨ op = 0x03 ∨ op = 0x04 ∨ op = 0x06) := by omega
    simp [issuerAllows, debugSubset, hc, hlo, hhi]
  | false =>
    have h1 : ¬ op < 0x10 := by omega
    have h2 : ¬ op < 0x20 := by omega
    have h3 : op < 0x30 := by omega
    simp [issuerAllows, classOfOp, h1, h2, h3]

/-- The opcode field of a T word. -/
theorem fld_opcode (op : BitVec 8) (d a b sub : BitVec 6) : fld (op ++ d ++ a ++ b ++ sub) 24 8 = op := by
  have hw : BitVec.extractLsb' 24 8 (op ++ d ++ a ++ b ++ sub : BitVec (8 + 6 + 6 + 6 + 6)) = op := by
    rw [BitVec.extractLsb'_append_eq_of_le (by decide), BitVec.extractLsb'_append_eq_of_le (by decide),
      BitVec.extractLsb'_append_eq_of_le (by decide), BitVec.extractLsb'_append_eq_of_le (by decide)]
    exact BitVec.extractLsb'_eq_self
  exact hw

theorem atScope_eq_record {i : Instr} (c : Cause) (h : scopeCode i = 0) : c.atScope i = c.record := by
  simp [Cause.atScope, h, Cause.record]

/-! ### Reading what was written -/

theorem readS_writeS_same (g : Group) (sl : SlotId) (d : BitVec 6) (x : Word) (hd : d.toNat < 32) :
    (g.writeS sl d x).readS sl d = x := by
  simp [Group.readS, Group.writeS, Group.writeSn, Group.modSlot, hd]

theorem readC_writeC_same (g : Group) (sl : SlotId) (k : Nat) (x : Bool) (hk : k < 4) :
    (g.writeC sl k x).readC sl k = x := by
  unfold Group.readC Group.writeC Group.modSlot
  rw [slot_setSlot, getLsbD_setBit _ _ _ _ hk, if_pos rfl]

/-- A word of two scalar sources writes its result into S[d] and nothing else (R288, R289). -/
theorem completes_scalarWord {i : Instr} {d a b : BitVec 6} {f : Word → Word → Word} {s : State} {gid : GroupId}
    {sl : SlotId} {g : Group} (h : Issues i s gid sl g) (he : exec i s = scalarWord i d a b f s)
    (hcoding : codingChecks i = [chkSDst d]) :
    ∃ G, Completes i s gid sl g G ∧ G.readS sl d = f (g.readS sl a) (g.readS sl b) ∧ g.Kept G sl { s := [d.toNat] } := by
  have hd : d.toNat < 32 := by
    have hc := h.coding (chkSDst d) (by simp [hcoding])
    simpa [chkSDst] using hc
  exact ⟨_, completes_of h he rfl, readS_writeS_same g sl d _ hd, kept_writeS g sl d _ h.slot⟩

/-- A scalar compare writes its test into the group flag that d names and nothing else (R291). -/
theorem completes_scalarCmp {i : Instr} {d a b : BitVec 6} {f : Word → Word → Bool} {s : State} {gid : GroupId}
    {sl : SlotId} {g : Group} (h : Issues i s gid sl g) (he : exec i s = scalarCmp i d a b f s)
    (hcoding : codingChecks i = [chkBelow d 4]) :
    ∃ G, Completes i s gid sl g G ∧ G.readC sl d.toNat = f (g.readS sl a) (g.readS sl b) ∧
      g.Kept G sl { c := [d.toNat] } := by
  have hd : d.toNat < 4 := by
    have hc := h.coding (chkBelow d 4) (by simp [hcoding])
    simpa [chkBelow, chk2] using hc
  exact ⟨_, completes_of h he rfl, readC_writeC_same g sl _ _ hd, kept_writeC g sl _ _ h.slot⟩

/-! ### Division (R290) -/

/-- A division with the fixed results of R290 by 0: all ones for a quotient, the dividend for a remainder. -/
def guardZero (quo : Bool) (f : Word → Word → Word) (x y : Word) : Word :=
  if y = 0 then (if quo then BitVec.allOnes 64 else x) else f x y

theorem sdivWord_eq : sdivWord = guardZero true (fun x y => BitVec.ofInt 64 (x.toInt.tdiv y.toInt)) := by
  funext x y
  have hdiv : x.sdiv y = BitVec.ofInt 64 (x.toInt.tdiv y.toInt) := by
    apply BitVec.eq_of_toInt_eq
    rw [BitVec.toInt_sdiv, BitVec.toInt_ofInt]
  simp [sdivWord, guardZero, hdiv]

theorem udivWord_eq : udivWord = guardZero true (fun x y => BitVec.ofNat 64 (x.toNat / y.toNat)) := by
  funext x y
  have hdiv : x / y = BitVec.ofNat 64 (x.toNat / y.toNat) := by
    apply BitVec.eq_of_toNat_eq
    rw [← BitVec.toNat_udiv, BitVec.toNat_ofNat, Nat.mod_eq_of_lt (BitVec.isLt _)]
  simp [udivWord, guardZero, hdiv]

theorem sremWord_eq : sremWord = guardZero false (fun x y => BitVec.ofInt 64 (x.toInt.tmod y.toInt)) := by
  funext x y
  have hrem : x.srem y = BitVec.ofInt 64 (x.toInt.tmod y.toInt) := by rw [← BitVec.toInt_srem, BitVec.ofInt_toInt]
  simp [sremWord, guardZero, hrem]

theorem uremWord_eq : uremWord = guardZero false (fun x y => BitVec.ofNat 64 (x.toNat % y.toNat)) := by
  funext x y
  have hrem : x % y = BitVec.ofNat 64 (x.toNat % y.toNat) := by
    apply BitVec.eq_of_toNat_eq
    rw [← BitVec.toNat_umod, BitVec.toNat_ofNat, Nat.mod_eq_of_lt (BitVec.isLt _)]
  simp [uremWord, guardZero, hrem]

/-- A division word runs its form with the fixed results by 0, and its destination is checked as a scalar one (R247). -/
theorem exec_of_divisionForm {i : Instr} {d a b : BitVec 6} {quo : Bool} {f : Word → Word → Word}
    (h : divisionForm i = some (d, a, b, quo, f)) :
    (∀ s, exec i s = scalarWord i d a b (guardZero quo f) s) ∧ codingChecks i = [chkSDst d] := by
  unfold divisionForm at h
  split at h <;> cases h
  case h_1 => exact ⟨fun s => sdivWord_eq ▸ rfl, rfl⟩
  case h_2 => exact ⟨fun s => udivWord_eq ▸ rfl, rfl⟩
  case h_3 => exact ⟨fun s => sremWord_eq ▸ rfl, rfl⟩
  case h_4 => exact ⟨fun s => uremWord_eq ▸ rfl, rfl⟩

/-- The case of R290 whose exact quotient 2^63 no signed word holds: −2^63 by −1. -/
theorem divisionForm_overflow {i : Instr} {d a b : BitVec 6} {quo : Bool} {f : Word → Word → Word} {x y : Word}
    (h : divisionForm i = some (d, a, b, quo, f))
    (hi : (∃ d a b, i = .sdiv d a b) ∨ ∃ d a b, i = .srem d a b) (hx : x.toInt = -2 ^ 63) (hy : y.toInt = -1) :
    (f x y).toInt = if quo then -2 ^ 63 else 0 := by
  obtain ⟨d', a', b', rfl⟩ | ⟨d', a', b', rfl⟩ := hi
  · cases h
    simp only [hx, hy]
    decide
  · cases h
    simp only [hx, hy]
    decide

/-! ### Compares (R291) -/

theorem wordEq_eq : wordEq = fun x y => decide (x.toNat = y.toNat) := by
  funext x y
  rw [wordEq, Bool.eq_iff_iff, beq_iff_eq, decide_eq_true_iff, BitVec.toNat_inj]

theorem wordLt_eq : wordLt = fun x y => decide (x.toInt < y.toInt) := by
  funext x y
  exact BitVec.slt_eq_decide

theorem wordLtu_eq : wordLtu = fun x y => decide (x.toNat < y.toNat) := by
  funext x y
  exact BitVec.ult_eq_decide

theorem wordLe_eq : wordLe = fun x y => decide (x.toInt ≤ y.toInt) := by
  funext x y
  exact BitVec.sle_eq_decide

theorem compareForm_cases {i : Instr} {d a b : BitVec 6} {f : Word → Word → Bool} (h : compareForm i = some (d, a, b, f)) :
    (i = .sseq d a b ∧ f = wordEq) ∨ (i = .sslt d a b ∧ f = wordLt) ∨ (i = .ssltu d a b ∧ f = wordLtu) ∨
      (i = .ssle d a b ∧ f = wordLe) := by
  unfold compareForm at h
  split at h <;> cases h
  case h_1 => exact .inl ⟨rfl, wordEq_eq.symm⟩
  case h_2 => exact .inr (.inl ⟨rfl, wordLt_eq.symm⟩)
  case h_3 => exact .inr (.inr (.inl ⟨rfl, wordLtu_eq.symm⟩))
  case h_4 => exact .inr (.inr (.inr ⟨rfl, wordLe_eq.symm⟩))

theorem exec_of_compareForm {i : Instr} {d a b : BitVec 6} {f : Word → Word → Bool}
    (h : compareForm i = some (d, a, b, f)) (s : State) : exec i s = scalarCmp i d a b f s := by
  obtain ⟨rfl, rfl⟩ | ⟨rfl, rfl⟩ | ⟨rfl, rfl⟩ | ⟨rfl, rfl⟩ := compareForm_cases h <;> rfl

theorem opOf_of_compareForm {i : Instr} {d a b : BitVec 6} {f : Word → Word → Bool}
    (h : compareForm i = some (d, a, b, f)) : opOf i = 0x23 := by
  obtain ⟨rfl, -⟩ | ⟨rfl, -⟩ | ⟨rfl, -⟩ | ⟨rfl, -⟩ := compareForm_cases h <;>
    exact congrArg BitVec.toNat (fld_opcode 0x23#8 d a b _)

/-- The one check of a compare's fields: d names a group flag. -/
theorem checks_of_compareForm {i : Instr} {d a b : BitVec 6} {f : Word → Word → Bool}
    (h : compareForm i = some (d, a, b, f)) (ty : Nat) :
    varChecks i = [] ∧ codingChecks i = [chkBelow d 4] ∧ typeChecks ty i = [] ∧ scopeCode i = 0 := by
  obtain ⟨rfl, -⟩ | ⟨rfl, -⟩ | ⟨rfl, -⟩ | ⟨rfl, -⟩ := compareForm_cases h <;> exact ⟨rfl, rfl, rfl, rfl⟩

/-- A compare whose d names no group flag stops with detail 2, in a group and in a debug core. -/
theorem stopped_of_compareForm {i : Instr} {d a b : BitVec 6} {f : Word → Word → Bool} {s : State} {gid : GroupId}
    {sl : SlotId} {g : Group} (h : compareForm i = some (d, a, b, f)) (hd : 4 ≤ d.toNat) (hcur : s.cur = .group gid sl)
    (hg : s.group? gid = some g) : Stopped i s gid sl g (illegal 2) := by
  obtain ⟨hvar, hcoding, htype, -⟩ := checks_of_compareForm h (g.ty sl)
  refine ⟨hcur, hg, groupCheck_of_firstBad ?_ ?_⟩
  · rw [opOf_of_compareForm h]
    exact issuerAllows_scalar _ _ (by decide) (by decide)
  · simp [hvar, hcoding, htype, firstBad, chkBelow, chk2, hd]

/-! ### The obligations -/

/-- Settles O18: by 0 the model's result is fixed, otherwise it is that of the form, which covers −2^63 by −1. -/
theorem scalarDivision : Obligations.ScalarDivision := by
  intro i d a b quo f s gid sl g hform h
  obtain ⟨hexec, hcoding⟩ := exec_of_divisionForm hform
  obtain ⟨G, hcompletes, hread, hkept⟩ := completes_scalarWord h (hexec s) hcoding
  have hne (hb : g.readS sl b ≠ 0) : G.readS sl d = f (g.readS sl a) (g.readS sl b) := hread.trans (if_neg hb)
  refine ⟨G, hcompletes, hkept, hkept.flags rfl, fun hb => hread.trans (if_pos hb), hne, fun hi ha hb => ?_⟩
  have hb0 : g.readS sl b ≠ 0 := fun h0 => by simp [h0] at hb
  rw [hne hb0]
  exact divisionForm_overflow hform hi ha hb

/-- Settles O19: a compare that issues names one of the four flags and writes it alone; one that names none fails its only
coding check. -/
theorem scalarCompares : Obligations.ScalarCompares := by
  intro i d a b f s gid sl g hform
  have hexec := exec_of_compareForm hform s
  obtain ⟨-, hcoding, -, hscope⟩ := checks_of_compareForm hform (g.ty sl)
  refine ⟨fun h => completes_scalarCmp h hexec hcoding, fun hd hcur hg => ?_⟩
  have hstop : exec i s = .next (s.takeStop gid sl ((illegal 2).atScope i) (g.slot sl).pc) :=
    hexec.trans (word_stop (stopped_of_compareForm hform hd hcur hg) _ _)
  rwa [atScope_eq_record _ hscope] at hstop

end Sys2Proof.Machine
end

section
/-! SUPPORT. Integer vector division (R307): what a result reads back as under a type, the values of integer codes, a word of
two sources that raises no flag, and the obligation. -/

namespace Sys2Proof.Machine

/-! ### What a result reads back as (R225) -/

theorem tyBits_pos (ty : Nat) : 0 < tyBits ty := by
  unfold tyBits; repeat' split
  all_goals decide

theorem tyBits_le (ty : Nat) : tyBits ty ≤ 64 := by
  unfold tyBits; repeat' split
  all_goals decide

theorem tyBits_le_of_not_pair {ty : Nat} (h : ¬ isPair ty = true) : tyBits ty ≤ 32 := by
  simp only [isPair, Bool.or_eq_true, beq_iff_eq] at h
  unfold tyBits; repeat' split
  all_goals omega

theorem toNat_signExtend_mod {w v : Nat} (x : BitVec w) (h : w ≤ v) : (x.signExtend v).toNat % 2 ^ w = x.toNat := by
  have hx : (x.signExtend v).setWidth w = x := by
    ext i hi
    have hv : i < v := by omega
    rw [BitVec.getElem_setWidth, BitVec.getLsbD_signExtend, decide_eq_true hv, Bool.true_and, if_pos hi,
      BitVec.getLsbD_eq_getElem hi]
  rw [← BitVec.toNat_setWidth, hx]

/-- One register holds a code of a type that takes no pair. -/
theorem toNat_loLane_mod {ty : Nat} (raw : Nat) (h : ¬ isPair ty = true) :
    (loLane ty raw).toNat % 2 ^ tyBits ty = raw % 2 ^ tyBits ty := by
  by_cases h2 : ty = 2
  · subst h2
    exact (toNat_signExtend_mod (BitVec.ofNat 16 raw) (by decide)).trans (BitVec.toNat_ofNat raw 16)
  by_cases h4 : ty = 4
  · subst h4
    exact (toNat_signExtend_mod (BitVec.ofNat 8 raw) (by decide)).trans (BitVec.toNat_ofNat raw 8)
  · have hdvd : 2 ^ tyBits ty ∣ 2 ^ 32 := Nat.pow_dvd_pow 2 (tyBits_le_of_not_pair h)
    rw [loLane, if_neg h2, if_neg h4, BitVec.toNat_ofNat, Nat.mod_mod_of_dvd _ hdvd, Nat.mod_mod]

/-- The two registers of a pair hold a code together. -/
theorem toNat_loLane_add_hiLane {ty : Nat} (raw : Nat) (h : isPair ty = true) :
    (loLane ty raw).toNat + (hiLane ty raw).toNat * 2 ^ 32 = raw % 2 ^ tyBits ty := by
  have hlt : raw % 2 ^ tyBits ty < 2 ^ 64 :=
    Nat.lt_of_lt_of_le (Nat.mod_lt _ (Nat.two_pow_pos _)) (Nat.pow_le_pow_right (by decide) (tyBits_le ty))
  have h2 : ty ≠ 2 := by rintro rfl; cases h
  have h4 : ty ≠ 4 := by rintro rfl; cases h
  simp only [loLane, hiLane, h2, h4, if_false, BitVec.toNat_ofNat]
  omega

/-- An active lane of a result reads back as the code written there, within the width of the type. -/
theorem Group.Result.rawV {g G : Group} {sl : SlotId} {ty d : Nat} {f : Nat → Nat} (r : g.Result G sl ty d f) {l : Nat}
    (hl : l < 64) (ha : (g.active sl).getLsbD l = true) : G.rawV ty d l = f l % 2 ^ tyBits ty := by
  unfold Group.rawV
  by_cases hp : isPair ty = true
  · rw [if_pos hp, r.lo l hl, r.hi hp l hl, if_pos ha, if_pos ha, toNat_loLane_add_hiLane _ hp, Nat.mod_mod]
  · rw [if_neg hp, r.lo l hl, if_pos ha, toNat_loLane_mod _ hp]

/-! ### The values of integer codes (R224) -/

/-- Within the width of a type, the code 0 alone has the value 0. -/
theorem intOf_eq_zero_iff {ty raw : Nat} (h : raw < 2 ^ tyBits ty) : intOf ty raw = 0 ↔ raw = 0 := by
  unfold intOf
  dsimp only
  rw [Nat.mod_eq_of_lt h]
  generalize 2 ^ tyBits ty = m at h ⊢
  by_cases hneg : (tySigned ty && raw.testBit (tyBits ty - 1)) = true
  · have hraw : raw ≠ 0 := by
      rintro rfl
      rw [Nat.zero_testBit, Bool.and_false] at hneg
      cases hneg
    rw [if_pos hneg]
    omega
  · rw [if_neg hneg]
    omega

/-- A code of a signed type is a bit vector in two's complement. -/
theorem intOf_of_signed {ty : Nat} (raw : Nat) (h : tySigned ty = true) :
    intOf ty raw = (BitVec.ofNat (tyBits ty) raw).toInt := by
  have hmsb : (BitVec.ofNat (tyBits ty) raw).msb = raw.testBit (tyBits ty - 1) := by
    have hw := tyBits_pos ty
    rw [BitVec.msb_eq_getLsbD_last, BitVec.getLsbD_ofNat, decide_eq_true (by omega), Bool.true_and]
  simp only [intOf, h, Bool.true_and, BitVec.toInt_eq_msb_cond, hmsb, BitVec.toNat_ofNat]

theorem intCode_lt (ty : Nat) (v : Int) : intCode ty v < 2 ^ tyBits ty := by
  have hpos : (0 : Int) < (2 ^ tyBits ty : Nat) := Int.natCast_pos.mpr (Nat.two_pow_pos _)
  have hlt := Int.emod_lt_of_pos v hpos
  have hle := Int.emod_nonneg v (Int.ne_of_gt hpos)
  unfold intCode
  omega

theorem intRes_lt (ty : Nat) (sat : Bool) (v : Int) : intRes ty sat v < 2 ^ tyBits ty := intCode_lt ty _

/-- The value of the code of an integer, under a signed type: the integer wrapped into the range. -/
theorem intOf_intCode {ty : Nat} (v : Int) (h : tySigned ty = true) : intOf ty (intCode ty v) = v.bmod (2 ^ tyBits ty) := by
  have hcode : intCode ty v = (BitVec.ofInt (tyBits ty) v).toNat := (BitVec.toNat_ofInt v).symm
  rw [intOf_of_signed _ h, hcode, BitVec.ofNat_toNat, BitVec.setWidth_eq, BitVec.toInt_ofInt]

theorem two_pow_tyBits (ty : Nat) : 2 ^ tyBits ty = 2 * 2 ^ (tyBits ty - 1) := by
  rw [Nat.mul_comm, Nat.two_pow_pred_mul_two (tyBits_pos ty)]

/-- 2^(w−1) is one above the range of a signed type. -/
theorem clampInt_two_pow {ty : Nat} (h : tySigned ty = true) :
    clampInt ty (2 ^ (tyBits ty - 1)) = (2 ^ (tyBits ty - 1) : Int) - 1 := by
  have hpos : (0 : Int) < 2 ^ (tyBits ty - 1) := Int.pow_pos (by decide)
  simp only [clampInt, intLo, intHi, h, if_true, Int.natCast_pow, Int.cast_ofNat_Int]
  rw [if_neg (by omega), if_pos (by omega)]

/-- 2^(w−1) under a signed type wraps to the least value of the type, and SAT clamps it to the greatest. -/
theorem intOf_intRes_two_pow {ty : Nat} (sat : Bool) (h : tySigned ty = true) :
    intOf ty (intRes ty sat (2 ^ (tyBits ty - 1))) =
      if sat then (2 ^ (tyBits ty - 1) : Int) - 1 else -(2 ^ (tyBits ty - 1) : Int) := by
  have hpos : 0 < 2 ^ (tyBits ty - 1) := Nat.two_pow_pos _
  have hcast : (2 ^ (tyBits ty - 1) : Int) = (2 ^ (tyBits ty - 1) : Nat) := (Int.natCast_pow 2 _).symm
  rw [intRes, intOf_intCode _ h, Int.bmod_eq_iff (Nat.two_pow_pos _), clampInt_two_pow h, two_pow_tyBits, hcast]
  generalize 2 ^ (tyBits ty - 1) = m at hpos ⊢
  cases sat with
  | false => simp only [Bool.false_eq_true, if_false]; exact ⟨by omega, by omega, -1, by omega⟩
  | true => simp only [if_true]; exact ⟨by omega, by omega, 0, by omega⟩

/-! ### Words of two sources that raise no flag -/

/-- A word of two sources whose lane function raises no flag writes its results, and keeps FLAGS. -/
theorem completes_quietBinary {i : Instr} {v : Vec2} {F : Nat → BitVec 32 → Nat → Nat → Nat → Nat × Flags} {s : State}
    {gid : GroupId} {sl : SlotId} {g : Group} (h : Issues i s gid sl g)
    (he : exec i s = vecWord2 i v.d v.a v.b v.x v.y v.h false F s) (hquiet : ∀ ty m p q r, (F ty m p q r).2 = 0)
    (hr : g.Ready (occupies (g.ty sl) v.a.toNat ++ occupies (g.ty sl) v.b.toNat))
    (hw : g.Writable (occupies (g.ty sl) v.d.toNat)) :
    ∃ G, Completes i s gid sl g G ∧
      g.Result G sl (g.ty sl) v.d.toNat (fun l => (F (g.ty sl) (g.mode sl) (g.rawV (g.ty sl) v.a.toNat l)
        (g.rawV (g.ty sl) v.b.toNat l) (g.rawV (g.ty sl) v.d.toNat l)).1) ∧
      G.LastRead v.h (occupies (g.ty sl) v.b.toNat) (occupies (g.ty sl) v.d.toNat) ∧
      g.Kept G sl { v := touched v.h (occupies (g.ty sl) v.b.toNat) (occupies (g.ty sl) v.d.toNat) } := by
  have hk := kept_results g sl (g.ty sl) v.d (fun l => F (g.ty sl) (g.mode sl) (g.rawV (g.ty sl) v.a.toNat l)
    (g.rawV (g.ty sl) v.b.toNat l) (g.rawV (g.ty sl) v.d.toNat l)) v.h (occupies (g.ty sl) v.b.toNat)
  refine ⟨_, completes_of h he (binary_body s gid sl g v.d v.a v.b v.x v.y v.h false _ (by simpa using hr) hw),
    (result_putAll g sl _ v.d _ hw).lastRead _ _, lastRead_lastRead _ _ _ _, { hk with flags := fun _ => ?_ }⟩
  rw [flags_lastRead]
  exact (kept_putAll_quiet g sl _ v.d _ fun l => hquiet _ _ _ _ _).flags rfl

/-! ### Division (R307) -/

/-- The lane function of `idiv` or of `irem`. -/
def divLane (quo : Bool) (ty : Nat) (sat : Bool) (p q : Nat) : Nat × Flags :=
  if quo then divInt ty sat p q else remInt ty p q

theorem divLane_quiet (quo : Bool) (ty : Nat) (sat : Bool) (p q : Nat) : (divLane quo ty sat p q).2 = 0 := by
  cases quo <;> rfl

theorem intDivForm_cases {ty : Nat} {sat : Bool} {i : Instr} {v : Vec2} {quo : Bool} {f : Nat → Nat → Nat}
    (h : intDivForm ty sat i = some (v, quo, f)) :
    (i = .idiv v.d v.a v.b v.x v.y v.h ∧ quo = true ∧ f = fun p q => intRes ty sat ((intOf ty p).tdiv (intOf ty q))) ∨
      (i = .irem v.d v.a v.b v.x v.y v.h ∧ quo = false ∧ f = fun p q => intCode ty ((intOf ty p).tmod (intOf ty q))) := by
  unfold intDivForm at h
  split at h <;> cases h
  case h_1 => exact .inl ⟨rfl, rfl, rfl⟩
  case h_2 => exact .inr ⟨rfl, rfl, rfl⟩

theorem exec_of_intDivForm {ty : Nat} {sat : Bool} {i : Instr} {v : Vec2} {quo : Bool} {f : Nat → Nat → Nat}
    (h : intDivForm ty sat i = some (v, quo, f)) (s : State) :
    exec i s = vecWord2 i v.d v.a v.b v.x v.y v.h false (fun ty m p q _ => divLane quo ty (modeSat m) p q) s := by
  obtain ⟨rfl, rfl, rfl⟩ | ⟨rfl, rfl, rfl⟩ := intDivForm_cases h <;> rfl

/-- By 0 the result is fixed; by another divisor it is that of the form. -/
theorem divLane_of_intDivForm {ty : Nat} {sat : Bool} {i : Instr} {v : Vec2} {quo : Bool} {f : Nat → Nat → Nat}
    (h : intDivForm ty sat i = some (v, quo, f)) (p : Nat) {q : Nat} (hq : q < 2 ^ tyBits ty) :
    (divLane quo ty sat p q).1 = if q = 0 then (if quo then 2 ^ tyBits ty - 1 else p) else f p q := by
  obtain ⟨rfl, rfl, rfl⟩ | ⟨rfl, rfl, rfl⟩ := intDivForm_cases h <;>
    simp [divLane, divInt, remInt, quiet, intOf_eq_zero_iff hq]

/-- The case of R307 whose exact quotient 2^(w−1) is above the range of a signed type: −2^(w−1) by −1. -/
theorem intDivForm_overflow {ty : Nat} {sat : Bool} {i : Instr} {v : Vec2} {quo : Bool} {f : Nat → Nat → Nat} {p q : Nat}
    (h : intDivForm ty sat i = some (v, quo, f)) (hs : tySigned ty = true)
    (hp : intOf ty p = -(2 ^ (tyBits ty - 1) : Int)) (hq : intOf ty q = -1) :
    intOf ty (f p q % 2 ^ tyBits ty) =
      if quo then (if sat then (2 ^ (tyBits ty - 1) : Int) - 1 else -(2 ^ (tyBits ty - 1) : Int)) else 0 := by
  obtain ⟨rfl, rfl, rfl⟩ | ⟨rfl, rfl, rfl⟩ := intDivForm_cases h
  · rw [Nat.mod_eq_of_lt (intRes_lt _ _ _), hp, hq, Int.tdiv_neg, Int.tdiv_one, Int.neg_neg]
    exact intOf_intRes_two_pow sat hs
  · rw [Nat.mod_eq_of_lt (intCode_lt _ _), hp, hq, Int.tmod_neg, Int.tmod_one, intOf_intCode _ hs, Int.zero_bmod]
    rfl

/-- Settles O30: the model divides by the value of y, which is 0 for the code 0 alone; the corner of −2^(w−1) by −1 is read
back from the result of the form. -/
theorem vectorDivision : Obligations.VectorDivision := by
  intro i v quo f s gid sl g hform h ty occ x y hready hwritable
  obtain ⟨G, hcompletes, hresult, hlast, hkept⟩ := completes_quietBinary h (exec_of_intDivForm hform s)
    (fun _ _ _ _ _ => divLane_quiet _ _ _ _ _) hready hwritable
  have hform_result := hresult.congr fun l _ _ => divLane_of_intDivForm hform (x l) (rawV_lt g ty v.b.toNat l)
  refine ⟨G, hcompletes, hform_result, fun l hl ha hs hx hy => ?_, hlast, hkept⟩
  have hy0 : y l ≠ 0 := fun h0 => by
    rw [(intOf_eq_zero_iff (rawV_lt g ty v.b.toNat l)).mpr h0] at hy
    cases hy
  rw [hform_result.rawV hl ha, if_neg hy0]
  exact intDivForm_overflow hform hs hx hy

end Sys2Proof.Machine
end
